-- ==== Sys2Proof/Word.lean ====
section
/-! DEFINITION. The words of OGGV: bytes, 32-bit register words and the bit patterns of binary32 samples (00_scope.md R14, R21). -/

namespace Sys2Proof

/-- A byte of the input source or of host memory. -/
abbrev Byte := BitVec 8

/-- A 32-bit register, offset or sample position. -/
abbrev Word := BitVec 32

/-- The bit pattern of an IEEE 754 binary32 value (00_scope.md R14). -/
abbrev F32 := BitVec 32

/-- A 16-bit signed element of `finalY` (10_state.md R62). -/
abbrev I16 := BitVec 16

end Sys2Proof
end

