-- ==== Sys2Proof/Machine/Tables.lean ====
section
/-! DEFINITION. The configuration tables an open builds (10_state.md section 4), as plain data.  Absent tables (R52) are empty lists
and zeros. -/

namespace Sys2Proof.Machine

/-- The lookup types of 30_encoding.md R163. -/
inductive LookupType where
  | none
  | lattice
  | direct
  deriving DecidableEq, Repr

/-- A codebook (10_state.md R54).  `lengths[e]` is `none` for NO_CODE; `codewords[e]` holds the canonical codeword of
42_setup.md R300 in its low `lengths[e]` bits and 0 for an entry without a length. -/
structure Codebook where
  dimensions : Nat := 0
  entries : Nat := 0
  lengths : List (Option Nat) := []
  lookupType : LookupType := .none
  minimumValue : F32 := 0
  deltaValue : F32 := 0
  valueBits : Nat := 0
  sequenceP : Bool := false
  lookupValues : Nat := 0
  multiplicands : List Nat := []
  codewords : List Word := []
  deriving DecidableEq, Repr

/-- One partition class of a floor of type 1 (10_state.md R55); `books[k] = -1` means "no book". -/
structure FloorClass where
  dim : Nat := 0
  subclasses : Nat := 0
  masterbook : Nat := 0
  books : List Int := []
  deriving DecidableEq, Repr

/-- A floor of type 1 (10_state.md R55).  `lowNeighbor[j]` and `highNeighbor[j]` are meaningful for j >= 2. -/
structure Floor where
  partitionClass : List Nat := []
  classes : List FloorClass := []
  multiplier : Nat := 0
  rangebits : Nat := 0
  xs : List Nat := []
  sortedOrder : List Nat := []
  lowNeighbor : List Nat := []
  highNeighbor : List Nat := []
  deriving DecidableEq, Repr

/-- `partitions` of 10_state.md R55. -/
def Floor.partitions (f : Floor) : Nat := f.partitionClass.length

/-- `values` of 10_state.md R55. -/
def Floor.values (f : Floor) : Nat := f.xs.length

/-- The residue types of 30_encoding.md R168. -/
inductive ResidueType where
  | type0
  | type1
  | type2
  deriving DecidableEq, Repr

/-- A residue (10_state.md R56); `books[c][pass] = -1` means "no data". -/
structure Residue where
  type : ResidueType := .type0
  first : Nat := 0
  last : Nat := 0
  partSize : Nat := 1
  classifications : Nat := 0
  classbook : Nat := 0
  books : List (List Int) := []
  classdata : List (List Nat) := []
  deriving DecidableEq, Repr

/-- A mapping (10_state.md R57).  `coupling[s]` is (magnitude, angle). -/
structure Mapping where
  submaps : Nat := 0
  coupling : List (Nat × Nat) := []
  mux : List Nat := []
  submapFloor : List Nat := []
  submapResidue : List Nat := []
  deriving DecidableEq, Repr

/-- A mode (10_state.md R58): `long` is blockflag 1. -/
structure ModeEntry where
  long : Bool := false
  mapping : Nat := 0
  deriving DecidableEq, Repr

/-- All configuration tables (10_state.md R53 to R59). -/
structure Tables where
  channels : Nat := 0
  sampleRate : Word := 0
  logBlocksize0 : Nat := 0
  logBlocksize1 : Nat := 0
  bitrateMax : Word := 0
  bitrateNominal : Word := 0
  bitrateMin : Word := 0
  codebooks : List Codebook := []
  floors : List Floor := []
  residues : List Residue := []
  mappings : List Mapping := []
  modes : List ModeEntry := []
  window0 : List F32 := []
  window1 : List F32 := []
  deriving DecidableEq, Repr

/-- No stream opened (10_state.md R52). -/
def Tables.absent : Tables := ⟨0, 0, 0, 0, 0, 0, 0, [], [], [], [], [], [], []⟩

/-- `blocksize[b]` (10_state.md R53). -/
def Tables.blocksize (t : Tables) (long : Bool) : Nat :=
  2 ^ (if long then t.logBlocksize1 else t.logBlocksize0)

/-- The codebook of an index; an index past the table gives a book without entries. -/
def Tables.codebook (t : Tables) (b : Nat) : Codebook := t.codebooks.getD b ⟨0, 0, [], .none, 0, 0, 0, false, 0, [], []⟩

/-- The floor of an index; an index past the table gives a floor without points. -/
def Tables.floor (t : Tables) (i : Nat) : Floor := t.floors.getD i ⟨[], [], 0, 0, [], [], [], []⟩

/-- The residue of an index; an index past the table gives a residue with an empty range. -/
def Tables.residue (t : Tables) (i : Nat) : Residue := t.residues.getD i ⟨.type0, 0, 0, 1, 0, 0, [], []⟩

/-- The mapping of an index; an index past the table gives a mapping without submaps. -/
def Tables.mapping (t : Tables) (i : Nat) : Mapping := t.mappings.getD i ⟨0, [], [], [], []⟩

end Sys2Proof.Machine
end

