-- ==== Sys2Proof/Machine/Position.lean ====
section
/-! DEFINITION. Where a decode stands: the bit reader and the page and packet cursor (10_state.md sections 1 and 2), and the part of
the machine that a seek moves. -/

namespace Sys2Proof.Machine

/-- The bit reader (10_state.md R32 to R34). `validBits = -1` is INVALID_BITS. -/
structure BitReader where
  acc : BitVec 39
  validBits : Int
  packetBytes : Word
  deriving DecidableEq, Repr

/-- The page and packet cursor (10_state.md R35 to R40). -/
structure PageCursor where
  segments : List Byte
  segmentCount : Nat
  nextSeg : Int
  bytesInSeg : Nat
  lastSeg : Bool
  lastSegWhich : Int
  pageFlag : Byte
  pageGranule : BitVec 64
  endSegWithKnownLoc : Int
  knownLocForPacket : Word
  deriving DecidableEq, Repr

/-- Whether the bit reader is in its range (10_state.md R33). -/
def BitReader.inRange (r : BitReader) : Bool := decide (-1 ≤ r.validBits ∧ r.validBits ≤ 39)

/-- Whether the cursor is in its ranges (10_state.md R35 to R40). -/
def PageCursor.inRange (c : PageCursor) : Bool :=
  decide (c.segments.length = 255 ∧ c.segmentCount ≤ 255 ∧ (-1 ≤ c.nextSeg ∧ c.nextSeg ≤ 254) ∧ c.bytesInSeg ≤ 255 ∧
    (-1 ≤ c.lastSegWhich ∧ c.lastSegWhich ≤ 254) ∧ (-2 ≤ c.endSegWithKnownLoc ∧ c.endSegWithKnownLoc ≤ 254))

/-- What a seek moves (48_frame_control.md R548): the position in the input, the sample position and the lap.  Everything else
that decoding writes is written again before it is read (48_frame_control.md R521). -/
structure DecodePoint where
  rd : BitReader
  cur : PageCursor
  pos : Word
  eof : Bool
  pageStart : Word
  firstDecode : Bool
  currentLoc : Word
  discardSamplesDeferred : Nat
  previousLength : Nat
  previousWindow : List (List F32)
  error : Byte
  deriving DecidableEq, Repr

end Sys2Proof.Machine
end

