-- ==== Sys2Proof/Config.lean ====
section
/-! DEFINITION. What an implementation fixes (00_scope.md section 3) and the free values: constants without a body, of which no proof
can know a value. -/

namespace Sys2Proof

/-- The parameters the model takes as arguments: MAX_CHANNELS (00_scope.md R15) and ARENA_BYTES, `none` for an unbounded arena
(00_scope.md R18). -/
structure Config.Params where
  maxChannels : Nat
  arenaBytes : Option Nat
  deriving DecidableEq, Repr

/-- R15's default channel limit and R18's unbounded arena. -/
def Config.Params.default : Config.Params := ⟨16, none⟩

/-- IMDCT_IMPL (00_scope.md R12, 47_imdct_lapping.md R471): sample `i` of the block of size `n` for the given spectrum. -/
opaque Config.imdctSample : Nat → List F32 → Nat → F32

/-- The gaps of INV_DB_TABLE (00_scope.md R13): free numbers from which Machine/Floor.lean builds a table with exactly the
properties 44_floor1.md R392 gives. -/
opaque Config.invDbGap : Nat → Nat

/-- How many bytes a configuration needs (42_setup.md R326); no rule gives sizes. -/
opaque Config.arenaNeed : Machine.Tables → Nat

/-- The bits of the NaN an invalid binary32 operation gives; IEEE 754 (00_scope.md R14) leaves sign and payload open.  The first
argument tells the operations apart. -/
opaque Config.nanChoice : Nat → F32 → F32 → F32

/-- What an i16 element of finalY holds after a value outside i16 is written to it (10_state.md R62). -/
opaque Config.narrowI16 : Int → I16

/-- How many steps a type-0 partition of the given size takes with a book of dimension 0 (45_residue.md R430 divides by it). -/
opaque Config.zeroDimSteps : Nat → Nat

/-- Whether input that ends inside the capture pattern of a page raises `unexpected_eof`, as the prose of 60_exceptions.md R612 and
48_frame_control.md R530 has it, or `missing_capture_pattern`, as the pseudocode of 41_ogg_framer.md R232 and R242 has it
(notes/assumptions/44.md). -/
opaque Config.cutCaptureIsEof : Bool

/-- Whether a source that ends right after a page without segments ends the stream, as the prose of 60_exceptions.md R612 and
48_frame_control.md R530 has it, or raises `missing_capture_pattern`, as the pseudocode of 41_ogg_framer.md R241 has it
(notes/assumptions/45.md). -/
opaque Config.emptyPageIsEnd : Bool

/-- What a reserved sample buffer holds before anything writes it (10_state.md R60, R61, R78): buffer, channel, index. -/
opaque Config.staleSample : Nat → Nat → Nat → F32

/-- What finalY holds before a floor is decoded (10_state.md R62, R78). -/
opaque Config.staleY : Nat → Nat → I16

/-- What the channel flags hold before a floor is decoded (10_state.md R62, R78). -/
opaque Config.staleFlag : Nat → Nat → Bool

/-- Everything a seek policy can look at (00_scope.md R19): the target, the stream length, the seek cache, where the decode stands,
the tables and the source's bytes. -/
structure Config.SeekInput where
  target : Word
  length : Word
  firstPage : Word × Word × Word
  lastPage : Word × Word × Word
  point : Machine.DecodePoint
  currentLocValid : Bool
  tables : Machine.Tables
  source : List Byte

/-- SEEK_POLICY (00_scope.md R19, 48_frame_control.md R548): where the policy leaves the decode, `none` for a policy that fails.
Machine/Seek.lean takes it as a landing only where R548's postcondition holds of it (notes/assumptions/11.md). -/
opaque Config.seekPolicy : Config.SeekInput → Option Machine.DecodePoint

end Sys2Proof
end

