-- ==== Sys2Proof/Machine/Float32.lean ====
section
/-! DEFINITION. ARITH (00_scope.md R14, R23; 43_codebook.md R354): IEEE 754 binary32 on bit patterns, computed exactly in integers
and rounded once to nearest-even.  A finite value is an integer count of 2^-149, so sums are exact before rounding. -/

namespace Sys2Proof.Machine

/-- The sign bit. -/
def f32Sign (x : F32) : Bool := x.getLsbD 31

/-- The exponent field. -/
def f32Exp (x : F32) : Nat := (x.toNat / 2 ^ 23) % 256

/-- The fraction field. -/
def f32Frac (x : F32) : Nat := x.toNat % 2 ^ 23

/-- A NaN: exponent field all ones, fraction nonzero. -/
def f32IsNaN (x : F32) : Bool := f32Exp x == 255 && f32Frac x != 0

/-- An infinity. -/
def f32IsInf (x : F32) : Bool := f32Exp x == 255 && f32Frac x == 0

/-- Plus or minus zero. -/
def f32IsZero (x : F32) : Bool := f32Exp x == 0 && f32Frac x == 0

/-- The significand of a finite value, with its hidden bit. -/
def f32Mant (x : F32) : Nat := if f32Exp x = 0 then f32Frac x else 2 ^ 23 + f32Frac x

/-- The power of two, over 2^-149, that a finite value's significand is scaled by. -/
def f32Shift (x : F32) : Nat := f32Exp x - 1

/-- The magnitude of a finite value in units of 2^-149. -/
def f32Mag (x : F32) : Nat := f32Mant x * 2 ^ f32Shift x

/-- A finite value in units of 2^-149. -/
def f32Units (x : F32) : Int := if f32Sign x then -(f32Mag x : Int) else (f32Mag x : Int)

/-- A zero of the given sign. -/
def f32Zero (neg : Bool) : F32 := if neg then 0x80000000 else 0

/-- An infinity of the given sign. -/
def f32Inf (neg : Bool) : F32 := if neg then 0xFF800000 else 0x7F800000

/-- `m / 2^k` rounded to the nearest integer, ties to even. -/
def roundShift (m k : Nat) : Nat :=
  let q := m / 2 ^ k
  let r := m % 2 ^ k
  if 2 * r < 2 ^ k then q
  else if 2 * r = 2 ^ k then q + q % 2
  else q + 1

/-- `m * 2^(e - 149)` with the given sign, rounded once to nearest-even, infinity on overflow (00_scope.md R23); between half the
smallest subnormal and the smallest subnormal that gives the smallest subnormal (notes/assumptions/35.md).  `q` is the exponent of
the last kept bit over 2^-149. -/
def roundF32 (neg : Bool) (m : Nat) (e : Int) : F32 :=
  if m = 0 then f32Zero neg
  else
    let top := e + (Nat.log2 m : Int)
    let q := if top < 23 then 0 else (top - 23).toNat
    let sig := if (q : Int) ≤ e then m * 2 ^ (e - q).toNat else roundShift m ((q : Int) - e).toNat
    let bits := q * 2 ^ 23 + sig
    if 0x7F800000 ≤ bits then f32Inf neg
    else if neg then BitVec.ofNat 32 (2 ^ 31 + bits) else BitVec.ofNat 32 bits

/-- `ldexp32(m, e)` (00_scope.md R23) for an integer `m`: `m * 2^e` rounded once; a zero `m` gives +0. -/
def ldexp32 (m : Int) (e : Int) : F32 := roundF32 (decide (m < 0)) m.natAbs (e + 149)

/-- `f32(i)`, and `to_f32` of an unsigned multiplicand (00_scope.md R23, 43_codebook.md R354). -/
def f32OfNat (n : Nat) : F32 := roundF32 false n 149

/-- The NaN an operation gives: IEEE 754 leaves its sign and payload open, so its bits are the free value
`Config.nanChoice`, held to be a NaN (notes/assumptions/8.md). -/
def nanResult (op : Nat) (a b : F32) : F32 :=
  let v := Config.nanChoice op a b
  if f32IsNaN v then v else 0x7FC00000

/-- Binary32 addition; `op` only tells the NaN results of `fadd` and `fsub` apart. -/
def addWith (op : Nat) (a b : F32) : F32 :=
  if f32IsNaN a || f32IsNaN b then nanResult op a b
  else if f32IsInf a then (if f32IsInf b && f32Sign a != f32Sign b then nanResult op a b else a)
  else if f32IsInf b then b
  else
    let s := f32Units a + f32Units b
    if s = 0 then f32Zero (f32Sign a && f32Sign b)
    else roundF32 (decide (s < 0)) s.natAbs 0

/-- Binary32 addition (00_scope.md R23). -/
def fadd (a b : F32) : F32 := addWith 0 a b

/-- The value with its sign changed. -/
def fneg (a : F32) : F32 := a ^^^ 0x80000000

/-- Binary32 subtraction (00_scope.md R23). -/
def fsub (a b : F32) : F32 := addWith 1 a (fneg b)

/-- Binary32 multiplication (00_scope.md R23). -/
def fmul (a b : F32) : F32 :=
  let neg := f32Sign a != f32Sign b
  if f32IsNaN a || f32IsNaN b then nanResult 2 a b
  else if f32IsInf a then (if f32IsZero b then nanResult 2 a b else f32Inf neg)
  else if f32IsInf b then (if f32IsZero a then nanResult 2 a b else f32Inf neg)
  else roundF32 neg (f32Mant a * f32Mant b) ((f32Shift a : Int) + (f32Shift b : Int) - 149)

/-- The comparison `x > 0` of 46_coupling.md R462: false for both zeros and for a NaN. -/
def fpos (x : F32) : Bool := !f32Sign x && !f32IsZero x && !f32IsNaN x

end Sys2Proof.Machine
end

