-- ==== Sys2Proof/Syntax.lean ====
section
/-! DEFINITION. The instructions of OGGV, one constructor for each row of spec/opcode_table.json: ten host commands, the reserved
command space, and the fifteen selectors of the bitstream. -/

namespace Sys2Proof

/-- The three header packets, in the order a stream holds them (30_encoding.md R140). -/
inductive HeaderKind where
  | identification
  | comment
  | setup
  deriving DecidableEq, Repr

/-- Where a codebook lookup type is met: as the 4-bit field of the setup header (30_encoding.md R163), or in the codebook
table when a vector is decoded (43_codebook.md R350).  `slots` names, for each vector element the caller wants, the channel and
spectral index it is added to, `none` for an element whose write is dropped (45_residue.md R423). -/
inductive LookupSite where
  | setup
  | vector (book : Nat) (slots : List (Option (Nat × Nat)))
  deriving DecidableEq, Repr

/-- Where floor type 1 is met: as the 16-bit field of the setup header (30_encoding.md R166), or in the floor table when the
floor of a channel is decoded (44_floor1.md R383). -/
inductive FloorSite where
  | setup
  | decode (channel : Nat) (floor : Nat)
  deriving DecidableEq, Repr

/-- Where a residue type is met: as the 16-bit field of the setup header (30_encoding.md R168), or in the residue table when
the residue of one submap of a mapping is decoded for a short or a long block (45_residue.md R420). -/
inductive ResidueSite where
  | setup
  | decode (long : Bool) (mapping : Nat) (submap : Nat)
  deriving DecidableEq, Repr

/-- The instructions: one constructor for each row of spec/opcode_table.json.  Host commands take their operands from ARG0 and
ARG1 (30_encoding.md R120), so they carry none; `illegalCommand` carries the word written to CMD. -/
inductive Instr where
  | openPull
  | openPush
  | pushDecode
  | decodeFrame
  | getInfo
  | seek
  | seekStart
  | streamLength
  | getError
  | close
  | illegalCommand (word : Word)
  | oggPage
  | hdrIdentification
  | hdrComment
  | hdrSetup
  | audioPacket
  | badPacketType
  | lookupNone (site : LookupSite)
  | lookupLattice (site : LookupSite)
  | lookupDirect (site : LookupSite)
  | floorType0
  | floorType1 (site : FloorSite)
  | residueType0 (site : ResidueSite)
  | residueType1 (site : ResidueSite)
  | residueType2 (site : ResidueSite)
  | mappingType0
  deriving DecidableEq, Repr

/-- The points at which the block reads a bitstream selector: a page boundary, a header packet's first byte, an audio packet's
first bit, and the type fields. -/
inductive StreamPoint where
  | page
  | header (expected : HeaderKind)
  | audio
  | lookup (site : LookupSite)
  | floor (site : FloorSite)
  | residue (site : ResidueSite)
  | mapping
  deriving DecidableEq, Repr

/-- Where an instruction is read: a CMD write, or a point of the bitstream.  The same bits mean different instructions at
different points, so decoding takes the point as an argument. -/
inductive Context where
  | cmd
  | stream (point : StreamPoint)
  deriving DecidableEq, Repr

end Sys2Proof
end

