-- ==== Sys2Proof/WellFormed.lean ====
section
/-! DEFINITION. Which instructions have an encoding: the reserved command space holds exactly the words of 30_encoding.md R122,
and the indices a datapath step carries lie inside the sizes of 00_scope.md R20 and 10_state.md R77. -/

namespace Sys2Proof

/-- A CMD word that selects no command: a nonzero RSVD field, or opcode 0x00 or 0x0B to 0xFF (30_encoding.md R122). -/
def reservedWord (w : Word) : Bool :=
  w.toNat == 0 || 10 < w.toNat

/-- A codebook index is 8 bits wide, a channel is below 256 and a spectral index below 8192 (00_scope.md R20, 10_state.md
R53, R77). -/
def LookupSite.wf : LookupSite → Bool
  | .setup => true
  | .vector book slots =>
    decide (book < 256) &&
      slots.all fun slot => match slot with
        | none => true
        | some (ch, idx) => decide (ch < 256) && decide (idx < 8192)

/-- A floor index is below 64 (00_scope.md R20). -/
def FloorSite.wf : FloorSite → Bool
  | .setup => true
  | .decode channel floor => decide (channel < 256) && decide (floor < 64)

/-- A mapping index is below 64, a submap below 16 (00_scope.md R20). -/
def ResidueSite.wf : ResidueSite → Bool
  | .setup => true
  | .decode _ mapping submap => decide (mapping < 64) && decide (submap < 16)

/-- Well-formedness of an instruction. -/
def Instr.wf : Instr → Bool
  | .illegalCommand w => reservedWord w
  | .lookupNone site => site.wf
  | .lookupLattice site => site.wf
  | .lookupDirect site => site.wf
  | .floorType1 site => site.wf
  | .residueType0 site => site.wf
  | .residueType1 site => site.wf
  | .residueType2 site => site.wf
  | .openPull | .openPush | .pushDecode | .decodeFrame | .getInfo | .seek | .seekStart | .streamLength
  | .getError | .close | .oggPage | .hdrIdentification | .hdrComment | .hdrSetup | .audioPacket
  | .badPacketType | .floorType0 | .mappingType0 => true

/-- The instructions the round trip of the encoding holds for. -/
abbrev WellFormed (i : Instr) : Prop := i.wf = true

end Sys2Proof
end

