-- ==== Sys2Proof/Decode.lean ====
section
/-! DEFINITION. Decoding a selector at a point of the machine, total on any bits and rejecting by name, and the encoder beside
it: both written from the match values of spec/opcode_table.json and 30_encoding.md R120 to R197. -/

namespace Sys2Proof

/-- Why the bits read at a point select no instruction; each names the rule that says what the block does then. -/
inductive Reject where
  /-- Not "OggS" (41_ogg_framer.md R231, 30_encoding.md R190). -/
  | captureMismatch
  /-- Not the packet type of the expected header (30_encoding.md R191). -/
  | wrongHeaderType (expected : HeaderKind)
  /-- lookup_type 3 to 15 (30_encoding.md R192). -/
  | reservedLookupType
  /-- floor_type 2 to 65535 (30_encoding.md R192). -/
  | reservedFloorType
  /-- residue type 3 to 65535 (30_encoding.md R192). -/
  | reservedResidueType
  /-- mapping_type other than 0 (30_encoding.md R192). -/
  | reservedMappingType
  deriving DecidableEq, Repr

/-- "OggS" read as a little-endian 32-bit number (30_encoding.md R130). -/
def captureWord : Nat := 0x5367674F

/-- How many low bits of the number are the selector's at a point of the bitstream. -/
def StreamPoint.width : StreamPoint → Nat
  | .page => 32
  | .header _ => 8
  | .audio => 1
  | .lookup _ => 4
  | .floor _ => 16
  | .residue _ => 16
  | .mapping => 16

/-- How many low bits of the number are the instruction's. -/
def Context.width : Context → Nat
  | .cmd => 32
  | .stream p => p.width

/-- The packet type byte of a header (30_encoding.md R140). -/
def HeaderKind.typeByte : HeaderKind → Nat
  | .identification => 1
  | .comment => 3
  | .setup => 5

/-- The header instruction of a kind. -/
def HeaderKind.instr : HeaderKind → Instr
  | .identification => .hdrIdentification
  | .comment => .hdrComment
  | .setup => .hdrSetup

/-- The command of a CMD word (30_encoding.md R120 to R122); every other word is the reserved space. -/
def decodeCmd (w : Word) : Instr :=
  match w.toNat with
  | 1 => .openPull
  | 2 => .openPush
  | 3 => .pushDecode
  | 4 => .decodeFrame
  | 5 => .getInfo
  | 6 => .seek
  | 7 => .seekStart
  | 8 => .streamLength
  | 9 => .getError
  | 10 => .close
  | _ => .illegalCommand w

/-- A codebook's lookup type (30_encoding.md R163). -/
def decodeLookup (site : LookupSite) (v : Nat) : Except Reject Instr :=
  match v with
  | 0 => .ok (.lookupNone site)
  | 1 => .ok (.lookupLattice site)
  | 2 => .ok (.lookupDirect site)
  | _ => .error .reservedLookupType

/-- A floor's type (30_encoding.md R166); the floor table never stores a type 0 floor (10_state.md R55), so where a floor is
decoded that value is reserved too. -/
def decodeFloor (site : FloorSite) (v : Nat) : Except Reject Instr :=
  match v, site with
  | 0, .setup => .ok .floorType0
  | 1, site => .ok (.floorType1 site)
  | _, _ => .error .reservedFloorType

/-- A residue's type (30_encoding.md R168). -/
def decodeResidue (site : ResidueSite) (v : Nat) : Except Reject Instr :=
  match v with
  | 0 => .ok (.residueType0 site)
  | 1 => .ok (.residueType1 site)
  | 2 => .ok (.residueType2 site)
  | _ => .error .reservedResidueType

/-- The instruction a selector's value stands for at a point of the bitstream. -/
def decodePoint (p : StreamPoint) (v : Nat) : Except Reject Instr :=
  match p with
  | .page => if v = captureWord then .ok .oggPage else .error .captureMismatch
  | .header k => if v = k.typeByte then .ok k.instr else .error (.wrongHeaderType k)
  | .audio => if v = 0 then .ok .audioPacket else .ok .badPacketType
  | .lookup site => decodeLookup site v
  | .floor site => decodeFloor site v
  | .residue site => decodeResidue site v
  | .mapping => if v = 0 then .ok .mappingType0 else .error .reservedMappingType

/-- The instruction the low bits of `v` select where they are read; the bits above the selector's width are not its own. -/
def decode (c : Context) (v : Nat) : Except Reject Instr :=
  match c with
  | .cmd => .ok (decodeCmd (BitVec.ofNat 32 v))
  | .stream p => decodePoint p (v % 2 ^ p.width)

/-- Where an instruction is read. -/
def contextOf : Instr → Context
  | .openPull | .openPush | .pushDecode | .decodeFrame | .getInfo | .seek | .seekStart | .streamLength
  | .getError | .close | .illegalCommand _ => .cmd
  | .oggPage => .stream .page
  | .hdrIdentification => .stream (.header .identification)
  | .hdrComment => .stream (.header .comment)
  | .hdrSetup => .stream (.header .setup)
  | .audioPacket | .badPacketType => .stream .audio
  | .lookupNone site | .lookupLattice site | .lookupDirect site => .stream (.lookup site)
  | .floorType0 => .stream (.floor .setup)
  | .floorType1 site => .stream (.floor site)
  | .residueType0 site | .residueType1 site | .residueType2 site => .stream (.residue site)
  | .mappingType0 => .stream .mapping

/-- The bits of an instruction, as spec/opcode_table.json's match column gives them. -/
def encode : Instr → Nat
  | .openPull => 0x00000001
  | .openPush => 0x00000002
  | .pushDecode => 0x00000003
  | .decodeFrame => 0x00000004
  | .getInfo => 0x00000005
  | .seek => 0x00000006
  | .seekStart => 0x00000007
  | .streamLength => 0x00000008
  | .getError => 0x00000009
  | .close => 0x0000000A
  | .illegalCommand w => w.toNat
  | .oggPage => 0x5367674F
  | .hdrIdentification => 0x01
  | .hdrComment => 0x03
  | .hdrSetup => 0x05
  | .audioPacket => 0x0
  | .badPacketType => 0x1
  | .lookupNone _ => 0x0
  | .lookupLattice _ => 0x1
  | .lookupDirect _ => 0x2
  | .floorType0 => 0x0000
  | .floorType1 _ => 0x0001
  | .residueType0 _ => 0x0000
  | .residueType1 _ => 0x0001
  | .residueType2 _ => 0x0002
  | .mappingType0 => 0x0000

/-- The point of the machine at which a word of the table is read when nothing but its bits is given.  Several rows share one
word (a packet's first bit, a header's type byte and a 4-bit type field are all read from one byte), so one of them is taken:
DESIGN CHOICE, notes/assumptions/5.md. -/
def tableContext (nbits w : Nat) : Context :=
  if 17 ≤ nbits then (if w = captureWord then .stream .page else .cmd)
  else if 9 ≤ nbits then (if w = 2 then .stream (.residue .setup) else .stream (.floor .setup))
  else if w = 1 then .stream (.header .identification)
  else if w = 2 then .stream (.lookup .setup)
  else if w = 3 then .stream (.header .comment)
  else if w = 5 then .stream (.header .setup)
  else .stream .audio

/-- The instruction the decoder reads from a word of the opcode table. -/
def decodeTableWord (nbits w : Nat) : Option Instr :=
  (decode (tableContext nbits w) w).toOption

end Sys2Proof
end

