-- ==== Sys2Proof/Machine/State.lean ====
section
/-! DEFINITION. The state of OGGV (10_state.md), the reasons a step stops, and the state after reset (70_reset_and_hazards.md
R701). -/

namespace Sys2Proof.Machine

/-- The top-level state (10_state.md R43). -/
inductive TopState where
  | closed
  | awaitingHeaders
  | decoding
  | eof
  | error
  deriving DecidableEq, Repr

/-- Which API opened the block (10_state.md R44). -/
inductive Api where
  | none
  | pull
  | push
  deriving DecidableEq, Repr

/-- STATUS.RESULT (10_state.md R65). -/
inductive Result where
  | none
  | ok
  | eof
  | needMoreData
  | error
  deriving DecidableEq, Repr

/-- `total_samples_known` (10_state.md R50). -/
inductive LengthKnown where
  | unknown
  | known
  | notComputed
  deriving DecidableEq, Repr

/-- The input source (20_memory.md R90, R91; 10_state.md R41, R42): the window `base .. base+len-1` of host memory, the position
in it and the sticky end flag.  `pageStart` is the offset at which a page was last looked for, which the recovery of
48_frame_control.md R531 starts from (notes/assumptions/16.md). -/
structure Source where
  base : Word
  len : Word
  pos : Word
  eof : Bool
  firstAudioPageOffset : Word
  pageStart : Word
  deriving DecidableEq, Repr

/-- A probed page (10_state.md R51). -/
structure ProbedPage where
  pageStart : Word
  pageEnd : Word
  lastDecodedSample : Word
  deriving DecidableEq, Repr

/-- Control and sequencing state (10_state.md R43 to R51, R63, R80).  `setupEndsPage` is the fact of 42_setup.md R330 that SEEK
and SEEK_START test (notes/assumptions/16.md). -/
structure Control where
  state : TopState
  api : Api
  firstDecode : Bool
  currentLoc : Word
  currentLocValid : Bool
  discardSamplesDeferred : Nat
  previousLength : Nat
  error : Byte
  totalSamples : Word
  totalSamplesKnown : LengthKnown
  pFirst : ProbedPage
  pLast : ProbedPage
  resync : Bool
  setupEndsPage : Bool
  outLeft : Nat
  outLen : Nat
  deriving DecidableEq, Repr

/-- Per-channel working state (10_state.md R60 to R62).  What `finalY` and the two flags hold between frames, which R62 leaves
unspecified, is what the last frame left: a DESIGN CHOICE (notes/assumptions/42.md). -/
structure Work where
  channelBuffer : List (List F32)
  previousWindow : List (List F32)
  finalY : List (List I16)
  zeroChannel : List Bool
  reallyZeroChannel : List Bool
  deriving DecidableEq, Repr

/-- The registers the host sees that are not views of other state (10_state.md R65, R67, R68). -/
structure HostRegs where
  arg0 : Word
  arg1 : Word
  ret0 : Word
  ret1 : Word
  ret2 : Word
  result : Result
  deriving DecidableEq, Repr

/-- What the block may be served next, in program order (20_memory.md R103): a host register access (`bytes` is its width), a
host write to its own memory (20_memory.md R105), the hardware reset (70_reset_and_hazards.md R700), or the model's own
datapath step, which reads one bitstream selector at a point of the machine and runs it (notes/assumptions/4.md). -/
inductive Event where
  | regWrite (offset : Nat) (bytes : Nat) (value : Word)
  | regRead (offset : Nat) (bytes : Nat)
  | memWrite (address : Word) (value : Byte)
  | hardReset
  | element (point : StreamPoint)
  deriving DecidableEq, Repr

/-- The whole machine. -/
structure State where
  rd : BitReader
  cur : PageCursor
  src : Source
  ctl : Control
  tab : Tables
  work : Work
  regs : HostRegs
  mem : List Host.Cell
  pending : List Event
  readData : Word
  params : Config.Params
  deriving DecidableEq, Repr

/-- Faults: the model stops although the block would do something no rule states. -/
inductive Fault where
  /-- Raised by a register access (Machine/Fetch.lean) at an offset outside the register space (20_memory.md R90: past 0x1FFFFF and
  past the PCM window of 10_state.md R77).  Safe: the model stops. -/
  | unmappedOffset
  /-- Raised by a datapath step (Machine/Elements.lean) whose operand names a table entry that does not exist; no command makes
  such a step (43_codebook.md R340).  Safe: the model stops. -/
  | operandOutsideTables
  deriving DecidableEq, Repr

/-- Refusals: no meaning is given. -/
inductive Refusal where
  /-- Raised by an arm of exec that has no meaning yet.  Safe: the model stops. -/
  | notModelled (mnemonic : String)
  /-- Raised by a register access that is not 32 bits wide or not 4-byte aligned: 20_memory.md R99 refuses it.  Safe: the model
  stops. -/
  | registerAccess
  deriving DecidableEq, Repr

/-- The bit reader after reset (10_state.md R32 to R34). -/
def BitReader.reset : BitReader := ⟨0, 0, 0⟩

/-- The cursor after reset (10_state.md R35 to R40); the bytes of `segments` are a DESIGN CHOICE (notes/assumptions/6.md). -/
def PageCursor.reset : PageCursor := ⟨List.replicate 255 0, 0, -1, 0, false, -1, 0, 0, -2, 0⟩

/-- The source after reset (10_state.md R41, R42). -/
def Source.reset : Source := ⟨0, 0, 0, false, 0, 0⟩

/-- A probed page after reset (10_state.md R51). -/
def ProbedPage.reset : ProbedPage := ⟨0, 0, 0⟩

/-- The control state after reset (10_state.md R43 to R51, R63, R80). -/
def Control.reset : Control :=
  ⟨.closed, .none, true, 0, false, 0, 0, 0, 0, .notComputed, ProbedPage.reset, ProbedPage.reset, false, false, 0, 0⟩

/-- No buffer reserved (10_state.md R60 to R62; notes/assumptions/6.md). -/
def Work.reset : Work := ⟨[], [], [], [], []⟩

/-- The host registers after reset (10_state.md R64 to R68). -/
def HostRegs.reset : HostRegs := ⟨0, 0, 0, 0, 0, .none⟩

/-- The machine right after reset (70_reset_and_hazards.md R701), with no access pending and nothing in host memory. -/
def State.reset : State :=
  ⟨BitReader.reset, PageCursor.reset, Source.reset, Control.reset, Tables.absent, Work.reset, HostRegs.reset, [], [], 0,
    Config.Params.default⟩

end Sys2Proof.Machine
end

