-- ==== Sys2Proof/Machine/Operands.lean ====
section
/-! DEFINITION. Assembling operands: the helper functions the field rules use (00_scope.md R25, 30_encoding.md R164, 42_setup.md
R296, R318), byte assembly (20_memory.md R95, R96) and the values the read-only registers show (10_state.md R65 to R77). -/

namespace Sys2Proof.Machine

/-- `ilog(v)`: the number of bits needed to write `v` (00_scope.md R25). -/
def ilog (v : Nat) : Nat := if v = 0 then 0 else Nat.log2 v + 1

/-- `float32_unpack(x)` of a 32-bit field (30_encoding.md R164). -/
def float32Unpack (x : Nat) : F32 :=
  let mantissa : Int := ((x % 2 ^ 21 : Nat) : Int)
  let exponent : Int := (((x / 2 ^ 21) % 2 ^ 10 : Nat) : Int)
  ldexp32 (if (x / 2 ^ 31) % 2 = 1 then -mantissa else mantissa) (exponent - 788)

/-- One bit of the root search: keep the candidate when its power does not pass `entries`. -/
def rootStep (entries dim r b : Nat) : Nat :=
  if (r + 2 ^ b) ^ dim ≤ entries then r + 2 ^ b else r

/-- `lookup1_values(entries, dim)`: the greatest r with `r^dim <= entries` (42_setup.md R296).  `entries` has 24 bits, so the
root has at most 24, searched from the highest bit down. -/
def lookup1Values (entries dim : Nat) : Nat :=
  if dim = 0 then 0
  else (List.range 25).reverse.foldl (rootStep entries dim) 0

/-- The base-`classifications` digits of `q`, most significant first, `classwords` of them (42_setup.md R318). -/
def classDigits (classifications : Nat) : Nat → Nat → List Nat
  | 0, _ => []
  | k + 1, q => classDigits classifications k (q / classifications) ++ [q % classifications]

/-- A list of bytes as a little-endian number (20_memory.md R95). -/
def leNat : List Byte → Nat
  | [] => 0
  | b :: bs => b.toNat + 256 * leNat bs

/-- The STATE code of STATUS (10_state.md R65). -/
def TopState.code : TopState → BitVec 3
  | .closed => 0
  | .awaitingHeaders => 1
  | .decoding => 2
  | .eof => 3
  | .error => 4

/-- The API code of STATUS (10_state.md R65). -/
def Api.code : Api → BitVec 2
  | .none => 0
  | .pull => 1
  | .push => 2

/-- The RESULT code of STATUS (10_state.md R65). -/
def Result.code : Result → BitVec 3
  | .none => 0
  | .ok => 1
  | .eof => 2
  | .needMoreData => 3
  | .error => 4

/-- STATUS (10_state.md R65): LOC_VALID, RESULT, API, STATE from bit 8 down. -/
def State.status (s : State) : Word :=
  (BitVec.ofBool s.ctl.currentLocValid ++ s.regs.result.code ++ s.ctl.api.code ++ s.ctl.state.code).zeroExtend 32

/-- ERROR (10_state.md R66). -/
def State.errorReg (s : State) : Word := s.ctl.error.zeroExtend 32

/-- The INFO registers are valid in DECODING and EOF and read 0 otherwise (10_state.md R69, 48_frame_control.md R512). -/
def State.infoValid (s : State) : Bool := s.ctl.state == .decoding || s.ctl.state == .eof

/-- `max_frame_size = BLOCKSIZE_1 >> 1` (10_state.md R72). -/
def Tables.maxFrame (t : Tables) : Nat := t.blocksize true / 2

/-- INFO_CHANNELS (10_state.md R69). -/
def State.infoChannels (s : State) : Word := if s.infoValid then BitVec.ofNat 32 s.tab.channels else 0

/-- INFO_SAMPLE_RATE (10_state.md R70). -/
def State.infoSampleRate (s : State) : Word := if s.infoValid then s.tab.sampleRate else 0

/-- INFO_BLOCKSIZE (10_state.md R71). -/
def State.infoBlocksize (s : State) : Word :=
  if s.infoValid then BitVec.ofNat 32 (s.tab.logBlocksize0 % 16 + 16 * (s.tab.logBlocksize1 % 16)) else 0

/-- INFO_MAX_FRAME (10_state.md R72). -/
def State.infoMaxFrame (s : State) : Word := if s.infoValid then BitVec.ofNat 32 s.tab.maxFrame else 0

/-- STREAM_LENGTH (10_state.md R74). -/
def State.streamLengthReg (s : State) : Word :=
  if s.ctl.totalSamplesKnown = .known then s.ctl.totalSamples else 0

/-- The PCM word of channel `c` and sample `j` (10_state.md R77). -/
def State.pcmWord (s : State) (c j : Nat) : Word :=
  if c < s.tab.channels ∧ j < s.ctl.outLen then ((s.work.channelBuffer.getD c []).getD (s.ctl.outLeft + j) 0) else 0

/-- The first offset past the PCM window (10_state.md R77). -/
def State.pcmEnd (s : State) : Nat := 0x100000 + s.params.maxChannels * 0x8000

/-- Whether the register space holds an offset: 0x000000 to 0x1FFFFF (20_memory.md R90), and the PCM window where MAX_CHANNELS takes
it further (10_state.md R77). -/
def State.offsetMapped (s : State) (offset : Nat) : Bool := decide (offset < 0x200000) || decide (offset < s.pcmEnd)

/-- What a host read of a mapped offset returns (10_state.md R64 to R77), 0 after the PCM window (92_eei_decisions.md D2); no read has
a side effect (20_memory.md R100). -/
def State.readReg (s : State) (offset : Nat) : Word :=
  if s.pcmEnd ≤ offset then 0
  else if 0x100000 ≤ offset then s.pcmWord ((offset - 0x100000) / 0x8000) ((offset - 0x100000) % 0x8000 / 4)
  else match offset with
    | 0x000 => 0
    | 0x004 => s.status
    | 0x008 => s.errorReg
    | 0x00C => s.regs.arg0
    | 0x010 => s.regs.arg1
    | 0x014 => s.regs.ret0
    | 0x018 => s.regs.ret1
    | 0x01C => s.regs.ret2
    | 0x020 => s.infoChannels
    | 0x024 => s.infoSampleRate
    | 0x028 => s.infoBlocksize
    | 0x02C => s.infoMaxFrame
    | 0x030 => s.ctl.currentLoc
    | 0x034 => s.streamLengthReg
    | _ => 0

end Sys2Proof.Machine
end

