-- ==== Sys2Proof/Machine/Flags.lean ====
section
/-! DEFINITION. Error codes and their classes (60_exceptions.md R600, R601), the page flags (30_encoding.md R131) and which command is
allowed where (48_frame_control.md R562). -/

namespace Sys2Proof.Machine

/-- The error codes of 60_exceptions.md R601, except 0 (no error). -/
inductive ErrCode where
  | needMoreData
  | invalidApiMixing
  | outOfMem
  | featureNotSupported
  | tooManyChannels
  | fileOpenFailure
  | seekWithoutLength
  | unexpectedEof
  | seekInvalid
  | invalidSetup
  | invalidStream
  | missingCapturePattern
  | invalidStreamStructureVersion
  | continuedPacketFlagInvalid
  | incorrectStreamSerialNumber
  | invalidFirstPage
  | badPacketType
  | cantFindLastPage
  | seekFailed
  | oggSkeletonNotSupported
  | illegalCommand
  deriving DecidableEq, Repr

/-- The number of an error code (60_exceptions.md R601). -/
def ErrCode.code : ErrCode → Byte
  | .needMoreData => 1
  | .invalidApiMixing => 2
  | .outOfMem => 3
  | .featureNotSupported => 4
  | .tooManyChannels => 5
  | .fileOpenFailure => 6
  | .seekWithoutLength => 7
  | .unexpectedEof => 10
  | .seekInvalid => 11
  | .invalidSetup => 20
  | .invalidStream => 21
  | .missingCapturePattern => 30
  | .invalidStreamStructureVersion => 31
  | .continuedPacketFlagInvalid => 32
  | .incorrectStreamSerialNumber => 33
  | .invalidFirstPage => 34
  | .badPacketType => 35
  | .cantFindLastPage => 36
  | .seekFailed => 37
  | .oggSkeletonNotSupported => 38
  | .illegalCommand => 64

/-- The classes (a), (b), (c), (d), (e), (s) of 60_exceptions.md R600. -/
inductive ErrClass where
  | setup
  | stream
  | resource
  | misuse
  | command
  | signal
  deriving DecidableEq, Repr

/-- Whether headers are being read, where framer errors are of class (a) (60_exceptions.md R601, R602). -/
def State.inHeaders (s : State) : Bool := s.ctl.state == .closed || s.ctl.state == .awaitingHeaders

/-- The class of a code (60_exceptions.md R601), which for the framer's codes depends on whether headers are being read
(R602). -/
def ErrCode.classIn (headers : Bool) : ErrCode → ErrClass
  | .needMoreData => .signal
  | .invalidApiMixing => .misuse
  | .outOfMem => .resource
  | .featureNotSupported | .tooManyChannels | .invalidSetup | .invalidFirstPage | .oggSkeletonNotSupported => .setup
  | .seekWithoutLength | .seekInvalid | .seekFailed | .illegalCommand => .command
  | .unexpectedEof | .invalidStream | .missingCapturePattern | .invalidStreamStructureVersion
  | .continuedPacketFlagInvalid | .badPacketType | .cantFindLastPage | .fileOpenFailure
  | .incorrectStreamSerialNumber => if headers then .setup else .stream

/-- `F[0]`: the page continues a packet (30_encoding.md R131). -/
def pageContinued (f : Byte) : Bool := f.getLsbD 0

/-- `F[1]`: the first page of the stream (30_encoding.md R131). -/
def pageFirst (f : Byte) : Bool := f.getLsbD 1

/-- `F[2]`: the last page of the stream (30_encoding.md R131). -/
def pageLast (f : Byte) : Bool := f.getLsbD 2

/-- The columns of the legality table (48_frame_control.md R562) for one command: the states that allow it. -/
def commandAllowed (i : Instr) (st : TopState) : Bool :=
  match i with
  | .openPull => st == .closed
  | .openPush => st == .closed || st == .awaitingHeaders
  | .pushDecode => st == .decoding
  | .decodeFrame | .getInfo | .seek | .seekStart | .streamLength => st == .decoding || st == .eof
  | .getError | .close => true
  | _ => false

/-- The api a command needs, where the legality table names one (48_frame_control.md R562, 60_exceptions.md R606). -/
def commandApi (i : Instr) : Option Api :=
  match i with
  | .pushDecode => some .push
  | .decodeFrame | .seek | .seekStart | .streamLength => some .pull
  | _ => none

end Sys2Proof.Machine
end

