-- ==== Sys2Proof/Machine/Ops.lean ====
section
/-! DEFINITION. The shared operations: host memory, the byte source, notes and the one operation that takes an error
(60_exceptions.md R604), and the monad the datapath steps are written in. -/

namespace Sys2Proof.Machine

/-! ### Host memory -/

/-- What a byte of host memory that nothing has written reads as: DESIGN CHOICE (notes/assumptions/1.md). -/
def Memory.unlisted : Byte := 0

/-- One byte of host memory (20_memory.md R95). -/
def Memory.read : List Host.Cell → Nat → Byte
  | [], _ => Memory.unlisted
  | (k, b) :: rest, a => if a = k then b else Memory.read rest a

/-- Store one byte, keeping addresses rising and no entry equal to what an unlisted byte reads as. -/
def Memory.write : List Host.Cell → Nat → Byte → List Host.Cell
  | [], a, v => if v = Memory.unlisted then [] else [(a, v)]
  | (k, b) :: rest, a, v =>
    if a < k then (if v = Memory.unlisted then (k, b) :: rest else (a, v) :: (k, b) :: rest)
    else if a = k then (if v = Memory.unlisted then rest else (a, v) :: rest)
    else (k, b) :: Memory.write rest a v

/-- Every address of the list is above `a`. -/
def Memory.above (a : Nat) (m : List Host.Cell) : Bool := m.all fun c => decide (a < c.1)

/-- The canonical form: addresses strictly rising, no entry equal to what an unlisted byte reads as. -/
def Memory.wf : List Host.Cell → Bool
  | [] => true
  | (k, b) :: rest => b != Memory.unlisted && Memory.above k rest && Memory.wf rest

/-- Store a run of bytes at successive 32-bit addresses. -/
def Memory.writeBytes (m : List Host.Cell) (a : Word) : List Byte → List Host.Cell
  | [] => m
  | b :: bs => Memory.writeBytes (Memory.write m a.toNat b) (a + 1) bs

/-- `SRC[i]` (20_memory.md R91): host addresses have 32 bits and wrap (notes/assumptions/2.md). -/
def State.srcByte (s : State) (i : Word) : Byte := Memory.read s.mem (s.src.base + i).toNat

/-- The whole input source as a list, for a seek policy to look at (00_scope.md R19). -/
def State.srcBytes (s : State) : List Byte :=
  (List.range s.src.len.toNat).map fun i => s.srcByte (BitVec.ofNat 32 i)

/-! ### Registers -/

/-- A host write to a mapped offset other than CMD (10_state.md R67, R75, R77): only ARG0 and ARG1 take it. -/
def State.writeReg (offset : Nat) (v : Word) (s : State) : State :=
  if offset = 0x00C then { s with regs.arg0 := v }
  else if offset = 0x010 then { s with regs.arg1 := v }
  else s

/-- Every element at its reset value except what is not the block's: host memory, the accesses still pending, the host's
latched read and the parameters (70_reset_and_hazards.md R700, R701; notes/assumptions/28.md). -/
def State.hardReset (s : State) : State :=
  { State.reset with mem := s.mem, pending := s.pending, readData := s.readData, params := s.params }

/-! ### Errors -/

/-- Discard the configuration tables (60_exceptions.md R602). -/
def State.discardTables (s : State) : State := { s with tab := Tables.absent }

/-- `enter_resync()` (48_frame_control.md R542). -/
def State.enterResync (s : State) : State :=
  { s with
    ctl.resync := true, ctl.previousLength := 0, ctl.discardSamplesDeferred := 0,
    ctl.currentLocValid := false, ctl.firstDecode := false, ctl.outLen := 0 }

/-- Set the pending code (10_state.md R49; 60_exceptions.md R608: one code, the latest). -/
def State.setError (e : ErrCode) (s : State) : State := { s with ctl.error := e.code }

/-- Set STATUS.RESULT (10_state.md R65). -/
def State.setResult (r : Result) (s : State) : State := { s with regs.result := r }

/-- TAKING AN ERROR: what `raise E` does to the machine, by the class of the code (60_exceptions.md R604).  Where a rule
repositions the input first (R523, R531), `failFrame` of Machine/Frame.lean does that and then takes the error.  Misuse leaves the
PCM window as it was (notes/assumptions/38.md). -/
def takeError (e : ErrCode) (s : State) : State :=
  match e.classIn s.inHeaders with
  | .setup | .resource => { ((s.setError e).setResult .error).discardTables with ctl.state := .error }
  | .stream =>
    let t := (s.setError e).setResult .error
    if s.ctl.api = .push then t.enterResync
    else if e = .unexpectedEof ∧ s.ctl.state = .decoding then { t with ctl.state := .eof } else t
  | .misuse => { (s.setError e).setResult .error with ctl.state := .error }
  | .command => (s.setError e).setResult .error
  | .signal => { (s.setError e).setResult .needMoreData with regs.ret0 := 0 }

/-! ### The monad of the datapath steps -/

/-- A datapath step: it changes the state and returns a value or raises a code; a raise undoes nothing
(60_exceptions.md R609). -/
abbrev M (α : Type) := EStateM ErrCode State α

/-- `raise E` (00_scope.md R24). -/
def raise {α : Type} (e : ErrCode) : M α := throw e

/-- `note E` (00_scope.md R24, 60_exceptions.md R605). -/
def note (e : ErrCode) : M Unit := modify (State.setError e)

/-- Change the bit reader. -/
def setReader (f : BitReader → BitReader) : M Unit := modify fun s => { s with rd := f s.rd }

/-- Change the cursor. -/
def setCursor (f : PageCursor → PageCursor) : M Unit := modify fun s => { s with cur := f s.cur }

/-- Change the source's position fields. -/
def setSource (f : Source → Source) : M Unit := modify fun s => { s with src := f s.src }

/-- Change the control state. -/
def setControl (f : Control → Control) : M Unit := modify fun s => { s with ctl := f s.ctl }

/-- Change the configuration tables. -/
def setTables (f : Tables → Tables) : M Unit := modify fun s => { s with tab := f s.tab }

/-- Change the per-channel working state. -/
def setWork (f : Work → Work) : M Unit := modify fun s => { s with work := f s.work }

/-- Read `count` values with one step each. -/
def readMany {α : Type} (one : M α) : Nat → M (List α)
  | 0 => pure []
  | n + 1 => do
    let x ← one
    let xs ← readMany one n
    pure (x :: xs)

/-- Run a step for each element of a list, in order. -/
def forEach {α : Type} (step : α → M Unit) : List α → M Unit
  | [] => pure ()
  | x :: xs => do
    step x
    forEach step xs

/-- Read a value when a flag is set, else take a default and read nothing. -/
def readIf {α : Type} (flag : Bool) (m : M α) (default : α) : M α := if flag then m else pure default

/-- `try f()` (00_scope.md R24): a raise inside becomes a returned failure. -/
def attempt {α : Type} (m : M α) : M (Except ErrCode α) := fun s =>
  match m s with
  | .ok a t => .ok (.ok a) t
  | .error e t => .ok (.error e) t

/-! ### The byte source -/

/-- `InByte()` (20_memory.md R93). -/
def inByte : M Byte := do
  let s ← get
  if s.src.len ≤ s.src.pos then
    setSource fun v => { v with eof := true }
    pure 0
  else
    setSource fun v => { v with pos := v.pos + 1 }
    pure (s.srcByte s.src.pos)

/-- The operand of `SetPos` for the offset `k` bytes after `p`.  20_memory.md R94 takes 32 bits and no rule says what a sum past them
becomes; it lies past the end of every source (00_scope.md R16), so it stays at the greatest offset, which `SetPos` takes to the end
(DEDUCED, notes/assumptions/41.md). -/
def offsetPlus (p : Word) (k : Nat) : Word := BitVec.ofNat 32 (min (p.toNat + k) (2 ^ 32 - 1))

/-- `SetPos(p)` (20_memory.md R94). -/
def setPos (p : Word) : M Bool := do
  let s ← get
  if s.src.len ≤ p then
    setSource fun v => { v with pos := v.len, eof := true }
    pure false
  else
    setSource fun v => { v with pos := p, eof := false }
    pure true

end Sys2Proof.Machine
end

