-- ==== Sys2Proof/Machine/ByteReader.lean ====
section
/-! DEFINITION. Raw byte access to the input source (40_bitreader.md R201 to R204). -/

namespace Sys2Proof.Machine

/-- `get8()` (40_bitreader.md R201). -/
def get8 : M Byte := inByte

/-- `getn(k)`: the bytes, and whether `eof` is false afterwards (40_bitreader.md R203). -/
def getn (k : Nat) : M (List Byte × Bool) := do
  let bs ← readMany get8 k
  let s ← get
  pure (bs, !s.src.eof)

/-- `get32()` (40_bitreader.md R202). -/
def get32 : M Word := do
  let bs ← readMany get8 4
  pure (BitVec.ofNat 32 (leNat bs))

/-- `get64()`: two `get32()`, low word first (40_bitreader.md R202). -/
def get64 : M (BitVec 64) := do
  let lo ← get32
  let hi ← get32
  pure (hi ++ lo)

/-- `skip(k)` (40_bitreader.md R204): in pull mode `SetPos(pos + k)`, where a sum past 32 bits lies past the end; in push mode the
position moves inside the chunk, and past its end stops there with `eof` set (notes/assumptions/36.md). -/
def skip (k : Nat) : M Unit := do
  let s ← get
  if s.ctl.api ≠ .push then
    let _ ← setPos (offsetPlus s.src.pos k)
    pure ()
  else if s.src.len.toNat < s.src.pos.toNat + k then setSource fun v => { v with pos := v.len, eof := true }
  else setSource fun v => { v with pos := v.pos + BitVec.ofNat 32 k }

end Sys2Proof.Machine
end

