-- ==== Sys2Proof/Machine/Framer.lean ====
section
/-! DEFINITION. The Ogg framer (41_ogg_framer.md): page starts, segments, packet starts, the page checksum and the page scan. -/

namespace Sys2Proof.Machine

/-! ### Page start -/

/-- The bytes "OggS" (30_encoding.md R130). -/
def captureBytes : List Byte := [0x4F, 0x67, 0x67, 0x53]

/-- Record where a page is looked for (notes/assumptions/16.md). -/
def markPageStart : M Unit := setSource fun v => { v with pageStart := v.pos }

/-- `capture_pattern()` (41_ogg_framer.md R231). -/
def capturePattern : M Bool := do
  markPageStart
  let bs ← readMany get8 4
  pure (bs == captureBytes)

/-- The greatest index of a segment that ends a packet (41_ogg_framer.md R236), -1 when there is none. -/
def lastEndingSegment (segs : List Byte) : Int :=
  (segs.zipIdx.foldl (fun acc p => if p.1 < 255 then (p.2 : Int) else acc) (-1 : Int))

/-- The cursor after a page header is read (41_ogg_framer.md R234 to R236). -/
def latchPage (flag : Byte) (granule : BitVec 64) (segs : List Byte) (c : PageCursor) : PageCursor :=
  let i := lastEndingSegment segs
  let known := granule ≠ BitVec.allOnes 64 ∧ 0 ≤ i
  { c with
    pageFlag := flag
    pageGranule := granule
    segmentCount := segs.length
    segments := segs ++ c.segments.drop segs.length
    nextSeg := if segs.length = 0 then -1 else 0
    endSegWithKnownLoc := if known then i else -2
    knownLocForPacket := if known then granule.setWidth 32 else c.knownLocForPacket }

/-- What the cursor holds when the input ends inside a page header: the fields already read (41_ogg_framer.md R234). -/
def latchPartialPage (flag : Byte) (granule : BitVec 64) (segs : List Byte) (c : PageCursor) : PageCursor :=
  { c with
    pageFlag := flag
    pageGranule := granule
    segmentCount := segs.length
    segments := segs ++ c.segments.drop segs.length }

/-- `start_page_no_capture()` (41_ogg_framer.md R233 to R236). -/
def startPageNoCapture : M Unit := do
  let version ← get8
  if version ≠ 0 then raise .invalidStreamStructureVersion
  else
    let flag ← get8
    let granule ← get64
    let _serial ← get32
    let _sequence ← get32
    let _crc ← get32
    let count ← get8
    let (segs, ok) ← getn count.toNat
    if ok then setCursor (latchPage flag granule segs)
    else
      setCursor (latchPartialPage flag granule segs)
      raise .unexpectedEof

/-- Whether the source ends inside the capture pattern of the page last looked for: what is left is one to three bytes of it. -/
def State.captureCut (s : State) : Bool :=
  let n := s.src.len.toNat - s.src.pageStart.toNat
  decide (0 < n ∧ n < 4) &&
    (List.range n).map (fun i => s.srcByte (s.src.pageStart + BitVec.ofNat 32 i)) == captureBytes.take n

/-- The error of a failed capture test (41_ogg_framer.md R232, R242).  Which one input cut inside the pattern raises is a free choice
between the spec's two texts (60_exceptions.md R612; notes/assumptions/44.md). -/
def captureFailed {α : Type} : M α := do
  let s ← get
  raise (if s.captureCut && Config.cutCaptureIsEof then .unexpectedEof else .missingCapturePattern)

/-- `start_page()` (41_ogg_framer.md R232). -/
def startPage : M Unit := do
  let found ← capturePattern
  if found then startPageNoCapture else captureFailed

/-! ### Segments and packets -/

/-- Taking the segment at `next_seg` (41_ogg_framer.md R240). -/
def takeSegment (c : PageCursor) : PageCursor :=
  let len := (c.segments.getD c.nextSeg.toNat 0).toNat
  let next := c.nextSeg + 1
  { c with
    lastSeg := if len < 255 then true else c.lastSeg
    lastSegWhich := if len < 255 then next - 1 else c.lastSegWhich
    nextSeg := if (c.segmentCount : Int) ≤ next then -1 else next
    bytesInSeg := len }

/-- Take the segment and give its length. -/
def consumeSegment : M Nat := do
  setCursor takeSegment
  let s ← get
  pure s.cur.bytesInSeg

/-- `next_segment()` (41_ogg_framer.md R240).  Only an empty page repeats it, and every page start reads 27 bytes, so the fuel
`nextSegment` gives is never used up (notes/assumptions/23.md).  Its errors are noted while headers are read too, and fail no open by
themselves: a DESIGN CHOICE between R240 and 60_exceptions.md R602 with 48_frame_control.md R540 (notes/assumptions/40.md). -/
def nextSegmentFuel : Nat → M Nat
  | 0 => pure 0
  | fuel + 1 => do
    let s ← get
    if s.cur.lastSeg then pure 0
    else if s.cur.nextSeg = -1 then
      setCursor fun c => { c with lastSegWhich := (c.segmentCount : Int) - 1 }
      let r ← attempt startPage
      match r with
      | .error e =>
        note e
        setCursor fun c => { c with lastSeg := true }
        pure 0
      | .ok _ =>
        let t ← get
        if !pageContinued t.cur.pageFlag then
          note .continuedPacketFlagInvalid
          pure 0
        else if t.cur.nextSeg = -1 then nextSegmentFuel fuel
        else consumeSegment
    else consumeSegment

/-- `next_segment()` (41_ogg_framer.md R240). -/
def nextSegment : M Nat := do
  let s ← get
  nextSegmentFuel (s.src.len.toNat + 1)

/-- The fields a packet start resets (41_ogg_framer.md R241). -/
def openPacket : M Unit := do
  setCursor fun c => { c with lastSeg := false, bytesInSeg := 0 }
  setReader fun r => { r with validBits := 0, packetBytes := 0 }

/-- The page loop of `start_packet()` (41_ogg_framer.md R241); every turn reads a page header. -/
def startPacketPages : Nat → M Unit
  | 0 => pure ()
  | fuel + 1 => do
    let s ← get
    if s.cur.nextSeg = -1 then
      startPage
      let t ← get
      if pageContinued t.cur.pageFlag then raise .continuedPacketFlagInvalid
      else startPacketPages fuel
    else pure ()

/-- `start_packet()` (41_ogg_framer.md R241). -/
def startPacket : M Unit := do
  let s ← get
  startPacketPages (s.src.len.toNat + 1)
  openPacket

/-- The capture test of `maybe_start_packet()` after a first byte 0x4F: each further byte is read only while the ones before
it match (41_ogg_framer.md R242). -/
def captureRest : List Byte → M Bool
  | [] => pure true
  | b :: bs => do
    let x ← get8
    if x = b then captureRest bs else pure false

/-- `start_packet()` after the page that `maybe_start_packet()` read.  Where the source ends right after a page without segments, the
next page is sought at its end: whether that is END_OF_STREAM (false) or the error that R241's pseudocode gives is a free choice
between the spec's two texts (48_frame_control.md R530, 60_exceptions.md R612; notes/assumptions/45.md). -/
def startPacketOrEnd : M Bool := do
  let r ← attempt startPacket
  match r with
  | .ok _ => pure true
  | .error e =>
    let s ← get
    if decide (e = .missingCapturePattern ∧ s.src.len ≤ s.src.pageStart) && Config.emptyPageIsEnd then pure false else raise e

/-- `maybe_start_packet()` (41_ogg_framer.md R242): false is END_OF_STREAM. -/
def maybeStartPacket : M Bool := do
  let s ← get
  if s.cur.nextSeg = -1 then
    markPageStart
    let x ← get8
    let t ← get
    if t.src.eof then pure false
    else if x ≠ 0x4F then raise .missingCapturePattern
    else
      let found ← captureRest [0x67, 0x67, 0x53]
      if !found then captureFailed
      else
        startPageNoCapture
        let u ← get
        if pageContinued u.cur.pageFlag then
          setCursor fun c => { c with lastSeg := false, bytesInSeg := 0 }
          raise .continuedPacketFlagInvalid
        else startPacketOrEnd
  else
    startPacket
    pure true

/-! ### CRC32 -/

/-- One shift of `T` (41_ogg_framer.md R250). -/
def crcShift (r : Word) : Word :=
  if r.getLsbD 31 then (r <<< 1) ^^^ 0x04C11DB7 else r <<< 1

/-- `crc_table[i]`, the constant of the block (41_ogg_framer.md R250, 70_reset_and_hazards.md R703). -/
def crcTable (i : Byte) : Word := Nat.repeat crcShift 8 (i.zeroExtend 32 <<< 24)

/-- `crc32_update(crc, b)` (41_ogg_framer.md R251). -/
def crc32Update (crc : Word) (b : Byte) : Word := (crc <<< 8) ^^^ crcTable (b ^^^ (crc >>> 24).setWidth 8)

/-- The checksum of a run of bytes. -/
def crcOf (bytes : List Byte) : Word := bytes.foldl crc32Update 0

/-- The page with its CRC bytes 22 to 25 taken as 0 (41_ogg_framer.md R250). -/
def zeroCrcField (bytes : List Byte) : List Byte :=
  bytes.zipIdx.map fun p => if 22 ≤ p.2 ∧ p.2 ≤ 25 then 0 else p.1

/-- `page_crc(bytes)` (41_ogg_framer.md R252). -/
def pageCrc (bytes : List Byte) : Word := crcOf (zeroCrcField bytes)

/-- The CRC field of a page (30_encoding.md R130). -/
def crcField (bytes : List Byte) : Word := BitVec.ofNat 32 (leNat ((bytes.drop 22).take 4))

/-- The sum of the lacing values of a segment table (30_encoding.md R132). -/
def lacingSum (segs : List Byte) : Nat := segs.foldl (fun n b => n + b.toNat) 0

/-! ### The page scan -/

/-- A page the scan found: its start, the offset after its body, and its last-page flag (41_ogg_framer.md R255). -/
structure FoundPage where
  start : Word
  stop : Word
  last : Bool
  deriving DecidableEq, Repr

/-- What one attempt of the scan answers. -/
inductive ScanStep where
  | again
  | notFound
  | found (page : FoundPage)
  deriving DecidableEq, Repr

/-- The scan's work after the capture pattern is read at `retry - 1` (41_ogg_framer.md R255): header, segment table and body are
read, and their CRC compared. -/
def scanPage (retry : Word) : M ScanStep := do
  let rest ← readMany get8 23
  let s ← get
  if s.src.eof then pure .notFound
  else
    let head := captureBytes ++ rest
    if head.getD 4 0 ≠ 0 then pure .again
    else
      let segs ← readMany get8 (head.getD 26 0).toNat
      let body ← readMany get8 (lacingSum segs)
      let t ← get
      if 0 < lacingSum segs ∧ t.src.eof = true then pure .notFound
      else if pageCrc (head ++ segs ++ body) = crcField head then
        let _ ← setPos (retry - 1)
        pure (.found ⟨retry - 1, t.src.pos, pageLast (head.getD 5 0)⟩)
      else pure .again

/-- `find_page()` (41_ogg_framer.md R255); every turn moves the position forward, so the fuel `findPage` gives is never used up
(notes/assumptions/23.md). -/
def findPageFuel : Nat → M (Option FoundPage)
  | 0 => pure none
  | fuel + 1 => do
    let s ← get
    if s.src.eof then pure none
    else
      let x ← get8
      if x ≠ 0x4F then findPageFuel fuel
      else
        let t ← get
        let retry := t.src.pos
        let captured ← captureRest [0x67, 0x67, 0x53]
        let u ← get
        if u.src.eof then pure none
        else
          let r ← readIf captured (scanPage retry) .again
          match r with
          | .notFound => pure none
          | .found page => pure (some page)
          | .again =>
            let _ ← setPos retry
            findPageFuel fuel

/-- `find_page()` (41_ogg_framer.md R255). -/
def findPage : M (Option FoundPage) := do
  let s ← get
  findPageFuel (s.src.len.toNat + 2)

/-- The granule position of the page that starts at an offset of the source (30_encoding.md R130: bytes 6 to 13). -/
def State.granuleAt (s : State) (start : Word) : BitVec 64 :=
  BitVec.ofNat 64 (leNat ((List.range 8).map fun i => s.srcByte (start + BitVec.ofNat 32 (6 + i))))

end Sys2Proof.Machine
end

