-- ==== Sys2Proof/Machine/BitReader.lean ====
section
/-! DEFINITION. Packet bytes and bits (40_bitreader.md R205 to R213). -/

namespace Sys2Proof.Machine

/-! ### Packet bytes -/

/-- Reading the next byte of the current segment (40_bitreader.md R206); in pull mode the end of the input raises
`unexpected_eof` (R213). -/
def takePacketByte : M (Option Byte) := do
  setCursor fun c => { c with bytesInSeg := c.bytesInSeg - 1 }
  setReader fun r => { r with packetBytes := r.packetBytes + 1 }
  let b ← inByte
  let s ← get
  if s.src.eof ∧ s.ctl.api = .pull then raise .unexpectedEof else pure (some b)

/-- `get8_packet_raw()` (40_bitreader.md R206); `none` is EOP. -/
def get8PacketRaw : M (Option Byte) := do
  let s ← get
  if s.cur.bytesInSeg = 0 then
    if s.cur.lastSeg then pure none
    else
      let n ← nextSegment
      if n = 0 then pure none else takePacketByte
  else takePacketByte

/-- `get8_packet()` (40_bitreader.md R207). -/
def get8Packet : M (Option Byte) := do
  let x ← get8PacketRaw
  setReader fun r => { r with validBits := 0 }
  pure x

/-- The low 8 bits of a packet byte, EOP (-1) giving 0xFF (40_bitreader.md R208). -/
def eopByte : Option Byte → Byte
  | some b => b
  | none => 0xFF

/-- `get32_packet()` (40_bitreader.md R208). -/
def get32Packet : M Word := do
  let bs ← readMany get8Packet 4
  pure (BitVec.ofNat 32 (leNat (bs.map eopByte)))

/-- How many times a packet can give a byte at most: the source's bytes, and past the end of a push chunk the bytes the latched
segment table still counts (notes/assumptions/23.md). -/
def State.packetFuel (s : State) : Nat := s.src.len.toNat + 65281

/-- Read packet bytes up to EOP. -/
def drainPacketFuel : Nat → M Unit
  | 0 => pure ()
  | fuel + 1 => do
    let x ← get8PacketRaw
    match x with
    | none => pure ()
    | some _ => drainPacketFuel fuel

/-- `while get8_packet_raw() != EOP: skip` (40_bitreader.md R211, 48_frame_control.md R542). -/
def drainPacket : M Unit := do
  let s ← get
  drainPacketFuel s.packetFuel

/-- `flush_packet()` (40_bitreader.md R211). -/
def flushPacket : M Unit := do
  drainPacket
  setReader fun r => { r with validBits := 0 }

/-! ### Packet bits -/

/-- `if valid_bits = 0: acc <- 0`, before a refill of `get_bits` that wants bits (40_bitreader.md R209). -/
def clearEmpty (n : Nat) (r : BitReader) : BitReader := if r.validBits = 0 ∧ 0 < n then { r with acc := 0 } else r

/-- Adding a packet byte above the bits held (40_bitreader.md R209); nothing of `acc` counts when none are held. -/
def pushByte (b : Byte) (r : BitReader) : BitReader :=
  let acc := if r.validBits = 0 then 0 else r.acc
  { r with acc := acc + (b.zeroExtend 39 <<< r.validBits.toNat), validBits := r.validBits + 8 }

/-- `consume(m)` (40_bitreader.md R210). -/
def consumeBits (n : Nat) (r : BitReader) : BitReader :=
  { r with acc := r.acc >>> n, validBits := r.validBits - n }

/-- Refill until `want` bits are held, or EOP; at most 5 bytes are ever needed for 32 bits.  False is EOP. -/
def refill (want : Nat) : Nat → M Bool
  | 0 => pure true
  | fuel + 1 => do
    let s ← get
    if (want : Int) ≤ s.rd.validBits then pure true
    else
      let x ← get8PacketRaw
      match x with
      | none => pure false
      | some b =>
        setReader (pushByte b)
        refill want fuel

/-- The bits `acc[n-1:0]`, consumed (40_bitreader.md R209). -/
def takeBits (n : Nat) : M Nat := do
  let s ← get
  setReader (consumeBits n)
  pure (s.rd.acc.toNat % 2 ^ n)

/-- INVALID_BITS (40_bitreader.md R209). -/
def invalidateBits : M Unit := setReader fun r => { r with validBits := -1 }

/-- `get_bits(n)` for at most 24 bits, or for bits already held (40_bitreader.md R209). -/
def getBitsShort (n : Nat) : M Nat := do
  let s ← get
  if s.rd.validBits < 0 then pure 0
  else
    setReader (clearEmpty n)
    let ok ← refill n 5
    if ok then takeBits n
    else
      invalidateBits
      pure 0

/-- `get_bits(n)`, `0 <= n <= 32` (40_bitreader.md R209): more than 24 bits that are not all held are read as 24 and the
rest. -/
def getBits (n : Nat) : M Nat := do
  let s ← get
  if s.rd.validBits < (n : Int) ∧ 24 < n then
    let lo ← getBitsShort 24
    let hi ← getBitsShort (n - 24)
    pure ((lo + hi * 2 ^ 24) % 2 ^ 32)
  else getBitsShort n

/-- `get_bits(1)` as a flag. -/
def getFlag : M Bool := do
  let b ← getBits 1
  pure (b == 1)

/-- Look-ahead of `peek_bit` up to 32 bits (40_bitreader.md R210, 43_codebook.md R344): refill `acc` until it holds 32 bits or
the packet ends, and give the number of bits available, at most 32. -/
def lookAhead : M Nat := do
  let _ ← refill 32 5
  let s ← get
  pure (min 32 s.rd.validBits.toNat)

/-- `peek_bit(k)` on the bits held: bit k of the unread packet bits, 0 past the `avail` that the packet has
(40_bitreader.md R210, 43_codebook.md R342). -/
def BitReader.peek (r : BitReader) (avail k : Nat) : Bool := decide (k < avail) && r.acc.getLsbD k

end Sys2Proof.Machine
end

