-- ==== Sys2Proof/Machine/Codebook.lean ====
section
/-! DEFINITION. Codebook decode (43_codebook.md): canonical Huffman codewords and VQ vectors. -/

namespace Sys2Proof.Machine

/-- What `decode_scalar` returns (43_codebook.md R341). -/
inductive Scalar where
  | entry (e : Nat)
  | eop
  | noMatch
  deriving DecidableEq, Repr

/-- Whether a codeword of `len` bits matches the unread bits, padded with zeros past the packet's end (43_codebook.md R342). -/
def codewordMatches (r : BitReader) (avail len : Nat) (cw : Word) : Bool :=
  (List.range len).all fun i => r.peek avail i == cw.getLsbD (len - 1 - i)

/-- The first entry at or after `e` whose codeword matches, with its length (43_codebook.md R342, R343). -/
def findEntry (r : BitReader) (avail : Nat) : List (Option Nat) → List Word → Nat → Option (Nat × Nat)
  | some len :: ls, cw :: cws, e =>
    if codewordMatches r avail len cw then some (e, len) else findEntry r avail ls cws (e + 1)
  | none :: ls, _ :: cws, e => findEntry r avail ls cws (e + 1)
  | _, _, _ => none

/-- `decode_scalar(b)` (43_codebook.md R344). -/
def decodeScalar (b : Nat) : M Scalar := do
  let s ← get
  if s.rd.validBits < 0 then pure .eop
  else
    let cb := s.tab.codebook b
    let avail ← lookAhead
    let t ← get
    match findEntry t.rd avail cb.lengths cb.codewords 0 with
    | none =>
      note .invalidStream
      pure .noMatch
    | some (e, len) =>
      if avail < len then
        invalidateBits
        pure .eop
      else
        setReader (consumeBits len)
        pure (.entry e)

/-- The multiplicand index of element `i` of entry `e` (43_codebook.md R352, R353). -/
def vqOffset (cb : Codebook) (lt : LookupType) (e i : Nat) : Nat :=
  match lt with
  | .direct => e * cb.dimensions + i
  | _ => (e / cb.lookupValues ^ i) % cb.lookupValues

/-- `vq_value` (43_codebook.md R352 to R354): one multiplication and two additions in binary32. -/
def vqValue (cb : Codebook) (lt : LookupType) (e i : Nat) (prev : F32) : F32 :=
  fadd (fadd (fmul (f32OfNat (cb.multiplicands.getD (vqOffset cb lt e i) 0)) cb.deltaValue) cb.minimumValue) prev

/-- Change one sample of one channel's buffer. -/
def modifySample (ch idx : Nat) (f : F32 → F32) (w : Work) : Work :=
  { w with channelBuffer := w.channelBuffer.modify ch fun buf => buf.modify idx f }

/-- Add the elements `i, i+1, ...` of a vector to their slots; a slot without a place is dropped (43_codebook.md R350,
45_residue.md R423, R433).  That a stand-alone step with more slots than the book has dimensions goes on past the entry's vector is a
DESIGN CHOICE (notes/assumptions/47.md). -/
def addVector (cb : Codebook) (lt : LookupType) (e : Nat) : List (Option (Nat × Nat)) → Nat → F32 → Work → Work
  | [], _, _, w => w
  | slot :: rest, i, prev, w =>
    let v := vqValue cb lt e i prev
    let w' := match slot with
      | some (ch, idx) => modifySample ch idx (fun x => fadd x v) w
      | none => w
    addVector cb lt e rest (i + 1) (if cb.sequenceP then v else prev) w'

/-- `decode_vq` with the lookup type given (43_codebook.md R350, R351): `slots` holds `place(i)` for `i < count`. -/
def decodeVqAs (lt : LookupType) (b : Nat) (slots : List (Option (Nat × Nat))) : M Scalar := do
  match lt with
  | .none =>
    note .invalidStream
    pure .noMatch
  | lt =>
    let r ← decodeScalar b
    match r with
    | .entry e =>
      let s ← get
      setWork (addVector (s.tab.codebook b) lt e slots 0 0)
      pure (.entry e)
    | other => pure other

/-- `decode_vq` (43_codebook.md R350): the lookup type is the codebook's. -/
def decodeVq (b : Nat) (slots : List (Option (Nat × Nat))) : M Scalar := do
  let s ← get
  decodeVqAs (s.tab.codebook b).lookupType b slots

end Sys2Proof.Machine
end

