-- ==== Sys2Proof/Machine/Floor.lean ====
section
/-! DEFINITION. Floor type 1 (44_floor1.md): decode, amplitude synthesis and render. -/

namespace Sys2Proof.Machine

/-! ### Integer helpers -/

/-- The range table (44_floor1.md R384). -/
def floorRange (multiplier : Nat) : Nat := [256, 128, 86, 64].getD (multiplier - 1) 0

/-- `predict_point(x, x0, x1, y0, y1)` (44_floor1.md R387); the division truncates a non-negative dividend. -/
def predictPoint (x x0 x1 y0 y1 : Int) : Int :=
  let dy := y1 - y0
  let off := ((dy.natAbs : Int) * (x - x0)).tdiv (x1 - x0)
  if dy < 0 then y0 - off else y0 + off

/-- An element of finalY after the value is written: itself when it is an i16, a free value otherwise
(notes/assumptions/14.md). -/
def toI16 (v : Int) : I16 :=
  if -32768 ≤ v ∧ v ≤ 32767 then BitVec.ofInt 16 v else Config.narrowI16 v

/-- `Y[j]` read as a signed integer. -/
def yAt (ys : List I16) (j : Nat) : Int := (ys.getD j 0).toInt

/-! ### Amplitude synthesis -/

/-- The value of a point whose residual is `val`, from its prediction and the range (44_floor1.md R385). -/
def floorPoint (range pred val : Int) : Int :=
  let highroom := range - pred
  let lowroom := pred
  let room := 2 * min highroom lowroom
  if val = 0 then pred
  else if room ≤ val then
    if lowroom < highroom then val - lowroom + pred else pred - val + highroom - 1
  else if val % 2 = 1 then pred - (val + 1) / 2
  else pred + val / 2

/-- One point of `floor1_step2` (44_floor1.md R385): the values and the used flags after point `j`. -/
def floorStep (fl : Floor) (st : List I16 × List Bool) (j : Nat) : List I16 × List Bool :=
  let (ys, used) := st
  let lo := fl.lowNeighbor.getD j 0
  let hi := fl.highNeighbor.getD j 0
  let x (k : Nat) : Int := ((fl.xs.getD k 0 : Nat) : Int)
  let pred := predictPoint (x j) (x lo) (x hi) (yAt ys lo) (yAt ys hi)
  let val := yAt ys j
  let ys' := ys.set j (toI16 (floorPoint (floorRange fl.multiplier : Nat) pred val))
  if val = 0 then (ys', used.set j false)
  else (ys', ((used.set lo true).set hi true).set j true)

/-- The points 2 .. values-1, in index order. -/
def floorPoints (fl : Floor) : List Nat := (List.range fl.values).drop 2

/-- `floor1_step2` (44_floor1.md R385): unused points become -1. -/
def floorStep2 (fl : Floor) (ys : List I16) : List I16 :=
  let start := (ys, [true, true] ++ List.replicate (fl.values - 2) false)
  let (ys', used) := (floorPoints fl).foldl (floorStep fl) start
  ys'.zipIdx.map fun p => if p.2 < fl.values ∧ used.getD p.2 false = false then toI16 (-1) else p.1

/-! ### Decode -/

/-- Write one element of a channel's finalY. -/
def setFinalY (ch j : Nat) (v : Int) : M Unit :=
  setWork fun w => { w with finalY := w.finalY.modify ch fun ys => ys.set j (toI16 v) }

/-- Set a channel's `zero_channel`. -/
def setZeroChannel (ch : Nat) (v : Bool) : M Unit :=
  setWork fun w => { w with zeroChannel := w.zeroChannel.set ch v }

/-- The dimensions of one partition (44_floor1.md R383): residual codewords chosen by the class value.  False is the jump to
`silent`. -/
def floorDims (ch : Nat) (cls : FloorClass) : Nat → Nat → Nat → M Bool
  | 0, _, _ => pure true
  | n + 1, cval, offset => do
    let book := cls.books.getD (cval % 2 ^ cls.subclasses) (-1)
    if 0 ≤ book then
      let r ← decodeScalar book.toNat
      match r with
      | .entry t =>
        setFinalY ch offset t
        floorDims ch cls n (cval / 2 ^ cls.subclasses) (offset + 1)
      | _ => pure false
    else
      setFinalY ch offset 0
      floorDims ch cls n (cval / 2 ^ cls.subclasses) (offset + 1)

/-- The class value of a partition: a master codeword when the class has subclasses (44_floor1.md R383). -/
def floorClassValue (cls : FloorClass) : M (Option Nat) := do
  if cls.subclasses = 0 then pure (some 0)
  else
    let r ← decodeScalar cls.masterbook
    match r with
    | .entry v => pure (some v)
    | _ => pure none

/-- The partitions of a floor (44_floor1.md R383). -/
def floorPartitions (ch : Nat) (fl : Floor) : List Nat → Nat → M Bool
  | [], _ => pure true
  | c :: rest, offset => do
    let cls := fl.classes.getD c ⟨0, 0, 0, []⟩
    let cval ← floorClassValue cls
    match cval with
    | none => pure false
    | some v =>
      let ok ← floorDims ch cls cls.dim v offset
      if ok then floorPartitions ch fl rest (offset + cls.dim) else pure false

/-- `floor1_decode(ch, fl)` (44_floor1.md R383, R386). -/
def floor1Decode (ch : Nat) (fl : Floor) : M Unit := do
  let nonzero ← getBits 1
  if nonzero = 0 then setZeroChannel ch true
  else
    let rb := ilog (floorRange fl.multiplier - 1)
    let y0 ← getBits rb
    setFinalY ch 0 y0
    let y1 ← getBits rb
    setFinalY ch 1 y1
    let ok ← floorPartitions ch fl fl.partitionClass 2
    let s ← get
    if ok ∧ 0 ≤ s.rd.validBits then
      setWork fun w => { w with finalY := w.finalY.modify ch (floorStep2 fl) }
      setZeroChannel ch false
    else setZeroChannel ch true

/-! ### Render -/

/-- INV_DB_TABLE counted down from entry 255: `invDbDown k` is entry `255 - k`.  Entry 255 is 1.0 and each entry below takes a
free value between its index plus one and the entry above, so that the table has exactly the properties of 44_floor1.md R392
(positive bit patterns order as their values do; notes/assumptions/10.md). -/
def invDbDown : Nat → Nat
  | 0 => 0x3F800000
  | k + 1 => (255 - k) + Config.invDbGap (254 - k) % (invDbDown k - (255 - k))

/-- `INV_DB_TABLE[i]` (44_floor1.md R392). -/
def invDb (i : Nat) : F32 := BitVec.ofNat 32 (invDbDown (255 - i))

/-- The table entry for a curve height, `y & 255` in two's complement (44_floor1.md R393). -/
def invDbAt (y : Int) : F32 := invDb (y % 256).toNat

/-- The heights of the points `x0+1, x0+2, ...` of a line (44_floor1.md R393). -/
def lineHeights (adx ady base sy : Int) : Nat → Int → Int → List Int
  | 0, _, _ => []
  | n + 1, err, y =>
    let err' := err + ady
    if adx ≤ err' then (y + sy) :: lineHeights adx ady base sy n (err' - adx) (y + sy)
    else (y + base) :: lineHeights adx ady base sy n err' (y + base)

/-- The heights `draw_line` gives the points from `x0` up to `min x1 n` (44_floor1.md R393). -/
def drawLine (x0 y0 x1 y1 : Int) (n : Nat) : List Int :=
  let dy := y1 - y0
  let adx := x1 - x0
  let base := dy.tdiv adx
  let sy := if dy < 0 then base - 1 else base + 1
  let ady := (dy.natAbs : Int) - (base.natAbs : Int) * adx
  let stop := min x1 n
  if x0 < stop then y0 :: lineHeights adx ady base sy (stop - x0 - 1).toNat 0 y0 else []

/-- Multiply the samples from `x` on by the table entries of the heights (44_floor1.md R390, R393). -/
def applyHeights (x : Nat) (ys : List Int) (buf : List F32) : List F32 :=
  buf.zipIdx.map fun p =>
    if x ≤ p.2 ∧ p.2 < x + ys.length then fmul p.1 (invDbAt (ys.getD (p.2 - x) 0)) else p.1

/-- The walk over the used points in X order (44_floor1.md R390): the buffer and the last point reached. -/
def renderWalk (fl : Floor) (ys : List I16) (n2 : Nat) : List Nat → Nat × Int → List F32 → (Nat × Int) × List F32
  | [], lp, buf => (lp, buf)
  | j :: rest, (lx, ly), buf =>
    if 0 ≤ yAt ys j then
      let hy := yAt ys j * fl.multiplier
      let hx := fl.xs.getD j 0
      let buf' := if lx ≠ hx then applyHeights lx (drawLine lx ly hx hy n2) buf else buf
      renderWalk fl ys n2 rest (hx, hy) buf'
    else renderWalk fl ys n2 rest (lx, ly) buf

/-- `floor1_render(ch, fl, n2)` on one channel's buffer (44_floor1.md R390). -/
def floorRender (fl : Floor) (ys : List I16) (n2 : Nat) (buf : List F32) : List F32 :=
  let ((lx, ly), buf') := renderWalk fl ys n2 (fl.sortedOrder.drop 1) (0, yAt ys 0 * fl.multiplier) buf
  applyHeights lx (List.replicate (n2 - lx) ly) buf'

end Sys2Proof.Machine
end

