-- ==== Sys2Proof/Machine/Residue.lean ====
section
/-! DEFINITION. Residue decode (45_residue.md): propagation of silence, classification, partitions and vector placement. -/

namespace Sys2Proof.Machine

/-! ### Silence -/

/-- Non-zero propagation over one coupling step (45_residue.md R421). -/
def propagateStep (zero : List Bool) (step : Nat × Nat) : List Bool :=
  if zero.getD step.1 true = false ∨ zero.getD step.2 true = false then
    (zero.set step.1 false).set step.2 false
  else zero

/-- Non-zero propagation (45_residue.md R421): `really_zero_channel` keeps the floors' own flags. -/
def propagateNonzero (map : Mapping) (w : Work) : Work :=
  { w with
    reallyZeroChannel := w.zeroChannel
    zeroChannel := map.coupling.foldl propagateStep w.zeroChannel }

/-- The channels of a submap in increasing order (45_residue.md R420). -/
def submapChannels (map : Mapping) (channels submap : Nat) : List Nat :=
  (List.range channels).filter fun ch => map.mux.getD ch 0 == submap

/-! ### Placement -/

/-- What one partition of the residue vector is laid over: one channel, or the interleave of a submap's channels, each with
whether its writes are kept (45_residue.md R423, R430 to R432). -/
inductive Lane where
  | single (ch : Nat)
  | interleaved (chans : List (Nat × Bool))
  deriving DecidableEq, Repr

/-- The channel and spectral index of a position of the residue vector (45_residue.md R432). -/
def Lane.slot : Lane → Nat → Option (Nat × Nat)
  | .single ch, t => some (ch, t)
  | .interleaved chans, t =>
    match chans[t % chans.length]? with
    | some (ch, true) => some (ch, t / chans.length)
    | _ => none

/-- The slots of the vector that starts at step `k` of a type 0 partition (45_residue.md R430). -/
def stridedSlots (lane : Lane) (off step dim k : Nat) : List (Option (Nat × Nat)) :=
  (List.range dim).map fun i => lane.slot (off + k + i * step)

/-- The slots of the vector that starts at `k` of a type 1 or 2 partition, cut off at its end (45_residue.md R431, R434). -/
def contiguousSlots (lane : Lane) (off size dim k : Nat) : List (Option (Nat × Nat)) :=
  (List.range (min dim (size - k))).map fun i => lane.slot (off + k + i)

/-- A type 0 partition from step `k` on (45_residue.md R430); false stops the residue. -/
def partitionStrided (b : Nat) (lane : Lane) (off step dim : Nat) : Nat → Nat → M Bool
  | 0, _ => pure true
  | n + 1, k => do
    let r ← decodeVq b (stridedSlots lane off step dim k)
    match r with
    | .entry _ => partitionStrided b lane off step dim n (k + 1)
    | _ => pure false

/-- A type 1 or 2 partition from `k` on (45_residue.md R431, R432); false stops the residue. -/
def partitionContiguous (b : Nat) (lane : Lane) (off size dim : Nat) : Nat → Nat → M Bool
  | 0, _ => pure true
  | n + 1, k =>
    if size ≤ k then pure true
    else do
      let r ← decodeVq b (contiguousSlots lane off size dim k)
      match r with
      | .entry _ => partitionContiguous b lane off size dim n (k + dim)
      | _ => pure false

/-- How many steps a type 0 partition has (45_residue.md R430); the division by a book's dimension 0 is a free value
(notes/assumptions/24.md). -/
def stridedSteps (size dim : Nat) : Nat := if dim = 0 then Config.zeroDimSteps size else size / dim

/-- `partition_vq` (45_residue.md R430 to R432). -/
def partitionVq (ty : ResidueType) (b : Nat) (lane : Lane) (off size : Nat) : M Bool := do
  let s ← get
  let dim := (s.tab.codebook b).dimensions
  match ty with
  | .type0 => partitionStrided b lane off (stridedSteps size dim) dim (stridedSteps size dim) 0
  | .type1 | .type2 => partitionContiguous b lane off size dim size 0

/-! ### Passes -/

/-- What stays the same during the residue decode of one submap (45_residue.md R420, R422). -/
structure ResidueCall where
  ty : ResidueType
  res : Residue
  classwords : Nat
  lower : Nat
  partRead : Nat
  lanes : List Lane
  deriving DecidableEq, Repr

/-- Read one classification codeword a lane (45_residue.md R424, R425); `none` stops the residue. -/
def readClasses (res : Residue) : List Lane → M (Option (List (List Nat)))
  | [] => pure (some [])
  | _ :: rest => do
    let q ← decodeScalar res.classbook
    match q with
    | .entry e =>
      let more ← readClasses res rest
      match more with
      | some cs => pure (some (res.classdata.getD e [] :: cs))
      | none => pure none
    | _ => pure none

/-- The book of a class in a pass; a class or pass without data gives -1 (45_residue.md R424). -/
def Residue.book (res : Residue) (c pass : Nat) : Int := (res.books.getD c []).getD pass (-1)

/-- One partition over all lanes in one pass (45_residue.md R424); false stops the residue. -/
def decodePartition (rc : ResidueCall) (pass p i : Nat) : List (Lane × List Nat) → M Bool
  | [] => pure true
  | (lane, classes) :: rest => do
    let b := rc.res.book (classes.getD i 0) pass
    if 0 ≤ b then
      let ok ← partitionVq rc.ty b.toNat lane (rc.lower + p * rc.res.partSize) rc.res.partSize
      if ok then decodePartition rc pass p i rest else pure false
    else decodePartition rc pass p i rest

/-- The partitions of one group in one pass, from its `i`-th on (45_residue.md R424). -/
def decodeGroup (rc : ResidueCall) (pass p : Nat) (lanes : List (Lane × List Nat)) : Nat → Nat → M Bool
  | 0, _ => pure true
  | n + 1, i =>
    if rc.partRead ≤ p + i then pure true
    else do
      let ok ← decodePartition rc pass (p + i) i lanes
      if ok then decodeGroup rc pass p lanes n (i + 1) else pure false

/-- Pass 0: classify and decode group after group (45_residue.md R424).  The classes read are returned, `none` when the residue
stops. -/
def firstPass (rc : ResidueCall) : Nat → Nat → M (Option (List (List (List Nat))))
  | 0, _ => pure (some [])
  | fuel + 1, p =>
    if rc.partRead ≤ p then pure (some [])
    else do
      let classes ← readClasses rc.res rc.lanes
      match classes with
      | none => pure none
      | some cs =>
        let ok ← decodeGroup rc 0 p (rc.lanes.zip cs) rc.classwords 0
        if ok then
          let more ← firstPass rc fuel (p + rc.classwords)
          match more with
          | some gs => pure (some (cs :: gs))
          | none => pure none
        else pure none

/-- A later pass over the groups classified in pass 0 (45_residue.md R424); false stops the residue. -/
def laterPass (rc : ResidueCall) (pass : Nat) : List (List (List Nat)) → Nat → M Bool
  | [], _ => pure true
  | cs :: gs, p => do
    let ok ← decodeGroup rc pass p (rc.lanes.zip cs) rc.classwords 0
    if ok then laterPass rc pass gs (p + rc.classwords) else pure false

/-- The passes after the first, while none stops the residue; false when one does. -/
def laterPasses (rc : ResidueCall) (groups : List (List (List Nat))) : List Nat → M Bool
  | [] => pure true
  | pass :: rest => do
    let ok ← laterPass rc pass groups 0
    if ok then laterPasses rc groups rest else pure false

/-- All 8 passes (45_residue.md R424, R426); when no lane is decoded nothing is read.  False is an end by R426.  Each turn of the
first pass classifies at least one partition, or stops at a classification book of dimension 0, which has no entry (42_setup.md
R291). -/
def residuePasses (rc : ResidueCall) : M Bool :=
  if rc.lanes.isEmpty then pure true
  else do
    let groups ← firstPass rc rc.partRead 0
    match groups with
    | some gs => laterPasses rc gs [1, 2, 3, 4, 5, 6, 7]
    | none => pure false

/-! ### One submap -/

/-- The lanes of a submap (45_residue.md R424, R425): each decoded channel alone, or for type 2 with several channels the
interleave of all of them when any is decoded. -/
def residueLanes (ty : ResidueType) (sc : List Nat) (zero : List Bool) : List Lane :=
  let decoded (ch : Nat) : Bool := !(zero.getD ch true)
  if ty = .type2 ∧ 2 ≤ sc.length then
    if sc.any decoded then [Lane.interleaved (sc.map fun ch => (ch, decoded ch))] else []
  else (sc.filter decoded).map Lane.single

/-- Clear the first `n2` samples of a channel (45_residue.md R423). -/
def clearSpectrum (n2 : Nat) (w : Work) (ch : Nat) : Work :=
  { w with channelBuffer := w.channelBuffer.modify ch fun buf => List.replicate (min n2 buf.length) 0 ++ buf.drop n2 }

/-- The range of a submap's residue (45_residue.md R422): the lower end and the number of partitions. -/
def residueRange (ty : ResidueType) (res : Residue) (n2 chs : Nat) : Nat × Nat :=
  let actual := if ty = .type2 then n2 * chs else n2
  let lb := min res.first actual
  let le := min res.last actual
  (lb, (le - lb) / res.partSize)

/-- Clear the spectra of a submap's channels (45_residue.md R423). -/
def clearSubmap (map : Mapping) (channels n2 : Nat) (w : Work) (submap : Nat) : Work :=
  (submapChannels map channels submap).foldl (clearSpectrum n2) w

/-- The residue decode of one submap with the residue type given (45_residue.md R420 to R426); false when an EOP or a bad codeword
ended it. -/
def residueDecodeAs (ty : ResidueType) (map : Mapping) (submap n2 : Nat) : M Bool := do
  let s ← get
  let res := s.tab.residue (map.submapResidue.getD submap 0)
  let sc := submapChannels map s.tab.channels submap
  setWork fun w => clearSubmap map s.tab.channels n2 w submap
  residuePasses
    { ty := ty
      res := res
      classwords := (s.tab.codebook res.classbook).dimensions
      lower := (residueRange ty res n2 sc.length).1
      partRead := (residueRange ty res n2 sc.length).2
      lanes := residueLanes ty sc s.work.zeroChannel }

/-- The residue decode of one submap (45_residue.md): the type is the residue's. -/
def residueDecode (map : Mapping) (n2 submap : Nat) : M Bool := do
  let s ← get
  residueDecodeAs (s.tab.residue (map.submapResidue.getD submap 0)).type map submap n2

/-- The residues of a frame, submap after submap (48_frame_control.md R520); once one has ended by 45_residue.md R426, the remaining
submaps read no bits, and their spectra are only cleared (R423). -/
def decodeResidues (map : Mapping) (n2 : Nat) : List Nat → M Unit
  | [] => pure ()
  | submap :: rest => do
    let whole ← residueDecode map n2 submap
    if whole then decodeResidues map n2 rest
    else
      let s ← get
      setWork fun w => rest.foldl (clearSubmap map s.tab.channels n2) w

end Sys2Proof.Machine
end

