-- ==== Sys2Proof/Machine/Coupling.lean ====
section
/-! DEFINITION. Inverse channel coupling (46_coupling.md). -/

namespace Sys2Proof.Machine

/-- The four-branch rule on one magnitude and angle value (46_coupling.md R462): the new (magnitude, angle) channel values. -/
def uncouple (m a : F32) : F32 × F32 :=
  if fpos m then
    if fpos a then (m, fsub m a) else (fadd m a, m)
  else
    if fpos a then (m, fadd m a) else (fsub m a, m)

/-- One coupling step on the first `n2` samples of its two channels (46_coupling.md R461, R462). -/
def inverseCouple (n2 : Nat) (w : Work) (step : Nat × Nat) : Work :=
  let m := w.channelBuffer.getD step.1 []
  let a := w.channelBuffer.getD step.2 []
  let pairs := (m.take n2).zipWith uncouple (a.take n2)
  { w with
    channelBuffer := (w.channelBuffer.set step.1 (pairs.map Prod.fst ++ m.drop pairs.length)).set step.2
      (pairs.map Prod.snd ++ a.drop pairs.length) }

/-- Every coupling step of a mapping, the last declared first (46_coupling.md R461). -/
def coupleAll (map : Mapping) (n2 : Nat) (w : Work) : Work := map.coupling.reverse.foldl (inverseCouple n2) w

end Sys2Proof.Machine
end

