-- ==== Sys2Proof/Machine/Imdct.lean ====
section
/-! DEFINITION. The inverse MDCT parameter, the window tables, the lap geometry and the overlap-add (47_imdct_lapping.md). -/

namespace Sys2Proof.Machine

/-! ### The transform -/

/-- `IMDCT_IMPL(n, X)` (47_imdct_lapping.md R470 to R473): free samples, held to R473's one property of their values, that an
all-zero spectrum gives zeros of either sign (notes/assumptions/9.md). -/
def imdct (n : Nat) (xs : List F32) : List F32 :=
  (List.range n).map fun i =>
    let y := Config.imdctSample n xs i
    if xs.all f32IsZero then y &&& 0x80000000 else y

/-- Replace the first `n` samples of a buffer by the transform of its first `n/2` (47_imdct_lapping.md R470). -/
def imdctBuffer (n : Nat) (buf : List F32) : List F32 := (imdct n (buf.take (n / 2))).take buf.length ++ buf.drop n

/-! ### Windows -/

/-- The fraction bits of the fixed-point window computation. -/
def fixBits : Nat := 128

/-- pi/2 times 2^128, rounded down. -/
def halfPiFix : Nat := 534514292032483373929840186580935391650

/-- The sums of the odd and even terms of the sine series, in fixed point: `t` is the term of index `k`. -/
def sinSeries (x2 : Nat) : Nat → Nat → Nat → Nat → Nat → Nat × Nat
  | 0, _, _, pos, neg => (pos, neg)
  | n + 1, k, t, pos, neg =>
    let t' := t * x2 / 2 ^ fixBits / ((2 * k + 2) * (2 * k + 3))
    if k % 2 = 0 then sinSeries x2 n (k + 1) t' (pos + t) neg else sinSeries x2 n (k + 1) t' pos (neg + t)

/-- The sine of a fixed-point angle between 0 and pi/2. -/
def sinFix (x : Nat) : Nat :=
  let p := sinSeries (x * x / 2 ^ fixBits) 24 0 x 0 0
  p.1 - p.2

/-- `window[b][i]` for `h = blocksize[b] / 2` (47_imdct_lapping.md R480).  The 128-bit value is within 2^-124 of the exact one, and
no exact value of the eight block sizes lies that close to the midpoint of two binary32 values, so its rounding is R480's
(notes/assumptions/13.md). -/
def windowEntry (h i : Nat) : F32 :=
  let s := sinFix (halfPiFix * (2 * i + 1) / (2 * h))
  roundF32 false (sinFix (halfPiFix * (s * s / 2 ^ fixBits) / 2 ^ fixBits)) (149 - (fixBits : Int))

/-- The window table of a block size (47_imdct_lapping.md R480). -/
def windowTable (blocksize : Nat) : List F32 := (List.range (blocksize / 2)).map (windowEntry (blocksize / 2))

/-- `get_window(m)` (47_imdct_lapping.md R481). -/
def getWindow (t : Tables) (m : Nat) : Option (List F32) :=
  if 2 * m = t.blocksize false then some t.window0
  else if 2 * m = t.blocksize true then some t.window1
  else none

/-! ### Lap geometry -/

/-- The boundaries of one frame (47_imdct_lapping.md R482). -/
structure Geometry where
  leftStart : Nat
  leftEnd : Nat
  rightStart : Nat
  rightEnd : Nat
  deriving DecidableEq, Repr

/-- `geometry(n, b, prev, next)` (47_imdct_lapping.md R482). -/
def geometry (n b0 : Nat) (long prev next : Bool) : Geometry :=
  { leftStart := if long && !prev then (n - b0) / 4 else 0
    leftEnd := if long && !prev then (n + b0) / 4 else n / 2
    rightStart := if long && !next then (3 * n - b0) / 4 else n / 2
    rightEnd := if long && !next then (3 * n + b0) / 4 else n }

/-! ### Overlap-add -/

/-- What the frame decode hands to the overlap-add (47_imdct_lapping.md R484). -/
structure Frame where
  len : Nat
  left : Nat
  right : Nat
  deriving DecidableEq, Repr

/-- The overlap-add of one channel (47_imdct_lapping.md R486): `(a * w[j]) + (p * w[m-1-j])` at `left + j` for `j < m`. -/
def overlap (w prev : List F32) (m left : Nat) (buf : List F32) : List F32 :=
  buf.zipIdx.map fun p =>
    if left ≤ p.2 ∧ p.2 < left + m then
      fadd (fmul p.1 (w.getD (p.2 - left) 0)) (fmul (prev.getD (p.2 - left) 0) (w.getD (m - 1 - (p.2 - left)) 0))
    else p.1

/-- The overlap-add of every channel. -/
def overlapAll (w : List F32) (m left : Nat) (work : Work) : Work :=
  { work with
    channelBuffer := work.channelBuffer.zipIdx.map fun p => overlap w (work.previousWindow.getD p.2 []) m left p.1 }

/-- The retention of one channel (47_imdct_lapping.md R486, R487): the samples from `right` on, `kept` of them. -/
def retain (right kept : Nat) (buf prev : List F32) : List F32 := (buf.drop right).take kept ++ prev.drop kept

/-- The retention of every channel. -/
def retainAll (right kept : Nat) (work : Work) : Work :=
  { work with
    previousWindow := work.previousWindow.zipIdx.map fun p => retain right kept (work.channelBuffer.getD p.2 []) p.1 }

/-- `finish_frame(len, left, right)` (47_imdct_lapping.md R486): the sample count and the machine after it. -/
def finishFrame (f : Frame) (s : State) : Nat × State :=
  let m := s.ctl.previousLength
  let kept := f.len - f.right
  if m = 0 then
    (0, { s with work := retainAll f.right kept s.work, ctl.previousLength := kept })
  else
    match getWindow s.tab m with
    | none => (0, s)
    | some w =>
      (min f.right f.len - f.left,
        { s with work := retainAll f.right kept (overlapAll w m f.left s.work), ctl.previousLength := kept })

/-- Show the frame's samples in the PCM window (10_state.md R63, 47_imdct_lapping.md R486). -/
def deliverFrame (f : Frame) (s : State) : Nat × State :=
  let r := finishFrame f s
  (r.1, { r.2 with ctl.outLeft := f.left, ctl.outLen := r.1 })

end Sys2Proof.Machine
end

