-- ==== Sys2Proof/Machine/Setup.lean ====
section
/-! DEFINITION. The setup parser (42_setup.md, 30_encoding.md sections 3 and 4): the three header packets and the tables they fill.
Checks stand where their field is read (notes/assumptions/15.md). -/

namespace Sys2Proof.Machine

/-- Raise a code when a check fails. -/
def check (ok : Bool) (e : ErrCode) : M Unit := if ok then pure () else raise e

/-- `get_bits(n)` in the setup body: the packet ending early raises `invalid_setup` (42_setup.md R288). -/
def setupBits (n : Nat) : M Nat := do
  let v ← getBits n
  let s ← get
  if s.rd.validBits < 0 then raise .invalidSetup else pure v

/-- A one-bit field of the setup body. -/
def setupFlag : M Bool := do
  let v ← setupBits 1
  pure (v == 1)

/-- A field that holds one less than its value (30_encoding.md section 4). -/
def biased (n : Nat) : M Nat := do
  let v ← setupBits n
  pure (v + 1)

/-- Change the last entry of a list: the table entry being read. -/
def mapLast {α : Type} (f : α → α) (l : List α) : List α := l.modify (l.length - 1) f

/-! ### Header starts -/

/-- "vorbis" (30_encoding.md R140). -/
def vorbisBytes : List Byte := [0x76, 0x6F, 0x72, 0x62, 0x69, 0x73]

/-- "fishead" and a zero byte (42_setup.md R281). -/
def fisheadBytes : List Byte := [0x66, 0x69, 0x73, 0x68, 0x65, 0x61, 0x64, 0x00]

/-- The code of a header packet that does not begin as expected (30_encoding.md R191). -/
def headerError : HeaderKind → ErrCode
  | .identification => .invalidFirstPage
  | .comment => .invalidSetup
  | .setup => .invalidSetup

/-- The string "vorbis" after the type byte (42_setup.md R282, R286, R288).  That all six bytes are read before they are compared is a
DESIGN CHOICE (notes/assumptions/43.md). -/
def vorbisString (e : ErrCode) : M Unit := do
  let bs ← readMany get8Packet 6
  check (bs == vorbisBytes.map some) e

/-! ### Identification header -/

/-- The identification packet from the sample rate on (42_setup.md R283 to R285). -/
def identificationRest : M Unit := do
  let rate ← get32Packet
  check (rate != 0) .invalidFirstPage
  setTables fun t => { t with sampleRate := rate }
  let brMax ← get32Packet
  let brNominal ← get32Packet
  let brMin ← get32Packet
  setTables fun t => { t with bitrateMax := brMax, bitrateNominal := brNominal, bitrateMin := brMin }
  let x ← get8Packet
  let log0 := (eopByte x).toNat % 16
  let log1 := (eopByte x).toNat / 16
  check (decide (6 ≤ log0) && decide (log0 ≤ 13) && decide (6 ≤ log1) && decide (log1 ≤ 13) && decide (log0 ≤ log1))
    .invalidSetup
  setTables fun t => { t with logBlocksize0 := log0, logBlocksize1 := log1 }
  let framing ← get8Packet
  check ((eopByte framing).getLsbD 0) .invalidFirstPage
  flushPacket

/-- The identification packet after its type byte (42_setup.md R282 to R285). -/
def identificationBody : M Unit := do
  vorbisString .invalidFirstPage
  let version ← get32Packet
  check (version == 0) .invalidFirstPage
  let channels ← get8Packet
  let channels := (eopByte channels).toNat
  check (channels != 0) .invalidFirstPage
  let s ← get
  check (decide (channels ≤ s.params.maxChannels)) .tooManyChannels
  setTables fun t => { t with channels := channels }
  identificationRest

/-! ### Comment header -/

/-- The comment packet after its type byte (42_setup.md R286, R287). -/
def commentBody : M Unit := do
  vorbisString .invalidSetup
  flushPacket

/-! ### Codebooks -/

/-- One unordered codeword length (30_encoding.md R161, 42_setup.md R292). -/
def unorderedLength (sparse : Bool) : M (Option Nat) := do
  let present ← readIf sparse setupFlag true
  if present then
    let v ← setupBits 5
    check (decide (v + 1 < 32)) .invalidSetup
    pure (some (v + 1))
  else pure none

/-- The ordered codeword lengths from `current_entry = done.length` on (30_encoding.md R162, 42_setup.md R293).  The length grows
with every turn and may not reach 32, so 33 turns suffice. -/
def orderedLengths (entries : Nat) : Nat → Nat → Nat → M (List (Option Nat))
  | 0, _, _ => pure []
  | fuel + 1, entry, len =>
    if entries ≤ entry then pure []
    else do
      let n ← setupBits (ilog (entries - entry))
      check (decide (len < 32) && decide (entry + n ≤ entries)) .invalidSetup
      let rest ← orderedLengths entries fuel (entry + n) (len + 1)
      pure (List.replicate n (some len) ++ rest)

/-- The codeword lengths in the form the ordered flag tells (30_encoding.md R161, R162). -/
def codewordLengths (ordered : Bool) (entries : Nat) : M (List (Option Nat)) :=
  if ordered then do
    let first ← setupBits 5
    orderedLengths entries 33 0 (first + 1)
  else do
    let sparse ← setupFlag
    readMany (unorderedLength sparse) entries

/-- The available leaf prefixes of 42_setup.md R300: entry `i` of the list is `avail[i]`, 0 meaning none. -/
abbrev Leaves := List Nat

/-- The deepest available leaf at depth `z` or above, 0 when there is none (42_setup.md R300). -/
def findLeaf (avail : Leaves) : Nat → Nat
  | 0 => 0
  | z + 1 => if avail.getD (z + 1) 0 = 0 then findLeaf avail z else z + 1

/-- The leaves after the leaf `res` of depth `z` is used for a codeword of length `len` (42_setup.md R300). -/
def splitLeaf (avail : Leaves) (z len res : Nat) : Leaves :=
  (avail.set z 0).zipIdx.map fun p =>
    if z < p.2 ∧ p.2 ≤ len then (res + 2 ^ (32 - p.2)) % 2 ^ 32 else p.1

/-- The codewords of the entries after the first (42_setup.md R300); `none` is the missing leaf. -/
def assignCodewords : List (Option Nat) → Leaves → Option (List Word)
  | [], _ => some []
  | none :: ls, avail => (assignCodewords ls avail).map (0 :: ·)
  | some len :: ls, avail =>
    let z := findLeaf avail len
    if z = 0 then none
    else
      let res := avail.getD z 0
      (assignCodewords ls (splitLeaf avail z len res)).map (BitVec.ofNat 32 (res / 2 ^ (32 - len)) :: ·)

/-- `compute_codewords` (42_setup.md R300, R302); `none` raises `invalid_setup`. -/
def computeCodewords : List (Option Nat) → Option (List Word)
  | [] => some []
  | none :: ls => (computeCodewords ls).map (0 :: ·)
  | some len :: ls =>
    let avail := (List.range 33).map fun i => if 1 ≤ i ∧ i ≤ len then 2 ^ (32 - i) else 0
    (assignCodewords ls avail).map (0 :: ·)

/-- The codewords of the codebook being read. -/
def finishCodebook : M Unit := do
  let s ← get
  let cb := s.tab.codebook (s.tab.codebooks.length - 1)
  match computeCodewords cb.lengths with
  | none => raise .invalidSetup
  | some cws => setTables fun t => { t with codebooks := mapLast (fun c => { c with codewords := cws }) t.codebooks }

/-- The VQ fields of the codebook being read (30_encoding.md R163, 42_setup.md R295 to R298); the number of multiplicands is kept
whole where it passes the 32 bits of 10_state.md R54 (notes/assumptions/33.md). -/
def lookupFields (lt : LookupType) : M Unit := do
  let minimum ← setupBits 32
  let delta ← setupBits 32
  let bits ← setupBits 4
  let sequence ← setupFlag
  let s ← get
  let cb := s.tab.codebook (s.tab.codebooks.length - 1)
  let count := if lt = .direct then cb.entries * cb.dimensions else lookup1Values cb.entries cb.dimensions
  check (count != 0) .invalidSetup
  let mults ← readMany (setupBits (bits + 1)) count
  setTables fun t =>
    { t with
      codebooks := mapLast
        (fun c =>
          { c with
            lookupType := lt, minimumValue := float32Unpack minimum, deltaValue := float32Unpack delta
            valueBits := bits + 1, sequenceP := sequence, lookupValues := count, multiplicands := mults })
        t.codebooks }

/-- What follows the lookup type field (42_setup.md R295 to R300). -/
def lookupSetup (lt : LookupType) : M Unit := do
  if lt = .none then finishCodebook
  else
    lookupFields lt
    finishCodebook

/-- Run the setup of a lookup type field's value (30_encoding.md R163, R192). -/
def lookupField (v : Nat) : M Unit :=
  match decodePoint (.lookup .setup) v with
  | .ok (.lookupNone _) => lookupSetup .none
  | .ok (.lookupLattice _) => lookupSetup .lattice
  | .ok (.lookupDirect _) => lookupSetup .direct
  | _ => raise .invalidSetup

/-- One codebook (30_encoding.md R160 to R163, 42_setup.md R290 to R300).  The VQ fields of a book with lookup type 0, which are not
read, hold 0, false and no multiplicands: a DESIGN CHOICE (notes/assumptions/46.md). -/
def codebookSetup : M Unit := do
  let sync ← setupBits 24
  check (sync == 0x564342) .invalidSetup
  let dimensions ← setupBits 16
  let entries ← setupBits 24
  check (!(dimensions == 0 && entries != 0)) .invalidSetup
  let ordered ← setupFlag
  let lengths ← codewordLengths ordered entries
  setTables fun t =>
    { t with codebooks := t.codebooks ++ [⟨dimensions, entries, lengths, .none, 0, 0, 0, false, 0, [], []⟩] }
  let lt ← setupBits 4
  lookupField lt

/-! ### Time domain -/

/-- One time-domain placeholder (30_encoding.md R165, 42_setup.md R310). -/
def timePlaceholder : M Unit := do
  let v ← setupBits 16
  check (v == 0) .invalidSetup

/-! ### Floors -/

/-- Insert an index by its X value. -/
def insertByX (xs : List Nat) (i : Nat) : List Nat → List Nat
  | [] => [i]
  | j :: rest => if xs.getD i 0 ≤ xs.getD j 0 then i :: j :: rest else j :: insertByX xs i rest

/-- `sorted_order` (42_setup.md R312). -/
def sortByX (xs : List Nat) : List Nat := (List.range xs.length).foldr (insertByX xs) []

/-- The better of two candidate neighbours: the first whose X stands in the wanted order. -/
def betterNeighbor (xs : List Nat) (inside closer : Nat → Nat → Bool) (j : Nat) (best : Option Nat) (i : Nat) : Option Nat :=
  if inside (xs.getD i 0) (xs.getD j 0) then
    match best with
    | none => some i
    | some k => if closer (xs.getD i 0) (xs.getD k 0) then some i else best
  else best

/-- `low_neighbor[j]`: the index i < j with the greatest X below X[j] (42_setup.md R312). -/
def lowNeighborOf (xs : List Nat) (j : Nat) : Nat :=
  ((List.range j).foldl (betterNeighbor xs (fun a b => decide (a < b)) (fun a b => decide (b < a)) j) none).getD 0

/-- `high_neighbor[j]`: the index i < j with the least X above X[j] (42_setup.md R312). -/
def highNeighborOf (xs : List Nat) (j : Nat) : Nat :=
  ((List.range j).foldl (betterNeighbor xs (fun a b => decide (b < a)) (fun a b => decide (a < b)) j) none).getD 0

/-- Whether no two X values are equal (42_setup.md R312). -/
def distinctXs : List Nat → Bool
  | [] => true
  | x :: rest => !rest.contains x && distinctXs rest

/-- A subclass book: the field minus one, below codebook_count (30_encoding.md R167, 42_setup.md R311). -/
def subclassBook : M Int := do
  let v ← setupBits 8
  let s ← get
  check (decide (v ≤ s.tab.codebooks.length)) .invalidSetup
  pure ((v : Int) - 1)

/-- One partition class (30_encoding.md R167, 42_setup.md R311).  The master book of a class without subclasses, which is not read,
holds 0: a DESIGN CHOICE (notes/assumptions/46.md). -/
def floorClassSetup : M FloorClass := do
  let dim ← setupBits 3
  let sub ← setupBits 2
  let master ← readIf (sub != 0) (setupBits 8) 0
  let s ← get
  check (sub == 0 || decide (master < s.tab.codebooks.length)) .invalidSetup
  let books ← readMany subclassBook (2 ^ sub)
  pure ⟨dim + 1, sub, master, books⟩

/-- The X values of the partitions (30_encoding.md R167). -/
def floorXs (rangebits : Nat) (classes : List FloorClass) : List Nat → M (List Nat)
  | [] => pure []
  | c :: rest => do
    let xs ← readMany (setupBits rangebits) (classes.getD c ⟨0, 0, 0, []⟩).dim
    let more ← floorXs rangebits classes rest
    pure (xs ++ more)

/-- Floor type 0: its fields are read only to report it (30_encoding.md R166, 42_setup.md R311). -/
def floor0Setup : M Unit := do
  let _order ← setupBits 8
  let _rate ← setupBits 16
  let _barkMapSize ← setupBits 16
  let _amplitudeBits ← setupBits 6
  let _amplitudeOffset ← setupBits 8
  let books ← setupBits 4
  let _bookList ← readMany (setupBits 8) (books + 1)
  raise .featureNotSupported

/-- Floor type 1 (30_encoding.md R167, 42_setup.md R311, R312): the floor is added to the table. -/
def floor1Setup : M Unit := do
  let partitions ← setupBits 5
  let partitionClass ← readMany (setupBits 4) partitions
  let classCount := partitionClass.foldl (fun n c => max n (c + 1)) 0
  let classes ← readMany floorClassSetup classCount
  let mult ← setupBits 2
  let rangebits ← setupBits 4
  let more ← floorXs rangebits classes partitionClass
  let xs := 0 :: 2 ^ rangebits :: more
  check (distinctXs xs) .invalidSetup
  setTables fun t =>
    { t with
      floors := t.floors ++
        [{ partitionClass := partitionClass, classes := classes, multiplier := mult + 1, rangebits := rangebits, xs := xs
           sortedOrder := sortByX xs
           lowNeighbor := (List.range xs.length).map (lowNeighborOf xs)
           highNeighbor := (List.range xs.length).map (highNeighborOf xs) }] }

/-- Run the setup of a floor type field's value (30_encoding.md R166, R192). -/
def floorField (v : Nat) : M Unit :=
  match decodePoint (.floor .setup) v with
  | .ok .floorType0 => floor0Setup
  | .ok (.floorType1 _) => floor1Setup
  | _ => raise .invalidSetup

/-- One floor. -/
def floorSetup : M Unit := do
  let ty ← setupBits 16
  floorField ty

/-! ### Residues -/

/-- The cascade bits of one class (30_encoding.md R168). -/
def residueCascade : M Nat := do
  let low ← setupBits 3
  let flag ← setupFlag
  let high ← readIf flag (setupBits 5) 0
  pure (high * 8 + low)

/-- The book of a class in a pass (30_encoding.md R168, 42_setup.md R318). -/
def residueBook (cascade pass : Nat) : M Int :=
  if cascade.testBit pass then do
    let v ← setupBits 8
    let s ← get
    check (decide (v < s.tab.codebooks.length)) .invalidSetup
    pure (v : Int)
  else pure (-1)

/-- The books of one class in the passes given. -/
def residueClassBooks (cascade : Nat) : List Nat → M (List Int)
  | [] => pure []
  | pass :: rest => do
    let b ← residueBook cascade pass
    let bs ← residueClassBooks cascade rest
    pure (b :: bs)

/-- The books of every class (30_encoding.md R168). -/
def residueBooks : List Nat → M (List (List Int))
  | [] => pure []
  | cascade :: rest => do
    let bs ← residueClassBooks cascade (List.range 8)
    let more ← residueBooks rest
    pure (bs :: more)

/-- A residue after its type field (30_encoding.md R168, 42_setup.md R318): it is added to the table. -/
def residueSetupAs (ty : ResidueType) : M Unit := do
  let first ← setupBits 24
  let last ← setupBits 24
  check (decide (first ≤ last)) .invalidSetup
  let partSize ← setupBits 24
  let classifications ← setupBits 6
  let classbook ← setupBits 8
  let s ← get
  check (decide (classbook < s.tab.codebooks.length)) .invalidSetup
  let cascades ← readMany residueCascade (classifications + 1)
  let books ← residueBooks cascades
  let cb := s.tab.codebook classbook
  setTables fun t =>
    { t with
      residues := t.residues ++
        [{ type := ty, first := first, last := last, partSize := partSize + 1, classifications := classifications + 1
           classbook := classbook, books := books
           classdata := (List.range cb.entries).map (classDigits (classifications + 1) cb.dimensions) }] }

/-- Run the setup of a residue type field's value (30_encoding.md R168, R192). -/
def residueField (v : Nat) : M Unit :=
  match decodePoint (.residue .setup) v with
  | .ok (.residueType0 _) => residueSetupAs .type0
  | .ok (.residueType1 _) => residueSetupAs .type1
  | .ok (.residueType2 _) => residueSetupAs .type2
  | _ => raise .invalidSetup

/-- One residue. -/
def residueSetup : M Unit := do
  let ty ← setupBits 16
  residueField ty

/-! ### Mappings and modes -/

/-- One coupling step (30_encoding.md R169, 42_setup.md R320). -/
def couplingStep (channels : Nat) : M (Nat × Nat) := do
  let magnitude ← setupBits (ilog (channels - 1))
  let angle ← setupBits (ilog (channels - 1))
  check (decide (magnitude < channels) && decide (angle < channels) && magnitude != angle) .invalidSetup
  pure (magnitude, angle)

/-- One channel's submap (30_encoding.md R170, 42_setup.md R320). -/
def muxEntry (submaps : Nat) : M Nat := do
  let v ← setupBits 4
  check (decide (v < submaps)) .invalidSetup
  pure v

/-- One submap's floor and residue (30_encoding.md R170, 42_setup.md R320). -/
def submapEntry : M (Nat × Nat) := do
  let _time ← setupBits 8
  let floor ← setupBits 8
  let s ← get
  check (decide (floor < s.tab.floors.length)) .invalidSetup
  let residue ← setupBits 8
  check (decide (residue < s.tab.residues.length)) .invalidSetup
  pure (floor, residue)

/-- Mapping type 0 after its type field (30_encoding.md R169, R170, 42_setup.md R320): it is added to the table. -/
def mapping0Setup : M Unit := do
  let s ← get
  let channels := s.tab.channels
  let several ← setupFlag
  let submaps ← readIf several (biased 4) 1
  let coupled ← setupFlag
  let steps ← readIf coupled (biased 8) 0
  check (decide (steps ≤ channels)) .invalidSetup
  let coupling ← readMany (couplingStep channels) steps
  let reserved ← setupBits 2
  check (reserved == 0) .invalidSetup
  let mux ← readIf (decide (1 < submaps)) (readMany (muxEntry submaps) channels) (List.replicate channels 0)
  let subs ← readMany submapEntry submaps
  setTables fun t =>
    { t with mappings := t.mappings ++ [⟨submaps, coupling, mux, subs.map Prod.fst, subs.map Prod.snd⟩] }

/-- Run the setup of a mapping type field's value (30_encoding.md R169, R192). -/
def mappingField (v : Nat) : M Unit :=
  match decodePoint .mapping v with
  | .ok .mappingType0 => mapping0Setup
  | _ => raise .invalidSetup

/-- One mapping. -/
def mappingSetup : M Unit := do
  let ty ← setupBits 16
  mappingField ty

/-- One mode (30_encoding.md R171, 42_setup.md R322). -/
def modeSetup : M Unit := do
  let long ← setupFlag
  let windowtype ← setupBits 16
  check (windowtype == 0) .invalidSetup
  let transformtype ← setupBits 16
  check (transformtype == 0) .invalidSetup
  let mapping ← setupBits 8
  let s ← get
  check (decide (mapping < s.tab.mappings.length)) .invalidSetup
  setTables fun t => { t with modes := t.modes ++ [⟨long, mapping⟩] }

/-! ### Setup header -/

/-- Run a step a number of times. -/
def times (step : M Unit) : Nat → M Unit
  | 0 => pure ()
  | n + 1 => do
    step
    times step n

/-- A counted table: a count field plus one, then that many entries (30_encoding.md R160, R165, R166, R168, R169, R171). -/
def countedTable (width : Nat) (entry : M Unit) : M Unit := do
  let n ← biased width
  times entry n

/-- The setup packet after its type byte (30_encoding.md R143, 42_setup.md R288 to R324). -/
def setupBody : M Unit := do
  vorbisString .invalidSetup
  countedTable 8 codebookSetup
  countedTable 6 timePlaceholder
  countedTable 6 floorSetup
  countedTable 6 residueSetup
  countedTable 6 mappingSetup
  countedTable 6 modeSetup
  let _framing ← setupBits 1
  flushPacket

/-! ### The open -/

/-- The first page's checks (42_setup.md R281); a body byte past the source's end is compared as the 0 that `get8` returns
(notes/assumptions/34.md), and a segment shorter than 8 is not read (notes/assumptions/32.md). -/
def firstPageChecks : M Unit := do
  let s ← get
  let c := s.cur
  check (pageFirst c.pageFlag && !pageLast c.pageFlag && !pageContinued c.pageFlag) .invalidFirstPage
  check (c.segmentCount == 1) .invalidFirstPage
  let len := (c.segments.getD 0 0).toNat
  if len = 30 then pure ()
  else if len < 8 then raise .invalidFirstPage
  else
    let bs ← readMany get8 8
    if bs = fisheadBytes then raise .oggSkeletonNotSupported else raise .invalidFirstPage

/-- A header packet: its start, its type byte, and its body (42_setup.md R282, R286, R288). -/
def headerPacket (k : HeaderKind) (body : M Unit) : M Unit := do
  startPacket
  let x ← get8Packet
  check (x == some (BitVec.ofNat 8 k.typeByte)) (headerError k)
  body

/-- The three header packets (42_setup.md R281 to R324). -/
def parseHeaders : M Unit := do
  startPage
  firstPageChecks
  headerPacket .identification identificationBody
  headerPacket .comment commentBody
  headerPacket .setup setupBody

/-- Whether the tables fit the arena (42_setup.md R326, 00_scope.md R18); the sizes are a free value (notes/assumptions/12.md). -/
def fitsArena (p : Config.Params) (t : Tables) : Bool :=
  match p.arenaBytes with
  | none => true
  | some limit => decide (Config.arenaNeed t ≤ limit)

/-- The buffers an open reserves (42_setup.md R326, 10_state.md R60 to R62); their contents are free values
(notes/assumptions/7.md). -/
def reserveBuffers (channels blocksize1 : Nat) : Work :=
  let samples (buffer ch : Nat) : List F32 := (List.range blocksize1).map (Config.staleSample buffer ch)
  { channelBuffer := (List.range channels).map (samples 0)
    previousWindow := (List.range channels).map (samples 1)
    finalY := (List.range channels).map fun ch => (List.range 250).map (Config.staleY ch)
    zeroChannel := (List.range channels).map (Config.staleFlag 0)
    reallyZeroChannel := (List.range channels).map (Config.staleFlag 1) }

/-- The derived tables and buffers of an open (42_setup.md R326). -/
def finishTables : M Unit := do
  setTables fun t => { t with window0 := windowTable (t.blocksize false), window1 := windowTable (t.blocksize true) }
  let s ← get
  check (fitsArena s.params s.tab) .outOfMem
  setWork fun _ => reserveBuffers s.tab.channels (s.tab.blocksize true)

/-- The runtime state at the end of a successful open (42_setup.md R328, R330). -/
def openRuntime (s : State) : State :=
  { s with
    ctl.state := .decoding
    ctl.firstDecode := true
    ctl.previousLength := 0
    ctl.discardSamplesDeferred := 0
    ctl.currentLoc := 0
    ctl.currentLocValid := false
    ctl.outLeft := 0
    ctl.outLen := 0
    ctl.totalSamplesKnown := .notComputed
    ctl.resync := false
    ctl.setupEndsPage := s.cur.nextSeg == -1
    src.firstAudioPageOffset := s.src.pos }

/-- Everything an open does before its runtime state (48_frame_control.md R540, R541). -/
def openTables : M Unit := do
  parseHeaders
  finishTables

/-- What `p_first` is once the first audio page was looked for (42_setup.md R332). -/
def State.probedFirst (s : State) : Option FoundPage → ProbedPage
  | some page => ⟨s.src.firstAudioPageOffset, page.stop, (s.granuleAt page.start).setWidth 32⟩
  | none => s.ctl.pFirst

/-- The probe of the first audio page at the end of a pull-mode open (42_setup.md R332). -/
def probeFirstPage : M Unit := do
  let found ← findPage
  let s ← get
  setControl fun c => { c with pFirst := s.probedFirst found }
  let _ ← setPos s.src.firstAudioPageOffset
  pure ()

end Sys2Proof.Machine
end

