-- ==== Sys2Proof/Machine/Frame.lean ====
section
/-! DEFINITION. Decoding one audio packet (48_frame_control.md sections 2 and 3): the stages, the sample-position bookkeeping and the
recovery after an error. -/

namespace Sys2Proof.Machine

/-! ### Sample position -/

/-- The left boundary and the deferred discard after the priming test (48_frame_control.md R524, R525). -/
def discardStart (c : Control) (n : Nat) (g : Geometry) : Control × Nat :=
  if c.firstDecode then
    ({ c with
        currentLoc := 0 - BitVec.ofNat 32 (n / 2)
        discardSamplesDeferred := n - g.rightEnd
        currentLocValid := true
        firstDecode := false }, g.leftStart)
  else if 0 < c.discardSamplesDeferred then
    if g.rightStart - g.leftStart ≤ c.discardSamplesDeferred then
      ({ c with discardSamplesDeferred := c.discardSamplesDeferred - (g.rightStart - g.leftStart) }, g.rightStart)
    else ({ c with discardSamplesDeferred := 0 }, g.leftStart + c.discardSamplesDeferred)
  else (c, g.leftStart)

/-- Advance `current_loc` past a frame that is not trimmed (48_frame_control.md R524). -/
def advanceLoc (c : Control) (left : Nat) (g : Geometry) : Control :=
  if c.currentLocValid then { c with currentLoc := c.currentLoc + BitVec.ofNat 32 (g.rightStart - left) } else c

/-- `bookkeeping(n, left_start, right_start, right_end)` (48_frame_control.md R524 to R527) on the control state, with the cursor
of the page where the packet ended. -/
def bookkeeping (cur : PageCursor) (n : Nat) (g : Geometry) (c : Control) : Frame × Control :=
  let (c1, left) := discardStart c n g
  if cur.lastSegWhich = cur.endSegWithKnownLoc then
    let known := cur.knownLocForPacket
    if c1.currentLocValid ∧ pageLast cur.pageFlag ∧ known < c1.currentLoc + BitVec.ofNat 32 (g.rightEnd - left) then
      let len := if known < c1.currentLoc then 0 else (known - c1.currentLoc).toNat
      let len := min (len + left) g.rightEnd
      (⟨len, left, g.rightStart⟩, { c1 with currentLoc := c1.currentLoc + BitVec.ofNat 32 len })
    else
      let c2 := { c1 with currentLoc := known - (BitVec.ofNat 32 (n / 2) - BitVec.ofNat 32 left), currentLocValid := true }
      (⟨g.rightEnd, left, g.rightStart⟩, advanceLoc c2 left g)
  else (⟨g.rightEnd, left, g.rightStart⟩, advanceLoc c1 left g)

/-! ### The stages -/

/-- The floors of all channels, channel 0 first (48_frame_control.md R520, 30_encoding.md R181); after a bad codeword in one, the next
channels' floors and the residue read on from the unconsumed bits (notes/assumptions/37.md). -/
def decodeFloors (map : Mapping) : List Nat → M Unit :=
  forEach fun ch => do
    let s ← get
    floor1Decode ch (s.tab.floor (map.submapFloor.getD (map.mux.getD ch 0) 0))

/-- Zeroing or rendering one channel (48_frame_control.md R520, 44_floor1.md R390, R395). -/
def renderChannel (t : Tables) (map : Mapping) (n2 : Nat) (w : Work) (ch : Nat) : Work :=
  if w.reallyZeroChannel.getD ch true then clearSpectrum n2 w ch
  else
    { w with
      channelBuffer := w.channelBuffer.modify ch
        (floorRender (t.floor (map.submapFloor.getD (map.mux.getD ch 0) 0)) (w.finalY.getD ch []) n2) }

/-- The transform of every channel (48_frame_control.md R520, 47_imdct_lapping.md R470). -/
def transformAll (n : Nat) (w : Work) : Work := { w with channelBuffer := w.channelBuffer.map (imdctBuffer n) }

/-- Coupling, floors and transform, which read no bits (48_frame_control.md R520). -/
def synthesize (t : Tables) (map : Mapping) (n : Nat) (w : Work) : Work :=
  transformAll n ((List.range t.channels).foldl (renderChannel t map (n / 2)) (coupleAll map (n / 2) w))

/-- The audio packet whose mode is known (48_frame_control.md R520, 30_encoding.md R180 to R182). -/
def decodeMode (mode : ModeEntry) : M Frame := do
  let s ← get
  let t := s.tab
  let map := t.mapping mode.mapping
  let n := t.blocksize mode.long
  let prev ← readIf mode.long getFlag false
  let next ← readIf mode.long getFlag false
  let g := geometry n (t.blocksize false) mode.long prev next
  decodeFloors map (List.range t.channels)
  setWork (propagateNonzero map)
  decodeResidues map (n / 2) (List.range map.submaps)
  setWork (synthesize t map n)
  flushPacket
  let u ← get
  setControl fun c => (bookkeeping u.cur n g c).2
  pure (bookkeeping u.cur n g u.ctl).1

/-- The audio packet after its type bit (48_frame_control.md R520, 30_encoding.md R180, R194). -/
def audioBody : M Frame := do
  let s ← get
  let i ← getBits (ilog (s.tab.modes.length - 1))
  match s.tab.modes[i]? with
  | none =>
    flushPacket
    raise .invalidStream
  | some mode => decodeMode mode

/-- `decode_packet()` (48_frame_control.md R520, R522): `none` is END.  In pull mode every turn of the skip loop starts a packet;
a packet needs a segment, so the fuel `decodePacket` gives is never used up (notes/assumptions/23.md). -/
def decodePacketFuel : Nat → M (Option Frame)
  | 0 => pure none
  | fuel + 1 => do
    let more ← maybeStartPacket
    if !more then pure none
    else
      let v ← getBits 1
      match decodePoint .audio v with
      | .ok .audioPacket =>
        let f ← audioBody
        pure (some f)
      | _ =>
        let s ← get
        if s.ctl.api = .push then raise .badPacketType
        else
          flushPacket
          decodePacketFuel fuel

/-- `decode_packet()` (48_frame_control.md R520). -/
def decodePacket : M (Option Frame) := do
  let s ← get
  decodePacketFuel (255 * (s.src.len.toNat + 2))

/-! ### Recovery -/

/-- Consume the tail of a continued packet (48_frame_control.md R523, 41_ogg_framer.md R243): the tail is what the page's segments
hold up to its EOP, whatever packet was read before (notes/assumptions/17.md). -/
def skipTail : M Unit := do
  setCursor fun c => { c with lastSeg := false, bytesInSeg := 0 }
  flushPacket

/-- The scan from the byte after the start of a page that does not parse (48_frame_control.md R531); after a start at offset 2^32-1
that is the end of the source (notes/assumptions/41.md). -/
def rescan : M Unit := do
  let s ← get
  let _ ← setPos (offsetPlus s.src.pageStart 1)
  let _ ← findPage
  setCursor fun c => { c with nextSeg := -1 }
  setControl fun c => { c with previousLength := 0, currentLocValid := false }

/-- Positioning to retry in pull mode (48_frame_control.md R523, R531). -/
def recover (e : ErrCode) : M Unit :=
  match e with
  | .missingCapturePattern | .invalidStreamStructureVersion => rescan
  | .continuedPacketFlagInvalid => skipTail
  | _ => pure ()

/-- Taking an error met while decoding audio (60_exceptions.md R604): in pull mode the input is positioned to retry first.  The first
raise is the command's error (60_exceptions.md R611): what the recovery meets does not replace it. -/
def failFrame (e : ErrCode) (s : State) : State :=
  if s.inHeaders ∨ s.ctl.api = .push then takeError e s
  else match recover e s with
    | .ok _ t | .error _ t => takeError e t

/-! ### One frame -/

/-- The results of a frame (48_frame_control.md R543). -/
def frameDelivered (f : Frame) (s : State) : State :=
  let r := deliverFrame f s
  { r.2 with regs.ret0 := BitVec.ofNat 32 r.1, regs.result := .ok }

/-- What DECODE_FRAME clears first (48_frame_control.md R543). -/
def framePrologue (s : State) : State :=
  { s with ctl.outLen := 0, regs.ret0 := 0, regs.ret1 := BitVec.ofNat 32 s.tab.channels }

/-- DECODE_FRAME's body (48_frame_control.md R543, R530); a seek runs it too. -/
def decodeFrameBody (s : State) : State :=
  if s.ctl.state = .eof then (framePrologue s).setResult .eof
  else match decodePacket (framePrologue s) with
    | .ok (some f) t => frameDelivered f t
    | .ok none t => { t.setResult .eof with ctl.state := .eof }
    | .error e t => failFrame e t

end Sys2Proof.Machine
end

