-- ==== Sys2Proof/Machine/Push.lean ====
section
/-! DEFINITION. Push mode: the whole-packet test (48_frame_control.md R545) and the resynchronisation scan of a chunk
(41_ogg_framer.md R256). -/

namespace Sys2Proof.Machine

/-! ### The whole-packet test -/

/-- The answers of `whole_packet_present()` (48_frame_control.md R545). -/
inductive PacketTest where
  | present
  | need
  | bad
  deriving DecidableEq, Repr

/-- Add up segments from a table until one ends the packet: the sum and whether one did (48_frame_control.md R545). -/
def sumSegments : List Byte → Nat → Nat × Bool
  | [], p => (p, false)
  | b :: bs, p => if b.toNat < 255 then (p + b.toNat, true) else sumSegments bs (p + b.toNat)

/-- Chunk byte `i`. -/
def State.chunkByte (s : State) (i : Nat) : Byte := s.srcByte (BitVec.ofNat 32 i)

/-- `n` chunk bytes from `i` on. -/
def State.chunkBytes (s : State) (i n : Nat) : List Byte := (List.range n).map fun k => s.chunkByte (i + k)

/-- The page loop of `whole_packet_present()` (48_frame_control.md R545): `p` is the offset of the next page header; every turn
moves it past a header. -/
def testPages (s : State) : Nat → Nat → Bool → PacketTest
  | 0, _, _ => .need
  | fuel + 1, p, first =>
    let len := s.src.len.toNat
    if len < p + 27 then .need
    else if s.chunkBytes p 4 ≠ captureBytes ∨ s.chunkByte (p + 4) ≠ 0 then .bad
    else
      let continued := pageContinued (s.chunkByte (p + 5))
      if first ∧ 0 < s.ctl.previousLength ∧ continued = true then .bad
      else if first = false ∧ continued = false then .bad
      else
        let k := (s.chunkByte (p + 26)).toNat
        let q := p + 27
        if len < q + k then .need
        else
          let (p', ended) := sumSegments (s.chunkBytes q k) (q + k)
          if len < p' then .need
          else if ended then .present
          else testPages s fuel p' false

/-- `whole_packet_present()` (48_frame_control.md R545): it reads the chunk without moving the position or the framer. -/
def wholePacketPresent (s : State) : PacketTest :=
  let len := s.src.len.toNat
  if s.cur.nextSeg = -1 then testPages s (len + 1) 0 true
  else
    let latched := (s.cur.segments.take s.cur.segmentCount).drop s.cur.nextSeg.toNat
    let (p, ended) := sumSegments latched 0
    if len < p then .need
    else if ended then .present
    else testPages s (len + 1) p false

/-! ### Resynchronisation -/

/-- What the chunk holds at an offset (41_ogg_framer.md R256). -/
inductive PageAt where
  | whole (granule : BitVec 64)
  | couldBegin
  | none
  deriving DecidableEq, Repr

/-- Whether the chunk holds, from offset `i` on, a whole CRC-valid page, or what may be the beginning of a page once more bytes
arrive (41_ogg_framer.md R256). -/
def pageAt (s : State) (i : Nat) : PageAt :=
  let left := s.src.len.toNat - i
  if left < 4 then
    if s.chunkBytes i left = captureBytes.take left then .couldBegin else .none
  else if s.chunkBytes i 4 ≠ captureBytes then .none
  else if left < 27 then .couldBegin
  else
    let k := (s.chunkByte (i + 26)).toNat
    if left < 27 + k then .couldBegin
    else
      let size := 27 + k + lacingSum (s.chunkBytes (i + 27) k)
      if left < size then .couldBegin
      else
        let page := s.chunkBytes i size
        if pageCrc page = crcField page then .whole (s.granuleAt (BitVec.ofNat 32 i)) else .none

/-- The least offset of a whole CRC-valid page at or after `i`, with its granule (41_ogg_framer.md R256). -/
def findWhole (s : State) : Nat → Nat → Option (Nat × BitVec 64)
  | 0, _ => none
  | n + 1, i =>
    match pageAt s i with
    | .whole g => some (i, g)
    | _ => findWhole s n (i + 1)

/-- The first offset at or after `i` where a page could still begin, or the chunk's length (41_ogg_framer.md R256). -/
def findBeginning (s : State) : Nat → Nat → Nat
  | 0, i => i
  | n + 1, i =>
    match pageAt s i with
    | .couldBegin => i
    | _ => findBeginning s n (i + 1)

/-- The scan of a chunk while resynchronising (41_ogg_framer.md R256, 48_frame_control.md R542).  The page found is where decoding
resumes, so no latched segment is left (notes/assumptions/18.md). -/
def resyncScan (s : State) : State :=
  let len := s.src.len.toNat
  match findWhole s len 0 with
  | some (i, granule) =>
    { s with
      ctl.resync := false
      ctl.previousLength := 0
      ctl.currentLoc := granule.setWidth 32
      ctl.currentLocValid := decide (granule ≠ BitVec.allOnes 64)
      cur.nextSeg := -1
      regs.ret0 := BitVec.ofNat 32 i
      regs.result := .ok }
  | none =>
    let t := takeError .needMoreData s
    { t with regs.ret0 := BitVec.ofNat 32 (findBeginning s len 0) }

/-! ### One push -/

/-- The machine with the chunk as its source (48_frame_control.md R541, R542). -/
def State.takeChunk (s : State) : State :=
  { s with src.base := s.regs.arg0, src.len := s.regs.arg1, src.pos := 0, src.eof := false }

/-- Consume a packet that is skipped with no error kept (48_frame_control.md R542, 41_ogg_framer.md R243). -/
def skipPushed (e : ErrCode) : M Unit :=
  if e = .continuedPacketFlagInvalid then do
    setCursor fun c => { c with lastSeg := false, bytesInSeg := 0 }
    drainPacket
  else drainPacket

/-- Report the bytes of the chunk that were consumed (48_frame_control.md R542). -/
def State.reportConsumed (s : State) : State := { s with regs.ret0 := s.src.pos, regs.result := .ok }

/-- The two skip cases of push mode (48_frame_control.md R542, 30_encoding.md R193, 41_ogg_framer.md R243). -/
def pushSkips (e : ErrCode) (s : State) : Bool :=
  e == .badPacketType || (e == .continuedPacketFlagInvalid && s.ctl.previousLength == 0)

/-- A hard error of a push decode (48_frame_control.md R542): resynchronise, one byte consumed. -/
def pushFails (e : ErrCode) (s : State) : State := { takeError e s with regs.ret0 := 1 }

/-- Decode the packet that is wholly present (48_frame_control.md R542). -/
def pushPacket (s : State) : State :=
  match decodePacket s with
  | .ok (some f) t =>
    let r := deliverFrame f t
    { r.2 with regs.ret0 := r.2.src.pos, regs.ret1 := BitVec.ofNat 32 r.1, regs.result := .ok }
  | .ok none t => t.reportConsumed
  | .error e t =>
    if pushSkips e t then
      match skipPushed e t with
      | .ok _ u => u.reportConsumed
      | .error e' u => pushFails e' u
    else pushFails e t

/-- PUSH_DECODE's body (48_frame_control.md R542). -/
def pushDecodeBody (s : State) : State :=
  let s := { s.takeChunk with ctl.outLen := 0, regs.ret1 := 0, regs.ret2 := BitVec.ofNat 32 s.tab.channels }
  if s.ctl.resync then resyncScan s
  else match wholePacketPresent s with
    | .need => takeError .needMoreData s
    | .bad => takeError .invalidStream { s with regs.ret0 := 0 }
    | .present => pushPacket s

end Sys2Proof.Machine
end

