-- ==== Sys2Proof/Machine/Seek.lean ====
section
/-! DEFINITION. The length of the stream and seeking (48_frame_control.md R548 to R552). -/

namespace Sys2Proof.Machine

/-! ### Stream length -/

/-- Whether the last page found ends the walk, and the walk over later pages (48_frame_control.md R552); every page moves the
position forward. -/
def lastPageFuel : Nat → FoundPage → M FoundPage
  | 0, page => pure page
  | fuel + 1, page =>
    if page.last then pure page
    else do
      let _ ← setPos page.stop
      let found ← findPage
      match found with
      | none => pure page
      | some next => lastPageFuel fuel next

/-- The offset the scan for the last page starts at (48_frame_control.md R552): the final 64 KiB, unless they begin before the
audio. -/
def lengthScanStart (v : Source) : Word :=
  if 65536 ≤ v.len ∧ v.firstAudioPageOffset ≤ v.len - 65536 then v.len - 65536 else v.firstAudioPageOffset

/-- What a page's granule tells about the stream length (48_frame_control.md R552): all ones tells nothing, and a value past 32
bits saturates. -/
def lengthOfGranule (g : BitVec 64) : Option Word :=
  if g = BitVec.allOnes 64 then none
  else if 2 ^ 32 ≤ g.toNat then some 0xFFFFFFFE
  else some (g.setWidth 32)

/-- Record that no length was found (48_frame_control.md R552). -/
def lengthUnknown : M Unit := do
  note .cantFindLastPage
  setControl fun c => { c with totalSamplesKnown := .unknown }

/-- Walk to the last page from the first one found, and record its granule as the length (48_frame_control.md R552). -/
def recordLength : Option FoundPage → M Unit
  | none => lengthUnknown
  | some first => do
    let s ← get
    let page ← lastPageFuel (s.src.len.toNat + 1) first
    match lengthOfGranule (s.granuleAt page.start) with
    | none => lengthUnknown
    | some total =>
      setControl fun c =>
        { c with totalSamples := total, totalSamplesKnown := .known, pLast := ⟨page.start, page.stop, total⟩ }

/-- The scan of `stream_length()` (48_frame_control.md R552). -/
def lengthScan : M Unit := do
  let s ← get
  let saved := s.src.pos
  let _ ← setPos (lengthScanStart s.src)
  let found ← findPage
  recordLength found
  let _ ← setPos saved
  pure ()

/-- `stream_length()` (48_frame_control.md R552). -/
def streamLength : M Word := do
  let s ← get
  readIf (s.ctl.totalSamplesKnown == .notComputed) lengthScan ()
  let t ← get
  pure (if t.ctl.totalSamplesKnown = .known then t.ctl.totalSamples else 0)

/-! ### Seeking -/

/-- SEEK_START's body without its result (48_frame_control.md R549). -/
def rewind : M Unit := do
  let s ← get
  let _ ← setPos s.src.firstAudioPageOffset
  setCursor fun c => { c with nextSeg := -1, lastSeg := false, bytesInSeg := 0 }
  setReader fun r => { r with validBits := 0 }
  setControl fun c =>
    { c with
      firstDecode := true, previousLength := 0, discardSamplesDeferred := 0, currentLoc := 0
      currentLocValid := false, outLen := 0, state := .decoding }

/-- Where the machine's decode stands. -/
def State.decodePoint (s : State) : DecodePoint :=
  { rd := s.rd
    cur := s.cur
    pos := s.src.pos
    eof := s.src.eof
    pageStart := s.src.pageStart
    firstDecode := s.ctl.firstDecode
    currentLoc := s.ctl.currentLoc
    discardSamplesDeferred := s.ctl.discardSamplesDeferred
    previousLength := s.ctl.previousLength
    previousWindow := s.work.previousWindow
    error := s.ctl.error }

/-- What a policy sees of the machine (00_scope.md R19). -/
def State.seekInput (s : State) (target length : Word) : Config.SeekInput :=
  { target := target
    length := length
    firstPage := (s.ctl.pFirst.pageStart, s.ctl.pFirst.pageEnd, s.ctl.pFirst.lastDecodedSample)
    lastPage := (s.ctl.pLast.pageStart, s.ctl.pLast.pageEnd, s.ctl.pLast.lastDecodedSample)
    point := s.decodePoint
    currentLocValid := s.ctl.currentLocValid
    tables := s.tab
    source := s.srcBytes }

/-- The machine after a seek that landed (48_frame_control.md R548).  The rule names no pending code for it: the landing's is the
model's DESIGN CHOICE, one that `State.leavesCode` allows (notes/assumptions/39.md). -/
def State.landed (s : State) (p : DecodePoint) : State :=
  { s with
    rd := p.rd
    cur := p.cur
    src.pos := p.pos, src.eof := p.eof, src.pageStart := p.pageStart
    work.previousWindow := p.previousWindow
    ctl.firstDecode := p.firstDecode, ctl.currentLoc := p.currentLoc, ctl.currentLocValid := true
    ctl.discardSamplesDeferred := p.discardSamplesDeferred, ctl.previousLength := p.previousLength
    ctl.error := p.error, ctl.outLen := 0, ctl.state := .decoding
    regs.result := .ok }

/-- The sample frames in the PCM window, one value for each channel (48_frame_control.md R548). -/
def State.frames (s : State) : List (List F32) :=
  (List.range s.ctl.outLen).map fun j => (List.range s.tab.channels).map fun c => s.pcmWord c j

/-- The outputs of at most so many DECODE_FRAMEs, up to EOF. -/
def framesToEnd : Nat → State → List (List F32)
  | 0, _ => []
  | fuel + 1, s =>
    let t := decodeFrameBody s
    if t.ctl.state = .eof then [] else t.frames ++ framesToEnd fuel t

/-- The concatenated outputs of DECODE_FRAMEs until EOF (48_frame_control.md R548).  Each takes a segment or a byte of the source, so
the fuel is never used up (notes/assumptions/23.md). -/
def State.remaining (s : State) : List (List F32) := framesToEnd (256 * (s.src.len.toNat + 2)) s

/-- Whether a landing stands in the ranges that 10_state.md gives its elements: R32 to R40, R41 (the end flag is set at the end of the
source only), R47, R48, and R61 (the number and size of the retained windows). -/
def State.holdsPoint (s : State) (p : DecodePoint) : Bool :=
  p.rd.inRange && p.cur.inRange && decide (p.pos ≤ s.src.len) && decide (p.eof = true → p.pos = s.src.len) &&
    decide (p.discardSamplesDeferred ≤ s.tab.blocksize true) && decide (p.previousLength ≤ s.tab.blocksize true / 2) &&
    p.previousWindow.map List.length == s.work.previousWindow.map List.length

/-- The codes that reading, scanning and decoding raise or note in pull mode (60_exceptions.md R601), which a policy may therefore
leave pending (notes/assumptions/39.md). -/
def policyCodes : List Byte :=
  [ErrCode.unexpectedEof, .invalidStream, .missingCapturePattern, .invalidStreamStructureVersion, .continuedPacketFlagInvalid,
    .cantFindLastPage].map ErrCode.code

/-- The pending code a policy may leave: the one there was, or one its own decoding met.  48_frame_control.md R548 is silent, so this
is a DESIGN CHOICE (notes/assumptions/39.md); no policy clears an unread code, which only GET_ERROR does (10_state.md R49), and none
writes a code that 60_exceptions.md R601 says is never written. -/
def State.leavesCode (s : State) (code : Byte) : Bool := decide (code = s.ctl.error ∨ code ∈ policyCodes)

/-- The postcondition of SEEK_POLICY (48_frame_control.md R548) for a landing of the rewound machine: a sample at or before the
target, from which the stream's samples follow bit for bit; the decode stands in the ranges of 10_state.md, and the pending code is
one that a policy may leave (the model's choice, notes/assumptions/39.md). -/
def State.landsAt (s : State) (target : Word) (p : DecodePoint) : Bool :=
  decide (p.currentLoc ≤ target) && s.holdsPoint p && s.leavesCode p.error &&
    (s.landed p).remaining == s.remaining.drop p.currentLoc.toNat

/-- The state after a raise-free step; no step it is used on raises. -/
def runState (m : M Unit) (s : State) : State :=
  match m s with
  | .ok _ t => t
  | .error e t => takeError e t

/-- SEEK after its policy (48_frame_control.md R548): a landing that meets the postcondition is taken; anything else is a failed
policy, which rewinds (notes/assumptions/11.md). -/
def seekEnd (policy : Option DecodePoint) (target : Word) (s : State) : State :=
  let t := runState rewind s
  match policy with
  | none => takeError .seekFailed t
  | some p => if t.landsAt target p then t.landed p else takeError .seekFailed t

/-- SEEK's policy and its end (48_frame_control.md R548), on a stream of known length. -/
def seekTo (target length : Word) (s : State) : State :=
  seekEnd (Config.seekPolicy (s.seekInput target length)) target s

/-- SEEK's body (48_frame_control.md R548). -/
def seekBody (s : State) : State :=
  let target := s.regs.arg0
  if !s.ctl.setupEndsPage then takeError .seekFailed s
  else match streamLength s with
    | .error e t => takeError e t
    | .ok length t =>
      if length = 0 then takeError .seekWithoutLength t
      else if length < target then takeError .seekInvalid t
      else seekTo target length t

/-- SEEK_START's body (48_frame_control.md R549). -/
def seekStartBody (s : State) : State :=
  if !s.ctl.setupEndsPage then takeError .seekFailed s
  else (runState rewind s).setResult .ok

end Sys2Proof.Machine
end

