-- ==== Sys2Proof/Machine/Commands.lean ====
section
/-! DEFINITION. The meanings of the host commands (48_frame_control.md section 4), one definition for each. -/

namespace Sys2Proof.Machine

/-- The checks at a CMD write, in the order of 60_exceptions.md R610: the state (48_frame_control.md R562), then the api
(60_exceptions.md R606), then the command's body.  The reserved encodings are an instruction of their own. -/
def runCommand (i : Instr) (body : State → State) (s : State) : State :=
  if !commandAllowed i s.ctl.state then takeError .illegalCommand s
  else match commandApi i with
    | some api => if s.ctl.api = api then body s else takeError .invalidApiMixing s
    | none => body s

/-! ### Opening -/

/-- The source, framer and bit reader at the start of an open (48_frame_control.md R540, R541).  The tables are built from
nothing (10_state.md R52: absent until an open has run; R541; notes/assumptions/25.md). -/
def openPrologue (api : Api) (s : State) : State :=
  { s with
    ctl.api := api
    tab := Tables.absent
    src := ⟨s.regs.arg0, s.regs.arg1, 0, false, 0, 0⟩
    cur := PageCursor.reset
    rd := BitReader.reset }

/-- What OPEN_PULL does after its prologue (48_frame_control.md R540). -/
def openPullSteps : M Unit := do
  openTables
  modify openRuntime
  probeFirstPage

/-- OPEN_PULL's body (48_frame_control.md R540). -/
def openPullBody (s : State) : State :=
  match openPullSteps { openPrologue .pull s with ctl.state := .awaitingHeaders } with
  | .ok _ t => t.setResult .ok
  | .error e t => takeError e t

/-- OPEN_PUSH on a chunk that ends inside the headers (48_frame_control.md R541). -/
def openNeedsMore (s : State) : State :=
  takeError .needMoreData { s.discardTables with ctl.state := .awaitingHeaders }

/-- OPEN_PUSH's body (48_frame_control.md R541): a read past the chunk's end takes precedence over any error. -/
def openPushBody (s : State) : State :=
  match openTables (openPrologue .push s) with
  | .ok _ t => if t.src.eof then openNeedsMore t else (openRuntime t).reportConsumed
  | .error e t => if t.src.eof then openNeedsMore t else takeError e t

/-- OPEN_PULL (48_frame_control.md R540). -/
def execOpenPull (s : State) : Host.Outcome State Fault Refusal := .next (runCommand .openPull openPullBody s)

/-- OPEN_PUSH (48_frame_control.md R541). -/
def execOpenPush (s : State) : Host.Outcome State Fault Refusal := .next (runCommand .openPush openPushBody s)

/-! ### Decoding -/

/-- PUSH_DECODE (48_frame_control.md R542). -/
def execPushDecode (s : State) : Host.Outcome State Fault Refusal := .next (runCommand .pushDecode pushDecodeBody s)

/-- DECODE_FRAME (48_frame_control.md R543). -/
def execDecodeFrame (s : State) : Host.Outcome State Fault Refusal := .next (runCommand .decodeFrame decodeFrameBody s)

/-! ### Information, seeking and errors -/

/-- GET_INFO's body (48_frame_control.md R544). -/
def getInfoBody (s : State) : State :=
  { s with
    regs.ret0 := BitVec.ofNat 32 s.tab.channels
    regs.ret1 := s.tab.sampleRate
    regs.ret2 := BitVec.ofNat 32 s.tab.maxFrame
    regs.result := .ok }

/-- GET_INFO (48_frame_control.md R544). -/
def execGetInfo (s : State) : Host.Outcome State Fault Refusal := .next (runCommand .getInfo getInfoBody s)

/-- SEEK (48_frame_control.md R548). -/
def execSeek (s : State) : Host.Outcome State Fault Refusal := .next (runCommand .seek seekBody s)

/-- SEEK_START (48_frame_control.md R549). -/
def execSeekStart (s : State) : Host.Outcome State Fault Refusal := .next (runCommand .seekStart seekStartBody s)

/-- STREAM_LENGTH's body (48_frame_control.md R552). -/
def streamLengthBody (s : State) : State :=
  match streamLength s with
  | .ok n t => { t with regs.ret0 := n, regs.result := .ok }
  | .error e t => takeError e t

/-- STREAM_LENGTH (48_frame_control.md R552). -/
def execStreamLength (s : State) : Host.Outcome State Fault Refusal :=
  .next (runCommand .streamLength streamLengthBody s)

/-- GET_ERROR's body (48_frame_control.md R557): the one-shot read of the pending code. -/
def getErrorBody (s : State) : State :=
  { s with regs.ret0 := s.ctl.error.zeroExtend 32, ctl.error := 0, regs.result := .ok }

/-- GET_ERROR (48_frame_control.md R557). -/
def execGetError (s : State) : Host.Outcome State Fault Refusal := .next (runCommand .getError getErrorBody s)

/-- CLOSE's body (48_frame_control.md R560): reset, but for ARG0, ARG1 and RESULT. -/
def closeBody (s : State) : State :=
  { s.hardReset with regs.arg0 := s.regs.arg0, regs.arg1 := s.regs.arg1, regs.result := .ok }

/-- CLOSE (48_frame_control.md R560). -/
def execClose (s : State) : Host.Outcome State Fault Refusal := .next (runCommand .close closeBody s)

/-- A CMD write of a reserved word (30_encoding.md R122, 60_exceptions.md R607): the word itself changes nothing. -/
def execIllegalCommand (_word : Word) (s : State) : Host.Outcome State Fault Refusal :=
  .next (takeError .illegalCommand s)

end Sys2Proof.Machine
end

