-- ==== Sys2Proof/Machine/Elements.lean ====
section
/-! DEFINITION. The meanings of the bitstream selectors, one definition for each: what the block does with a page, a packet or a type
field once the selector itself has been read (30_encoding.md sections 2 to 5).  The commands run the same functions. -/

namespace Sys2Proof.Machine

/-- Run a datapath step by itself: a raise is taken as inside a command (60_exceptions.md R604; notes/assumptions/26.md). -/
def runElement (m : M Unit) (s : State) : Host.Outcome State Fault Refusal :=
  match m s with
  | .ok _ t => .next t
  | .error e t => .next (failFrame e t)

/-- A datapath step on a table entry that must exist (notes/assumptions/27.md). -/
def runOnEntry (exists? : Bool) (m : M Unit) (s : State) : Host.Outcome State Fault Refusal :=
  if exists? then runElement m s else .fault .operandOutsideTables

/-! ### Pages and packets -/

/-- OGG_PAGE: the page header and segment table after the capture pattern (41_ogg_framer.md R233 to R236). -/
def execOggPage (s : State) : Host.Outcome State Fault Refusal := runElement startPageNoCapture s

/-- HDR_IDENTIFICATION: the identification packet after its type byte (42_setup.md R282 to R285). -/
def execHdrIdentification (s : State) : Host.Outcome State Fault Refusal := runElement identificationBody s

/-- HDR_COMMENT: the comment packet after its type byte (42_setup.md R286, R287). -/
def execHdrComment (s : State) : Host.Outcome State Fault Refusal := runElement commentBody s

/-- HDR_SETUP: the setup packet after its type byte (42_setup.md R288 to R324). -/
def execHdrSetup (s : State) : Host.Outcome State Fault Refusal := runElement setupBody s

/-- AUDIO_PACKET: the audio packet after its type bit, with its overlap-add (48_frame_control.md R520, R528). -/
def execAudioPacket (s : State) : Host.Outcome State Fault Refusal :=
  match audioBody s with
  | .ok f t => .next (deliverFrame f t).2
  | .error e t => .next (failFrame e t)

/-- BAD_PACKET_TYPE: the packet is consumed to its EOP and gives no samples (48_frame_control.md R522). -/
def execBadPacketType (s : State) : Host.Outcome State Fault Refusal :=
  runElement (if s.ctl.api = .push then drainPacket else flushPacket) s

/-! ### Codebook lookups -/

/-- A lookup type at its site: the rest of the codebook's setup, or one vector. -/
def runLookup (lt : LookupType) (site : LookupSite) (s : State) : Host.Outcome State Fault Refusal :=
  match site with
  | .setup => runElement (lookupSetup lt) s
  | .vector book slots =>
    runOnEntry (decide (book < s.tab.codebooks.length)) (do let _ ← decodeVqAs lt book slots; pure ()) s

/-- LOOKUP_NONE (42_setup.md R295; 43_codebook.md R351). -/
def execLookupNone (site : LookupSite) (s : State) : Host.Outcome State Fault Refusal := runLookup .none site s

/-- LOOKUP_LATTICE (42_setup.md R295 to R298; 43_codebook.md R352). -/
def execLookupLattice (site : LookupSite) (s : State) : Host.Outcome State Fault Refusal := runLookup .lattice site s

/-- LOOKUP_DIRECT (42_setup.md R295 to R298; 43_codebook.md R353). -/
def execLookupDirect (site : LookupSite) (s : State) : Host.Outcome State Fault Refusal := runLookup .direct site s

/-! ### Floors -/

/-- FLOOR_TYPE0 (42_setup.md R311): read its fields, report it, and fail the open. -/
def execFloorType0 (s : State) : Host.Outcome State Fault Refusal := runElement floor0Setup s

/-- FLOOR_TYPE1 (42_setup.md R311, R312; 44_floor1.md R383). -/
def execFloorType1 (site : FloorSite) (s : State) : Host.Outcome State Fault Refusal :=
  match site with
  | .setup => runElement floor1Setup s
  | .decode channel floor =>
    runOnEntry (decide (floor < s.tab.floors.length) && decide (channel < s.tab.channels))
      (floor1Decode channel (s.tab.floor floor)) s

/-! ### Residues -/

/-- A residue type at its site: the residue's setup, or the decode of one submap. -/
def runResidue (ty : ResidueType) (site : ResidueSite) (s : State) : Host.Outcome State Fault Refusal :=
  match site with
  | .setup => runElement (residueSetupAs ty) s
  | .decode long mapping submap =>
    runOnEntry (decide (mapping < s.tab.mappings.length) && decide (submap < (s.tab.mapping mapping).submaps))
      (do let _ ← residueDecodeAs ty (s.tab.mapping mapping) submap (s.tab.blocksize long / 2); pure ()) s

/-- RESIDUE_TYPE0 (42_setup.md R318; 45_residue.md R424, R430). -/
def execResidueType0 (site : ResidueSite) (s : State) : Host.Outcome State Fault Refusal := runResidue .type0 site s

/-- RESIDUE_TYPE1 (42_setup.md R318; 45_residue.md R424, R431). -/
def execResidueType1 (site : ResidueSite) (s : State) : Host.Outcome State Fault Refusal := runResidue .type1 site s

/-- RESIDUE_TYPE2 (42_setup.md R318; 45_residue.md R425, R432). -/
def execResidueType2 (site : ResidueSite) (s : State) : Host.Outcome State Fault Refusal := runResidue .type2 site s

/-! ### Mappings -/

/-- MAPPING_TYPE0 (42_setup.md R320; 30_encoding.md R169, R170). -/
def execMappingType0 (s : State) : Host.Outcome State Fault Refusal := runElement mapping0Setup s

end Sys2Proof.Machine
end

