-- ==== Sys2Proof/Machine/Dispatch.lean ====
section
/-! DEFINITION. One arm for each instruction: the call of its meaning. -/

namespace Sys2Proof.Machine

def exec (i : Instr) (s : State) : Host.Outcome State Fault Refusal :=
  match i with
  | .openPull => Sys2Proof.Machine.execOpenPull s
  | .openPush => Sys2Proof.Machine.execOpenPush s
  | .pushDecode => Sys2Proof.Machine.execPushDecode s
  | .decodeFrame => Sys2Proof.Machine.execDecodeFrame s
  | .getInfo => Sys2Proof.Machine.execGetInfo s
  | .seek => Sys2Proof.Machine.execSeek s
  | .seekStart => Sys2Proof.Machine.execSeekStart s
  | .streamLength => Sys2Proof.Machine.execStreamLength s
  | .getError => Sys2Proof.Machine.execGetError s
  | .close => Sys2Proof.Machine.execClose s
  | .illegalCommand word => Sys2Proof.Machine.execIllegalCommand word s
  | .oggPage => Sys2Proof.Machine.execOggPage s
  | .hdrIdentification => Sys2Proof.Machine.execHdrIdentification s
  | .hdrComment => Sys2Proof.Machine.execHdrComment s
  | .hdrSetup => Sys2Proof.Machine.execHdrSetup s
  | .audioPacket => Sys2Proof.Machine.execAudioPacket s
  | .badPacketType => Sys2Proof.Machine.execBadPacketType s
  | .lookupNone site => Sys2Proof.Machine.execLookupNone site s
  | .lookupLattice site => Sys2Proof.Machine.execLookupLattice site s
  | .lookupDirect site => Sys2Proof.Machine.execLookupDirect site s
  | .floorType0 => Sys2Proof.Machine.execFloorType0 s
  | .floorType1 site => Sys2Proof.Machine.execFloorType1 site s
  | .residueType0 site => Sys2Proof.Machine.execResidueType0 site s
  | .residueType1 site => Sys2Proof.Machine.execResidueType1 site s
  | .residueType2 site => Sys2Proof.Machine.execResidueType2 site s
  | .mappingType0 => Sys2Proof.Machine.execMappingType0 s

end Sys2Proof.Machine
end

