-- ==== Sys2Proof/Machine/Fetch.lean ====
section
/-! DEFINITION. Reading a selector at a point of the bitstream, and laying one there. -/

namespace Sys2Proof.Machine

/-- The number of a lookup type in a codebook (30_encoding.md R163). -/
def LookupType.code : LookupType → Nat
  | .none => 0
  | .lattice => 1
  | .direct => 2

/-- The number of a residue type (30_encoding.md R168). -/
def ResidueType.code : ResidueType → Nat
  | .type0 => 0
  | .type1 => 1
  | .type2 => 2

/-- Read the selector at a point: the capture pattern from the source (41_ogg_framer.md R231), a packet's type byte
(42_setup.md R282, R286, R288) or bit (30_encoding.md R180), a type field of the setup body (30_encoding.md section 4), or the
type a table entry holds (10_state.md R54 to R56; the floor table holds type 1 only). -/
def fetchSelector : StreamPoint → M Nat
  | .page => do
    markPageStart
    let w ← get32
    pure w.toNat
  | .header _ => do
    let b ← get8Packet
    pure (eopByte b).toNat
  | .audio => getBits 1
  | .lookup .setup => setupBits 4
  | .lookup (.vector book _) => do
    let s ← get
    pure (s.tab.codebook book).lookupType.code
  | .floor .setup => setupBits 16
  | .floor (.decode _ _) => pure 1
  | .residue .setup => setupBits 16
  | .residue (.decode _ mapping submap) => do
    let s ← get
    pure (s.tab.residue ((s.tab.mapping mapping).submapResidue.getD submap 0)).type.code
  | .mapping => setupBits 16

/-- The code the block raises for a selector that selects nothing (30_encoding.md R190 to R192). -/
def rejectError : Reject → ErrCode
  | .captureMismatch => .missingCapturePattern
  | .wrongHeaderType k => headerError k
  | .reservedLookupType => .invalidSetup
  | .reservedFloorType => .invalidSetup
  | .reservedResidueType => .invalidSetup
  | .reservedMappingType => .invalidSetup

/-- One datapath step: read the selector, then run the instruction it selects. -/
def runPoint (p : StreamPoint) (s : State) : Host.Outcome State Fault Refusal :=
  match fetchSelector p s with
  | .error e t => .next (failFrame e t)
  | .ok v t =>
    match decode (.stream p) v with
    | .ok i => exec i t
    | .error r => .next (failFrame (rejectError r) t)

/-- Whether a register access has the width and alignment of 20_memory.md R99. -/
def accessAligned (offset bytes : Nat) : Bool := bytes == 4 && offset % 4 == 0

/-- Serve one event (20_memory.md R103): a write to CMD runs its command, every other mapped write goes to its register. -/
def serve (e : Event) (s : State) : Host.Outcome State Fault Refusal :=
  match e with
  | .regWrite offset bytes v =>
    if !accessAligned offset bytes then .refused .registerAccess
    else if !s.offsetMapped offset then .fault .unmappedOffset
    else if offset = 0 then exec (decodeCmd v) s
    else .next (s.writeReg offset v)
  | .regRead offset bytes =>
    if !accessAligned offset bytes then .refused .registerAccess
    else if !s.offsetMapped offset then .fault .unmappedOffset
    else .next { s with readData := s.readReg offset }
  | .memWrite a v => .next { s with mem := Memory.write s.mem a.toNat v }
  | .hardReset => .next s.hardReset
  | .element p => runPoint p s

/-- The low bytes of a number, least significant first. -/
def bytesOf : Nat → Nat → List Byte
  | 0, _ => []
  | n + 1, v => BitVec.ofNat 8 v :: bytesOf n (v / 256)

/-- How many bytes a laid selector and the zeros after it take. -/
def laidBytes : Nat := 64

/-- Lay a selector's bits, and zeros after them, where a point of the bitstream reads them: at the start of a source of
`laidBytes` bytes, and for all points but a page boundary as a packet of one segment. -/
def State.layStream (s : State) (p : StreamPoint) (v : Nat) : State :=
  let t := { s with
    mem := Memory.writeBytes s.mem s.src.base (bytesOf laidBytes v)
    src := { s.src with len := BitVec.ofNat 32 laidBytes, pos := 0, eof := false } }
  if p = .page then t
  else { t with cur := { t.cur with bytesInSeg := laidBytes, lastSeg := true }, rd := { t.rd with acc := 0, validBits := 0 } }

end Sys2Proof.Machine
end

