-- ==== Sys2Proof/Machine/Step.lean ====
section
/-! DEFINITION. One step: the next pending event is served (20_memory.md R103); with none pending the block waits
(60_exceptions.md R645). -/

namespace Sys2Proof.Machine

/-- One step of the machine. -/
def step (s : State) : Host.Outcome State Fault Refusal :=
  match s.pending with
  | [] => .next s
  | e :: rest => serve e { s with pending := rest }

/-- The state whose next step reads and runs the word of the opcode table: a CMD word is the next host write, a bitstream
selector is laid where the next datapath step reads it (notes/assumptions/3.md, notes/assumptions/5.md). -/
def State.withFetchWord (s : State) (nbits w : Nat) : State :=
  match tableContext nbits w with
  | .cmd => { s with pending := .regWrite 0 4 (BitVec.ofNat 32 w) :: s.pending }
  | .stream p => { s.layStream p (w % 2 ^ nbits) with pending := .element p :: s.pending }

end Sys2Proof.Machine
end

