-- ==== Sys2Proof/Safety.lean ====
section
/-! DEFINITION. What counts as a safe state, and the terms statements are written in: the ranges the spec gives the cursors, what a
packet still holds, the fields of the headers with the bits that carry them, and which pages the scan accepts. -/

namespace Sys2Proof.Machine

/-! ### Ranges -/

/-- The ranges of the page and packet cursor (10_state.md R35 to R40). -/
structure PageCursor.InRange (c : PageCursor) : Prop where
  table : c.segments.length = 255
  count : c.segmentCount ≤ 255
  next : -1 ≤ c.nextSeg ∧ c.nextSeg ≤ 254
  bytes : c.bytesInSeg ≤ 255
  which : -1 ≤ c.lastSegWhich ∧ c.lastSegWhich ≤ 254
  known : -2 ≤ c.endSegWithKnownLoc ∧ c.endSegWithKnownLoc ≤ 254

/-- The bit reader's range, and no bit in the accumulator above those held (10_state.md R32, R33). -/
structure BitReader.Ok (r : BitReader) : Prop where
  range : -1 ≤ r.validBits ∧ r.validBits ≤ 39
  clean : 0 < r.validBits → r.acc.toNat < 2 ^ r.validBits.toNat

/-- Which api each top-level state goes with (48_frame_control.md R511, R562). -/
structure Control.ApiOk (c : Control) : Prop where
  closed : c.state = .closed → c.api = .none
  awaiting : c.state = .awaitingHeaders → c.api = .push
  decoding : c.state = .decoding → c.api = .pull ∨ c.api = .push
  eof : c.state = .eof → c.api = .pull

/-- The ranges of the stream identity (10_state.md R53, 42_setup.md R283, R284). -/
structure Tables.IdentityOk (p : Config.Params) (t : Tables) : Prop where
  channels : 1 ≤ t.channels ∧ t.channels ≤ 255 ∧ t.channels ≤ p.maxChannels
  rate : t.sampleRate ≠ 0
  sizes : 6 ≤ t.logBlocksize0 ∧ t.logBlocksize0 ≤ t.logBlocksize1 ∧ t.logBlocksize1 ≤ 13

/-- The safe states: host memory in canonical form, the cursor in its ranges, the position inside the source, an api that goes
with the state, and a stream identity wherever the INFO registers show one. -/
structure State.Inv (s : State) : Prop where
  mem : Memory.wf s.mem = true
  cur : s.cur.InRange
  src : s.src.pos ≤ s.src.len
  api : s.ctl.ApiOk
  info : s.infoValid = true → s.tab.IdentityOk s.params

/-- A safe run step: the machine goes on. -/
def Goes (o : Host.Outcome State Fault Refusal) : Prop := ∃ t, o = .next t

/-! ### What a packet still holds -/

/-- The segments of the latched page not yet taken (10_state.md R35, R36). -/
def PageCursor.latched (c : PageCursor) : List Byte := (c.segments.take c.segmentCount).drop c.nextSeg.toNat

/-- How many bytes of the current packet are unread, when all of them lie in segments of the latched page (40_bitreader.md
R205): `none` when the packet goes on to a page not yet read. -/
def PageCursor.packetLeft (c : PageCursor) : Option Nat :=
  if c.lastSeg then some c.bytesInSeg
  else if c.nextSeg < 0 then none
  else if (sumSegments c.latched 0).2 then some (c.bytesInSeg + (sumSegments c.latched 0).1)
  else none

/-- How many segments a packet takes from a table, its last one included. -/
def endingSegment : List Byte → Nat
  | [] => 0
  | b :: bs => if b.toNat < 255 then 1 else 1 + endingSegment bs

/-- The segment the packet after the current one begins at, -1 for a new page (41_ogg_framer.md R240). -/
def PageCursor.nextPacket (c : PageCursor) : Int :=
  if c.lastSeg then c.nextSeg
  else if c.nextSeg < 0 then -1
  else if c.segmentCount ≤ c.nextSeg.toNat + endingSegment c.latched then -1
  else c.nextSeg + endingSegment c.latched

/-- `d` is `c` further on in the same packet: the page's fields stay, and the packet ends where it did. -/
structure PageCursor.Within (c d : PageCursor) : Prop where
  page : d = { c with
    nextSeg := d.nextSeg, bytesInSeg := d.bytesInSeg, lastSeg := d.lastSeg, lastSegWhich := d.lastSegWhich }
  next : d.nextPacket = c.nextPacket

/-- The number of unread bytes of the current packet. -/
def State.packetSize (s : State) : Nat := s.cur.packetLeft.getD 0

/-- The rest of the current packet lies in the latched page and in the source. -/
structure State.PacketHere (s : State) : Prop where
  latched : s.cur.packetLeft.isSome = true
  fits : s.src.pos.toNat + s.packetSize ≤ s.src.len.toNat
  live : s.src.eof = false

/-- The unread bytes of the current packet. -/
def State.packetBytes (s : State) : List Byte :=
  (List.range s.packetSize).map fun i => s.srcByte (s.src.pos + BitVec.ofNat 32 i)

/-- The bits of a byte in the order they are read (20_memory.md R97). -/
def byteBits (b : Byte) : List Bool := (List.range 8).map b.getLsbD

/-- The bits the reader holds, the next one first (10_state.md R32). -/
def BitReader.heldBits (r : BitReader) : List Bool := (List.range r.validBits.toNat).map r.acc.getLsbD

/-- The unread bits of the current packet, the next one first. -/
def State.packetBits (s : State) : List Bool := s.rd.heldBits ++ s.packetBytes.flatMap byteBits

/-- The bits a field of `n` bits with value `v` is read from (20_memory.md R97). -/
def fieldBits (n v : Nat) : List Bool := (List.range n).map v.testBit

/-- The value of bits read first to last (40_bitreader.md R209). -/
def bitsValue : List Bool → Nat
  | [] => 0
  | b :: bs => b.toNat + 2 * bitsValue bs

/-- The machine stands inside a packet whose unread bits are `bits`. -/
structure State.Holds (s : State) (bits : List Bool) : Prop where
  here : s.PacketHere
  reader : s.rd.Ok
  valid : 0 ≤ s.rd.validBits
  bits : s.packetBits = bits

/-- `t` stands in the packet that `s` stands in. -/
structure State.Within (s t : State) : Prop where
  cursor : s.cur.Within t.cur
  stop : t.src.pos.toNat + t.packetSize = s.src.pos.toNat + s.packetSize

/-- `t` is `s` after packet data was read from the latched page: only the bit reader, the packet cursor and the position
differ. -/
structure ReadFrom (s t : State) : Prop where
  within : s.Within t
  frame : t = { s with rd := t.rd, cur := t.cur, src := { s.src with pos := t.src.pos } }

/-- `t` is `s` after packet data was read and the tables became `tab`. -/
structure ParsedFrom (s t : State) (tab : Tables) : Prop where
  within : s.Within t
  frame : t = { s with rd := t.rd, cur := t.cur, src := { s.src with pos := t.src.pos }, tab := tab }

/-- `t` is `s` after packet data was read and audio was decoded from it: the working buffers and the noted error may differ
too. -/
structure DecodedFrom (s t : State) : Prop where
  within : s.Within t
  frame : t = { s with
    rd := t.rd, cur := t.cur, src := { s.src with pos := t.src.pos }, work := t.work
    ctl := { s.ctl with error := t.ctl.error } }

/-- The packet was read to its end. -/
structure State.PacketDone (t : State) : Prop where
  here : t.PacketHere
  taken : t.packetSize = 0
  ended : t.cur.lastSeg = true
  bits : t.rd.validBits = 0

/-- The bits of a codeword in the order they are read: its highest bit first (42_setup.md R300). -/
def codewordBits (len : Nat) (cw : Word) : List Bool := (List.range len).map fun i => cw.getLsbD (len - 1 - i)

/-! ### The fields of a setup header -/

/-- The VQ fields of a codebook (30_encoding.md R163). -/
structure LookupFields where
  minimum : Nat
  delta : Nat
  bits : Nat
  sequence : Bool
  multiplicands : List Nat
  deriving DecidableEq, Repr

/-- How many multiplicands a codebook has (42_setup.md R297). -/
def lookupCount (lt : LookupType) (cb : Codebook) : Nat :=
  if lt = .direct then cb.entries * cb.dimensions else lookup1Values cb.entries cb.dimensions

/-- The VQ fields fit their widths and the codebook. -/
structure LookupFields.Legal (f : LookupFields) (lt : LookupType) (cb : Codebook) : Prop where
  widths : f.minimum < 2 ^ 32 ∧ f.delta < 2 ^ 32 ∧ f.bits < 2 ^ 4
  count : f.multiplicands.length = lookupCount lt cb ∧ f.multiplicands ≠ []
  values : ∀ m ∈ f.multiplicands, m < 2 ^ (f.bits + 1)

/-- The bits of the VQ fields. -/
def LookupFields.encode (f : LookupFields) : List Bool :=
  fieldBits 32 f.minimum ++ (fieldBits 32 f.delta ++ (fieldBits 4 f.bits ++ ([f.sequence]
    ++ f.multiplicands.flatMap (fieldBits (f.bits + 1)))))

/-- A codebook with its VQ fields (42_setup.md R297, R298). -/
def LookupFields.apply (f : LookupFields) (lt : LookupType) (cb : Codebook) : Codebook :=
  { cb with
    lookupType := lt, minimumValue := float32Unpack f.minimum, deltaValue := float32Unpack f.delta
    valueBits := f.bits + 1, sequenceP := f.sequence, lookupValues := lookupCount lt cb
    multiplicands := f.multiplicands }

/-- The fields of one partition class of a floor (30_encoding.md R167). -/
structure ClassFields where
  dim : Nat
  subclasses : Nat
  masterbook : Nat
  books : List Nat
  deriving DecidableEq, Repr

/-- The fields fit their widths, and the books exist (42_setup.md R311). -/
structure ClassFields.Legal (f : ClassFields) (codebooks : Nat) : Prop where
  widths : f.dim < 2 ^ 3 ∧ f.subclasses < 2 ^ 2
  master : if f.subclasses = 0 then f.masterbook = 0 else f.masterbook < 2 ^ 8 ∧ f.masterbook < codebooks
  count : f.books.length = 2 ^ f.subclasses
  books : ∀ b ∈ f.books, b < 2 ^ 8 ∧ b ≤ codebooks

/-- The bits of one class; a class without subclasses has no master book field. -/
def ClassFields.encode (f : ClassFields) : List Bool :=
  fieldBits 3 f.dim ++ (fieldBits 2 f.subclasses ++ ((if f.subclasses = 0 then [] else fieldBits 8 f.masterbook)
    ++ f.books.flatMap (fieldBits 8)))

/-- The class the fields stand for; a book field of 0 means "no book". -/
def ClassFields.entry (f : ClassFields) : FloorClass :=
  ⟨f.dim + 1, f.subclasses, f.masterbook, f.books.map fun b : Nat => (b : Int) - 1⟩

/-- The fields of a floor of type 1 (30_encoding.md R167): `xs` are the X values of all partitions in order. -/
structure FloorFields where
  partitionClass : List Nat
  classes : List ClassFields
  multiplier : Nat
  rangebits : Nat
  xs : List Nat
  deriving DecidableEq, Repr

/-- The whole X list. -/
def FloorFields.points (f : FloorFields) : List Nat := 0 :: 2 ^ f.rangebits :: f.xs

/-- How many X values the partitions have. -/
def FloorFields.xCount (f : FloorFields) : Nat :=
  (f.partitionClass.map fun c => ((f.classes.map ClassFields.entry).getD c ⟨0, 0, 0, []⟩).dim).sum

/-- The fields fit their widths and pass the checks of 42_setup.md R311, R312. -/
structure FloorFields.Legal (f : FloorFields) (codebooks : Nat) : Prop where
  partitions : f.partitionClass.length < 2 ^ 5
  classNumbers : ∀ c ∈ f.partitionClass, c < 2 ^ 4
  classCount : f.classes.length = f.partitionClass.foldl (fun n c => max n (c + 1)) 0
  classes : ∀ c ∈ f.classes, c.Legal codebooks
  widths : f.multiplier < 2 ^ 2 ∧ f.rangebits < 2 ^ 4
  xCount : f.xs.length = f.xCount
  xValues : ∀ x ∈ f.xs, x < 2 ^ f.rangebits
  distinct : distinctXs f.points = true

/-- The bits of a floor after its type. -/
def FloorFields.encode (f : FloorFields) : List Bool :=
  fieldBits 5 f.partitionClass.length ++ (f.partitionClass.flatMap (fieldBits 4)
    ++ (f.classes.flatMap ClassFields.encode ++ (fieldBits 2 f.multiplier ++ (fieldBits 4 f.rangebits
      ++ f.xs.flatMap (fieldBits f.rangebits)))))

/-- The floor the fields stand for (42_setup.md R312). -/
def FloorFields.entry (f : FloorFields) : Floor :=
  { partitionClass := f.partitionClass
    classes := f.classes.map ClassFields.entry
    multiplier := f.multiplier + 1
    rangebits := f.rangebits
    xs := f.points
    sortedOrder := sortByX f.points
    lowNeighbor := (List.range f.points.length).map (lowNeighborOf f.points)
    highNeighbor := (List.range f.points.length).map (highNeighborOf f.points) }

/-- The cascade of one residue class: the low bits, and the high bits when the flag is set (30_encoding.md R168). -/
structure CascadeFields where
  low : Nat
  high : Option Nat
  deriving DecidableEq, Repr

/-- The fields fit their widths. -/
def CascadeFields.Legal (f : CascadeFields) : Prop := f.low < 2 ^ 3 ∧ ∀ h, f.high = some h → h < 2 ^ 5

/-- The bits of a cascade. -/
def CascadeFields.encode (f : CascadeFields) : List Bool :=
  fieldBits 3 f.low ++ ([f.high.isSome] ++ (match f.high with | some h => fieldBits 5 h | none => []))

/-- The cascade number. -/
def CascadeFields.value (f : CascadeFields) : Nat := f.high.getD 0 * 8 + f.low

/-- The fields of a residue after its type (30_encoding.md R168): `books` has, for each class and each of the 8 passes, the book
field or none. -/
structure ResidueFields where
  first : Nat
  last : Nat
  partSize : Nat
  classifications : Nat
  classbook : Nat
  cascades : List CascadeFields
  books : List (List (Option Nat))
  deriving DecidableEq, Repr

/-- The fields fit their widths and pass the checks of 42_setup.md R318. -/
structure ResidueFields.Legal (f : ResidueFields) (codebooks : Nat) : Prop where
  widths : f.first < 2 ^ 24 ∧ f.last < 2 ^ 24 ∧ f.partSize < 2 ^ 24 ∧ f.classifications < 2 ^ 6 ∧ f.classbook < 2 ^ 8
  order : f.first ≤ f.last
  classbook : f.classbook < codebooks
  cascadeCount : f.cascades.length = f.classifications + 1
  cascades : ∀ c ∈ f.cascades, c.Legal
  bookCount : f.books.length = f.classifications + 1
  books : ∀ p ∈ f.cascades.zip f.books, p.2.map Option.isSome = (List.range 8).map p.1.value.testBit
  bookValues : ∀ bs ∈ f.books, ∀ b, some b ∈ bs → b < 2 ^ 8 ∧ b < codebooks

/-- The bits of a residue after its type. -/
def ResidueFields.encode (f : ResidueFields) : List Bool :=
  fieldBits 24 f.first ++ (fieldBits 24 f.last ++ (fieldBits 24 f.partSize ++ (fieldBits 6 f.classifications
    ++ (fieldBits 8 f.classbook ++ (f.cascades.flatMap CascadeFields.encode
      ++ f.books.flatMap fun bs => bs.flatMap fun b => match b with | some v => fieldBits 8 v | none => [])))))

/-- The residue the fields stand for (42_setup.md R318), with the classification book `cb`. -/
def ResidueFields.entry (f : ResidueFields) (ty : ResidueType) (cb : Codebook) : Residue :=
  { type := ty
    first := f.first
    last := f.last
    partSize := f.partSize + 1
    classifications := f.classifications + 1
    classbook := f.classbook
    books := f.books.map fun bs => bs.map fun b => match b with | some v => (v : Int) | none => -1
    classdata := (List.range cb.entries).map (classDigits (f.classifications + 1) cb.dimensions) }

/-- The fields of a mapping after its type (30_encoding.md R169, R170): `several` is the submap count field when its flag is set,
`coupling` the steps when theirs is, `submaps` each submap's time, floor and residue fields. -/
structure MappingFields where
  several : Option Nat
  coupling : Option (List (Nat × Nat))
  mux : List Nat
  submaps : List (Nat × Nat × Nat)
  deriving DecidableEq, Repr

/-- The number of submaps. -/
def MappingFields.submapCount (f : MappingFields) : Nat := match f.several with | some v => v + 1 | none => 1

/-- The coupling steps. -/
def MappingFields.steps (f : MappingFields) : List (Nat × Nat) := f.coupling.getD []

/-- The fields fit their widths and pass the checks of 42_setup.md R320; the channel list is written only for several
submaps. -/
structure MappingFields.Legal (f : MappingFields) (t : Tables) : Prop where
  several : ∀ v, f.several = some v → v < 2 ^ 4
  stepCount : ∀ l, f.coupling = some l → 1 ≤ l.length ∧ l.length ≤ 2 ^ 8
  stepRange : f.steps.length ≤ t.channels
  steps : ∀ p ∈ f.steps, p.1 < t.channels ∧ p.2 < t.channels ∧ p.1 ≠ p.2
  muxCount : f.mux.length = if 1 < f.submapCount then t.channels else 0
  mux : ∀ m ∈ f.mux, m < f.submapCount
  submapCount : f.submaps.length = f.submapCount
  submaps : ∀ p ∈ f.submaps, p.1 < 2 ^ 8 ∧ p.2.1 < 2 ^ 8 ∧ p.2.2 < 2 ^ 8 ∧ p.2.1 < t.floors.length ∧ p.2.2 < t.residues.length

/-- The bits of a mapping after its type, for a stream of `channels` channels. -/
def MappingFields.encode (f : MappingFields) (channels : Nat) : List Bool :=
  [f.several.isSome] ++ ((match f.several with | some v => fieldBits 4 v | none => [])
    ++ ([f.coupling.isSome] ++ ((match f.coupling with | some l => fieldBits 8 (l.length - 1) | none => [])
    ++ (f.steps.flatMap (fun p => fieldBits (ilog (channels - 1)) p.1 ++ fieldBits (ilog (channels - 1)) p.2)
    ++ (fieldBits 2 0 ++ (f.mux.flatMap (fieldBits 4)
    ++ f.submaps.flatMap fun p => fieldBits 8 p.1 ++ (fieldBits 8 p.2.1 ++ fieldBits 8 p.2.2)))))))

/-- The mapping the fields stand for. -/
def MappingFields.entry (f : MappingFields) (channels : Nat) : Mapping :=
  ⟨f.submapCount, f.steps, if 1 < f.submapCount then f.mux else List.replicate channels 0, f.submaps.map fun p => p.2.1,
    f.submaps.map fun p => p.2.2⟩

/-- The codeword lengths of a codebook in one of their two forms (30_encoding.md R161, R162): every length of an unordered book,
or the runs of an ordered one, whose first length field is `first`. -/
inductive LengthFields where
  | unordered (sparse : Bool) (lengths : List (Option Nat))
  | ordered (first : Nat) (runs : List Nat)
  deriving DecidableEq, Repr

/-- The lengths that runs stand for, from length `len` on. -/
def runLengths : Nat → List Nat → List (Option Nat)
  | _, [] => []
  | len, n :: runs => List.replicate n (some len) ++ runLengths (len + 1) runs

/-- The bits of runs that begin at entry `entry`. -/
def runBits (entries : Nat) : Nat → List Nat → List Bool
  | _, [] => []
  | entry, n :: runs => fieldBits (ilog (entries - entry)) n ++ runBits entries (entry + n) runs

/-- The lengths the fields stand for. -/
def LengthFields.lengths : LengthFields → List (Option Nat)
  | .unordered _ ls => ls
  | .ordered first runs => runLengths (first + 1) runs

/-- The bits of one length of an unordered book. -/
def lengthBits (sparse : Bool) (l : Option Nat) : List Bool :=
  (if sparse then [l.isSome] else []) ++ (match l with | some len => fieldBits 5 (len - 1) | none => [])

/-- The bits of the lengths, from the ordered flag on. -/
def LengthFields.encode (entries : Nat) : LengthFields → List Bool
  | .unordered sparse ls => [false] ++ ([sparse] ++ ls.flatMap (lengthBits sparse))
  | .ordered first runs => [true] ++ (fieldBits 5 first ++ runBits entries 0 runs)

/-- The lengths pass the checks of 42_setup.md R292, R293: a book that is not sparse has every length, and no run begins when
every entry has its length. -/
def LengthFields.Legal (entries : Nat) : LengthFields → Prop
  | .unordered sparse ls =>
    ls.length = entries ∧ (∀ len, some len ∈ ls → 1 ≤ len ∧ len ≤ 31) ∧ (sparse = false → none ∉ ls)
  | .ordered first runs =>
    runs.sum = entries ∧ first + runs.length ≤ 31 ∧ ∀ i < runs.length, (runs.take i).sum < entries

/-- The fields of a codebook (30_encoding.md R160 to R163); the VQ fields are written only for lookup types 1 and 2. -/
structure CodebookFields where
  dimensions : Nat
  entries : Nat
  lengths : LengthFields
  lookupType : LookupType
  lookup : LookupFields
  deriving DecidableEq, Repr

/-- A codebook with its lengths and nothing more. -/
def CodebookFields.bare (f : CodebookFields) : Codebook :=
  ⟨f.dimensions, f.entries, f.lengths.lengths, .none, 0, 0, 0, false, 0, [], []⟩

/-- The codebook with its VQ fields. -/
def CodebookFields.valued (f : CodebookFields) : Codebook :=
  if f.lookupType = .none then f.bare else f.lookup.apply f.lookupType f.bare

/-- The codebook the fields stand for (42_setup.md R300). -/
def CodebookFields.entry (f : CodebookFields) : Codebook :=
  { f.valued with codewords := (computeCodewords f.lengths.lengths).getD [] }

/-- The fields fit their widths and pass the checks of 42_setup.md R290 to R300. -/
structure CodebookFields.Legal (f : CodebookFields) : Prop where
  widths : f.dimensions < 2 ^ 16 ∧ f.entries < 2 ^ 24
  dimension : f.dimensions = 0 → f.entries = 0
  lengths : f.lengths.Legal f.entries
  lookup : f.lookupType ≠ .none → f.lookup.Legal f.lookupType f.bare
  codewords : (computeCodewords f.lengths.lengths).isSome = true

/-- The number of a lookup type and the bits of its fields. -/
def CodebookFields.lookupBits (f : CodebookFields) : List Bool :=
  fieldBits 4 f.lookupType.code ++ (if f.lookupType = .none then [] else f.lookup.encode)

/-- The bits of a codebook. -/
def CodebookFields.encode (f : CodebookFields) : List Bool :=
  fieldBits 24 0x564342 ++ (fieldBits 16 f.dimensions ++ (fieldBits 24 f.entries ++ (f.lengths.encode f.entries
    ++ f.lookupBits)))

/-- The fields of a mode (30_encoding.md R171). -/
structure ModeFields where
  long : Bool
  mapping : Nat
  deriving DecidableEq, Repr

/-- The bits of a mode. -/
def ModeFields.encode (f : ModeFields) : List Bool :=
  [f.long] ++ (fieldBits 16 0 ++ (fieldBits 16 0 ++ fieldBits 8 f.mapping))

/-- The fields of a whole setup header (30_encoding.md section 4); `times` is the number of time-domain placeholders. -/
structure SetupFields where
  codebooks : List CodebookFields
  times : Nat
  floors : List FloorFields
  residues : List (ResidueType × ResidueFields)
  mappings : List MappingFields
  modes : List ModeFields
  framing : Bool
  deriving DecidableEq, Repr

/-- The tables the fields stand for, added to a stream identity. -/
def SetupFields.tables (f : SetupFields) (t : Tables) : Tables :=
  { t with
    codebooks := f.codebooks.map CodebookFields.entry
    floors := f.floors.map FloorFields.entry
    residues := f.residues.map fun r => r.2.entry r.1
      ((f.codebooks.map CodebookFields.entry).getD r.2.classbook ⟨0, 0, [], .none, 0, 0, 0, false, 0, [], []⟩)
    mappings := f.mappings.map fun m => m.entry t.channels
    modes := f.modes.map fun m => ⟨m.long, m.mapping⟩ }

/-- A count that fits a field of `width` bits holding one less. -/
def CountOk (width n : Nat) : Prop := 1 ≤ n ∧ n ≤ 2 ^ width

/-- A setup header that passes every check of 42_setup.md R288 to R324, for the stream identity `t`. -/
structure SetupFields.Legal (f : SetupFields) (t : Tables) : Prop where
  codebookCount : CountOk 8 f.codebooks.length
  codebooks : ∀ c ∈ f.codebooks, c.Legal
  times : CountOk 6 f.times
  floorCount : CountOk 6 f.floors.length
  floors : ∀ x ∈ f.floors, x.Legal f.codebooks.length
  residueCount : CountOk 6 f.residues.length
  residues : ∀ r ∈ f.residues, r.2.Legal f.codebooks.length
  mappingCount : CountOk 6 f.mappings.length
  mappings : ∀ m ∈ f.mappings, m.Legal (f.tables t)
  modeCount : CountOk 6 f.modes.length
  modes : ∀ m ∈ f.modes, m.mapping < 2 ^ 8 ∧ m.mapping < f.mappings.length

/-- A counted table: its count field, then its entries. -/
def countedBits (width n : Nat) (entries : List Bool) : List Bool := fieldBits width (n - 1) ++ entries

/-- The bits of a setup header after "vorbis". -/
def SetupFields.encode (f : SetupFields) (channels : Nat) : List Bool :=
  countedBits 8 f.codebooks.length (f.codebooks.flatMap CodebookFields.encode)
    ++ (countedBits 6 f.times ((List.replicate f.times (fieldBits 16 0)).flatten)
    ++ (countedBits 6 f.floors.length (f.floors.flatMap fun x => fieldBits 16 1 ++ x.encode)
    ++ (countedBits 6 f.residues.length (f.residues.flatMap fun r => fieldBits 16 r.1.code ++ r.2.encode)
    ++ (countedBits 6 f.mappings.length (f.mappings.flatMap fun m => fieldBits 16 0 ++ m.encode channels)
    ++ (countedBits 6 f.modes.length (f.modes.flatMap ModeFields.encode) ++ [f.framing])))))

/-- The fields of an identification header after "vorbis" and a version of 0 (30_encoding.md R141). -/
structure IdentFields where
  channels : Nat
  rate : Nat
  brMax : Nat
  brNominal : Nat
  brMin : Nat
  log0 : Nat
  log1 : Nat
  framing : Nat
  deriving DecidableEq, Repr

/-- The fields pass the checks of 42_setup.md R283, R284. -/
structure IdentFields.Legal (f : IdentFields) (p : Config.Params) : Prop where
  channels : 1 ≤ f.channels ∧ f.channels < 2 ^ 8 ∧ f.channels ≤ p.maxChannels
  rate : 1 ≤ f.rate ∧ f.rate < 2 ^ 32
  bitrates : f.brMax < 2 ^ 32 ∧ f.brNominal < 2 ^ 32 ∧ f.brMin < 2 ^ 32
  sizes : 6 ≤ f.log0 ∧ f.log0 ≤ f.log1 ∧ f.log1 ≤ 13
  framing : f.framing < 2 ^ 8 ∧ f.framing % 2 = 1

/-- The bytes of an identification header after its type byte (30_encoding.md R140, R141). -/
def IdentFields.encode (f : IdentFields) : List Byte :=
  vorbisBytes ++ (bytesOf 4 0 ++ (bytesOf 1 f.channels ++ (bytesOf 4 f.rate ++ (bytesOf 4 f.brMax ++ (bytesOf 4 f.brNominal
    ++ (bytesOf 4 f.brMin ++ (bytesOf 1 (f.log0 + 16 * f.log1) ++ bytesOf 1 f.framing)))))))

/-- The stream identity the fields stand for (42_setup.md R283, R284). -/
def IdentFields.apply (f : IdentFields) (t : Tables) : Tables :=
  { t with
    channels := f.channels
    sampleRate := BitVec.ofNat 32 f.rate
    bitrateMax := BitVec.ofNat 32 f.brMax
    bitrateNominal := BitVec.ofNat 32 f.brNominal
    bitrateMin := BitVec.ofNat 32 f.brMin
    logBlocksize0 := f.log0
    logBlocksize1 := f.log1 }

/-! ### Vectors -/

/-- Element `i` of entry `e`'s vector before the running sum (43_codebook.md R352, R353). -/
def vectorTerm (cb : Codebook) (lt : LookupType) (e i : Nat) : F32 :=
  let offset := if lt = .direct then e * cb.dimensions + i else e / cb.lookupValues ^ i % cb.lookupValues
  fadd (fmul (f32OfNat (cb.multiplicands.getD offset 0)) cb.deltaValue) cb.minimumValue

/-- Element `i` of entry `e`'s vector, with the running sum of a book that has one (43_codebook.md R350). -/
def vectorValue (cb : Codebook) (lt : LookupType) (e : Nat) : Nat → F32
  | 0 => fadd (vectorTerm cb lt e 0) 0
  | i + 1 => fadd (vectorTerm cb lt e (i + 1)) (if cb.sequenceP then vectorValue cb lt e i else 0)

/-- A sample of a channel's buffer. -/
def State.sample (s : State) (ch i : Nat) : F32 := (s.work.channelBuffer.getD ch []).getD i 0

/-! ### The source and its pages -/

/-- The source holds `bytes` from the position on, and its end was not met (20_memory.md R91, R93). -/
structure State.Ahead (s : State) (bytes : List Byte) : Prop where
  fits : s.src.pos.toNat + bytes.length ≤ s.src.len.toNat
  same : ∀ i < bytes.length, s.srcByte (s.src.pos + BitVec.ofNat 32 i) = bytes.getD i 0
  live : s.src.eof = false

/-- The fields of a page header (30_encoding.md R130). -/
structure PageFields where
  flag : Byte
  granule : BitVec 64
  serial : Nat
  sequence : Nat
  crc : Nat
  segments : List Byte
  deriving DecidableEq, Repr

/-- The bytes of a page header after the capture pattern, the segment table included. -/
def PageFields.encode (f : PageFields) : List Byte :=
  [0] ++ ([f.flag] ++ (bytesOf 8 f.granule.toNat ++ (bytesOf 4 f.serial ++ (bytesOf 4 f.sequence ++ (bytesOf 4 f.crc
    ++ ([BitVec.ofNat 8 f.segments.length] ++ f.segments))))))

/-- The machine further on in the source. -/
def State.moved (s : State) (n : Nat) : State := { s with src.pos := s.src.pos + BitVec.ofNat 32 n }

/-- The machine after a page header is read (41_ogg_framer.md R233 to R236). -/
def State.pageRead (s : State) (f : PageFields) : State :=
  { s.moved f.encode.length with cur := latchPage f.flag f.granule f.segments s.cur }

/-- The machine with a page's place recorded and its capture pattern read (41_ogg_framer.md R231). -/
def State.captured (s : State) : State := { s with src.pageStart := s.src.pos }.moved 4

/-- The machine at the start of the packet that begins at the next segment (41_ogg_framer.md R241). -/
def State.opened (s : State) : State :=
  { s with
    cur := { s.cur with lastSeg := false, bytesInSeg := 0 }
    rd := { s.rd with validBits := 0, packetBytes := 0 } }

/-- The segments of a packet of `n` bytes (30_encoding.md R132). -/
def lacing (n : Nat) : List Byte := List.replicate (n / 255) 255 ++ [BitVec.ofNat 8 (n % 255)]

/-- A stream's headers, one packet to a page: the identification fields, the comment packet after "vorbis", the setup packet
after its type byte, and the three page headers. -/
structure HeaderStream where
  ident : IdentFields
  comment : List Byte
  setup : List Byte
  first : PageFields
  second : PageFields
  third : PageFields
  deriving DecidableEq, Repr

/-- The bytes of the three pages. -/
def HeaderStream.bytes (h : HeaderStream) : List Byte :=
  (captureBytes ++ h.first.encode ++ (1 :: h.ident.encode)) ++ ((captureBytes ++ h.second.encode ++ (3 :: vorbisBytes ++ h.comment))
    ++ (captureBytes ++ h.third.encode ++ (5 :: h.setup)))

/-- The headers carry the setup fields `f` and pass every check of 42_setup.md. -/
structure HeaderStream.Legal (h : HeaderStream) (f : SetupFields) (p : Config.Params) : Prop where
  ident : h.ident.Legal p
  firstFlag : pageFirst h.first.flag = true ∧ pageLast h.first.flag = false ∧ pageContinued h.first.flag = false
  firstSegments : h.first.segments = [30]
  secondFlag : pageContinued h.second.flag = false
  secondSegments : h.second.segments = lacing (7 + h.comment.length) ∧ h.second.segments.length ≤ 255
  thirdFlag : pageContinued h.third.flag = false
  thirdSegments : h.third.segments = lacing (1 + h.setup.length) ∧ h.third.segments.length ≤ 255
  fields : f.Legal (h.ident.apply Tables.absent)
  vorbis : h.setup.take 6 = vorbisBytes
  bits : ∃ pad, (h.setup.drop 6).flatMap byteBits = f.encode h.ident.channels ++ pad

/-- The tables an accepted open leaves: identity, setup tables and windows (42_setup.md R326). -/
def HeaderStream.tables (h : HeaderStream) (f : SetupFields) : Tables :=
  let t := f.tables (h.ident.apply Tables.absent)
  { t with window0 := windowTable (t.blocksize false), window1 := windowTable (t.blocksize true) }

/-! ### The page scan -/

/-- Byte `i` of the source, 0 past its end (20_memory.md R93). -/
def State.byteAt (s : State) (i : Nat) : Byte := if i < s.src.len.toNat then s.srcByte (BitVec.ofNat 32 i) else 0

/-- `n` bytes of the source from offset `i` on. -/
def State.bytesAt (s : State) (i n : Nat) : List Byte := (List.range n).map fun k => s.byteAt (i + k)

/-- The size of the body of a page at offset `i` (30_encoding.md R130, R132). -/
def State.bodySize (s : State) (i : Nat) : Nat := lacingSum (s.bytesAt (i + 27) (s.byteAt (i + 26)).toNat)

/-- The size of a page at offset `i`, its header and segment table included. -/
def State.pageSize (s : State) (i : Nat) : Nat := 27 + (s.byteAt (i + 26)).toNat + s.bodySize i

/-- The scan accepts the page at offset `i` (41_ogg_framer.md R252, R255). -/
structure State.PageValid (s : State) (i : Nat) : Prop where
  header : i + 27 ≤ s.src.len.toNat
  capture : s.bytesAt i 4 = captureBytes
  version : s.byteAt (i + 4) = 0
  body : 0 < s.bodySize i → i + s.pageSize i ≤ s.src.len.toNat
  crc : pageCrc (s.bytesAt i (s.pageSize i)) = crcField (s.bytesAt i (s.pageSize i))

/-- `page` is what the scan tells of the valid page at its start (41_ogg_framer.md R255). -/
structure State.Finds (s : State) (page : FoundPage) : Prop where
  valid : s.PageValid page.start.toNat
  stop : page.stop.toNat = min (page.start.toNat + s.pageSize page.start.toNat) s.src.len.toNat
  last : page.last = pageLast (s.byteAt (page.start.toNat + 5))

/-- The walk over pages that ends at `last`: from `page`, to the page the scan finds after it, until one has the last-page flag or
none follows (48_frame_control.md R552).  `s` is the machine when `page` was found. -/
inductive LastPage : State → FoundPage → FoundPage → Prop where
  | flagged {s : State} {page : FoundPage} : page.last = true → LastPage s page page
  | alone {s v w : State} {page : FoundPage} {b : Bool} : page.last = false → setPos page.stop s = .ok b v →
      findPage v = .ok none w → LastPage s page page
  | next {s v w : State} {page following last : FoundPage} {b : Bool} : page.last = false → setPos page.stop s = .ok b v →
      findPage v = .ok (some following) w → LastPage w following last → LastPage s page last

end Sys2Proof.Machine
end

