-- ==== Sys2Proof/Certificates/Slice0/Obligations.lean ====
section
/-! DEFINITION. The statements for the provers, from the numbered rules of spec/. -/

section

open Sys2Proof Sys2Proof.Machine

/-! ### Encoding -/

/-- Decoding an encoded well-formed instruction where it is read gives it back, whatever stands above its bits; and what the decoder
accepts is the encoding of the instruction it answers (30_encoding.md). -/
def Obligations.DecodeEncode : Prop :=
  (∀ (i : Instr) (above : Nat), WellFormed i →
    decode (contextOf i) (encode i + above * 2 ^ (contextOf i).width) = .ok i) ∧
  ∀ (c : Context) (v : Nat) (i : Instr), decode c v = .ok i → contextOf i = c ∧ encode i = v % 2 ^ c.width

/-- Words written out from 30_encoding.md R121, R130, R140, R163, R166, R168, R169 and R180 (tier 1 sanity). -/
def Obligations.EncodedWords : Prop :=
  decodeCmd 0x00000001 = .openPull ∧ decodeCmd 0x00000003 = .pushDecode ∧ decodeCmd 0x0000000A = .close ∧
    decode (.stream .page) 0x5367674F = .ok .oggPage ∧
    decode (.stream (.header .comment)) 0x03 = .ok .hdrComment ∧
    decode (.stream .audio) 0b0 = .ok .audioPacket ∧ decode (.stream .audio) 0b1 = .ok .badPacketType ∧
    decode (.stream (.lookup .setup)) 0b0001 = .ok (.lookupLattice .setup) ∧
    decode (.stream (.floor .setup)) 0x0001 = .ok (.floorType1 .setup) ∧
    decode (.stream (.residue .setup)) 0x0002 = .ok (.residueType2 .setup) ∧
    decode (.stream .mapping) 0x0000 = .ok .mappingType0

/-! ### Steps and registers -/

/-- A step runs the decoded instruction: a write to CMD runs the command its word encodes, and a datapath step reads its selector
and runs the instruction the selector's bits decode to; the step itself adds only that the served event is taken from the list
(20_memory.md R103; the event list is the model's own, notes/assumptions/3.md and 4.md). -/
def Obligations.StepRunsDecoded : Prop :=
  (∀ (s : State) (w : Word) (rest : List Event) (i : Instr), s.pending = .regWrite 0x000 4 w :: rest →
    decode .cmd w.toNat = .ok i → step s = exec i { s with pending := rest }) ∧
  (∀ (s t : State) (p : StreamPoint) (v : Nat) (rest : List Event) (i : Instr), s.pending = .element p :: rest →
    fetchSelector p { s with pending := rest } = .ok v t → decode (.stream p) v = .ok i → step s = exec i t)

/-- A host read inside the register space returns what the register map gives and has no side effect (20_memory.md R90, R100; the
latched value is the model's own, notes/assumptions/21.md); past the PCM window it gives 0, and a write is ignored (92_eei_decisions.md
D2, notes/assumptions/20.md). -/
def Obligations.RegisterReads : Prop :=
  (∀ (s : State) (offset : Nat) (rest : List Event), s.pending = .regRead offset 4 :: rest → offset % 4 = 0 →
    (offset < 0x200000 ∨ offset < 0x100000 + s.params.maxChannels * 0x8000) →
    step s = .next { s with pending := rest, readData := s.readReg offset }) ∧
  (∀ (s : State) (offset : Nat), 0x100000 + s.params.maxChannels * 0x8000 ≤ offset → s.readReg offset = 0) ∧
  (∀ (s : State) (offset : Nat) (v : Word) (rest : List Event), s.pending = .regWrite offset 4 v :: rest → offset % 4 = 0 →
    0x100000 + s.params.maxChannels * 0x8000 ≤ offset → offset < 0x200000 → step s = .next { s with pending := rest }) ∧
  ∀ s : State, s.readReg 0x000 = 0 ∧ s.readReg 0x008 = s.ctl.error.setWidth 32 ∧
    s.readReg 0x014 = s.regs.ret0 ∧ s.readReg 0x018 = s.regs.ret1 ∧ s.readReg 0x01C = s.regs.ret2 ∧
    s.readReg 0x030 = s.ctl.currentLoc ∧
    (s.ctl.totalSamplesKnown = .known → s.readReg 0x034 = s.ctl.totalSamples) ∧
    (s.ctl.totalSamplesKnown ≠ .known → s.readReg 0x034 = 0) ∧
    (s.ctl.state = .decoding ∨ s.ctl.state = .eof →
      s.readReg 0x020 = BitVec.ofNat 32 s.tab.channels ∧ s.readReg 0x024 = s.tab.sampleRate ∧
      (s.tab.logBlocksize0 < 16 → s.tab.logBlocksize1 < 16 →
        s.readReg 0x028 = BitVec.ofNat 32 (s.tab.logBlocksize0 + 16 * s.tab.logBlocksize1)) ∧
      s.readReg 0x02C = BitVec.ofNat 32 (2 ^ s.tab.logBlocksize1 / 2)) ∧
    (s.ctl.state ≠ .decoding → s.ctl.state ≠ .eof → ∀ offset ∈ [0x020, 0x024, 0x028, 0x02C], s.readReg offset = 0)

/-- The fields of STATUS (10_state.md R65). -/
def Obligations.StatusRegister : Prop :=
  (∀ s : State,
    ((s.readReg 0x004).extractLsb' 0 3).toNat = (match s.ctl.state with
      | .closed => 0 | .awaitingHeaders => 1 | .decoding => 2 | .eof => 3 | .error => 4) ∧
    ((s.readReg 0x004).extractLsb' 3 2).toNat = (match s.ctl.api with | .none => 0 | .pull => 1 | .push => 2) ∧
    ((s.readReg 0x004).extractLsb' 5 3).toNat = (match s.regs.result with
      | .none => 0 | .ok => 1 | .eof => 2 | .needMoreData => 3 | .error => 4) ∧
    (s.readReg 0x004).getLsbD 8 = s.ctl.currentLocValid ∧
    (s.readReg 0x004).extractLsb' 9 23 = 0) ∧
  (∀ (s : State) (v : Word) (rest : List Event), s.pending = .regWrite 0x004 4 v :: rest →
    step s = .next { s with pending := rest }) ∧
  State.reset.readReg 0x004 = 0

/-- ARG0 and ARG1 hold the last value written and start at 0; a write to a reserved offset or to a read-only register is ignored, and
reserved offsets read 0 (10_state.md R67, R75). -/
def Obligations.RegisterWrites : Prop :=
  (∀ (s : State) (v : Word) (rest : List Event),
    (s.pending = .regWrite 0x00C 4 v :: rest → ∃ t, step s = .next t ∧ t.readReg 0x00C = v ∧
      t = { s with pending := rest, regs.arg0 := v }) ∧
    (s.pending = .regWrite 0x010 4 v :: rest → ∃ t, step s = .next t ∧ t.readReg 0x010 = v ∧
      t = { s with pending := rest, regs.arg1 := v })) ∧
  State.reset.readReg 0x00C = 0 ∧ State.reset.readReg 0x010 = 0 ∧
  (∀ (s : State) (offset : Nat), 0x038 ≤ offset → offset < 0x100000 → s.readReg offset = 0) ∧
  ∀ (s : State) (offset : Nat) (v : Word) (rest : List Event), s.pending = .regWrite offset 4 v :: rest → offset % 4 = 0 →
    (0x038 ≤ offset ∧ offset < 0x100000 ∨
      offset ∈ [0x004, 0x008, 0x014, 0x018, 0x01C, 0x020, 0x024, 0x028, 0x02C, 0x030, 0x034]) →
    step s = .next { s with pending := rest }

/-- The PCM window (10_state.md R77). -/
def Obligations.PcmWindow : Prop :=
  (∀ (s : State) (c j : Nat) (rest : List Event), c < s.params.maxChannels → j < 0x2000 →
    s.pending = .regRead (0x100000 + c * 0x8000 + 4 * j) 4 :: rest →
    step s = .next { s with
      pending := rest
      readData := if c < s.tab.channels ∧ j < s.ctl.outLen then s.sample c (s.ctl.outLeft + j) else 0 }) ∧
  ∀ (s : State) (offset : Nat) (v : Word) (rest : List Event), 0x100000 ≤ offset →
    offset < 0x100000 + s.params.maxChannels * 0x8000 → offset % 4 = 0 →
    s.pending = .regWrite offset 4 v :: rest → step s = .next { s with pending := rest }

/-- Accesses of another width or alignment are refused (20_memory.md R99). -/
def Obligations.AccessWidth : Prop :=
  ∀ (s : State) (offset bytes : Nat) (v : Word) (rest : List Event), bytes ≠ 4 ∨ offset % 4 ≠ 0 →
    (s.pending = .regRead offset bytes :: rest ∨ s.pending = .regWrite offset bytes v :: rest) →
    step s = .refused .registerAccess

/-- The reset value of every element the spec gives one (70_reset_and_hazards.md R701), at `State.reset` and after a hardware
reset. -/
def Obligations.ResetValues : Prop :=
  (∀ (s : State) (rest : List Event), s.pending = .hardReset :: rest → ∃ t, step s = .next t) ∧
  ∀ t : State, t = State.reset ∨ (∃ (s : State) (rest : List Event), s.pending = .hardReset :: rest ∧ step s = .next t) →
    t.rd.acc = 0 ∧ t.rd.validBits = 0 ∧ t.rd.packetBytes = 0 ∧
    t.cur.segmentCount = 0 ∧ t.cur.nextSeg = -1 ∧ t.cur.bytesInSeg = 0 ∧ t.cur.lastSeg = false ∧ t.cur.lastSegWhich = -1 ∧
    t.cur.pageFlag = 0 ∧ t.cur.pageGranule = 0 ∧ t.cur.endSegWithKnownLoc = -2 ∧ t.cur.knownLocForPacket = 0 ∧
    t.src.pos = 0 ∧ t.src.eof = false ∧ t.src.firstAudioPageOffset = 0 ∧
    t.ctl.state = .closed ∧ t.ctl.api = .none ∧ t.ctl.firstDecode = true ∧ t.ctl.currentLoc = 0 ∧
    t.ctl.currentLocValid = false ∧ t.ctl.discardSamplesDeferred = 0 ∧ t.ctl.previousLength = 0 ∧ t.ctl.error = 0 ∧
    t.ctl.totalSamples = 0 ∧ t.ctl.totalSamplesKnown = .notComputed ∧ t.ctl.pFirst = ⟨0, 0, 0⟩ ∧ t.ctl.pLast = ⟨0, 0, 0⟩ ∧
    t.tab = Tables.absent ∧ t.ctl.outLeft = 0 ∧ t.ctl.outLen = 0 ∧ t.ctl.resync = false ∧
    (∀ offset ∈ [0x000, 0x004, 0x008, 0x00C, 0x010, 0x014, 0x018, 0x01C, 0x020, 0x024, 0x028, 0x02C, 0x030, 0x034],
      t.readReg offset = 0) ∧
    ∀ offset, 0x100000 ≤ offset → t.readReg offset = 0

/-! ### Which commands are taken -/

/-- A reserved CMD word, or a command its state does not allow, sets the error code and RESULT and nothing else
(60_exceptions.md R607). -/
def Obligations.IllegalCommand : Prop :=
  (∀ (s : State) (w : Word) (rest : List Event), s.pending = .regWrite 0x000 4 w :: rest →
    (w.extractLsb' 8 24 ≠ 0 ∨ w.extractLsb' 0 8 = 0 ∨ 0x0B ≤ (w.extractLsb' 0 8).toNat ∨
      ∃ (op : Word) (states : List TopState), w = op ∧ s.ctl.state ∉ states ∧
        (op, states) ∈ [((0x01 : Word), [TopState.closed]), (0x02, [.closed, .awaitingHeaders]), (0x03, [.decoding]),
          (0x04, [.decoding, .eof]), (0x05, [.decoding, .eof]), (0x06, [.decoding, .eof]), (0x07, [.decoding, .eof]),
          (0x08, [.decoding, .eof])]) →
    step s = .next { s with pending := rest, ctl.error := 64, regs.result := .error }) ∧
  ∀ (s : State) (w : Word), exec (.illegalCommand w) s = .next { s with ctl.error := 64, regs.result := .error }

/-- A pull command on a push instance, or a push command on a pull instance, in a state that allows it otherwise, is fatal
(60_exceptions.md R604, R606; that the PCM window stays as it was is the model's choice, notes/assumptions/38.md). -/
def Obligations.ApiMixing : Prop :=
  ∀ (s : State) (i : Instr) (wrong : Api) (states : List TopState), s.ctl.api = wrong → s.ctl.state ∈ states →
    (i, wrong, states) ∈ [(Instr.decodeFrame, Api.push, [TopState.decoding, .eof]), (.seek, .push, [.decoding, .eof]),
      (.seekStart, .push, [.decoding, .eof]), (.streamLength, .push, [.decoding, .eof]), (.pushDecode, .pull, [.decoding])] →
    exec i s = .next { s with ctl.error := 2, ctl.state := .error, regs.result := .error }

/-- What raising an error does, by its class (60_exceptions.md R604), outside pull decoding, whose repositioning other statements
give; the codes are those of 60_exceptions.md R601.  That a misuse leaves `out_len` and the PCM window as they were is the model's
choice (notes/assumptions/38.md). -/
def Obligations.RaiseEffect : Prop :=
  (∀ (s : State) (e : ErrCode) (c : Byte), (e, c) ∈ [(ErrCode.outOfMem, (3 : Byte)), (.featureNotSupported, 4), (.tooManyChannels, 5),
      (.invalidSetup, 20), (.invalidFirstPage, 34), (.oggSkeletonNotSupported, 38)] →
    takeError e s = { s with ctl.error := c, ctl.state := .error, regs.result := .error, tab := Tables.absent }) ∧
  (∀ (s : State) (e : ErrCode) (c : Byte), (e, c) ∈ [(ErrCode.unexpectedEof, (10 : Byte)), (.invalidStream, 21),
      (.missingCapturePattern, 30), (.invalidStreamStructureVersion, 31), (.continuedPacketFlagInvalid, 32)] →
    (s.ctl.state = .closed ∨ s.ctl.state = .awaitingHeaders →
      takeError e s = { s with ctl.error := c, ctl.state := .error, regs.result := .error, tab := Tables.absent }) ∧
    (s.ctl.state = .decoding → s.ctl.api = .push →
      takeError e s = { s with
        ctl.error := c, regs.result := .error
        ctl.resync := true, ctl.previousLength := 0, ctl.discardSamplesDeferred := 0, ctl.currentLocValid := false
        ctl.firstDecode := false, ctl.outLen := 0 }) ∧
    (s.ctl.state = .decoding → s.ctl.api = .pull →
      takeError e s = { s with
        ctl.error := c, regs.result := .error, ctl.state := if e = .unexpectedEof then .eof else .decoding })) ∧
  (∀ s : State, takeError .invalidApiMixing s = { s with ctl.error := 2, ctl.state := .error, regs.result := .error }) ∧
  (∀ (s : State) (e : ErrCode) (c : Byte), (e, c) ∈ [(ErrCode.seekWithoutLength, (7 : Byte)), (.seekInvalid, 11), (.seekFailed, 37),
      (.illegalCommand, 64)] → takeError e s = { s with ctl.error := c, regs.result := .error }) ∧
  ∀ s : State, takeError .needMoreData s = { s with ctl.error := 1, regs.ret0 := 0, regs.result := .needMoreData }

/-! ### Commands that only look -/

/-- GET_ERROR returns the pending code exactly once, in every state; a new error overwrites an unread one
(48_frame_control.md R557). -/
def Obligations.GetError : Prop :=
  (∀ s : State, exec .getError s = .next { s with regs.ret0 := s.ctl.error.setWidth 32, ctl.error := 0, regs.result := .ok }) ∧
  (∀ s t u : State, exec .getError s = .next t → exec .getError t = .next u → u.regs.ret0 = 0 ∧ u.ctl.error = 0) ∧
  ∀ (s : State) (e : ErrCode), (takeError e s).ctl.error = e.code ∧ (s.setError e).ctl.error = e.code

/-- GET_INFO (48_frame_control.md R544). -/
def Obligations.GetInfo : Prop :=
  ∀ s : State, s.ctl.state = .decoding ∨ s.ctl.state = .eof →
    exec .getInfo s = .next { s with
      regs.ret0 := BitVec.ofNat 32 s.tab.channels, regs.ret1 := s.tab.sampleRate
      regs.ret2 := BitVec.ofNat 32 ((2 ^ s.tab.logBlocksize1) >>> 1), regs.result := .ok }

/-- CLOSE in every state: the reset state, but for ARG0, ARG1 and RESULT (48_frame_control.md R560).  What the spec leaves
unspecified takes the model's reset value too (notes/assumptions/6.md), and what is not the block's stays
(notes/assumptions/28.md). -/
def Obligations.Close : Prop :=
  ∀ s : State, exec .close s = .next { State.reset with
    mem := s.mem, pending := s.pending, readData := s.readData, params := s.params
    regs := { HostRegs.reset with arg0 := s.regs.arg0, arg1 := s.regs.arg1, result := .ok } }

/-! ### Seeking and the stream length -/

/-- SEEK_START on a stream whose setup packet ends its page; when it does not, SEEK and SEEK_START change nothing but the error code
and RESULT (48_frame_control.md R548, R549; that fact is the model's own field, notes/assumptions/16.md). -/
def Obligations.SeekStart : Prop :=
  ∀ s : State, s.ctl.state = .decoding ∨ s.ctl.state = .eof → s.ctl.api = .pull →
    (s.ctl.setupEndsPage = true → exec .seekStart s = .next { s with
      src.pos := if s.src.len ≤ s.src.firstAudioPageOffset then s.src.len else s.src.firstAudioPageOffset
      src.eof := decide (s.src.len ≤ s.src.firstAudioPageOffset)
      cur.nextSeg := -1, cur.lastSeg := false, cur.bytesInSeg := 0, rd.validBits := 0
      ctl.firstDecode := true, ctl.previousLength := 0, ctl.discardSamplesDeferred := 0
      ctl.currentLoc := 0, ctl.currentLocValid := false, ctl.outLen := 0
      ctl.state := .decoding, regs.result := .ok }) ∧
    (s.ctl.setupEndsPage = false → ∀ i ∈ [Instr.seek, .seekStart],
      exec i s = .next { s with ctl.error := 37, regs.result := .error })

/-- STREAM_LENGTH completes, leaves the decode position and the latched page alone, and caches what it found: the granule of the last
page that the walk over the end of the source reaches, saturated, or nothing (48_frame_control.md R552). -/
def Obligations.StreamLengthCompletes : Prop :=
  ∀ s : State, s.ctl.state = .decoding ∨ s.ctl.state = .eof → s.ctl.api = .pull →
    ∃ t, exec .streamLength s = .next t ∧ t.regs.result = .ok ∧ t.ctl.totalSamplesKnown ≠ .notComputed ∧
      t.regs.ret0 = (if t.ctl.totalSamplesKnown = .known then t.ctl.totalSamples else 0) ∧
      (s.ctl.totalSamplesKnown ≠ .notComputed →
        t = { s with regs.ret0 := t.regs.ret0, regs.result := .ok }) ∧
      (s.src.pos ≤ s.src.len → t.src.pos = s.src.pos) ∧
      t = { s with
        regs.ret0 := t.regs.ret0, regs.result := .ok
        src.pos := t.src.pos, src.eof := t.src.eof
        ctl.totalSamples := t.ctl.totalSamples, ctl.totalSamplesKnown := t.ctl.totalSamplesKnown
        ctl.pLast := t.ctl.pLast, ctl.error := t.ctl.error } ∧
      (s.ctl.totalSamplesKnown = .notComputed → ∃ b v found w,
        setPos (if 65536 ≤ s.src.len.toNat ∧ s.src.firstAudioPageOffset.toNat ≤ s.src.len.toNat - 65536 then s.src.len - 65536
          else s.src.firstAudioPageOffset) s = .ok b v ∧ findPage v = .ok found w ∧
        (found = none → t.ctl.totalSamplesKnown = .unknown ∧ t.ctl.error = 36 ∧ t.ctl.pLast = s.ctl.pLast) ∧
        ∀ page, found = some page → ∃ last g, LastPage w page last ∧ g = s.granuleAt last.start ∧
          (g = BitVec.allOnes 64 → t.ctl.totalSamplesKnown = .unknown ∧ t.ctl.error = 36 ∧ t.ctl.pLast = s.ctl.pLast) ∧
          (g ≠ BitVec.allOnes 64 → t.ctl.totalSamplesKnown = .known ∧ t.ctl.error = s.ctl.error ∧
            t.ctl.totalSamples = (if 2 ^ 32 ≤ g.toNat then 0xFFFFFFFE else g.setWidth 32) ∧
            t.ctl.pLast = ⟨last.start, last.stop, t.ctl.totalSamples⟩))

/-- SEEK computes the stream length first, then refuses a stream without one and a target past it (48_frame_control.md R548).  Else
it ends as `seekEnd` says of the policy's answer, which is a free value (notes/assumptions/11.md), and for every answer: a landing
at or before the target from which the decoder gives exactly the samples of the rewound stream from that sample on is taken, and
one that is not, or a failed policy, leaves the stream rewound with `seek_failed`.  A landing keeps the ranges of 10_state.md; which
pending code it may leave is the model's choice (notes/assumptions/39.md). -/
def Obligations.SeekOutcome : Prop :=
  ∀ s : State, s.ctl.state = .decoding ∨ s.ctl.state = .eof → s.ctl.api = .pull → s.ctl.setupEndsPage = true →
    ∃ (length : Word) (u w : State), streamLength s = .ok length u ∧ u.ctl.state = s.ctl.state ∧ u.regs = s.regs ∧
      (length = 0 → exec .seek s = .next { u with ctl.error := 7, regs.result := .error }) ∧
      (length ≠ 0 → length < s.regs.arg0 → exec .seek s = .next { u with ctl.error := 11, regs.result := .error }) ∧
      w = { u with
        src.pos := if s.src.len ≤ s.src.firstAudioPageOffset then s.src.len else s.src.firstAudioPageOffset
        src.eof := decide (s.src.len ≤ s.src.firstAudioPageOffset)
        cur.nextSeg := -1, cur.lastSeg := false, cur.bytesInSeg := 0, rd.validBits := 0
        ctl.firstDecode := true, ctl.previousLength := 0, ctl.discardSamplesDeferred := 0
        ctl.currentLoc := 0, ctl.currentLocValid := false, ctl.outLen := 0, ctl.state := .decoding } ∧
      (length ≠ 0 → s.regs.arg0 ≤ length → exec .seek s = .next
        (seekEnd (Config.seekPolicy (u.seekInput s.regs.arg0 length)) s.regs.arg0 u)) ∧
      ∀ (answer : Option DecodePoint) (t : State), t = seekEnd answer s.regs.arg0 u →
        t.ctl.state = .decoding ∧ t.ctl.outLen = 0 ∧ t.tab = s.tab ∧ t.mem = s.mem ∧ t.src.len = s.src.len ∧
        t.regs = { s.regs with result := t.regs.result } ∧
        (t.regs.result = .ok → t.ctl.currentLocValid = true ∧ t.ctl.currentLoc ≤ s.regs.arg0 ∧
          t.ctl.discardSamplesDeferred ≤ s.tab.blocksize true ∧ t.ctl.previousLength ≤ s.tab.blocksize true / 2 ∧
          (t.ctl.error = u.ctl.error ∨ t.ctl.error ∈ ([10, 21, 30, 31, 32, 36] : List Byte)) ∧
          t.remaining = w.remaining.drop t.ctl.currentLoc.toNat) ∧
        (t.regs.result ≠ .ok → t = { w with ctl.error := 37, regs.result := .error }) ∧
        (answer = none → t.regs.result = .error) ∧
        ∀ p, answer = some p → p.currentLoc ≤ s.regs.arg0 → p.rd.inRange = true → p.cur.InRange → p.pos ≤ s.src.len →
          (p.eof = true → p.pos = s.src.len) → p.discardSamplesDeferred ≤ s.tab.blocksize true →
          p.previousLength ≤ s.tab.blocksize true / 2 →
          (p.error = u.ctl.error ∨ p.error ∈ ([10, 21, 30, 31, 32, 36] : List Byte)) →
          p.previousWindow.map List.length = s.work.previousWindow.map List.length →
          (w.landed p).remaining = w.remaining.drop p.currentLoc.toNat →
          t.regs.result = .ok ∧ t.decodePoint = p

/-! ### Decoding frames in pull mode -/

/-- The end of a stream in pull mode: at a page boundary, afterwards, and inside a packet or page header
(48_frame_control.md R530, R543; `pageStart` is the model's own field, notes/assumptions/16.md).  Where the spec's texts differ the
outcome is a free value: inside a capture pattern (60_exceptions.md R612, 41_ogg_framer.md R242; notes/assumptions/44.md), and right
after a page without segments (R530, R241; notes/assumptions/45.md). -/
def Obligations.EndOfStream : Prop :=
  (∀ s : State, s.ctl.state = .decoding → s.ctl.api = .pull → s.cur.nextSeg = -1 → s.src.len ≤ s.src.pos →
    exec .decodeFrame s = .next { s with
      ctl.outLen := 0, regs.ret0 := 0, regs.ret1 := BitVec.ofNat 32 s.tab.channels, regs.result := .eof
      ctl.state := .eof, src.eof := true, src.pageStart := s.src.pos }) ∧
  (∀ s : State, s.ctl.state = .eof → s.ctl.api = .pull →
    exec .decodeFrame s = .next { s with
      ctl.outLen := 0, regs.ret0 := 0, regs.ret1 := BitVec.ofNat 32 s.tab.channels, regs.result := .eof }) ∧
  (∀ s t : State, s.ctl.state = .decoding → s.ctl.api = .pull → decodePacket (framePrologue s) = .error .unexpectedEof t →
    exec .decodeFrame s = .next { t with ctl.error := 10, ctl.state := .eof, regs.result := .error } ∧
    t.ctl.outLen = 0 ∧ t.regs.ret0 = 0 ∧ t.work.previousWindow = s.work.previousWindow) ∧
  (∀ (s : State) (n : Nat), s.cur.nextSeg = -1 → 0 < n → n < 4 → s.Ahead (captureBytes.take n) →
    s.src.pos.toNat + n = s.src.len.toNat →
    ∃ t, decodePacket (framePrologue s) =
      .error (if Config.cutCaptureIsEof then .unexpectedEof else .missingCapturePattern) t ∧ t.src.pageStart = s.src.pos) ∧
  ∀ (s : State) (f : PageFields), s.cur.nextSeg = -1 → pageContinued f.flag = false → f.segments = [] →
    s.Ahead (captureBytes ++ f.encode) → s.src.pos.toNat + (captureBytes ++ f.encode).length = s.src.len.toNat →
    ∃ t, decodePacket (framePrologue s) = (if Config.emptyPageIsEnd then .ok none t else .error .missingCapturePattern t) ∧
      t.src.pos = s.src.len ∧ t.src.eof = true

/-- Where the next packet begins: at the next latched segment, or at a page just ahead that has segments and whose first packet is
not a continuation (41_ogg_framer.md R241, R242; the page start that `State.captured` and the last clause record is the model's own
field, notes/assumptions/16.md). -/
def Obligations.PacketStart : Prop :=
  (∀ s : State, s.cur.nextSeg ≠ -1 → maybeStartPacket s = .ok true s.opened) ∧
  (∀ (s : State) (f : PageFields) (rest : List Byte), s.cur.nextSeg = -1 → pageContinued f.flag = false → f.segments ≠ [] →
    f.segments.length ≤ 255 → s.Ahead (captureBytes ++ (f.encode ++ rest)) →
    maybeStartPacket s = .ok true (s.captured.pageRead f).opened) ∧
  ∀ s : State, s.cur.nextSeg = -1 → s.src.len ≤ s.src.pos →
    maybeStartPacket s = .ok false { s with src.eof := true, src.pageStart := s.src.pos }

/-- DECODE_FRAME on an audio packet whose rest lies in its page: it succeeds, and the count and position are those of the packet's
mode and window flags (48_frame_control.md R520, R524, R543); `p` is the machine at the start of the packet. -/
def Obligations.DecodeFrameCompletes : Prop :=
  ∀ (s p : State) (m : Nat) (mode : ModeEntry) (prev next : Bool) (rest : List Bool),
    s.ctl.state = .decoding → s.ctl.api = .pull → maybeStartPacket (framePrologue s) = .ok true p →
    s.tab.modes.length ≤ 64 → s.tab.modes[m]? = some mode → (mode.long = false → prev = false ∧ next = false) →
    p.Holds ([false] ++ (fieldBits (ilog (s.tab.modes.length - 1)) m ++ ((if mode.long then [prev, next] else []) ++ rest))) →
    ∃ u, u.PacketDone ∧ DecodedFrom p u ∧
      let n := s.tab.blocksize mode.long
      let b := bookkeeping u.cur n (geometry n (s.tab.blocksize false) mode.long prev next) u.ctl
      let r := deliverFrame b.1 { u with ctl := b.2 }
      exec .decodeFrame s = .next { r.2 with regs.ret0 := BitVec.ofNat 32 r.1, regs.result := .ok }

/-- Recovery in pull mode.  After a page that does not parse, DECODE_FRAME reports it, stays in DECODING, primes the lap again, and
stands at the page that the scan finds from the byte after the failed page's start, or at the end of the source
(48_frame_control.md R531; that start is the model's own field, notes/assumptions/16.md, and where no byte follows it the scan is
at the end, notes/assumptions/41.md).  At a page boundary where no page stands, the failed start is the position.  After a page whose first packet continues one not seen, its tail is consumed (R523); from where
it is consumed is the model's inference (notes/assumptions/17.md).  Where a scan ends (41_ogg_framer.md R255). -/
def Obligations.PageRecovery : Prop :=
  (∀ (s t : State) (e : ErrCode), s.ctl.state = .decoding → s.ctl.api = .pull →
    (e = .missingCapturePattern ∨ e = .invalidStreamStructureVersion) → decodePacket (framePrologue s) = .error e t →
    ∃ b v found w, setPos (BitVec.ofNat 32 (min (t.src.pageStart.toNat + 1) (2 ^ 32 - 1))) t = .ok b v ∧ findPage v = .ok found w ∧
      (s.src.len.toNat ≤ t.src.pageStart.toNat + 1 → found = none ∧ w.src.eof = true) ∧
      (found = none → w.src.pos = s.src.len) ∧ (∀ page, found = some page → w.src.pos = page.start) ∧
      w.ctl.state = .decoding ∧ w.ctl.outLen = 0 ∧ w.regs.ret0 = 0 ∧ w.tab = s.tab ∧
      exec .decodeFrame s = .next { w with
        cur.nextSeg := -1, ctl.previousLength := 0, ctl.currentLocValid := false, ctl.error := e.code, regs.result := .error }) ∧
  (∀ s : State, s.ctl.state = .decoding → s.ctl.api = .pull → s.cur.nextSeg = -1 → s.src.eof = false →
    s.src.pos.toNat + 4 ≤ s.src.len.toNat → s.bytesAt s.src.pos.toNat 4 ≠ captureBytes →
    ∃ t, decodePacket (framePrologue s) = .error .missingCapturePattern t ∧ t.src.pageStart = s.src.pos) ∧
  (∀ s t : State, s.ctl.state = .decoding → s.ctl.api = .pull →
    decodePacket (framePrologue s) = .error .continuedPacketFlagInvalid t →
    (∃ u, exec .decodeFrame s = .next u ∧ u.regs.result = .error ∧ u.ctl.error = 32 ∧ u.ctl.state = .decoding ∧
      u.ctl.outLen = 0 ∧ u.regs.ret0 = 0 ∧ u.tab = s.tab) ∧
    ∀ p : State, p = { t with cur.lastSeg := false, cur.bytesInSeg := 0 } → p.PacketHere →
      ∃ w, w.PacketDone ∧ ReadFrom p w ∧ exec .decodeFrame s = .next { w with ctl.error := 32, regs.result := .error }) ∧
  ∀ s : State, s.src.pos ≤ s.src.len → (s.src.eof = true → s.src.pos = s.src.len) →
    ∃ found t, findPage s = .ok found t ∧ t = { s with src.pos := t.src.pos, src.eof := t.src.eof } ∧
      (found = none → t.src.pos = s.src.len) ∧
      ∀ page, found = some page → s.Finds page ∧ s.src.pos ≤ page.start ∧ t.src.pos = page.start ∧ t.src.eof = false ∧
        ∀ j, s.src.pos.toNat ≤ j → j < page.start.toNat → ¬ s.PageValid j

/-! ### Push mode -/

/-- PUSH_DECODE on a chunk that lacks a whole packet, or whose framing is bad, and when each is so (48_frame_control.md R542, R545);
`c` is the machine with the chunk as its source. -/
def Obligations.PushNeedsMore : Prop :=
  ∀ s c : State, s.ctl.state = .decoding → s.ctl.api = .push → s.ctl.resync = false →
    c = { s with
      src.base := s.regs.arg0, src.len := s.regs.arg1, src.pos := 0, src.eof := false
      ctl.outLen := 0, regs.ret1 := 0, regs.ret2 := BitVec.ofNat 32 s.tab.channels } →
    (wholePacketPresent c = .need →
      exec .pushDecode s = .next { c with ctl.error := 1, regs.ret0 := 0, regs.result := .needMoreData }) ∧
    (wholePacketPresent c = .bad →
      exec .pushDecode s = .next { c with
        ctl.error := 21, regs.ret0 := 0, regs.result := .error
        ctl.resync := true, ctl.previousLength := 0, ctl.discardSamplesDeferred := 0, ctl.currentLocValid := false
        ctl.firstDecode := false }) ∧
    (s.cur.nextSeg = -1 → s.regs.arg1.toNat < 27 → wholePacketPresent c = .need) ∧
    (s.cur.nextSeg = -1 → 27 ≤ s.regs.arg1.toNat → c.chunkBytes 0 4 ≠ captureBytes → wholePacketPresent c = .bad) ∧
    (s.cur.nextSeg ≠ -1 → (sumSegments s.cur.latched 0).2 = true →
      wholePacketPresent c = if s.regs.arg1.toNat < (sumSegments s.cur.latched 0).1 then .need else .present)

/-- PUSH_DECODE on an audio packet that is wholly present: it succeeds and reports the bytes consumed and the samples
(48_frame_control.md R542). -/
def Obligations.PushDecodeCompletes : Prop :=
  ∀ (s c p : State) (m : Nat) (mode : ModeEntry) (prev next : Bool) (rest : List Bool),
    s.ctl.state = .decoding → s.ctl.api = .push → s.ctl.resync = false →
    c = { s with
      src.base := s.regs.arg0, src.len := s.regs.arg1, src.pos := 0, src.eof := false
      ctl.outLen := 0, regs.ret1 := 0, regs.ret2 := BitVec.ofNat 32 s.tab.channels } →
    wholePacketPresent c = .present → maybeStartPacket c = .ok true p →
    s.tab.modes.length ≤ 64 → s.tab.modes[m]? = some mode → (mode.long = false → prev = false ∧ next = false) →
    p.Holds ([false] ++ (fieldBits (ilog (s.tab.modes.length - 1)) m ++ ((if mode.long then [prev, next] else []) ++ rest))) →
    ∃ u, u.PacketDone ∧ DecodedFrom p u ∧
      let n := s.tab.blocksize mode.long
      let b := bookkeeping u.cur n (geometry n (s.tab.blocksize false) mode.long prev next) u.ctl
      let r := deliverFrame b.1 { u with ctl := b.2 }
      exec .pushDecode s = .next { r.2 with
        regs.ret0 := u.src.pos, regs.ret1 := BitVec.ofNat 32 r.1, regs.result := .ok }

/-- PUSH_DECODE while resynchronising: it skips to the least offset at which the chunk holds a whole CRC-valid page, or to the first
offset at which one could still begin; which offsets those are; and the page checksum (41_ogg_framer.md R250 to R252, R256;
48_frame_control.md R542).  That the page found is read next is notes/assumptions/18.md, and that a whole page counts whatever its
version byte is notes/assumptions/32.md: both are the model's inferences. -/
def Obligations.PushResync : Prop :=
  (∀ s c : State, s.ctl.state = .decoding → s.ctl.api = .push → s.ctl.resync = true →
    c = { s with
      src.base := s.regs.arg0, src.len := s.regs.arg1, src.pos := 0, src.eof := false
      ctl.outLen := 0, regs.ret1 := 0, regs.ret2 := BitVec.ofNat 32 s.tab.channels } →
    (∀ (i : Nat) (g : BitVec 64), i < s.regs.arg1.toNat → pageAt c i = .whole g → (∀ j < i, ∀ g', pageAt c j ≠ .whole g') →
      exec .pushDecode s = .next { c with
        ctl.resync := false, ctl.previousLength := 0, ctl.currentLoc := g.setWidth 32
        ctl.currentLocValid := decide (g ≠ BitVec.allOnes 64), cur.nextSeg := -1
        regs.ret0 := BitVec.ofNat 32 i, regs.result := .ok }) ∧
    ∀ k ≤ s.regs.arg1.toNat, (∀ j < s.regs.arg1.toNat, ∀ g, pageAt c j ≠ .whole g) → (∀ j < k, pageAt c j ≠ .couldBegin) →
      (k < s.regs.arg1.toNat → pageAt c k = .couldBegin) →
      exec .pushDecode s = .next { c with
        ctl.error := 1, regs.ret0 := BitVec.ofNat 32 k, regs.result := .needMoreData }) ∧
  (∀ (c : State) (i : Nat), i < c.src.len.toNat →
    (∀ g, pageAt c i = .whole g ↔
      i + 27 ≤ c.src.len.toNat ∧ i + c.pageSize i ≤ c.src.len.toNat ∧ c.bytesAt i 4 = captureBytes ∧
      pageCrc (c.bytesAt i (c.pageSize i)) = crcField (c.bytesAt i (c.pageSize i)) ∧ g = c.granuleAt (BitVec.ofNat 32 i)) ∧
    (pageAt c i = .couldBegin ↔
      c.src.len.toNat < i + 4 ∧ c.bytesAt i (c.src.len.toNat - i) = captureBytes.take (c.src.len.toNat - i) ∨
      i + 4 ≤ c.src.len.toNat ∧ c.bytesAt i 4 = captureBytes ∧
        (c.src.len.toNat < i + 27 ∨ c.src.len.toNat < i + c.pageSize i))) ∧
  (∀ bytes : List Byte, pageCrc bytes =
    ((bytes.take 22 ++ (List.replicate 4 0 ++ bytes.drop 26)).take bytes.length).foldl
      (fun crc b => (crc <<< 8) ^^^ crcTable (b ^^^ crc.extractLsb' 24 8)) 0) ∧
  (∀ (crc : Word) (b : Byte), (crc <<< 8) ^^^ crcTable (b ^^^ crc.extractLsb' 24 8) =
    (List.replicate 8 ()).foldl (fun r _ => if r.getLsbD 31 then (r <<< 1) ^^^ 0x04C11DB7 else r <<< 1)
      (crc ^^^ (b.setWidth 32 <<< 24))) ∧
  crcTable 0 = 0 ∧ crcTable 1 = 0x04C11DB7 ∧ crcTable 0x80 = 0x690CE0EE ∧ crcTable 0xFF = 0xB1F740B4

/-! ### Opening -/

/-- OPEN_PULL, and OPEN_PUSH on a chunk, where the headers pass every check, one packet to a page: the tables are those of the
headers, the runtime state is that of 42_setup.md R328, R330, and OPEN_PUSH tells the bytes consumed (48_frame_control.md R540,
R541).  What table fields hold that the headers do not have is the model's choice (notes/assumptions/46.md). -/
def Obligations.OpenCompletes : Prop :=
  ∀ (s : State) (h : HeaderStream) (f : SetupFields) (rest : List Byte), h.Legal f s.params →
    fitsArena s.params (h.tables f) = true →
    ({ s with src := ⟨s.regs.arg0, s.regs.arg1, 0, false, 0, 0⟩ } : State).Ahead (h.bytes ++ rest) →
    (s.ctl.state = .closed →
      ∃ t, exec .openPull s = .next t ∧ t.tab = h.tables f ∧ t.regs = { s.regs with result := .ok } ∧ t.mem = s.mem ∧
        t.cur.nextSeg = -1 ∧ t.src.base = s.regs.arg0 ∧ t.src.len = s.regs.arg1 ∧
        t.src.pos = BitVec.ofNat 32 h.bytes.length ∧ t.src.firstAudioPageOffset = BitVec.ofNat 32 h.bytes.length ∧
        t.ctl = { s.ctl with
          state := .decoding, api := .pull, firstDecode := true, previousLength := 0, discardSamplesDeferred := 0
          currentLoc := 0, currentLocValid := false, outLeft := 0, outLen := 0, totalSamplesKnown := .notComputed
          resync := false, setupEndsPage := true, pFirst := t.ctl.pFirst }) ∧
    (s.ctl.state = .closed ∨ s.ctl.state = .awaitingHeaders →
      ∃ t, exec .openPush s = .next t ∧ t.tab = h.tables f ∧
        t.regs = { s.regs with ret0 := BitVec.ofNat 32 h.bytes.length, result := .ok } ∧ t.mem = s.mem ∧
        t.cur.nextSeg = -1 ∧ t.src.pos = BitVec.ofNat 32 h.bytes.length ∧ t.src.eof = false ∧
        t.ctl = { s.ctl with
          state := .decoding, api := .push, firstDecode := true, previousLength := 0, discardSamplesDeferred := 0
          currentLoc := 0, currentLocValid := false, outLeft := 0, outLen := 0, totalSamplesKnown := .notComputed
          resync := false, setupEndsPage := true })

/-- An open that does not succeed: OPEN_PUSH on a chunk that ends inside the headers asks for more, whatever the parse raised; every
other error fails the open as a whole, with no table kept and the state ERROR (48_frame_control.md R540, R541; 60_exceptions.md
R602, R603). -/
def Obligations.FailedOpenKeepsNoTable : Prop :=
  (∀ s t : State, s.ctl.state = .closed ∨ s.ctl.state = .awaitingHeaders →
    (openTables (openPrologue .push s) = .ok () t ∨ ∃ e, openTables (openPrologue .push s) = .error e t) →
    t.src.eof = true → exec .openPush s = .next { t with
      tab := Tables.absent, ctl.state := .awaitingHeaders, ctl.error := 1, regs.ret0 := 0, regs.result := .needMoreData }) ∧
  (∀ s : State, s.ctl.state = .closed ∨ s.ctl.state = .awaitingHeaders → s.regs.arg1 = 0 →
    ∃ t, exec .openPush s = .next t ∧ t.ctl.state = .awaitingHeaders ∧ t.ctl.api = .push ∧
      t.regs = { s.regs with ret0 := 0, result := .needMoreData } ∧ t.ctl.error = 1 ∧ t.tab = Tables.absent) ∧
  ∀ (s t : State) (e : ErrCode),
    (s.ctl.state = .closed → openTables { openPrologue .pull s with ctl.state := .awaitingHeaders } = .error e t →
      exec .openPull s = .next { t with ctl.error := e.code, ctl.state := .error, regs.result := .error, tab := Tables.absent }) ∧
    (s.ctl.state = .closed ∨ s.ctl.state = .awaitingHeaders → openTables (openPrologue .push s) = .error e t →
      t.src.eof = false →
      exec .openPush s = .next { t with ctl.error := e.code, ctl.state := .error, regs.result := .error, tab := Tables.absent })

/-! ### Pages and header packets -/

/-- OGG_PAGE: the fields after the capture pattern are read and latched (41_ogg_framer.md R233, R234, R235). -/
def Obligations.PageHeader : Prop :=
  ∀ (s : State) (f : PageFields) (rest : List Byte), f.segments.length ≤ 255 → s.Ahead (f.encode ++ rest) →
    ∃ t, exec .oggPage s = .next t ∧
      t.cur.pageFlag = f.flag ∧ t.cur.pageGranule = f.granule ∧ t.cur.segmentCount = f.segments.length ∧
      t.cur.segments.take f.segments.length = f.segments ∧
      t.cur.nextSeg = (if f.segments.length = 0 then -1 else 0) ∧
      t = { s with
        src.pos := s.src.pos + BitVec.ofNat 32 f.encode.length
        cur := { s.cur with
          pageFlag := f.flag, pageGranule := f.granule, segmentCount := f.segments.length, segments := t.cur.segments
          nextSeg := t.cur.nextSeg, endSegWithKnownLoc := t.cur.endSegWithKnownLoc
          knownLocForPacket := t.cur.knownLocForPacket } }

/-- The segment whose packet has a known end (41_ogg_framer.md R236). -/
def Obligations.KnownGranule : Prop :=
  ∀ (flag : Byte) (granule : BitVec 64) (segments : List Byte) (c : PageCursor),
    (granule = BitVec.allOnes 64 ∨ (∀ b ∈ segments, b = 255) → (latchPage flag granule segments c).endSegWithKnownLoc = -2) ∧
    ∀ i, i < segments.length → granule ≠ BitVec.allOnes 64 → segments.getD i 0 < 255 →
      (∀ j, i < j → j < segments.length → segments.getD j 0 = 255) →
      (latchPage flag granule segments c).endSegWithKnownLoc = i ∧
        (latchPage flag granule segments c).knownLocForPacket = granule.setWidth 32

/-- HDR_IDENTIFICATION on a packet that passes every check: the stream identity, and the packet flushed (42_setup.md R283, R284,
R285). -/
def Obligations.IdentificationHeader : Prop :=
  ∀ (s : State) (f : IdentFields) (rest : List Byte), f.Legal s.params → s.PacketHere → s.packetBytes = f.encode ++ rest →
    ∃ t, exec .hdrIdentification s = .next t ∧ t.PacketDone ∧ ParsedFrom s t { s.tab with
      channels := f.channels, sampleRate := BitVec.ofNat 32 f.rate
      bitrateMax := BitVec.ofNat 32 f.brMax, bitrateNominal := BitVec.ofNat 32 f.brNominal, bitrateMin := BitVec.ofNat 32 f.brMin
      logBlocksize0 := f.log0, logBlocksize1 := f.log1 }

/-- HDR_COMMENT: the rest of the packet is skipped, whatever it holds (42_setup.md R287). -/
def Obligations.CommentHeader : Prop :=
  ∀ (s : State) (rest : List Byte), s.PacketHere → s.packetBytes = vorbisBytes ++ rest →
    ∃ t, exec .hdrComment s = .next t ∧ t.PacketDone ∧ ReadFrom s t

/-- HDR_SETUP on a packet that passes every check: the tables are those of its fields, in order, and the packet is flushed
(42_setup.md R288 to R324; what fields hold that the packet does not have is the model's choice, notes/assumptions/46.md). -/
def Obligations.SetupHeader : Prop :=
  ∀ (s : State) (f : SetupFields) (pad : List Bool), s.tab.codebooks = [] → s.tab.floors = [] → s.tab.residues = [] →
    s.tab.mappings = [] → s.tab.modes = [] → s.tab.channels ≤ 255 → f.Legal s.tab → s.PacketHere →
    s.packetBytes.take 6 = vorbisBytes → (s.packetBytes.drop 6).flatMap byteBits = f.encode s.tab.channels ++ pad →
    ∃ t, exec .hdrSetup s = .next t ∧ t.PacketDone ∧ ParsedFrom s t (f.tables s.tab)

/-- A header packet with a wrong type byte or a wrong "vorbis" string (30_encoding.md R191); that the stand-alone step takes the
error as an open does is the model's choice (notes/assumptions/26.md). -/
def Obligations.HeaderPrefix : Prop :=
  ∀ (s : State) (k : HeaderKind) (rest : List Event), s.pending = .element (.header k) :: rest → s.PacketHere →
    s.packetBytes.take 7 ≠ BitVec.ofNat 8 k.typeByte :: vorbisBytes →
    ∃ t, step s = .next t ∧ t.ctl.error = (match k with | .identification => 34 | .comment => 20 | .setup => 20) ∧
      t.ctl.state = .error ∧ t.regs.result = .error ∧ t.tab = Tables.absent

/-- Reserved values of the type fields of the setup header fail the open (30_encoding.md R192; the stand-alone step is the model's
own, notes/assumptions/4.md). -/
def Obligations.ReservedTypeFields : Prop :=
  ∀ (s : State) (p : StreamPoint) (v : Nat) (rest : List Event) (bits : List Bool), s.pending = .element p :: rest →
    (p = .lookup .setup ∧ 3 ≤ v ∧ v < 2 ^ 4 ∨ p = .floor .setup ∧ 2 ≤ v ∧ v < 2 ^ 16 ∨
      p = .residue .setup ∧ 3 ≤ v ∧ v < 2 ^ 16 ∨ p = .mapping ∧ 1 ≤ v ∧ v < 2 ^ 16) →
    s.Holds (fieldBits p.width v ++ bits) →
    ∃ t, ReadFrom { s with pending := rest } t ∧ t.Holds bits ∧
      step s = .next { t with ctl.error := 20, ctl.state := .error, regs.result := .error, tab := Tables.absent }

/-! ### Setup elements -/

/-- LOOKUP_NONE: in the setup header the codewords are computed and nothing is read; where a vector is wanted `invalid_stream` is
noted and nothing is read (42_setup.md R295, R300, R302; 43_codebook.md R351). -/
def Obligations.LookupNone : Prop :=
  (∀ (s : State) (pre : List Codebook) (cb : Codebook) (cws : List Word), s.tab.codebooks = pre ++ [cb] →
    computeCodewords cb.lengths = some cws →
    exec (.lookupNone .setup) s = .next { s with tab.codebooks := pre ++ [{ cb with codewords := cws }] }) ∧
  (∀ (s : State) (pre : List Codebook) (cb : Codebook), s.tab.codebooks = pre ++ [cb] → computeCodewords cb.lengths = none →
    exec (.lookupNone .setup) s = .next { s with
      ctl.error := 20, ctl.state := .error, regs.result := .error, tab := Tables.absent }) ∧
  ∀ (s : State) (b : Nat) (slots : List (Option (Nat × Nat))), b < s.tab.codebooks.length →
    exec (.lookupNone (.vector b slots)) s = .next { s with ctl.error := 21 }

/-- LOOKUP_LATTICE and LOOKUP_DIRECT in the setup header: the VQ fields fill the codebook being read (42_setup.md R295, R297, R298;
30_encoding.md R163). -/
def Obligations.LookupSetup : Prop :=
  ∀ (s : State) (lt : LookupType) (i : Instr) (f : LookupFields) (pre : List Codebook) (cb : Codebook) (cws : List Word)
    (rest : List Bool),
    (lt, i) ∈ [(LookupType.lattice, Instr.lookupLattice .setup), (.direct, .lookupDirect .setup)] →
    s.tab.codebooks = pre ++ [cb] → f.Legal lt cb → computeCodewords cb.lengths = some cws → s.Holds (f.encode ++ rest) →
    ∃ t, exec i s = .next t ∧ t.Holds rest ∧ ParsedFrom s t { s.tab with
      codebooks := pre ++ [{ cb with
        lookupType := lt, minimumValue := float32Unpack f.minimum, deltaValue := float32Unpack f.delta
        valueBits := f.bits + 1, sequenceP := f.sequence, multiplicands := f.multiplicands
        lookupValues := match lt with | .direct => cb.entries * cb.dimensions | _ => lookup1Values cb.entries cb.dimensions
        codewords := cws }] }

/-- FLOOR_TYPE0: its fields are read and the open fails with `feature_not_supported` (42_setup.md R311, 30_encoding.md R166). -/
def Obligations.FloorTypeZero : Prop :=
  ∀ (s : State) (order rate barkMapSize amplitudeBits amplitudeOffset : Nat) (books : List Nat) (rest : List Bool),
    order < 2 ^ 8 → rate < 2 ^ 16 → barkMapSize < 2 ^ 16 → amplitudeBits < 2 ^ 6 → amplitudeOffset < 2 ^ 8 →
    1 ≤ books.length → books.length ≤ 2 ^ 4 → (∀ b ∈ books, b < 2 ^ 8) →
    s.Holds (fieldBits 8 order ++ (fieldBits 16 rate ++ (fieldBits 16 barkMapSize ++ (fieldBits 6 amplitudeBits
      ++ (fieldBits 8 amplitudeOffset ++ (fieldBits 4 (books.length - 1) ++ (books.flatMap (fieldBits 8) ++ rest))))))) →
    ∃ t, ReadFrom s t ∧ t.Holds rest ∧ exec .floorType0 s = .next { t with
      ctl.error := 4, ctl.state := .error, regs.result := .error, tab := Tables.absent }

/-- FLOOR_TYPE1, RESIDUE_TYPE0, RESIDUE_TYPE1, RESIDUE_TYPE2 and MAPPING_TYPE0 in the setup header: the entry the fields stand for is
added to its table (42_setup.md R311, R312, R318, R320; 30_encoding.md R167 to R170). -/
def Obligations.TableElements : Prop :=
  (∀ (s : State) (f : FloorFields) (rest : List Bool), f.Legal s.tab.codebooks.length → s.Holds (f.encode ++ rest) →
    ∃ t, exec (.floorType1 .setup) s = .next t ∧ t.Holds rest ∧
      ParsedFrom s t { s.tab with floors := s.tab.floors ++ [f.entry] }) ∧
  (∀ (s : State) (ty : ResidueType) (i : Instr) (f : ResidueFields) (rest : List Bool),
    (ty, i) ∈ [(ResidueType.type0, Instr.residueType0 .setup), (.type1, .residueType1 .setup), (.type2, .residueType2 .setup)] →
    f.Legal s.tab.codebooks.length → s.Holds (f.encode ++ rest) →
    ∃ t, exec i s = .next t ∧ t.Holds rest ∧
      ParsedFrom s t { s.tab with residues := s.tab.residues ++ [f.entry ty (s.tab.codebook f.classbook)] }) ∧
  ∀ (s : State) (f : MappingFields) (rest : List Bool), s.tab.channels ≤ 255 → f.Legal s.tab →
    s.Holds (f.encode s.tab.channels ++ rest) →
    ∃ t, exec .mappingType0 s = .next t ∧ t.Holds rest ∧
      ParsedFrom s t { s.tab with mappings := s.tab.mappings ++ [f.entry s.tab.channels] }

/-- A floor's derived tables: the points in X order, and each point's nearest neighbours among the earlier ones (42_setup.md
R312). -/
def Obligations.FloorTables : Prop :=
  ∀ (xs : List Nat), distinctXs xs = true →
    (sortByX xs).Perm (List.range xs.length) ∧ ((sortByX xs).map fun i => xs.getD i 0).Pairwise (· < ·) ∧
    ∀ j, 2 ≤ j → j < xs.length → xs.getD 0 0 < xs.getD j 0 → xs.getD j 0 < xs.getD 1 0 →
      (lowNeighborOf xs j < j ∧ xs.getD (lowNeighborOf xs j) 0 < xs.getD j 0 ∧
        ∀ i < j, xs.getD i 0 < xs.getD j 0 → xs.getD i 0 ≤ xs.getD (lowNeighborOf xs j) 0) ∧
      (highNeighborOf xs j < j ∧ xs.getD j 0 < xs.getD (highNeighborOf xs j) 0 ∧
        ∀ i < j, xs.getD j 0 < xs.getD i 0 → xs.getD (highNeighborOf xs j) 0 ≤ xs.getD i 0)

/-! ### Audio elements -/

/-- AUDIO_PACKET on a packet that lies in its page: the frame of its mode and window flags is decoded, booked and delivered; a
packet without bits is one of mode 0 (48_frame_control.md R520, R524; 30_encoding.md R180). -/
def Obligations.AudioPacketCompletes : Prop :=
  ∀ (s : State) (m : Nat) (mode : ModeEntry) (prev next : Bool) (bits rest : List Bool), s.tab.modes.length ≤ 64 →
    s.tab.modes[m]? = some mode → (mode.long = false → prev = false ∧ next = false) →
    (bits = fieldBits (ilog (s.tab.modes.length - 1)) m ++ ((if mode.long then [prev, next] else []) ++ rest) ∨
      bits = [] ∧ m = 0 ∧ prev = false ∧ next = false) →
    s.Holds bits →
    ∃ u, u.PacketDone ∧ DecodedFrom s u ∧
      let n := s.tab.blocksize mode.long
      let b := bookkeeping u.cur n (geometry n (s.tab.blocksize false) mode.long prev next) u.ctl
      exec .audioPacket s = .next (deliverFrame b.1 { u with ctl := b.2 }).2

/-- A packet whose mode number is not in the mode table is discarded and raises `invalid_stream` (30_encoding.md R194). -/
def Obligations.BadModeNumber : Prop :=
  ∀ (s : State) (m : Nat) (rest : List Bool), s.tab.modes.length ≤ 64 → s.tab.modes.length ≤ m →
    m < 2 ^ ilog (s.tab.modes.length - 1) → s.Holds (fieldBits (ilog (s.tab.modes.length - 1)) m ++ rest) →
    ∃ t, t.PacketDone ∧ ReadFrom s t ∧ exec .audioPacket s = .next (takeError .invalidStream t) ∧
      (s.ctl.state = .decoding → s.ctl.api = .pull →
        takeError .invalidStream t = { t with ctl.error := 21, regs.result := .error })

/-- BAD_PACKET_TYPE: the packet is consumed to its end and gives no samples and no error (48_frame_control.md R522). -/
def Obligations.BadPacketType : Prop :=
  ∀ s : State, s.PacketHere → ∃ t, exec .badPacketType s = .next t ∧ ReadFrom s t ∧ t.PacketHere ∧ t.packetSize = 0 ∧
    t.cur.lastSeg = true ∧ (s.ctl.api ≠ .push → t.rd.validBits = 0)

/-- LOOKUP_LATTICE and LOOKUP_DIRECT where a vector is decoded: the bits of an entry's canonical codeword are consumed, and each
element is added to its slot, in binary32, and nothing else changes (43_codebook.md R350, R352, R353, R342). -/
def Obligations.VectorDecode : Prop :=
  ∀ (s : State) (lt : LookupType) (i : Instr) (b e len : Nat) (cw : Word) (cb : Codebook) (slots : List (Option (Nat × Nat)))
    (rest : List Bool),
    (lt, i) ∈ [(LookupType.lattice, Instr.lookupLattice (.vector b slots)), (.direct, .lookupDirect (.vector b slots))] →
    b < s.tab.codebooks.length → s.tab.codebook b = cb →
    (∀ l, some l ∈ cb.lengths → 1 ≤ l ∧ l ≤ 31) → computeCodewords cb.lengths = some cb.codewords →
    cb.lengths[e]? = some (some len) → cb.codewords[e]? = some cw → (slots.filterMap id).Nodup →
    s.Holds (codewordBits len cw ++ rest) →
    ∃ t, exec i s = .next t ∧ t.Holds rest ∧ DecodedFrom s t ∧ t.ctl = s.ctl ∧
      t.work = { s.work with channelBuffer := t.work.channelBuffer } ∧
      (∀ j ch idx, slots[j]? = some (some (ch, idx)) → idx < (s.work.channelBuffer.getD ch []).length →
        t.sample ch idx = fadd (s.sample ch idx) (vectorValue cb lt e j)) ∧
      ∀ ch idx, some (ch, idx) ∉ slots → t.sample ch idx = s.sample ch idx

/-- FLOOR_TYPE1 where a channel's floor is decoded: it completes whatever the bits are, and writes no other channel's floor state; a
floor that the packet marks unused, and a floor of two points, get the values the rules give (44_floor1.md R383, R384, R386). -/
def Obligations.FloorDecode : Prop :=
  ∀ (s : State) (ch fl : Nat), ch < s.tab.channels → fl < s.tab.floors.length → s.PacketHere →
    ∃ t, exec (.floorType1 (.decode ch fl)) s = .next t ∧ t.PacketHere ∧ DecodedFrom s t ∧
      t.work = { s.work with finalY := t.work.finalY, zeroChannel := t.work.zeroChannel } ∧
      (∀ c, c ≠ ch → t.work.finalY.getD c [] = s.work.finalY.getD c [] ∧
        t.work.zeroChannel.getD c true = s.work.zeroChannel.getD c true) ∧
      (∀ rest, s.Holds ([false] ++ rest) → t.Holds rest ∧ t.ctl = s.ctl ∧
        t.work = { s.work with zeroChannel := s.work.zeroChannel.set ch true }) ∧
      ∀ (range rb y0 y1 : Nat) (rest : List Bool),
        ((s.tab.floor fl).multiplier, range, rb) ∈ [(1, 256, 8), (2, 128, 7), (3, 86, 7), (4, 64, 6)] →
        (s.tab.floor fl).partitionClass = [] → (s.tab.floor fl).xs.length = 2 → y0 < 2 ^ rb → y1 < 2 ^ rb →
        s.Holds ([true] ++ (fieldBits rb y0 ++ (fieldBits rb y1 ++ rest))) →
        t.Holds rest ∧ t.ctl = s.ctl ∧
        t.work = { s.work with
          finalY := s.work.finalY.modify ch fun ys => (ys.set 0 (BitVec.ofNat 16 y0)).set 1 (BitVec.ofNat 16 y1)
          zeroChannel := s.work.zeroChannel.set ch false }

/-- RESIDUE_TYPE0, RESIDUE_TYPE1 and RESIDUE_TYPE2 where a submap's residue is decoded: it completes whatever the bits are, touches
no other channel, and reads nothing when no channel of the submap is decoded (45_residue.md R420, R423, R424, R425, R426); and where
a partition's vectors are placed, whose entries' codewords its bits are: strided for type 0, one after another and cut off at the
partition's end for types 1 and 2, interleaved over several channels for type 2 (R430 to R434). -/
def Obligations.ResidueDecodeCompletes : Prop :=
  (∀ (s : State) (i : Instr) (long : Bool) (mapping submap n2 : Nat) (chans : List Nat),
    i ∈ [Instr.residueType0 (.decode long mapping submap), .residueType1 (.decode long mapping submap),
      .residueType2 (.decode long mapping submap)] →
    mapping < s.tab.mappings.length → submap < (s.tab.mapping mapping).submaps → n2 = s.tab.blocksize long / 2 →
    chans = (List.range s.tab.channels).filter (fun ch => (s.tab.mapping mapping).mux.getD ch 0 == submap) → s.PacketHere →
    ∃ t, exec i s = .next t ∧ t.PacketHere ∧ DecodedFrom s t ∧
      t.work = { s.work with channelBuffer := t.work.channelBuffer } ∧
      (∀ ch, ch ∉ chans → t.work.channelBuffer.getD ch [] = s.work.channelBuffer.getD ch []) ∧
      ((∀ ch ∈ chans, s.work.zeroChannel.getD ch true = true) →
        t = { s with work := t.work } ∧ ∀ ch ∈ chans, ∀ j,
          t.sample ch j = if j < n2 then 0 else s.sample ch j)) ∧
  (∀ ch x, (Lane.single ch).slot x = some (ch, x)) ∧
  (∀ (chans : List (Nat × Bool)) (x k ch : Nat) (kept : Bool), k < chans.length → chans[k]? = some (ch, kept) →
    (Lane.interleaved chans).slot (x * chans.length + k) = if kept then some (ch, x) else none) ∧
  ∀ (s : State) (b off size d : Nat) (cb : Codebook) (lane : Lane) (entries : List Nat) (rest : List Bool),
    b < s.tab.codebooks.length → s.tab.codebook b = cb → cb.lookupType ≠ .none → cb.dimensions = d → 0 < d →
    (∀ l, some l ∈ cb.lengths → 1 ≤ l ∧ l ≤ 31) → computeCodewords cb.lengths = some cb.codewords →
    (∀ e ∈ entries, ∃ len, cb.lengths[e]? = some (some len) ∧ e < cb.codewords.length) →
    (∀ chans, lane = .interleaved chans → (chans.map Prod.fst).Nodup) →
    s.Holds (entries.flatMap (fun e => codewordBits (((cb.lengths[e]?).getD none).getD 0) (cb.codewords.getD e 0)) ++ rest) →
    (entries.length = size / d → ∃ t, partitionVq .type0 b lane off size s = .ok true t ∧ t.Holds rest ∧ DecodedFrom s t ∧
      (∀ k < size / d, ∀ i < d, ∀ ch idx, lane.slot (off + k + i * (size / d)) = some (ch, idx) →
        idx < (s.work.channelBuffer.getD ch []).length →
        t.sample ch idx = fadd (s.sample ch idx) (vectorValue cb cb.lookupType (entries.getD k 0) i)) ∧
      ∀ ch idx, (∀ k < size / d, ∀ i < d, lane.slot (off + k + i * (size / d)) ≠ some (ch, idx)) →
        t.sample ch idx = s.sample ch idx) ∧
    ∀ ty, ty = .type1 ∨ ty = .type2 → size ≤ entries.length * d → entries.length * d < size + d →
      ∃ t, partitionVq ty b lane off size s = .ok true t ∧ t.Holds rest ∧ DecodedFrom s t ∧
        (∀ x < size, ∀ ch idx, lane.slot (off + x) = some (ch, idx) → idx < (s.work.channelBuffer.getD ch []).length →
          t.sample ch idx = fadd (s.sample ch idx) (vectorValue cb cb.lookupType (entries.getD (x / d) 0) (x % d))) ∧
        ∀ ch idx, (∀ x < size, lane.slot (off + x) ≠ some (ch, idx)) → t.sample ch idx = s.sample ch idx

/-! ### The datapath -/

/-- The byte source: a read past the end gives 0 and sets the sticky flag, and `SetPos` clears the flag and clamps (20_memory.md R91,
R93, R94); that byte `pos` lies at the base plus `pos` modulo 2^32 is the model's inference (notes/assumptions/2.md). -/
def Obligations.ByteSource : Prop :=
  (∀ s : State, s.src.len ≤ s.src.pos → inByte s = .ok 0 { s with src.eof := true }) ∧
  (∀ s : State, s.src.pos < s.src.len →
    inByte s = .ok (Memory.read s.mem (s.src.base + s.src.pos).toNat) { s with src.pos := s.src.pos + 1 }) ∧
  (∀ (s : State) (p : Word), s.src.len ≤ p → setPos p s = .ok false { s with src.pos := s.src.len, src.eof := true }) ∧
  ∀ (s : State) (p : Word), p < s.src.len → setPos p s = .ok true { s with src.pos := p, src.eof := false }

/-- Bits are taken from each packet byte starting at its least significant bit, and a field's first-read bit is its bit 0
(20_memory.md R97). -/
def Obligations.BitOrder : Prop :=
  ∀ (s : State) (bits : List Bool) (n : Nat), s.Holds bits → n ≤ 32 → n ≤ bits.length →
    ∃ t, getBits n s = .ok (bitsValue (bits.take n)) t ∧ t.Holds (bits.drop n) ∧ ReadFrom s t ∧
      ∀ i < n, (bitsValue (bits.take n)).testBit i = bits.getD i false

/-- A field of up to 32 bits wanted past the end of a packet reads 0, but for a field of more than 24 whose first 24 bits are there,
which gives those; the rest of the packet is taken, and every later read in it gives 0 (40_bitreader.md R209). -/
def Obligations.BitsExhausted : Prop :=
  (∀ (s : State) (bits : List Bool) (n : Nat), s.Holds bits → n ≤ 32 → bits.length < n →
    ∃ t, getBits n s = .ok (if 24 < n ∧ 24 ≤ bits.length then bitsValue (bits.take 24) else 0) t ∧
      t.rd.validBits = -1 ∧ ReadFrom s t ∧ t.packetSize = 0) ∧
  ∀ (s : State) (n : Nat), s.rd.validBits < 0 → getBits n s = .ok 0 s

/-- The greatest root (42_setup.md R296). -/
def Obligations.LookupRoot : Prop :=
  (∀ entries dim, entries < 2 ^ 24 → 1 ≤ dim →
    lookup1Values entries dim ^ dim ≤ entries ∧ ∀ r, r ^ dim ≤ entries → r ≤ lookup1Values entries dim) ∧
  (∀ entries, lookup1Values entries 0 = 0) ∧
  lookup1Values 81 4 = 3 ∧ lookup1Values 82 4 = 3 ∧ lookup1Values 1 2 = 1 ∧ lookup1Values 0 2 = 0 ∧ lookup1Values 256 2 = 16

/-- The canonical codewords are a prefix-free code, and reading an entry's codeword gives that entry and consumes exactly its bits
(42_setup.md R300; 43_codebook.md R342, R344). -/
def Obligations.CanonicalCode : Prop :=
  (∀ (lengths : List (Option Nat)) (codewords : List Word), (∀ l, some l ∈ lengths → 1 ≤ l ∧ l ≤ 31) →
    computeCodewords lengths = some codewords →
    codewords.length = lengths.length ∧
    ∀ (i j li lj : Nat) (ci cj : Word), lengths[i]? = some (some li) → codewords[i]? = some ci →
      lengths[j]? = some (some lj) → codewords[j]? = some cj → codewordBits li ci <+: codewordBits lj cj → i = j) ∧
  ∀ (s : State) (b e len : Nat) (cw : Word) (rest : List Bool), (∀ l, some l ∈ (s.tab.codebook b).lengths → 1 ≤ l ∧ l ≤ 31) →
    computeCodewords (s.tab.codebook b).lengths = some (s.tab.codebook b).codewords →
    (s.tab.codebook b).lengths[e]? = some (some len) → (s.tab.codebook b).codewords[e]? = some cw →
    s.Holds (codewordBits len cw ++ rest) →
    ∃ t, decodeScalar b s = .ok (.entry e) t ∧ t.Holds rest ∧ ReadFrom s t

/-- A point of the floor curve: for each prediction inside the range, residuals and final values inside it correspond one to one
(44_floor1.md R385: the value lands within the room, and no value is lost). -/
def Obligations.FloorPointOneToOne : Prop :=
  ∀ range pred : Int, 0 ≤ pred → pred < range →
    (∀ val, 0 ≤ val → val < range → 0 ≤ floorPoint range pred val ∧ floorPoint range pred val < range) ∧
    ∀ y, 0 ≤ y → y < range → ∃ val, 0 ≤ val ∧ val < range ∧ floorPoint range pred val = y ∧
      ∀ v, 0 ≤ v → v < range → floorPoint range pred v = y → v = val

/-- Inverse coupling: the four-branch rule, element by element, on the magnitude and angle channels of a step, and nothing else
(46_coupling.md R462). -/
def Obligations.InverseCoupling : Prop :=
  ∀ (w : Work) (n2 m a : Nat), m ≠ a → m < w.channelBuffer.length → a < w.channelBuffer.length →
    n2 ≤ (w.channelBuffer.getD m []).length → n2 ≤ (w.channelBuffer.getD a []).length →
    inverseCouple n2 w (m, a) = { w with channelBuffer := (inverseCouple n2 w (m, a)).channelBuffer } ∧
    (∀ ch, ch ≠ m → ch ≠ a → (inverseCouple n2 w (m, a)).channelBuffer.getD ch [] = w.channelBuffer.getD ch []) ∧
    ∀ j, (n2 ≤ j →
        ((inverseCouple n2 w (m, a)).channelBuffer.getD m []).getD j 0 = (w.channelBuffer.getD m []).getD j 0 ∧
        ((inverseCouple n2 w (m, a)).channelBuffer.getD a []).getD j 0 = (w.channelBuffer.getD a []).getD j 0) ∧
      ∀ x y : F32, j < n2 → (w.channelBuffer.getD m []).getD j 0 = x → (w.channelBuffer.getD a []).getD j 0 = y →
        (((inverseCouple n2 w (m, a)).channelBuffer.getD m []).getD j 0,
          ((inverseCouple n2 w (m, a)).channelBuffer.getD a []).getD j 0) =
        match fpos x, fpos y with
        | true, true => (x, fsub x y)
        | true, false => (fadd x y, x)
        | false, true => (x, fadd x y)
        | false, false => (fsub x y, x)

/-- The overlap-add, the sample count and the retention of a frame, one trimmed before its right boundary among them
(47_imdct_lapping.md R486, R487; 48_frame_control.md R527), where the lap lies inside the buffers. -/
def Obligations.FinishFrame : Prop :=
  ∀ (s : State) (len left right : Nat),
    (∀ b ∈ s.work.channelBuffer, left + s.ctl.previousLength ≤ b.length ∧ len ≤ b.length) →
    (∀ b ∈ s.work.previousWindow, len - right ≤ b.length) →
    s.work.previousWindow.length = s.work.channelBuffer.length →
    (s.ctl.previousLength = 0 → (finishFrame ⟨len, left, right⟩ s).1 = 0 ∧
      (finishFrame ⟨len, left, right⟩ s).2.work.channelBuffer = s.work.channelBuffer) ∧
    (s.ctl.previousLength ≠ 0 → getWindow s.tab s.ctl.previousLength = none → finishFrame ⟨len, left, right⟩ s = (0, s)) ∧
    (∀ w, s.ctl.previousLength ≠ 0 → getWindow s.tab s.ctl.previousLength = some w →
      (finishFrame ⟨len, left, right⟩ s).1 = min right len - left ∧
      ∀ ch < s.work.channelBuffer.length, ∀ j, (finishFrame ⟨len, left, right⟩ s).2.sample ch j =
        if left ≤ j ∧ j < left + s.ctl.previousLength then
          fadd (fmul (s.sample ch j) (w.getD (j - left) 0))
            (fmul ((s.work.previousWindow.getD ch []).getD (j - left) 0) (w.getD (s.ctl.previousLength - 1 - (j - left)) 0))
        else s.sample ch j) ∧
    (len ≤ right → (finishFrame ⟨len, left, right⟩ s).2.work.previousWindow = s.work.previousWindow) ∧
    (s.ctl.previousLength = 0 ∨ (getWindow s.tab s.ctl.previousLength).isSome →
      (finishFrame ⟨len, left, right⟩ s).2.ctl = { s.ctl with previousLength := len - right } ∧
      ∀ ch < s.work.channelBuffer.length, ∀ j < len - right,
        ((finishFrame ⟨len, left, right⟩ s).2.work.previousWindow.getD ch []).getD j 0 =
          (finishFrame ⟨len, left, right⟩ s).2.sample ch (right + j))

/-- The bookkeeping of a frame (48_frame_control.md R524 to R527): the priming frame and the deferred discard; the position where no
end is known; a packet that ends where its page's granule is known; and the trim of the final page, after which no sample past the
granule is left.  That the position is the granule after a long block between long blocks is the spec's own inference. -/
def Obligations.KnownLocation : Prop :=
  ∀ (cur : PageCursor) (n left : Nat) (g : Geometry) (c c1 : Control), discardStart c n g = (c1, left) →
    (c.firstDecode = true → left = g.leftStart ∧ c1 = { c with
      currentLoc := 0 - BitVec.ofNat 32 (n / 2), currentLocValid := true
      discardSamplesDeferred := n - g.rightEnd, firstDecode := false }) ∧
    (c.firstDecode = false → g.leftStart ≤ g.rightStart →
      left = g.leftStart + min c.discardSamplesDeferred (g.rightStart - g.leftStart) ∧
      c1 = { c with
        discardSamplesDeferred := c.discardSamplesDeferred - min c.discardSamplesDeferred (g.rightStart - g.leftStart) }) ∧
    (cur.lastSegWhich ≠ cur.endSegWithKnownLoc →
      bookkeeping cur n g c = (⟨g.rightEnd, left, g.rightStart⟩, { c1 with
        currentLoc := if c1.currentLocValid then c1.currentLoc + BitVec.ofNat 32 (g.rightStart - left) else c1.currentLoc })) ∧
    (cur.lastSegWhich = cur.endSegWithKnownLoc →
      (c1.currentLocValid = true ∧ pageLast cur.pageFlag = true ∧
          cur.knownLocForPacket < c1.currentLoc + BitVec.ofNat 32 (g.rightEnd - left) →
        ∃ len, bookkeeping cur n g c = (⟨len, left, g.rightStart⟩, { c1 with currentLoc := c1.currentLoc + BitVec.ofNat 32 len }) ∧
          (cur.knownLocForPacket < c1.currentLoc → len = min left g.rightEnd) ∧
          (c1.currentLoc ≤ cur.knownLocForPacket →
            len = min ((cur.knownLocForPacket - c1.currentLoc).toNat + left) g.rightEnd) ∧
          min g.rightStart len - left ≤ cur.knownLocForPacket.toNat - c1.currentLoc.toNat) ∧
      (¬(c1.currentLocValid = true ∧ pageLast cur.pageFlag = true ∧
          cur.knownLocForPacket < c1.currentLoc + BitVec.ofNat 32 (g.rightEnd - left)) →
        bookkeeping cur n g c = (⟨g.rightEnd, left, g.rightStart⟩, { c1 with
          currentLoc := cur.knownLocForPacket - (BitVec.ofNat 32 (n / 2) - BitVec.ofNat 32 left) +
            BitVec.ofNat 32 (g.rightStart - left)
          currentLocValid := true }) ∧
        ∀ b0, g = geometry n b0 true true true → c.firstDecode = false → c.discardSamplesDeferred = 0 →
          (bookkeeping cur n g c).2.currentLoc = cur.knownLocForPacket))

/-! ### The whole machine -/

/-- Host memory is plain bytes: a host write to it changes nothing of the block, and in a memory of canonical form (every reachable
one, `StepKeepsInv`) the one byte it names, keeping that form (20_memory.md R90, R105; what an unlisted byte reads as is
notes/assumptions/1.md). -/
def Obligations.HostMemoryWrite : Prop :=
  ∀ (s : State) (a : Word) (v : Byte) (rest : List Event), s.pending = .memWrite a v :: rest →
    ∃ t, step s = .next t ∧ t = { s with pending := rest, mem := t.mem } ∧
      (Memory.wf s.mem = true → Memory.wf t.mem = true ∧
        ∀ b : Word, Memory.read t.mem b.toNat = if b = a then v else Memory.read s.mem b.toNat)

/-- No instruction writes host memory, the parameters, ARG0 or ARG1 (CLOSE keeps them), or the pending accesses; a host command that
does not name a result register leaves it unchanged; and no command but an open or CLOSE changes the configuration tables
(20_memory.md R95; 30_encoding.md R121; 10_state.md R52, R68). -/
def Obligations.CommandFrame : Prop :=
  ∀ (i : Instr) (s t : State), exec i s = .next t →
    t.mem = s.mem ∧ t.params = s.params ∧ t.regs.arg0 = s.regs.arg0 ∧ t.regs.arg1 = s.regs.arg1 ∧ t.pending = s.pending ∧
    t.readData = s.readData ∧
    (i ∉ [Instr.getInfo, .pushDecode, .close] → t.regs.ret2 = s.regs.ret2) ∧
    (i ∉ [Instr.getInfo, .pushDecode, .decodeFrame, .close] → t.regs.ret1 = s.regs.ret1) ∧
    (i ∉ [Instr.getInfo, .pushDecode, .decodeFrame, .openPush, .streamLength, .getError, .close] → t.regs.ret0 = s.regs.ret0) ∧
    (i ∈ [Instr.pushDecode, .decodeFrame, .getInfo, .seek, .seekStart, .streamLength, .getError] → t.tab = s.tab)

/-- The transitions of the top-level state under the host commands (48_frame_control.md R511): every other command leaves the state
unchanged. -/
def Obligations.StateTransitions : Prop :=
  ∀ (i : Instr) (s t : State), contextOf i = .cmd → exec i s = .next t →
    t.ctl.state = s.ctl.state ∨
    s.ctl.state = .closed ∧ i = .openPull ∧ t.ctl.state = .decoding ∧ t.ctl.api = .pull ∧ t.regs.result = .ok ∨
    (s.ctl.state = .closed ∨ s.ctl.state = .awaitingHeaders) ∧ i = .openPush ∧ t.ctl.state = .decoding ∧ t.ctl.api = .push ∧
      t.regs.result = .ok ∨
    s.ctl.state = .closed ∧ i = .openPush ∧ t.ctl.state = .awaitingHeaders ∧ t.ctl.api = .push ∧
      t.regs.result = .needMoreData ∨
    (s.ctl.state = .closed ∧ i = .openPull ∨ (s.ctl.state = .closed ∨ s.ctl.state = .awaitingHeaders) ∧ i = .openPush) ∧
      t.ctl.state = .error ∧ t.regs.result = .error ∧ t.tab = Tables.absent ∨
    s.ctl.state = .decoding ∧ i = .decodeFrame ∧ t.ctl.state = .eof ∧ (t.regs.result = .eof ∨ t.ctl.error = 10) ∨
    s.ctl.state = .eof ∧ (i = .seek ∨ i = .seekStart) ∧ t.ctl.state = .decoding ∧ (t.regs.result = .ok ∨ t.ctl.error = 37) ∨
    (s.ctl.state = .decoding ∨ s.ctl.state = .eof) ∧ t.ctl.state = .error ∧ t.ctl.error = 2 ∨
    i = .close ∧ t.ctl.state = .closed

/-- Every instruction answers a next state, but for a stand-alone datapath step on a table entry that does not exist
(43_codebook.md R340; notes/assumptions/27.md). -/
def Obligations.OnlyAbsentEntriesStop : Prop :=
  ∀ (i : Instr) (s : State), (∃ t, exec i s = .next t) ∨
    exec i s = .fault .operandOutsideTables ∧
      ((∃ b slots, s.tab.codebooks.length ≤ b ∧
          i ∈ [Instr.lookupNone (.vector b slots), .lookupLattice (.vector b slots), .lookupDirect (.vector b slots)]) ∨
        (∃ ch fl, (s.tab.channels ≤ ch ∨ s.tab.floors.length ≤ fl) ∧ i = .floorType1 (.decode ch fl)) ∨
        ∃ long mapping submap, (s.tab.mappings.length ≤ mapping ∨ (s.tab.mapping mapping).submaps ≤ submap) ∧
          i ∈ [Instr.residueType0 (.decode long mapping submap), .residueType1 (.decode long mapping submap),
            .residueType2 (.decode long mapping submap)])

/-- Every step keeps the safe states: memory in canonical form, the cursor in its ranges, the position inside the source, an api
that goes with the state, and a legal stream identity wherever the INFO registers show one (10_state.md R35 to R53,
48_frame_control.md R511, R562; 42_setup.md R283, R284). -/
def Obligations.StepKeepsInv : Prop := ∀ s t : State, s.Inv → step s = .next t → t.Inv

/-- The reset state is safe (the values are the spec's where it gives them, else those of notes/assumptions/6.md). -/
def Obligations.ResetInv : Prop := State.reset.Inv

end
end

