-- ==== Sys2Proof/Laws/State.lean ====
section
/-! SUPPORT. One lemma for each field of State after each named update, so that no proof unfolds a record update. -/

namespace Sys2Proof.Machine

/-! ### setError -/

@[simp] theorem State.setError_rd (s : State) (e : ErrCode) : (s.setError e).rd = s.rd := rfl
@[simp] theorem State.setError_cur (s : State) (e : ErrCode) : (s.setError e).cur = s.cur := rfl
@[simp] theorem State.setError_src (s : State) (e : ErrCode) : (s.setError e).src = s.src := rfl
@[simp] theorem State.setError_ctl (s : State) (e : ErrCode) : (s.setError e).ctl = { s.ctl with error := e.code } := rfl
@[simp] theorem State.setError_tab (s : State) (e : ErrCode) : (s.setError e).tab = s.tab := rfl
@[simp] theorem State.setError_work (s : State) (e : ErrCode) : (s.setError e).work = s.work := rfl
@[simp] theorem State.setError_regs (s : State) (e : ErrCode) : (s.setError e).regs = s.regs := rfl
@[simp] theorem State.setError_mem (s : State) (e : ErrCode) : (s.setError e).mem = s.mem := rfl
@[simp] theorem State.setError_pending (s : State) (e : ErrCode) : (s.setError e).pending = s.pending := rfl
@[simp] theorem State.setError_readData (s : State) (e : ErrCode) : (s.setError e).readData = s.readData := rfl
@[simp] theorem State.setError_params (s : State) (e : ErrCode) : (s.setError e).params = s.params := rfl

/-! ### setResult -/

@[simp] theorem State.setResult_rd (s : State) (r : Result) : (s.setResult r).rd = s.rd := rfl
@[simp] theorem State.setResult_cur (s : State) (r : Result) : (s.setResult r).cur = s.cur := rfl
@[simp] theorem State.setResult_src (s : State) (r : Result) : (s.setResult r).src = s.src := rfl
@[simp] theorem State.setResult_ctl (s : State) (r : Result) : (s.setResult r).ctl = s.ctl := rfl
@[simp] theorem State.setResult_tab (s : State) (r : Result) : (s.setResult r).tab = s.tab := rfl
@[simp] theorem State.setResult_work (s : State) (r : Result) : (s.setResult r).work = s.work := rfl
@[simp] theorem State.setResult_regs (s : State) (r : Result) : (s.setResult r).regs = { s.regs with result := r } := rfl
@[simp] theorem State.setResult_mem (s : State) (r : Result) : (s.setResult r).mem = s.mem := rfl
@[simp] theorem State.setResult_pending (s : State) (r : Result) : (s.setResult r).pending = s.pending := rfl
@[simp] theorem State.setResult_readData (s : State) (r : Result) : (s.setResult r).readData = s.readData := rfl
@[simp] theorem State.setResult_params (s : State) (r : Result) : (s.setResult r).params = s.params := rfl

/-! ### discardTables -/

@[simp] theorem State.discardTables_rd (s : State) : (s.discardTables).rd = s.rd := rfl
@[simp] theorem State.discardTables_cur (s : State) : (s.discardTables).cur = s.cur := rfl
@[simp] theorem State.discardTables_src (s : State) : (s.discardTables).src = s.src := rfl
@[simp] theorem State.discardTables_ctl (s : State) : (s.discardTables).ctl = s.ctl := rfl
@[simp] theorem State.discardTables_tab (s : State) : (s.discardTables).tab = Tables.absent := rfl
@[simp] theorem State.discardTables_work (s : State) : (s.discardTables).work = s.work := rfl
@[simp] theorem State.discardTables_regs (s : State) : (s.discardTables).regs = s.regs := rfl
@[simp] theorem State.discardTables_mem (s : State) : (s.discardTables).mem = s.mem := rfl
@[simp] theorem State.discardTables_pending (s : State) : (s.discardTables).pending = s.pending := rfl
@[simp] theorem State.discardTables_readData (s : State) : (s.discardTables).readData = s.readData := rfl
@[simp] theorem State.discardTables_params (s : State) : (s.discardTables).params = s.params := rfl

/-! ### enterResync -/

@[simp] theorem State.enterResync_rd (s : State) : (s.enterResync).rd = s.rd := rfl
@[simp] theorem State.enterResync_cur (s : State) : (s.enterResync).cur = s.cur := rfl
@[simp] theorem State.enterResync_src (s : State) : (s.enterResync).src = s.src := rfl
@[simp] theorem State.enterResync_ctl (s : State) : (s.enterResync).ctl = 
    { s.ctl with
      resync := true, previousLength := 0, discardSamplesDeferred := 0, currentLocValid := false, firstDecode := false
      outLen := 0 } := rfl
@[simp] theorem State.enterResync_tab (s : State) : (s.enterResync).tab = s.tab := rfl
@[simp] theorem State.enterResync_work (s : State) : (s.enterResync).work = s.work := rfl
@[simp] theorem State.enterResync_regs (s : State) : (s.enterResync).regs = s.regs := rfl
@[simp] theorem State.enterResync_mem (s : State) : (s.enterResync).mem = s.mem := rfl
@[simp] theorem State.enterResync_pending (s : State) : (s.enterResync).pending = s.pending := rfl
@[simp] theorem State.enterResync_readData (s : State) : (s.enterResync).readData = s.readData := rfl
@[simp] theorem State.enterResync_params (s : State) : (s.enterResync).params = s.params := rfl

/-! ### hardReset -/

@[simp] theorem State.hardReset_rd (s : State) : (s.hardReset).rd = BitReader.reset := rfl
@[simp] theorem State.hardReset_cur (s : State) : (s.hardReset).cur = PageCursor.reset := rfl
@[simp] theorem State.hardReset_src (s : State) : (s.hardReset).src = Source.reset := rfl
@[simp] theorem State.hardReset_ctl (s : State) : (s.hardReset).ctl = Control.reset := rfl
@[simp] theorem State.hardReset_tab (s : State) : (s.hardReset).tab = Tables.absent := rfl
@[simp] theorem State.hardReset_work (s : State) : (s.hardReset).work = Work.reset := rfl
@[simp] theorem State.hardReset_regs (s : State) : (s.hardReset).regs = HostRegs.reset := rfl
@[simp] theorem State.hardReset_mem (s : State) : (s.hardReset).mem = s.mem := rfl
@[simp] theorem State.hardReset_pending (s : State) : (s.hardReset).pending = s.pending := rfl
@[simp] theorem State.hardReset_readData (s : State) : (s.hardReset).readData = s.readData := rfl
@[simp] theorem State.hardReset_params (s : State) : (s.hardReset).params = s.params := rfl

/-! ### takeChunk -/

@[simp] theorem State.takeChunk_rd (s : State) : (s.takeChunk).rd = s.rd := rfl
@[simp] theorem State.takeChunk_cur (s : State) : (s.takeChunk).cur = s.cur := rfl
@[simp] theorem State.takeChunk_src (s : State) : (s.takeChunk).src = { s.src with base := s.regs.arg0, len := s.regs.arg1, pos := 0, eof := false } := rfl
@[simp] theorem State.takeChunk_ctl (s : State) : (s.takeChunk).ctl = s.ctl := rfl
@[simp] theorem State.takeChunk_tab (s : State) : (s.takeChunk).tab = s.tab := rfl
@[simp] theorem State.takeChunk_work (s : State) : (s.takeChunk).work = s.work := rfl
@[simp] theorem State.takeChunk_regs (s : State) : (s.takeChunk).regs = s.regs := rfl
@[simp] theorem State.takeChunk_mem (s : State) : (s.takeChunk).mem = s.mem := rfl
@[simp] theorem State.takeChunk_pending (s : State) : (s.takeChunk).pending = s.pending := rfl
@[simp] theorem State.takeChunk_readData (s : State) : (s.takeChunk).readData = s.readData := rfl
@[simp] theorem State.takeChunk_params (s : State) : (s.takeChunk).params = s.params := rfl

/-! ### reportConsumed -/

@[simp] theorem State.reportConsumed_rd (s : State) : (s.reportConsumed).rd = s.rd := rfl
@[simp] theorem State.reportConsumed_cur (s : State) : (s.reportConsumed).cur = s.cur := rfl
@[simp] theorem State.reportConsumed_src (s : State) : (s.reportConsumed).src = s.src := rfl
@[simp] theorem State.reportConsumed_ctl (s : State) : (s.reportConsumed).ctl = s.ctl := rfl
@[simp] theorem State.reportConsumed_tab (s : State) : (s.reportConsumed).tab = s.tab := rfl
@[simp] theorem State.reportConsumed_work (s : State) : (s.reportConsumed).work = s.work := rfl
@[simp] theorem State.reportConsumed_regs (s : State) : (s.reportConsumed).regs = { s.regs with ret0 := s.src.pos, result := .ok } := rfl
@[simp] theorem State.reportConsumed_mem (s : State) : (s.reportConsumed).mem = s.mem := rfl
@[simp] theorem State.reportConsumed_pending (s : State) : (s.reportConsumed).pending = s.pending := rfl
@[simp] theorem State.reportConsumed_readData (s : State) : (s.reportConsumed).readData = s.readData := rfl
@[simp] theorem State.reportConsumed_params (s : State) : (s.reportConsumed).params = s.params := rfl

end Sys2Proof.Machine
end

