-- ==== Sys2Proof/Laws/Memory.lean ====
section
/-! SUPPORT. Host memory: a read gives what was last written there, and every write keeps the canonical form. -/

namespace Sys2Proof.Machine

theorem Memory.above_iff {a : Nat} {m : List Host.Cell} : Memory.above a m = true ↔ ∀ c ∈ m, a < c.1 := by
  simp [Memory.above]

theorem Memory.above_cons {a k : Nat} {b : Byte} {m : List Host.Cell} :
    Memory.above a ((k, b) :: m) = true ↔ a < k ∧ Memory.above a m = true := by
  simp only [Memory.above, List.all_cons, Bool.and_eq_true, decide_eq_true_eq]

theorem Memory.above_mono {a b : Nat} {m : List Host.Cell} (h : a ≤ b) (hm : Memory.above b m = true) :
    Memory.above a m = true := by
  rw [Memory.above_iff] at *
  exact fun c hc => Nat.lt_of_le_of_lt h (hm c hc)

/-- Below every listed address nothing is listed. -/
theorem Memory.read_of_above {a : Nat} {m : List Host.Cell} (h : Memory.above a m = true) :
    Memory.read m a = Memory.unlisted := by
  induction m with
  | nil => rfl
  | cons c m ih =>
    rw [Memory.above_iff] at h
    have hc := h c (by simp)
    obtain ⟨k, b⟩ := c
    have hne : a ≠ k := by dsimp at hc; omega
    simp only [Memory.read, if_neg hne]
    exact ih (Memory.above_iff.2 fun c hc => h c (by simp [hc]))

theorem Memory.wf_cons {k : Nat} {b : Byte} {m : List Host.Cell} :
    Memory.wf ((k, b) :: m) = true ↔ b ≠ Memory.unlisted ∧ Memory.above k m = true ∧ Memory.wf m = true := by
  simp [Memory.wf, and_assoc]

/-- A write keeps every bound below both the written address and the listed ones. -/
theorem Memory.write_above {k a : Nat} {v : Byte} {m : List Host.Cell} (ha : k < a) (h : Memory.above k m = true) :
    Memory.above k (Memory.write m a v) = true := by
  induction m with
  | nil =>
    simp only [Memory.write]
    split <;> simp [Memory.above, ha]
  | cons c m ih =>
    obtain ⟨j, b⟩ := c
    obtain ⟨hj, hm⟩ := Memory.above_cons.1 h
    simp only [Memory.write]
    split
    · split
      · exact h
      · exact Memory.above_cons.2 ⟨ha, h⟩
    · split
      · split
        · exact hm
        · exact Memory.above_cons.2 ⟨ha, hm⟩
      · exact Memory.above_cons.2 ⟨hj, ih hm⟩

/-- A write keeps the canonical form. -/
theorem Memory.write_wf {a : Nat} {v : Byte} {m : List Host.Cell} (h : Memory.wf m = true) :
    Memory.wf (Memory.write m a v) = true := by
  induction m with
  | nil =>
    simp only [Memory.write]
    split <;> simp_all [Memory.wf, Memory.above]
  | cons c m ih =>
    obtain ⟨k, b⟩ := c
    obtain ⟨hb, hk, hm⟩ := Memory.wf_cons.1 h
    simp only [Memory.write]
    by_cases h1 : a < k
    · rw [if_pos h1]
      by_cases h2 : v = Memory.unlisted
      · rwa [if_pos h2]
      · rw [if_neg h2, Memory.wf_cons]
        exact ⟨h2, Memory.above_cons.2 ⟨h1, Memory.above_mono (Nat.le_of_lt h1) hk⟩, h⟩
    · rw [if_neg h1]
      by_cases h2 : a = k
      · rw [if_pos h2]
        by_cases h3 : v = Memory.unlisted
        · rwa [if_pos h3]
        · rw [if_neg h3, Memory.wf_cons]
          exact ⟨h3, h2 ▸ hk, hm⟩
      · rw [if_neg h2, Memory.wf_cons]
        exact ⟨hb, Memory.write_above (by omega) hk, ih hm⟩

/-- A byte reads as what was just written to it. -/
theorem Memory.read_write_same {a : Nat} {v : Byte} {m : List Host.Cell} (h : Memory.wf m = true) :
    Memory.read (Memory.write m a v) a = v := by
  induction m with
  | nil =>
    simp only [Memory.write]
    split <;> simp_all [Memory.read]
  | cons c m ih =>
    obtain ⟨k, b⟩ := c
    obtain ⟨hb, hk, hm⟩ := Memory.wf_cons.1 h
    simp only [Memory.write]
    by_cases h1 : a < k
    · rw [if_pos h1]
      by_cases h2 : v = Memory.unlisted
      · rw [if_pos h2, h2]
        simp only [Memory.read, if_neg (Nat.ne_of_lt h1)]
        exact Memory.read_of_above (Memory.above_mono (Nat.le_of_lt h1) hk)
      · simp [if_neg h2, Memory.read]
    · rw [if_neg h1]
      by_cases h2 : a = k
      · rw [if_pos h2]
        by_cases h3 : v = Memory.unlisted
        · rw [if_pos h3, h3, h2]
          exact Memory.read_of_above hk
        · simp [if_neg h3, Memory.read]
      · simp [if_neg h2, Memory.read, ih hm]

/-- Every other byte reads as before a write. -/
theorem Memory.read_write_other {a c : Nat} {v : Byte} {m : List Host.Cell} (h : Memory.wf m = true) (hne : c ≠ a) :
    Memory.read (Memory.write m a v) c = Memory.read m c := by
  induction m with
  | nil =>
    simp only [Memory.write]
    split <;> simp [Memory.read, hne]
  | cons x m ih =>
    obtain ⟨k, b⟩ := x
    obtain ⟨hb, hk, hm⟩ := Memory.wf_cons.1 h
    simp only [Memory.write]
    by_cases h1 : a < k
    · rw [if_pos h1]
      split <;> simp [Memory.read, hne]
    · rw [if_neg h1]
      by_cases h2 : a = k
      · rw [if_pos h2]
        subst h2
        split <;> simp [Memory.read, hne]
      · simp [if_neg h2, Memory.read, ih hm]

/-- A run of writes keeps the canonical form. -/
theorem Memory.writeBytes_wf {bs : List Byte} : ∀ {a : Word} {m : List Host.Cell}, Memory.wf m = true →
    Memory.wf (Memory.writeBytes m a bs) = true := by
  induction bs with
  | nil => exact fun h => h
  | cons b bs ih => exact fun h => ih (Memory.write_wf h)

/-- Two memories in canonical form that read the same at every address are equal. -/
theorem Memory.wf_ext : ∀ {m n : List Host.Cell}, Memory.wf m = true → Memory.wf n = true →
    (∀ a, Memory.read m a = Memory.read n a) → m = n := by
  intro m
  induction m with
  | nil =>
    intro n _ hn h
    cases n with
    | nil => rfl
    | cons c n =>
      obtain ⟨k, b⟩ := c
      have := h k
      simp [Memory.read] at this
      exact absurd this.symm (Memory.wf_cons.1 hn).1
  | cons c m ih =>
    intro n hm hn h
    obtain ⟨k, b⟩ := c
    cases n with
    | nil =>
      have := h k
      simp [Memory.read] at this
      exact absurd this (Memory.wf_cons.1 hm).1
    | cons d n =>
      obtain ⟨j, e⟩ := d
      obtain ⟨hb, hk, hm'⟩ := Memory.wf_cons.1 hm
      obtain ⟨he, hj, hn'⟩ := Memory.wf_cons.1 hn
      have hkj : k = j := by
        rcases Nat.lt_trichotomy k j with hlt | heq | hgt
        · have := h k
          simp only [Memory.read, if_true, if_neg (Nat.ne_of_lt hlt),
            Memory.read_of_above (Memory.above_mono (Nat.le_of_lt hlt) hj)] at this
          exact absurd this hb
        · exact heq
        · have := h j
          simp only [Memory.read, if_true, if_neg (Nat.ne_of_lt hgt),
            Memory.read_of_above (Memory.above_mono (Nat.le_of_lt hgt) hk)] at this
          exact absurd this.symm he
      subst hkj
      have hbe : b = e := by simpa [Memory.read] using h k
      subst hbe
      refine congrArg _ (ih hm' hn' fun a => ?_)
      by_cases ha : a = k
      · rw [ha, Memory.read_of_above hk, Memory.read_of_above hj]
      · simpa [Memory.read, ha] using h a

/-- Nothing is listed at reset. -/
theorem Memory.reset_wf : Memory.wf State.reset.mem = true := rfl

end Sys2Proof.Machine
end

