-- ==== Sys2Proof/Laws/Steps.lean ====
section
/-! SUPPORT. Reasoning about datapath steps: what every run of a step does to the state, whether it returns or raises, composed
from what its parts do. -/

namespace Sys2Proof.Machine

/-! ### Running a step -/

/-- The state a datapath step ends in, whether it returns or raises. -/
def endState {α : Type} (m : M α) (s : State) : State :=
  match m s with
  | .ok _ t => t
  | .error _ t => t

theorem endState_ok {α : Type} {m : M α} {s t : State} {a : α} (h : m s = .ok a t) : endState m s = t := by
  simp [endState, h]

theorem endState_error {α : Type} {m : M α} {s t : State} {e : ErrCode} (h : m s = .error e t) : endState m s = t := by
  simp [endState, h]

theorem bind_ok {α β : Type} {m : M α} {k : α → M β} {s t : State} {a : α} (h : m s = .ok a t) :
    (m >>= k) s = k a t := by
  show EStateM.bind m k s = _
  simp [EStateM.bind, h]

theorem bind_error {α β : Type} {m : M α} {k : α → M β} {s t : State} {e : ErrCode} (h : m s = .error e t) :
    (m >>= k) s = .error e t := by
  show EStateM.bind m k s = _
  simp [EStateM.bind, h]

theorem pure_run {α : Type} (a : α) (s : State) : (pure a : M α) s = .ok a s := rfl

theorem get_bind {β : Type} (k : State → M β) (s : State) : ((get : M State) >>= k) s = k s s := rfl

theorem modify_run (f : State → State) (s : State) : (modify f : M Unit) s = .ok () (f s) := rfl

theorem setReader_run (f : BitReader → BitReader) (s : State) : setReader f s = .ok () { s with rd := f s.rd } := rfl

theorem setCursor_run (f : PageCursor → PageCursor) (s : State) : setCursor f s = .ok () { s with cur := f s.cur } := rfl

theorem setTables_run (f : Tables → Tables) (s : State) : setTables f s = .ok () { s with tab := f s.tab } := rfl

theorem setWork_run (f : Work → Work) (s : State) : setWork f s = .ok () { s with work := f s.work } := rfl

theorem setControl_run (f : Control → Control) (s : State) : setControl f s = .ok () { s with ctl := f s.ctl } := rfl

theorem note_run (e : ErrCode) (s : State) : note e s = .ok () (s.setError e) := rfl

theorem raise_run {α : Type} (e : ErrCode) (s : State) : (raise e : M α) s = .error e s := rfl

theorem check_true (e : ErrCode) (s : State) : check true e s = .ok () s := rfl

theorem check_false (e : ErrCode) (s : State) : check false e s = .error e s := rfl

/-- A bind that returns, taken apart. -/
theorem bind_ok_iff {α β : Type} {m : M α} {k : α → M β} {s u : State} {b : β} :
    (m >>= k) s = .ok b u ↔ ∃ a t, m s = .ok a t ∧ k a t = .ok b u := by
  show EStateM.bind m k s = _ ↔ _
  simp only [EStateM.bind]
  cases h : m s <;> simp

/-- A bind that raises, taken apart. -/
theorem bind_error_iff {α β : Type} {m : M α} {k : α → M β} {s u : State} {e : ErrCode} :
    (m >>= k) s = .error e u ↔ m s = .error e u ∨ ∃ a t, m s = .ok a t ∧ k a t = .error e u := by
  show EStateM.bind m k s = _ ↔ _
  simp only [EStateM.bind]
  cases h : m s <;> simp

/-- `try` never raises and ends where its step ends. -/
theorem attempt_run {α : Type} (m : M α) (s : State) :
    ∃ r, attempt m s = .ok r (endState m s) := by
  unfold attempt endState
  cases m s <;> simp

/-- `try` of a step that returns. -/
theorem attempt_ok {α : Type} {m : M α} {s t : State} {a : α} (h : m s = .ok a t) : attempt m s = .ok (.ok a) t := by
  unfold attempt
  rw [h]

/-- `try` of a step that raises. -/
theorem attempt_error {α : Type} {m : M α} {s t : State} {e : ErrCode} (h : m s = .error e t) :
    attempt m s = .ok (.error e) t := by
  unfold attempt
  rw [h]

/-! ### Relations every run keeps -/

/-- A relation between a state and a later one that composes. -/
structure Composes (R : State → State → Prop) : Prop where
  refl : ∀ s, R s s
  trans : ∀ {s t u}, R s t → R t u → R s u

/-- Every run of the step, returning or raising, keeps the relation. -/
def Keeps {α : Type} (R : State → State → Prop) (m : M α) : Prop := ∀ s, R s (endState m s)

/-- The relation of two states that agree on a view of them. -/
def Same {β : Type} (view : State → β) (s t : State) : Prop := view t = view s

theorem same_composes {β : Type} (view : State → β) : Composes (Same view) :=
  ⟨fun _ => rfl, fun h1 h2 => Eq.trans h2 h1⟩

/-- The relation of an invariant kept. -/
def Retains (P : State → Prop) (s t : State) : Prop := P s → P t

theorem retains_composes (P : State → Prop) : Composes (Retains P) := ⟨fun _ h => h, fun h1 h2 h => h2 (h1 h)⟩

variable {R : State → State → Prop} {α β : Type}

theorem keeps_pure (F : Composes R) (a : α) : Keeps R (pure a) := fun s => F.refl s

theorem keeps_raise (F : Composes R) (e : ErrCode) : Keeps R (raise e : M α) := fun s => F.refl s

theorem keeps_get (F : Composes R) : Keeps R (get : M State) := fun s => F.refl s

theorem keeps_modify {f : State → State} (h : ∀ s, R s (f s)) : Keeps R (modify f) := fun s => h s

theorem keeps_check (F : Composes R) (b : Bool) (e : ErrCode) : Keeps R (check b e) := by
  cases b
  · exact fun s => F.refl s
  · exact fun s => F.refl s

theorem keeps_bind (F : Composes R) {m : M α} {k : α → M β} (hm : Keeps R m) (hk : ∀ a, Keeps R (k a)) :
    Keeps R (m >>= k) := by
  intro s
  cases h : m s with
  | ok a t =>
    have h1 := hm s
    rw [endState_ok h] at h1
    have h2 := hk a t
    unfold endState at *
    rw [bind_ok h]
    exact F.trans h1 h2
  | error e t =>
    have h1 := hm s
    rw [endState_error h] at h1
    rw [endState_error (bind_error h)]
    exact h1

/-- Reading the state first: the rest may be judged at that state. -/
theorem keeps_get_bind {k : State → M β} (h : ∀ s, R s (endState (k s) s)) : Keeps R ((get : M State) >>= k) := h

/-- After a check that passes. -/
theorem keeps_check_bind (F : Composes R) {b : Bool} {e : ErrCode} {k : Unit → M β} (h : b = true → Keeps R (k ())) :
    Keeps R (check b e >>= k) := by
  cases b with
  | true => exact h rfl
  | false => exact fun s => F.refl s

/-- A check at a state, and what follows it there. -/
theorem at_check_bind (F : Composes R) {b : Bool} {e : ErrCode} {k : Unit → M β} {s : State}
    (h : b = true → R s (endState (k ()) s)) : R s (endState (check b e >>= k) s) := by
  cases b with
  | true => exact h rfl
  | false => exact F.refl s

/-- A bind at a state. -/
theorem at_bind (F : Composes R) {m : M α} {k : α → M β} {s : State} (hm : R s (endState m s))
    (hk : ∀ a t, m s = .ok a t → R t (endState (k a) t)) : R s (endState (m >>= k) s) := by
  cases h : m s with
  | ok a t =>
    rw [endState_ok h] at hm
    have h2 := hk a t h
    unfold endState at *
    rw [bind_ok h]
    exact F.trans hm h2
  | error e t =>
    rw [endState_error h] at hm
    rw [endState_error (bind_error h)]
    exact hm

theorem keeps_ite {c : Prop} [Decidable c] {m n : M α} (hm : c → Keeps R m) (hn : ¬c → Keeps R n) :
    Keeps R (if c then m else n) := by
  split
  · exact hm ‹_›
  · exact hn ‹_›

theorem keeps_readIf (F : Composes R) {m : M α} {b : Bool} (h : Keeps R m) (a : α) : Keeps R (readIf b m a) :=
  keeps_ite (fun _ => h) fun _ => keeps_pure F a

theorem keeps_attempt {m : M α} (h : Keeps R m) : Keeps R (attempt m) := by
  intro s
  obtain ⟨r, hr⟩ := attempt_run m s
  rw [endState_ok hr]
  exact h s

theorem keeps_readMany (F : Composes R) {one : M α} (h : Keeps R one) : ∀ n, Keeps R (readMany one n)
  | 0 => keeps_pure F _
  | n + 1 => keeps_bind F h fun _ => keeps_bind F (keeps_readMany F h n) fun _ => keeps_pure F _

theorem keeps_forEach (F : Composes R) {step : α → M Unit} (h : ∀ a, Keeps R (step a)) : ∀ l, Keeps R (forEach step l)
  | [] => keeps_pure F _
  | x :: xs => keeps_bind F (h x) fun _ => keeps_forEach F h xs

theorem keeps_times (F : Composes R) {step : M Unit} (h : Keeps R step) : ∀ n, Keeps R (times step n)
  | 0 => keeps_pure F _
  | n + 1 => keeps_bind F h fun _ => keeps_times F h n

/-- Where a kept relation leads when the step returns. -/
theorem Keeps.ok {m : M α} (h : Keeps R m) {s t : State} {a : α} (he : m s = .ok a t) : R s t := by
  have := h s
  rwa [endState_ok he] at this

/-- Where a kept relation leads when the step raises. -/
theorem Keeps.error {m : M α} (h : Keeps R m) {s t : State} {e : ErrCode} (he : m s = .error e t) : R s t := by
  have := h s
  rwa [endState_error he] at this

/-! ### What a step may raise -/

/-- Every code the step can raise meets `E`. -/
def Raises (E : ErrCode → Prop) (m : M α) : Prop := ∀ s t e, m s = .error e t → E e

variable {E : ErrCode → Prop}

theorem raises_pure (a : α) : Raises E (pure a : M α) := by
  intro s t e h
  simp [pure_run] at h

theorem raises_get : Raises E (get : M State) := by
  intro s t e h
  cases h

theorem raises_modify (f : State → State) : Raises E (modify f : M Unit) := by
  intro s t e h
  rw [modify_run] at h
  cases h

theorem raises_raise {e : ErrCode} (h : E e) : Raises E (raise e : M α) := by
  intro s t e' he
  rw [raise_run] at he
  cases he
  exact h

theorem raises_check {b : Bool} {e : ErrCode} (h : E e) : Raises E (check b e) := by
  cases b
  · exact raises_raise h
  · exact raises_pure ()

theorem raises_bind {m : M α} {k : α → M β} (hm : Raises E m) (hk : ∀ a, Raises E (k a)) : Raises E (m >>= k) := by
  intro s u e h
  rcases bind_error_iff.1 h with h | ⟨a, t, _, h⟩
  · exact hm _ _ _ h
  · exact hk a _ _ _ h

theorem raises_ite {c : Prop} [Decidable c] {m n : M α} (hm : c → Raises E m) (hn : ¬c → Raises E n) :
    Raises E (if c then m else n) := by
  split
  · exact hm ‹_›
  · exact hn ‹_›

theorem raises_readIf {m : M α} {b : Bool} (h : Raises E m) (a : α) : Raises E (readIf b m a) :=
  raises_ite (fun _ => h) fun _ => raises_pure a

theorem raises_attempt (m : M α) : Raises E (attempt m) := by
  intro s t e h
  obtain ⟨r, hr⟩ := attempt_run m s
  rw [hr] at h
  cases h

/-- What is done with an attempt's result: its error is one that the attempted step can raise. -/
theorem raises_attempt_bind {m : M α} {k : Except ErrCode α → M β} (hm : Raises E m)
    (hk : ∀ r, (∀ e, r = .error e → E e) → Raises E (k r)) : Raises E (attempt m >>= k) := by
  intro s u e h
  rcases bind_error_iff.1 h with h | ⟨r, t, ha, h⟩
  · exact raises_attempt m _ _ _ h
  · refine hk r (fun e' he => ?_) _ _ _ h
    subst he
    unfold attempt at ha
    split at ha
    · cases ha
    · next he' => cases ha; exact hm _ _ _ he'

theorem raises_readMany {one : M α} (h : Raises E one) : ∀ n, Raises E (readMany one n)
  | 0 => raises_pure _
  | n + 1 => raises_bind h fun _ => raises_bind (raises_readMany h n) fun _ => raises_pure _

theorem raises_forEach {step : α → M Unit} (h : ∀ a, Raises E (step a)) : ∀ l, Raises E (forEach step l)
  | [] => raises_pure _
  | x :: xs => raises_bind (h x) fun _ => raises_forEach h xs

theorem Raises.mono {E' : ErrCode → Prop} {m : M α} (h : Raises E m) (hE : ∀ e, E e → E' e) : Raises E' m :=
  fun s t e he => hE e (h s t e he)

end Sys2Proof.Machine
end

