-- ==== Sys2Proof/Laws/Packet.lean ====
section
/-! SUPPORT. Reading a packet that lies wholly in the latched page: its bytes and bits come out in order, and nothing is raised. -/

namespace Sys2Proof.Machine

/-! ### Segments -/

theorem sumSegments_acc : ∀ (l : List Byte) (p : Nat), sumSegments l p = (p + (sumSegments l 0).1, (sumSegments l 0).2)
  | [], _ => rfl
  | b :: bs, p => by
    unfold sumSegments
    split
    · simp
    · rw [sumSegments_acc bs (p + b.toNat), sumSegments_acc bs (0 + b.toNat)]
      simp [Nat.add_assoc]

theorem sumSegments_cons_end {b : Byte} (bs : List Byte) (h : b.toNat < 255) : sumSegments (b :: bs) 0 = (b.toNat, true) := by
  simp [sumSegments, h]

theorem sumSegments_cons_full {b : Byte} (bs : List Byte) (h : ¬ b.toNat < 255) :
    sumSegments (b :: bs) 0 = (255 + (sumSegments bs 0).1, (sumSegments bs 0).2) := by
  have hb : b.toNat = 255 := by
    have := b.isLt
    omega
  rw [sumSegments, if_neg h, sumSegments_acc, hb, Nat.zero_add]

/-- The segment at `next_seg` and those after it. -/
theorem latched_cons {c : PageCursor} {b : Byte} {rest : List Byte} (h : c.latched = b :: rest) :
    c.segments.getD c.nextSeg.toNat 0 = b ∧ c.nextSeg.toNat < c.segmentCount ∧
      (c.segments.take c.segmentCount).drop (c.nextSeg.toNat + 1) = rest := by
  unfold PageCursor.latched at h
  have hlt : c.nextSeg.toNat < (c.segments.take c.segmentCount).length := by
    by_contra hn
    rw [List.drop_eq_nil_of_le (by omega)] at h
    cases h
  rw [List.drop_eq_getElem_cons hlt, List.cons.injEq] at h
  rw [List.length_take] at hlt
  refine ⟨?_, by omega, h.2⟩
  rw [← h.1, List.getElem_take, List.getD_eq_getElem _ _ (by omega)]

theorem takeSegment_last (c : PageCursor) :
    (takeSegment c).lastSeg = if (c.segments.getD c.nextSeg.toNat 0).toNat < 255 then true else c.lastSeg := rfl

theorem takeSegment_bytes (c : PageCursor) :
    (takeSegment c).bytesInSeg = (c.segments.getD c.nextSeg.toNat 0).toNat := rfl

theorem takeSegment_next (c : PageCursor) :
    (takeSegment c).nextSeg = if (c.segmentCount : Int) ≤ c.nextSeg + 1 then -1 else c.nextSeg + 1 := rfl

theorem nextPacket_open {c : PageCursor} (hl : c.lastSeg = false) (hn : 0 ≤ c.nextSeg) :
    c.nextPacket = if c.segmentCount ≤ c.nextSeg.toNat + endingSegment c.latched then -1
      else c.nextSeg + endingSegment c.latched := by
  rw [PageCursor.nextPacket, if_neg (by simp [hl]), if_neg (by omega)]

/-- Taking a segment keeps the count of unread bytes (41_ogg_framer.md R240). -/
theorem takeSegment_left {c : PageCursor} {k : Nat} (hl : c.lastSeg = false) (hb : c.bytesInSeg = 0)
    (h : c.packetLeft = some k) :
    0 ≤ c.nextSeg ∧ (takeSegment c).packetLeft = some k ∧ (takeSegment c).nextPacket = c.nextPacket ∧
      ((takeSegment c).bytesInSeg = 0 → k = 0 ∧ (takeSegment c).lastSeg = true) := by
  unfold PageCursor.packetLeft at h
  simp only [hl, hb, Bool.false_eq_true, if_false, Nat.zero_add] at h
  by_cases hn : c.nextSeg < 0
  · rw [if_pos hn] at h; cases h
  · rw [if_neg hn] at h
    have h0 : 0 ≤ c.nextSeg := by omega
    cases hlat : c.latched with
    | nil => rw [hlat] at h; cases h
    | cons b rest =>
      obtain ⟨hget, hcount, hrest⟩ := latched_cons hlat
      rw [hlat] at h
      refine ⟨h0, ?_⟩
      by_cases hlt : b.toNat < 255
      · rw [sumSegments_cons_end rest hlt] at h
        simp only [if_true, Option.some.injEq] at h
        have hs : (takeSegment c).lastSeg = true := by rw [takeSegment_last, hget, if_pos hlt]
        have hy : (takeSegment c).bytesInSeg = k := by rw [takeSegment_bytes, hget, h]
        refine ⟨by simp [PageCursor.packetLeft, hs, hy], ?_, fun hz => ⟨by omega, hs⟩⟩
        unfold PageCursor.nextPacket
        rw [if_pos hs, if_neg (by simp [hl]), if_neg hn, hlat, takeSegment_next, endingSegment, if_pos hlt]
        by_cases hle : (c.segmentCount : Int) ≤ c.nextSeg + 1
        · rw [if_pos hle, if_pos (by omega)]
        · rw [if_neg hle, if_neg (by omega)]
          rfl
      · have hb255 : b.toNat = 255 := by have := b.isLt; omega
        rw [sumSegments_cons_full rest hlt] at h
        have hs : (takeSegment c).lastSeg = false := by rw [takeSegment_last, hget, if_neg hlt, hl]
        have hy : (takeSegment c).bytesInSeg = 255 := by rw [takeSegment_bytes, hget, hb255]
        have hne : (sumSegments rest 0).2 = true := by
          by_contra hf
          rw [if_neg (by simpa using hf)] at h
          cases h
        have hmore : ¬ (c.segmentCount : Int) ≤ c.nextSeg + 1 := by
          intro hle
          have : rest = [] := by
            rw [← hrest]
            exact List.drop_eq_nil_of_le (by rw [List.length_take]; omega)
          rw [this] at hne
          cases hne
        have hx : (takeSegment c).nextSeg = c.nextSeg + 1 := by simp [takeSegment, hmore]
        have hlat' : (takeSegment c).latched = rest := by
          unfold PageCursor.latched
          rw [hx, ← hrest, show (c.nextSeg + 1).toNat = c.nextSeg.toNat + 1 by omega]
          rfl
        refine ⟨?_, ?_, fun hz => by omega⟩
        swap
        · have hcnt : (takeSegment c).segmentCount = c.segmentCount := rfl
          rw [nextPacket_open hs (by omega), nextPacket_open hl h0, hlat, hlat', hx, hcnt, endingSegment, if_neg hlt]
          have e1 : (c.nextSeg + 1).toNat = c.nextSeg.toNat + 1 := by omega
          rw [e1, Nat.add_assoc]
          split
          · rfl
          · push_cast
            omega
        unfold PageCursor.packetLeft
        rw [hs, hy, hx, hlat']
        simp only [Bool.false_eq_true, if_false, hne, if_true]
        rw [if_neg (by omega)]
        simp only [hne, if_true] at h
        exact h

/-! ### Bytes -/

/-- The machine one packet byte on. -/
def State.byteOn (s : State) (c : PageCursor) : State :=
  { s with cur := c, rd.packetBytes := s.rd.packetBytes + 1, src.pos := s.src.pos + 1 }

theorem takePacketByte_here {s : State} (hp : s.src.pos.toNat < s.src.len.toNat) (he : s.src.eof = false) :
    takePacketByte s = .ok (some (s.srcByte s.src.pos)) (s.byteOn { s.cur with bytesInSeg := s.cur.bytesInSeg - 1 }) := by
  have hle : ¬ s.src.len ≤ s.src.pos := by rw [BitVec.le_def]; omega
  unfold takePacketByte
  rw [bind_ok (setCursor_run _ s), bind_ok (setReader_run _ _)]
  have hin : inByte { s with cur.bytesInSeg := s.cur.bytesInSeg - 1, rd.packetBytes := s.rd.packetBytes + 1 } =
      .ok (s.srcByte s.src.pos) (s.byteOn { s.cur with bytesInSeg := s.cur.bytesInSeg - 1 }) := by
    unfold inByte
    rw [get_bind]
    simp only [if_neg hle]
    rfl
  rw [bind_ok hin, get_bind, if_neg (by simp [State.byteOn, he]), pure_run]

theorem nextSegment_here {s : State} (hl : s.cur.lastSeg = false) (hn : 0 ≤ s.cur.nextSeg) :
    nextSegment s = .ok (takeSegment s.cur).bytesInSeg { s with cur := takeSegment s.cur } := by
  unfold nextSegment nextSegmentFuel
  rw [get_bind, get_bind, if_neg (by simp [hl]), if_neg (by omega)]
  rfl

theorem packetSize_eq {s : State} {k : Nat} (h : s.cur.packetLeft = some k) : s.packetSize = k := by
  simp [State.packetSize, h]

theorem PacketHere_left {s : State} (h : s.PacketHere) : s.cur.packetLeft = some s.packetSize := by
  obtain ⟨k, hk⟩ := Option.isSome_iff_exists.1 h.latched
  rw [packetSize_eq hk, hk]

theorem packetLeft_pred {c : PageCursor} {k : Nat} (hb : c.bytesInSeg ≠ 0) (h : c.packetLeft = some k) :
    ∃ j, k = j + 1 ∧ ({ c with bytesInSeg := c.bytesInSeg - 1 } : PageCursor).packetLeft = some j := by
  have hl' : ({ c with bytesInSeg := c.bytesInSeg - 1 } : PageCursor).latched = c.latched := rfl
  unfold PageCursor.packetLeft at h ⊢
  rw [hl']
  by_cases hl : c.lastSeg = true
  · rw [if_pos hl, Option.some.injEq] at h
    exact ⟨c.bytesInSeg - 1, by omega, if_pos hl⟩
  · rw [if_neg hl] at h ⊢
    by_cases hn : c.nextSeg < 0
    · rw [if_pos hn] at h; cases h
    · rw [if_neg hn] at h ⊢
      by_cases hs : (sumSegments c.latched 0).2 = true
      · rw [if_pos hs, Option.some.injEq] at h
        exact ⟨c.bytesInSeg - 1 + (sumSegments c.latched 0).1, by omega, if_pos hs⟩
      · rw [if_neg hs] at h; cases h

theorem within_refl (c : PageCursor) : c.Within c := ⟨rfl, rfl⟩

theorem within_trans {c d e : PageCursor} (h1 : c.Within d) (h2 : d.Within e) : c.Within e := by
  refine ⟨?_, h2.next.trans h1.next⟩
  have h := h2.page
  rw [h1.page] at h
  exact h

/-- The end of the packet is read as EOP (40_bitreader.md R206). -/
theorem get8PacketRaw_end {s : State} (h : s.PacketHere) (h0 : s.packetSize = 0) :
    ∃ c, get8PacketRaw s = .ok none { s with cur := c } ∧ c.packetLeft = some 0 ∧ s.cur.Within c ∧ c.lastSeg = true := by
  have hk := PacketHere_left h
  rw [h0] at hk
  unfold get8PacketRaw
  rw [get_bind]
  by_cases hb : s.cur.bytesInSeg = 0
  · rw [if_pos hb]
    by_cases hl : s.cur.lastSeg = true
    · rw [if_pos hl]
      exact ⟨s.cur, rfl, hk, within_refl _, hl⟩
    · rw [if_neg hl]
      have hl : s.cur.lastSeg = false := by simpa using hl
      obtain ⟨hn, hleft, hnext, hz⟩ := takeSegment_left hl hb hk
      rw [bind_ok (nextSegment_here hl hn)]
      by_cases hy : (takeSegment s.cur).bytesInSeg = 0
      · rw [if_pos hy]
        exact ⟨_, rfl, hleft, ⟨rfl, hnext⟩, (hz hy).2⟩
      · obtain ⟨j, hj, _⟩ := packetLeft_pred hy hleft
        omega
  · obtain ⟨j, hj, _⟩ := packetLeft_pred hb hk
    omega

/-- The next byte of the packet is the next byte of the source (40_bitreader.md R206). -/
theorem get8PacketRaw_byte {s : State} {k : Nat} (h : s.PacketHere) (h0 : s.packetSize = k + 1) :
    ∃ c, get8PacketRaw s = .ok (some (s.srcByte s.src.pos)) (s.byteOn c) ∧ c.packetLeft = some k ∧
      s.cur.Within c := by
  have hk := PacketHere_left h
  have hf := h.fits
  rw [h0] at hk hf
  have hpos : s.src.pos.toNat < s.src.len.toNat := by omega
  unfold get8PacketRaw
  rw [get_bind]
  by_cases hb : s.cur.bytesInSeg = 0
  · rw [if_pos hb]
    by_cases hl : s.cur.lastSeg = true
    · simp [PageCursor.packetLeft, hl, hb] at hk
    · rw [if_neg hl]
      have hl : s.cur.lastSeg = false := by simpa using hl
      obtain ⟨hn, hleft, hnext, hz⟩ := takeSegment_left hl hb hk
      have hy : (takeSegment s.cur).bytesInSeg ≠ 0 := by
        intro hy
        have := (hz hy).1
        omega
      rw [bind_ok (nextSegment_here hl hn), if_neg hy]
      obtain ⟨j, hj, hp⟩ := packetLeft_pred hy hleft
      have hj : j = k := by omega
      subst hj
      exact ⟨_, takePacketByte_here (s := { s with cur := takeSegment s.cur }) hpos h.live, hp, ⟨rfl, hnext⟩⟩
  · rw [if_neg hb]
    obtain ⟨j, hj, hp⟩ := packetLeft_pred hb hk
    have hj : j = k := by omega
    subst hj
    exact ⟨_, takePacketByte_here hpos h.live, hp, ⟨rfl, rfl⟩⟩

theorem byteOn_here {s : State} {c : PageCursor} {k : Nat} (h : s.PacketHere) (h0 : s.packetSize = k + 1)
    (hc : c.packetLeft = some k) : (s.byteOn c).PacketHere ∧ (s.byteOn c).packetSize = k := by
  have hf := h.fits
  rw [h0] at hf
  have hsz : (s.byteOn c).packetSize = k := packetSize_eq hc
  have hlen := s.src.len.isLt
  refine ⟨⟨by simp [State.byteOn, hc], ?_, h.live⟩, hsz⟩
  rw [hsz]
  show (s.src.pos + 1).toNat + k ≤ s.src.len.toNat
  rw [BitVec.toNat_add, show (1 : Word).toNat = 1 from rfl]
  omega

theorem packetBytes_cons {s : State} {c : PageCursor} {k : Nat} (h0 : s.packetSize = k + 1)
    (hc : c.packetLeft = some k) : s.packetBytes = s.srcByte s.src.pos :: (s.byteOn c).packetBytes := by
  have hsz : (s.byteOn c).packetSize = k := packetSize_eq hc
  unfold State.packetBytes
  rw [h0, hsz, List.range_succ_eq_map, List.map_cons, List.map_map]
  congr 1
  · simp
  · refine List.map_congr_left fun i _ => ?_
    show s.srcByte (s.src.pos + BitVec.ofNat 32 (i + 1)) = s.srcByte (s.src.pos + 1 + BitVec.ofNat 32 i)
    congr 1
    rw [BitVec.add_assoc]
    congr 1
    rw [Nat.add_comm, BitVec.ofNat_add]
    rfl

theorem byteOn_within {s : State} {c : PageCursor} {k : Nat} (h : s.PacketHere) (h0 : s.packetSize = k + 1)
    (hc : c.packetLeft = some k) (hw : s.cur.Within c) : s.Within (s.byteOn c) := by
  refine ⟨hw, ?_⟩
  have hf := h.fits
  have hlen := s.src.len.isLt
  rw [(byteOn_here h h0 hc).2, h0]
  show (s.src.pos + 1).toNat + k = _
  rw [BitVec.toNat_add, show (1 : Word).toNat = 1 from rfl]
  omega

/-- The machine at the end of its packet. -/
theorem end_here {s : State} {c : PageCursor} (h : s.PacketHere) (h0 : s.packetSize = 0) (hc : c.packetLeft = some 0) :
    ({ s with cur := c } : State).PacketHere ∧ ({ s with cur := c } : State).packetSize = 0 := by
  have hs : ({ s with cur := c } : State).packetSize = 0 := packetSize_eq hc
  refine ⟨⟨by simp [hc], ?_, h.live⟩, hs⟩
  have := h.fits
  rw [h0] at this
  rw [hs]
  exact this

theorem packetBytes_nil {s : State} (h0 : s.packetSize = 0) : s.packetBytes = [] := by
  simp [State.packetBytes, h0]

/-! ### Frames -/

theorem readFrom_refl (s : State) : ReadFrom s s := ⟨⟨within_refl _, rfl⟩, rfl⟩

theorem within_chain {s t u : State} (h1 : s.Within t) (h2 : t.Within u) : s.Within u :=
  ⟨within_trans h1.cursor h2.cursor, h2.stop.trans h1.stop⟩

theorem readFrom_trans {s t u : State} (h1 : ReadFrom s t) (h2 : ReadFrom t u) : ReadFrom s u := by
  refine ⟨within_chain h1.within h2.within, ?_⟩
  have h := h2.frame
  rw [h1.frame] at h
  exact h

theorem readFrom_reader (s : State) (r : BitReader) : ReadFrom s { s with rd := r } := ⟨⟨within_refl _, rfl⟩, rfl⟩

theorem readFrom_byteOn {s : State} {c : PageCursor} {k : Nat} (h : s.PacketHere) (h0 : s.packetSize = k + 1)
    (hc : c.packetLeft = some k) (hw : s.cur.Within c) : ReadFrom s (s.byteOn c) := ⟨byteOn_within h h0 hc hw, rfl⟩

theorem readFrom_end {s : State} {c : PageCursor} (h : s.PacketHere) (h0 : s.packetSize = 0) (hc : c.packetLeft = some 0)
    (hw : s.cur.Within c) : ReadFrom s { s with cur := c } :=
  ⟨⟨hw, by rw [(end_here h h0 hc).2, h0]⟩, rfl⟩

end Sys2Proof.Machine
end

