-- ==== Sys2Proof/Laws/Bits.lean ====
section
/-! SUPPORT. Reading bits of a packet that lies wholly in the latched page: `get_bits` gives the value of the next bits and leaves
the rest. -/

namespace Sys2Proof.Machine

/-! ### Values of bits -/

theorem bitsValue_testBit : ∀ n x, bitsValue ((List.range n).map (Nat.testBit x)) = x % 2 ^ n
  | 0, x => by simp [bitsValue, Nat.mod_one]
  | n + 1, x => by
    rw [List.range_succ_eq_map, List.map_cons, List.map_map, bitsValue]
    have h : (Nat.testBit x ∘ Nat.succ) = Nat.testBit (x / 2) := by
      funext i
      simp [Nat.testBit_succ]
    rw [h, bitsValue_testBit n (x / 2), Nat.testBit_zero, Nat.pow_succ, Nat.mul_comm (2 ^ n) 2, Nat.mod_mul]
    congr 1
    rcases Nat.mod_two_eq_zero_or_one x with h | h <;> simp [h]

/-- A field reads back as its value (20_memory.md R97). -/
theorem bitsValue_fieldBits {n v : Nat} (h : v < 2 ^ n) : bitsValue (fieldBits n v) = v := by
  rw [fieldBits, bitsValue_testBit, Nat.mod_eq_of_lt h]

theorem bitsValue_append : ∀ a b : List Bool, bitsValue (a ++ b) = bitsValue a + bitsValue b * 2 ^ a.length
  | [], b => by simp [bitsValue]
  | x :: a, b => by
    rw [List.cons_append, bitsValue, bitsValue, bitsValue_append a b, List.length_cons, Nat.pow_succ]
    ring

theorem bitsValue_lt : ∀ a : List Bool, bitsValue a < 2 ^ a.length
  | [] => by simp [bitsValue]
  | x :: a => by
    have := bitsValue_lt a
    rw [bitsValue, List.length_cons, Nat.pow_succ]
    have : x.toNat ≤ 1 := Bool.toNat_le x
    omega

@[simp] theorem fieldBits_length (n v : Nat) : (fieldBits n v).length = n := by simp [fieldBits]

@[simp] theorem byteBits_length (b : Byte) : (byteBits b).length = 8 := by simp [byteBits]

@[simp] theorem heldBits_length (r : BitReader) : r.heldBits.length = r.validBits.toNat := by simp [BitReader.heldBits]

/-! ### The reader -/

theorem reader_clean {r : BitReader} (h : r.Ok) {v : Nat} (hv : r.validBits = v) (h0 : 0 < v) : r.acc.toNat < 2 ^ v := by
  have := h.clean (by omega)
  rwa [hv] at this

theorem pushByte_acc {r : BitReader} (b : Byte) (h : r.Ok) {v : Nat} (hv : r.validBits = v) (h1 : v ≤ 31) :
    (pushByte b r).acc.toNat = 2 ^ v * b.toNat + (if v = 0 then 0 else r.acc.toNat) ∧
      (if v = 0 then 0 else r.acc.toNat) < 2 ^ v := by
  have hlt : (if v = 0 then 0 else r.acc.toNat) < 2 ^ v := by
    split
    · exact Nat.two_pow_pos v
    · exact reader_clean h hv (by omega)
  refine ⟨?_, hlt⟩
  have hb := b.isLt
  have hpow : 2 ^ v ≤ 2 ^ 31 := Nat.pow_le_pow_right (by omega) h1
  have hmul : 2 ^ v * b.toNat + 2 ^ v ≤ 2 ^ 39 := by nlinarith
  have ha : (if r.validBits = 0 then (0 : BitVec 39) else r.acc).toNat = if v = 0 then 0 else r.acc.toNat := by
    rw [hv]
    by_cases hz : v = 0 <;> simp [hz]
  show ((if r.validBits = 0 then (0 : BitVec 39) else r.acc) + (b.zeroExtend 39 <<< r.validBits.toNat)).toNat = _
  have hz : (b.zeroExtend 39).toNat = b.toNat := by
    simp only [BitVec.truncate_eq_setWidth, BitVec.toNat_setWidth]
    omega
  rw [BitVec.toNat_add, BitVec.toNat_shiftLeft, ha, hz, hv, Int.toNat_natCast, Nat.shiftLeft_eq,
    Nat.mod_eq_of_lt (a := b.toNat * 2 ^ v) (by rw [Nat.mul_comm]; omega),
    Nat.mod_eq_of_lt (by rw [Nat.mul_comm]; omega), Nat.mul_comm, Nat.add_comm]

/-- A byte is added above the bits held (40_bitreader.md R209). -/
theorem pushByte_ok {r : BitReader} (b : Byte) (h : r.Ok) (h0 : 0 ≤ r.validBits) (h1 : r.validBits ≤ 31) :
    (pushByte b r).Ok ∧ (pushByte b r).heldBits = r.heldBits ++ byteBits b := by
  obtain ⟨v, hv⟩ := Int.eq_ofNat_of_zero_le h0
  obtain ⟨hacc, hlt⟩ := pushByte_acc b h hv (by omega)
  have hb := b.isLt
  have hval : (pushByte b r).validBits = ((v + 8 : Nat) : Int) := by
    show r.validBits + 8 = _
    omega
  refine ⟨⟨by omega, fun _ => ?_⟩, ?_⟩
  · rw [hval, Int.toNat_natCast, hacc, Nat.pow_add]
    have := Nat.two_pow_pos v
    nlinarith
  · unfold BitReader.heldBits
    rw [hval, hv, Int.toNat_natCast, Int.toNat_natCast, List.range_add, List.map_append, List.map_map, byteBits]
    congr 1
    · refine List.map_congr_left fun i hi => ?_
      have hi := List.mem_range.1 hi
      rw [BitVec.getLsbD, hacc, Nat.testBit_two_pow_mul_add _ hlt, if_pos hi, if_neg (by omega)]
      rfl
    · refine List.map_congr_left fun i _ => ?_
      show (pushByte b r).acc.getLsbD (v + i) = _
      rw [BitVec.getLsbD, hacc, Nat.testBit_two_pow_mul_add _ hlt, if_neg (by omega), Nat.add_sub_cancel_left]
      rfl

/-- Consuming bits drops the first of those held (40_bitreader.md R210). -/
theorem consumeBits_ok {r : BitReader} {n : Nat} (h : r.Ok) (hn : (n : Int) ≤ r.validBits) :
    (consumeBits n r).Ok ∧ (consumeBits n r).heldBits = r.heldBits.drop n := by
  obtain ⟨v, hv⟩ := Int.eq_ofNat_of_zero_le (show 0 ≤ r.validBits by omega)
  have hr := h.range
  have hval : (consumeBits n r).validBits = ((v - n : Nat) : Int) := by
    show r.validBits - n = _
    omega
  have hacc : (consumeBits n r).acc = r.acc >>> n := rfl
  refine ⟨⟨by omega, fun hp => ?_⟩, ?_⟩
  · have hlt := reader_clean h hv (by omega)
    rw [hval, Int.toNat_natCast, hacc, BitVec.toNat_ushiftRight, Nat.shiftRight_eq_div_pow]
    refine Nat.div_lt_of_lt_mul ?_
    rw [← Nat.pow_add]
    have : n + (v - n) = v := by omega
    rw [this]
    exact hlt
  · unfold BitReader.heldBits
    rw [hval, hv, Int.toNat_natCast, Int.toNat_natCast]
    refine List.ext_getElem (by simp) fun i h1 h2 => ?_
    simp [hacc, BitVec.getLsbD_ushiftRight]

/-- The low bits of the accumulator are the value of the first bits held. -/
theorem heldBits_value {r : BitReader} {n : Nat} (hn : (n : Int) ≤ r.validBits) :
    bitsValue (r.heldBits.take n) = r.acc.toNat % 2 ^ n := by
  have : r.heldBits.take n = (List.range n).map r.acc.toNat.testBit := by
    unfold BitReader.heldBits
    rw [← List.map_take, List.take_range, Nat.min_eq_left (by omega)]
    rfl
  rw [this, bitsValue_testBit]

/-! ### Packets -/

theorem holds_nonneg {s : State} {bits : List Bool} (h : s.Holds bits) : 0 ≤ s.rd.validBits := h.valid

theorem holds_length {s : State} {bits : List Bool} (h : s.Holds bits) :
    bits.length = s.rd.validBits.toNat + 8 * s.packetSize := by
  rw [← h.bits, State.packetBits, List.length_append, heldBits_length, List.length_flatMap]
  congr 1
  simp [State.packetBytes, Function.comp_def, List.map_const', Nat.mul_comm]

/-- One more byte in the accumulator; the unread bits stay the same (40_bitreader.md R209). -/
theorem pushByte_holds {s : State} {bits : List Bool} {k : Nat} (h : s.Holds bits) (h1 : s.rd.validBits ≤ 31)
    (hk : s.packetSize = k + 1) :
    ∃ t, get8PacketRaw s = .ok (some (s.srcByte s.src.pos)) t ∧
      ({ t with rd := pushByte (s.srcByte s.src.pos) t.rd } : State).Holds bits ∧ ReadFrom s t ∧
      t.rd.validBits = s.rd.validBits := by
  obtain ⟨c, hget, hc, hw⟩ := get8PacketRaw_byte h.here hk
  obtain ⟨hhere, _⟩ := byteOn_here h.here hk hc
  have hok : ({ s.rd with packetBytes := s.rd.packetBytes + 1 } : BitReader).Ok := ⟨h.reader.range, h.reader.clean⟩
  obtain ⟨hok', hbits⟩ := pushByte_ok (s.srcByte s.src.pos) hok h.valid h1
  refine ⟨s.byteOn c, hget, ⟨⟨hhere.latched, hhere.fits, hhere.live⟩, hok', ?_, ?_⟩, readFrom_byteOn h.here hk hc hw, rfl⟩
  · show 0 ≤ s.rd.validBits + 8
    have := h.valid
    omega
  · rw [← h.bits]
    unfold State.packetBits
    rw [packetBytes_cons hk hc, List.flatMap_cons, ← List.append_assoc]
    congr 1

/-- Refilling keeps the unread bits, and gives as many as asked for unless the packet ends (40_bitreader.md R209). -/
theorem refill_holds {bits : List Bool} {want : Nat} (hw : want ≤ 32) : ∀ {fuel : Nat} {s : State}, s.Holds bits →
    ∃ ok t, refill want fuel s = .ok ok t ∧ t.Holds bits ∧ ReadFrom s t ∧
      (ok = true → (want : Int) ≤ s.rd.validBits + 8 * fuel → (want : Int) ≤ t.rd.validBits) ∧
      (ok = false → t.packetSize = 0 ∧ t.rd.validBits < want)
  | 0, s, h => ⟨true, s, rfl, h, readFrom_refl s, fun _ h1 => by omega, fun h1 => by cases h1⟩
  | fuel + 1, s, h => by
    unfold refill
    rw [get_bind]
    by_cases hv : (want : Int) ≤ s.rd.validBits
    · rw [if_pos hv]
      exact ⟨true, s, rfl, h, readFrom_refl s, fun _ _ => hv, fun h1 => by cases h1⟩
    · rw [if_neg hv]
      cases hk : s.packetSize with
      | zero =>
        obtain ⟨c, hget, hc, hw, _⟩ := get8PacketRaw_end h.here hk
        obtain ⟨hh, hs⟩ := end_here h.here hk hc
        rw [bind_ok hget]
        refine ⟨false, { s with cur := c }, rfl, ⟨hh, h.reader, h.valid, ?_⟩, readFrom_end h.here hk hc hw,
          fun h1 => (by cases h1), fun _ => ⟨hs, by simpa using hv⟩⟩
        rw [← h.bits]
        unfold State.packetBits
        rw [packetBytes_nil hs, packetBytes_nil hk]
      | succ k =>
        obtain ⟨t, hget, hh, hr, hval⟩ := pushByte_holds h (by omega) hk
        rw [bind_ok hget]
        dsimp only
        rw [bind_ok (setReader_run _ t)]
        obtain ⟨ok, u, hu, h1, h2, h3, h4⟩ := refill_holds hw (fuel := fuel) hh
        refine ⟨ok, u, hu, h1, readFrom_trans (readFrom_trans hr (readFrom_reader t _)) h2, fun ho hle => h3 ho ?_, h4⟩
        show (want : Int) ≤ t.rd.validBits + 8 + 8 * fuel
        omega

/-- Taking bits that are held (40_bitreader.md R209). -/
theorem takeBits_holds {s : State} {bits : List Bool} {n : Nat} (h : s.Holds bits) (hn : (n : Int) ≤ s.rd.validBits) :
    ∃ t, takeBits n s = .ok (bitsValue (bits.take n)) t ∧ t.Holds (bits.drop n) ∧ ReadFrom s t := by
  obtain ⟨hok, hheld⟩ := consumeBits_ok h.reader hn
  have hlen : n ≤ s.rd.heldBits.length := by
    rw [heldBits_length]
    omega
  have hb : bits = s.rd.heldBits ++ s.packetBytes.flatMap byteBits := h.bits.symm
  refine ⟨{ s with rd := consumeBits n s.rd }, ?_, ⟨⟨h.here.latched, h.here.fits, h.here.live⟩, hok, ?_, ?_⟩, readFrom_reader s _⟩
  · unfold takeBits
    rw [get_bind, bind_ok (setReader_run _ s), pure_run, hb, List.take_append_of_le_length hlen, heldBits_value hn]
  · show 0 ≤ s.rd.validBits - n
    omega
  · rw [hb, List.drop_append_of_le_length hlen, ← hheld]
    rfl

/-- Clearing an empty accumulator changes no held bit (40_bitreader.md R209). -/
theorem clearEmpty_holds {s : State} {bits : List Bool} (n : Nat) (h : s.Holds bits) :
    ({ s with rd := clearEmpty n s.rd } : State).Holds bits ∧ (clearEmpty n s.rd).validBits = s.rd.validBits := by
  unfold clearEmpty
  split
  · next he =>
    refine ⟨⟨⟨h.here.latched, h.here.fits, h.here.live⟩, ⟨h.reader.range, fun hv => ?_⟩, h.valid, ?_⟩, rfl⟩
    · have : 0 < s.rd.validBits := hv
      omega
    · rw [← h.bits]
      show BitReader.heldBits _ ++ _ = BitReader.heldBits _ ++ _
      simp only [BitReader.heldBits, he.1]
      rfl
  · exact ⟨h, rfl⟩

theorem getBitsShort_holds {s : State} {bits : List Bool} {n : Nat} (h : s.Holds bits) (hn : n ≤ bits.length)
    (hm : n ≤ 24 ∨ n ≤ 32 ∧ (n : Int) ≤ s.rd.validBits) :
    ∃ t, getBitsShort n s = .ok (bitsValue (bits.take n)) t ∧ t.Holds (bits.drop n) ∧ ReadFrom s t := by
  unfold getBitsShort
  rw [get_bind, if_neg (by have := h.valid; omega)]
  obtain ⟨hh, hv⟩ := clearEmpty_holds n h
  obtain ⟨ok, t, ht, h1, h2, h3, h4⟩ := refill_holds (want := n) (by omega) (fuel := 5) hh
  rw [bind_ok (setReader_run _ s), bind_ok ht]
  have hlen := holds_length h1
  have hok : ok = true := by
    by_contra hf
    obtain ⟨hz, hlt⟩ := h4 (by simpa using hf)
    rw [hz] at hlen
    have := h1.valid
    omega
  obtain ⟨u, hu, h5, h6⟩ := takeBits_holds h1 (h3 hok (by
    have := h.valid
    show (n : Int) ≤ (clearEmpty n s.rd).validBits + 8 * 5
    omega))
  rw [if_pos hok]
  exact ⟨u, hu, h5, readFrom_trans (readFrom_trans (readFrom_reader s _) h2) h6⟩

/-- `get_bits(n)` gives the value of the next `n` bits and leaves the others (40_bitreader.md R209). -/
theorem getBits_holds {s : State} {bits : List Bool} {n : Nat} (h : s.Holds bits) (hn : n ≤ bits.length) (hm : n ≤ 32) :
    ∃ t, getBits n s = .ok (bitsValue (bits.take n)) t ∧ t.Holds (bits.drop n) ∧ ReadFrom s t := by
  unfold getBits
  rw [get_bind]
  by_cases hc : s.rd.validBits < (n : Int) ∧ 24 < n
  · rw [if_pos hc]
    obtain ⟨t, ht, h1, h2⟩ := getBitsShort_holds h (show 24 ≤ bits.length by omega) (Or.inl (by omega))
    obtain ⟨u, hu, h3, h4⟩ := getBitsShort_holds h1 (n := n - 24) (by rw [List.length_drop]; omega) (Or.inl (by omega))
    rw [bind_ok ht, bind_ok hu, pure_run]
    refine ⟨u, ?_, ?_, readFrom_trans h2 h4⟩
    · have hsplit : bits.take n = bits.take 24 ++ (bits.drop 24).take (n - 24) := by
        rw [← List.take_add]
        congr 1
        omega
      have hval : bitsValue (bits.take 24) + bitsValue ((bits.drop 24).take (n - 24)) * 2 ^ 24 =
          bitsValue (bits.take n) := by
        rw [hsplit, bitsValue_append, List.length_take, Nat.min_eq_left (by omega)]
      rw [hval, Nat.mod_eq_of_lt]
      refine Nat.lt_of_lt_of_le (bitsValue_lt _) (Nat.pow_le_pow_right (by omega) ?_)
      rw [List.length_take]
      omega
    · rw [List.drop_drop] at h3
      have : 24 + (n - 24) = n := by omega
      rwa [this] at h3
  · rw [if_neg hc]
    exact getBitsShort_holds h hn (by omega)

/-- A field of `n` bits reads as its value (30_encoding.md). -/
theorem getBits_field {s : State} {n v : Nat} {rest : List Bool} (h : s.Holds (fieldBits n v ++ rest)) (hv : v < 2 ^ n)
    (hm : n ≤ 32) : ∃ t, getBits n s = .ok v t ∧ t.Holds rest ∧ ReadFrom s t := by
  obtain ⟨t, ht, h1, h2⟩ := getBits_holds h (n := n) (by simp) hm
  rw [List.take_left' (fieldBits_length n v), bitsValue_fieldBits hv] at ht
  rw [List.drop_left' (fieldBits_length n v)] at h1
  exact ⟨t, ht, h1, h2⟩

end Sys2Proof.Machine
end

