-- ==== Sys2Proof/Laws/Codewords.lean ====
section
/-! SUPPORT. The canonical codewords of 42_setup.md R300: seen as intervals of 32-bit numbers, the codewords of two entries never
meet. -/

namespace Sys2Proof.Machine

/-! ### Leaves as intervals -/

/-- `x` lies under the node of depth `z` at `r`. -/
def Under (z r x : Nat) : Prop := r ≤ x ∧ x < r + 2 ^ (32 - z)

/-- Available leaves: aligned, inside 32 bits, and no two over the same number. -/
structure LeavesOk (avail : Leaves) : Prop where
  aligned : ∀ z, avail.getD z 0 ≠ 0 → z ≤ 32 → 2 ^ (32 - z) ∣ avail.getD z 0 ∧ avail.getD z 0 + 2 ^ (32 - z) ≤ 2 ^ 32
  apart : ∀ y z x, y ≤ 32 → z ≤ 32 → avail.getD y 0 ≠ 0 → avail.getD z 0 ≠ 0 → Under y (avail.getD y 0) x →
    Under z (avail.getD z 0) x → y = z

/-- Some available leaf is over `x`. -/
def Free (avail : Leaves) (x : Nat) : Prop := ∃ z, z ≤ 32 ∧ avail.getD z 0 ≠ 0 ∧ Under z (avail.getD z 0) x

/-- The numbers a codeword is a prefix of. -/
def Covers (len : Nat) (cw : Word) (x : Nat) : Prop := Under len (cw.toNat * 2 ^ (32 - len)) x

theorem findLeaf_spec {avail : Leaves} : ∀ {len : Nat}, findLeaf avail len ≠ 0 →
    findLeaf avail len ≤ len ∧ avail.getD (findLeaf avail len) 0 ≠ 0
  | 0, h => (h rfl).elim
  | z + 1, h => by
    rw [findLeaf] at h ⊢
    by_cases hz : avail.getD (z + 1) 0 = 0
    · rw [if_pos hz] at h ⊢
      obtain ⟨h1, h2⟩ := findLeaf_spec h
      exact ⟨by omega, h2⟩
    · rw [if_neg hz]
      exact ⟨Nat.le_refl _, hz⟩

theorem splitLeaf_get (avail : Leaves) (z len res y : Nat) :
    (splitLeaf avail z len res).getD y 0 =
      if avail.length ≤ y then 0
      else if z < y ∧ y ≤ len then (res + 2 ^ (32 - y)) % 2 ^ 32 else if y = z then 0 else avail.getD y 0 := by
  unfold splitLeaf
  by_cases hy : avail.length ≤ y
  · rw [if_pos hy, List.getD_eq_default]
    simpa using hy
  · rw [if_neg hy, List.getD_eq_getElem _ _ (by simp; omega)]
    simp only [List.getElem_map, List.getElem_zipIdx, Nat.zero_add]
    split
    · rfl
    · rw [List.getElem_set]
      by_cases hz : z = y
      · simp [hz]
      · rw [if_neg hz, if_neg (fun h => hz h.symm), List.getD_eq_getElem _ _ (by omega)]

theorem pow_halves {z y : Nat} (h : z < y) (hy : y ≤ 32) : 2 * 2 ^ (32 - y) ≤ 2 ^ (32 - z) := by
  rw [← Nat.pow_succ']
  exact Nat.pow_le_pow_right (by omega) (by omega)

/-- Splitting a leaf gives up the numbers of the codeword and keeps the others apart. -/
theorem splitLeaf_ok {avail : Leaves} {z len : Nat} (h : LeavesOk avail) (hz : z ≤ len) (hl : len ≤ 32)
    (hne : avail.getD z 0 ≠ 0) :
    LeavesOk (splitLeaf avail z len (avail.getD z 0)) ∧
      ∀ x, Free (splitLeaf avail z len (avail.getD z 0)) x → Free avail x ∧ ¬ Under len (avail.getD z 0) x := by
  obtain ⟨ha, hb⟩ := h.aligned z hne (by omega)
  generalize hr : avail.getD z 0 = r at *
  have new : ∀ y, z < y ∧ y ≤ len → (r + 2 ^ (32 - y)) % 2 ^ 32 = r + 2 ^ (32 - y) := by
    intro y hy
    have := pow_halves hy.1 (by omega)
    have := Nat.two_pow_pos (32 - y)
    exact Nat.mod_eq_of_lt (by omega)
  -- what a leaf of the split is
  have leaf : ∀ y, y ≤ 32 → (splitLeaf avail z len r).getD y 0 ≠ 0 →
      (z < y ∧ y ≤ len ∧ (splitLeaf avail z len r).getD y 0 = r + 2 ^ (32 - y)) ∨
      (y ≠ z ∧ ¬ (z < y ∧ y ≤ len) ∧ (splitLeaf avail z len r).getD y 0 = avail.getD y 0 ∧ avail.getD y 0 ≠ 0) := by
    intro y _ hy
    rw [splitLeaf_get] at hy ⊢
    by_cases h1 : avail.length ≤ y
    · rw [if_pos h1] at hy
      exact (hy rfl).elim
    · rw [if_neg h1] at hy ⊢
      by_cases h2 : z < y ∧ y ≤ len
      · rw [if_pos h2, new y h2]
        exact Or.inl ⟨h2.1, h2.2, rfl⟩
      · rw [if_neg h2] at hy ⊢
        by_cases h3 : y = z
        · rw [if_pos h3] at hy
          exact (hy rfl).elim
        · rw [if_neg h3] at hy ⊢
          exact Or.inr ⟨h3, h2, rfl, hy⟩
  -- a new leaf lies under the one it was split from, and above the codeword
  have inside : ∀ y x, z < y → y ≤ len → Under y (r + 2 ^ (32 - y)) x → Under z r x ∧ r + 2 ^ (32 - len) ≤ x := by
    intro y x h1 h2 hx
    have hp := pow_halves h1 (by omega)
    have hq : 2 ^ (32 - len) ≤ 2 ^ (32 - y) := Nat.pow_le_pow_right (by omega) (by omega)
    unfold Under at *
    omega
  refine ⟨⟨fun y hy hy32 => ?_, fun y y' x hy32 hy32' hy hy' hx hx' => ?_⟩, fun x hx => ?_⟩
  · rcases leaf y hy32 hy with ⟨h1, h2, h3⟩ | ⟨_, _, h3, h4⟩
    · rw [h3]
      have hp := pow_halves h1 (by omega)
      refine ⟨(Nat.dvd_add_right ((Nat.pow_dvd_pow 2 (by omega)).trans ha)).2 (Nat.dvd_refl _), by omega⟩
    · rw [h3]
      exact h.aligned y h4 hy32
  · rcases leaf y hy32 hy with ⟨h1, h2, h3⟩ | ⟨h1, h2, h3, h4⟩ <;>
      rcases leaf y' hy32' hy' with ⟨g1, g2, g3⟩ | ⟨g1, g2, g3, g4⟩ <;> rw [h3] at hx <;> rw [g3] at hx'
    · by_contra hn
      unfold Under at hx hx'
      rcases Nat.lt_or_gt_of_ne hn with hlt | hlt
      · have := pow_halves hlt (by omega)
        omega
      · have := pow_halves hlt (by omega)
        omega
    · have := (inside y x h1 h2 hx).1
      exact (g1 (h.apart z y' x (by omega) hy32' (by rw [hr]; exact hne) g4 (by rw [hr]; exact this) hx').symm).elim
    · have := (inside y' x g1 g2 hx').1
      exact (h1 (h.apart z y x (by omega) hy32 (by rw [hr]; exact hne) h4 (by rw [hr]; exact this) hx).symm).elim
    · exact h.apart y y' x hy32 hy32' h4 g4 hx hx'
  · obtain ⟨y, hy32, hy, hyx⟩ := hx
    rcases leaf y hy32 hy with ⟨h1, h2, h3⟩ | ⟨h1, h2, h3, h4⟩
    · rw [h3] at hyx
      obtain ⟨g1, g2⟩ := inside y x h1 h2 hyx
      refine ⟨⟨z, by omega, by rw [hr]; exact hne, by rw [hr]; exact g1⟩, fun hu => ?_⟩
      unfold Under at hu
      omega
    · rw [h3] at hyx
      refine ⟨⟨y, hy32, h4, hyx⟩, fun hu => ?_⟩
      have hz' : Under z r x := by
        have : 2 ^ (32 - len) ≤ 2 ^ (32 - z) := Nat.pow_le_pow_right (by omega) (by omega)
        unfold Under at *
        omega
      exact h1 (h.apart z y x (by omega) hy32 (by rw [hr]; exact hne) h4 (by rw [hr]; exact hz') hyx).symm

/-! ### Codewords -/

/-- Every length is a codeword length (42_setup.md R292, R293). -/
def LengthsOk (ls : List (Option Nat)) : Prop := ∀ len, some len ∈ ls → 1 ≤ len ∧ len ≤ 32

/-- What assigned codewords are: one for each entry, inside its length, over numbers of `P`, and apart. -/
structure AssignedOver (P : Nat → Prop) (ls : List (Option Nat)) (cws : List Word) : Prop where
  length : cws.length = ls.length
  fits : ∀ (i len : Nat) (cw : Word), ls[i]? = some (some len) → cws[i]? = some cw → cw.toNat < 2 ^ len
  inside : ∀ (i len : Nat) (cw : Word) (x : Nat), ls[i]? = some (some len) → cws[i]? = some cw → Covers len cw x → P x
  apart : ∀ (i j len len' : Nat) (cw cw' : Word) (x : Nat), ls[i]? = some (some len) → cws[i]? = some cw → ls[j]? = some (some len') →
    cws[j]? = some cw' → Covers len cw x → Covers len' cw' x → i = j

theorem assigned_none {P : Nat → Prop} {ls : List (Option Nat)} {cws : List Word} (w : Word) (h : AssignedOver P ls cws) :
    AssignedOver P (none :: ls) (w :: cws) := by
  refine ⟨by simp [h.length], ?_, ?_, ?_⟩
  · intro i len cw h1 h2
    cases i with
    | zero => simp at h1
    | succ i => exact h.fits i len cw (by simpa using h1) (by simpa using h2)
  · intro i len cw x h1 h2 hx
    cases i with
    | zero => simp at h1
    | succ i => exact h.inside i len cw x (by simpa using h1) (by simpa using h2) hx
  · intro i j len len' cw cw' x h1 h2 h3 h4 hx hx'
    cases i with
    | zero => simp at h1
    | succ i =>
      cases j with
      | zero => simp at h3
      | succ j =>
        rw [h.apart i j len len' cw cw' x (by simpa using h1) (by simpa using h2) (by simpa using h3) (by simpa using h4) hx hx']

/-- One more codeword, over numbers that none of the others is over. -/
theorem assigned_cons {P Q : Nat → Prop} {ls : List (Option Nat)} {cws : List Word} {len : Nat} {cw : Word}
    (h : AssignedOver Q ls cws) (hQ : ∀ x, Q x → P x ∧ ¬ Covers len cw x) (hfit : cw.toNat < 2 ^ len)
    (hin : ∀ x, Covers len cw x → P x) : AssignedOver P (some len :: ls) (cw :: cws) := by
  refine ⟨by simp [h.length], ?_, ?_, ?_⟩
  · intro i len' cw' h1 h2
    cases i with
    | zero =>
      simp at h1 h2
      rw [← h1, ← h2]
      exact hfit
    | succ i => exact h.fits i len' cw' (by simpa using h1) (by simpa using h2)
  · intro i len' cw' x h1 h2 hx
    cases i with
    | zero =>
      simp at h1 h2
      rw [← h1, ← h2] at hx
      exact hin x hx
    | succ i => exact (hQ x (h.inside i len' cw' x (by simpa using h1) (by simpa using h2) hx)).1
  · intro i j l1 l2 c1 c2 x h1 h2 h3 h4 hx hx'
    cases i with
    | zero =>
      cases j with
      | zero => rfl
      | succ j =>
        simp at h1 h2
        rw [← h1, ← h2] at hx
        exact ((hQ x (h.inside j l2 c2 x (by simpa using h3) (by simpa using h4) hx')).2 hx).elim
    | succ i =>
      cases j with
      | zero =>
        simp at h3 h4
        rw [← h3, ← h4] at hx'
        exact ((hQ x (h.inside i l1 c1 x (by simpa using h1) (by simpa using h2) hx)).2 hx').elim
      | succ j =>
        rw [h.apart i j l1 l2 c1 c2 x (by simpa using h1) (by simpa using h2) (by simpa using h3) (by simpa using h4) hx hx']

theorem lengthsOk_tail {l : Option Nat} {ls : List (Option Nat)} (h : LengthsOk (l :: ls)) : LengthsOk ls :=
  fun len hl => h len (List.mem_cons_of_mem _ hl)

/-- The codewords of the entries after the first. -/
theorem assignCodewords_over : ∀ {ls : List (Option Nat)} {avail : Leaves} {cws : List Word}, LengthsOk ls → LeavesOk avail →
    assignCodewords ls avail = some cws → AssignedOver (Free avail) ls cws
  | [], avail, cws, _, _, h => by
    rw [assignCodewords, Option.some.injEq] at h
    rw [← h]
    exact ⟨rfl, by simp, by simp, by simp⟩
  | none :: ls, avail, cws, hl, ha, h => by
    rw [assignCodewords, Option.map_eq_some_iff] at h
    obtain ⟨more, hm, h⟩ := h
    rw [← h]
    exact assigned_none 0 (assignCodewords_over (lengthsOk_tail hl) ha hm)
  | some len :: ls, avail, cws, hl, ha, h => by
    obtain ⟨hlen1, hlen2⟩ := hl len (List.mem_cons_self ..)
    rw [assignCodewords] at h
    simp only [] at h
    by_cases hz : findLeaf avail len = 0
    · rw [if_pos hz] at h
      cases h
    · rw [if_neg hz, Option.map_eq_some_iff] at h
      obtain ⟨more, hm, h⟩ := h
      obtain ⟨h1, h2⟩ := findLeaf_spec hz
      obtain ⟨hok, hfree⟩ := splitLeaf_ok ha h1 hlen2 h2
      generalize findLeaf avail len = z at *
      obtain ⟨hdvd, hle⟩ := ha.aligned z h2 (by omega)
      have hpos := Nat.two_pow_pos (32 - z)
      have hpow : 2 ^ (32 - len) * 2 ^ len = 2 ^ 32 := by
        rw [← Nat.pow_add]
        congr 1
        omega
      have hfit : avail.getD z 0 / 2 ^ (32 - len) < 2 ^ len := Nat.div_lt_of_lt_mul (by omega)
      have h32 : 2 ^ len ≤ 2 ^ 32 := Nat.pow_le_pow_right (by omega) hlen2
      have hcw : (BitVec.ofNat 32 (avail.getD z 0 / 2 ^ (32 - len))).toNat = avail.getD z 0 / 2 ^ (32 - len) := by
        rw [BitVec.toNat_ofNat, Nat.mod_eq_of_lt (by omega)]
      have hback : avail.getD z 0 / 2 ^ (32 - len) * 2 ^ (32 - len) = avail.getD z 0 :=
        Nat.div_mul_cancel ((Nat.pow_dvd_pow 2 (by omega)).trans hdvd)
      have hcov : ∀ x, Covers len (BitVec.ofNat 32 (avail.getD z 0 / 2 ^ (32 - len))) x ↔ Under len (avail.getD z 0) x := by
        intro x
        unfold Covers
        rw [hcw, hback]
      rw [← h]
      refine assigned_cons (assignCodewords_over (lengthsOk_tail hl) hok hm) (fun x hx => ?_) (by rw [hcw]; exact hfit)
        fun x hx => ?_
      · obtain ⟨g1, g2⟩ := hfree x hx
        exact ⟨g1, fun hc => g2 ((hcov x).1 hc)⟩
      · have hu := (hcov x).1 hx
        refine ⟨z, by omega, h2, ?_⟩
        have : 2 ^ (32 - len) ≤ 2 ^ (32 - z) := Nat.pow_le_pow_right (by omega) (by omega)
        unfold Under at *
        omega

/-- The leaves left by the first codeword. -/
theorem firstLeaves_ok {len : Nat} (hl : len ≤ 32) :
    LeavesOk ((List.range 33).map fun i => if 1 ≤ i ∧ i ≤ len then 2 ^ (32 - i) else 0) ∧
      ∀ x, Free ((List.range 33).map fun i => if 1 ≤ i ∧ i ≤ len then 2 ^ (32 - i) else 0) x → ¬ Under len 0 x := by
  have get : ∀ z, z ≤ 32 → ((List.range 33).map fun i => if 1 ≤ i ∧ i ≤ len then 2 ^ (32 - i) else 0).getD z 0 =
      if 1 ≤ z ∧ z ≤ len then 2 ^ (32 - z) else 0 := by
    intro z hz
    rw [List.getD_eq_getElem _ _ (by simp; omega)]
    simp
  have one : ∀ z, z ≤ 32 → ((List.range 33).map fun i => if 1 ≤ i ∧ i ≤ len then 2 ^ (32 - i) else 0).getD z 0 ≠ 0 →
      1 ≤ z ∧ z ≤ len ∧ ((List.range 33).map fun i => if 1 ≤ i ∧ i ≤ len then 2 ^ (32 - i) else 0).getD z 0 = 2 ^ (32 - z) := by
    intro z hz h
    rw [get z hz] at h ⊢
    by_cases hc : 1 ≤ z ∧ z ≤ len
    · rw [if_pos hc]
      exact ⟨hc.1, hc.2, rfl⟩
    · rw [if_neg hc] at h
      exact (h rfl).elim
  refine ⟨⟨fun z h hz => ?_, fun y z x hy hz h1 h2 hx hx' => ?_⟩, fun x hx hu => ?_⟩
  · obtain ⟨g1, _, g3⟩ := one z hz h
    rw [g3]
    have := pow_halves (z := 0) (y := z) (by omega) hz
    exact ⟨Nat.dvd_refl _, by omega⟩
  · obtain ⟨_, _, g3⟩ := one y hy h1
    obtain ⟨_, _, k3⟩ := one z hz h2
    rw [g3] at hx
    rw [k3] at hx'
    by_contra hn
    unfold Under at hx hx'
    rcases Nat.lt_or_gt_of_ne hn with hlt | hlt
    · have := pow_halves hlt hz
      omega
    · have := pow_halves hlt hy
      omega
  · obtain ⟨z, hz, h, hzx⟩ := hx
    obtain ⟨_, g2, g3⟩ := one z hz h
    rw [g3] at hzx
    have : 2 ^ (32 - len) ≤ 2 ^ (32 - z) := Nat.pow_le_pow_right (by omega) (by omega)
    unfold Under at *
    omega

/-- The codewords of a whole book (42_setup.md R300). -/
theorem computeCodewords_over : ∀ {ls : List (Option Nat)} {cws : List Word}, LengthsOk ls → computeCodewords ls = some cws →
    AssignedOver (fun _ => True) ls cws
  | [], cws, _, h => by
    rw [computeCodewords, Option.some.injEq] at h
    rw [← h]
    exact ⟨rfl, by simp, by simp, by simp⟩
  | none :: ls, cws, hl, h => by
    rw [computeCodewords, Option.map_eq_some_iff] at h
    obtain ⟨more, hm, h⟩ := h
    rw [← h]
    exact assigned_none 0 (computeCodewords_over (lengthsOk_tail hl) hm)
  | some len :: ls, cws, hl, h => by
    obtain ⟨_, hlen⟩ := hl len (List.mem_cons_self ..)
    rw [computeCodewords] at h
    simp only [Option.map_eq_some_iff] at h
    obtain ⟨more, hm, h⟩ := h
    obtain ⟨hok, hfree⟩ := firstLeaves_ok hlen
    rw [← h]
    refine assigned_cons (assignCodewords_over (lengthsOk_tail hl) hok hm) (fun x hx => ⟨trivial, fun hc => hfree x hx ?_⟩)
      (Nat.two_pow_pos len) fun _ _ => trivial
    unfold Covers at hc
    simpa using hc

end Sys2Proof.Machine
end

