-- ==== Sys2Proof/Laws/Reading.lean ====
section
/-! SUPPORT. What reading the source and the packet can do to the machine, said once: a relation that the primitive changes keep
is kept by every reading function. -/

namespace Sys2Proof.Machine

/-- A relation kept by reading a byte of the source (20_memory.md R93). -/
structure Bytes (R : State → State → Prop) : Prop extends Composes R where
  hitEnd : ∀ s, s.src.len ≤ s.src.pos → R s { s with src.eof := true }
  advance : ∀ s, ¬ s.src.len ≤ s.src.pos → R s { s with src.pos := s.src.pos + 1 }

/-- A relation kept by reading bytes and by moving the position (20_memory.md R93, R94). -/
structure Scanning (R : State → State → Prop) : Prop extends Bytes R where
  moveEnd : ∀ s, R s { s with src.pos := s.src.len, src.eof := true }
  move : ∀ s p, ¬ s.src.len ≤ p → R s { s with src.pos := p, src.eof := false }

/-- A relation kept by every primitive change that reading makes (40_bitreader.md, 41_ogg_framer.md). -/
structure Reading (R : State → State → Prop) : Prop extends Bytes R where
  mark : ∀ s, R s { s with src.pageStart := s.src.pos }
  reader : ∀ s r, R s { s with rd := r }
  take : ∀ s, R s { s with cur := takeSegment s.cur }
  which : ∀ s, R s { s with cur.lastSegWhich := (s.cur.segmentCount : Int) - 1 }
  ended : ∀ s, R s { s with cur.lastSeg := true }
  opened : ∀ s, R s { s with cur.lastSeg := false, cur.bytesInSeg := 0 }
  byteTaken : ∀ s, R s { s with cur.bytesInSeg := s.cur.bytesInSeg - 1 }
  latch : ∀ s flag g segs, segs.length ≤ 255 → R s { s with cur := latchPage flag g segs s.cur }
  latchPart : ∀ s flag g segs, segs.length ≤ 255 → R s { s with cur := latchPartialPage flag g segs s.cur }
  noted : ∀ s e, R s (s.setError e)

/-- A relation also kept by moving the position (20_memory.md R94). -/
structure Moving (R : State → State → Prop) : Prop extends Reading R where
  moveEnd : ∀ s, R s { s with src.pos := s.src.len, src.eof := true }
  move : ∀ s p, ¬ s.src.len ≤ p → R s { s with src.pos := p, src.eof := false }

theorem Moving.toScanning {R : State → State → Prop} (F : Moving R) : Scanning R := ⟨F.toBytes, F.moveEnd, F.move⟩

variable {R : State → State → Prop}

/-! ### Values -/

theorem readMany_length {α : Type} {one : M α} : ∀ {n : Nat} {s t : State} {l : List α},
    readMany one n s = .ok l t → l.length = n
  | 0, s, t, l, h => by
    rw [readMany, pure_run] at h
    cases h
    rfl
  | n + 1, s, t, l, h => by
    rw [readMany] at h
    obtain ⟨x, u, _, h⟩ := bind_ok_iff.1 h
    obtain ⟨xs, v, hv, h⟩ := bind_ok_iff.1 h
    rw [pure_run] at h
    cases h
    simp [readMany_length hv]

/-! ### Bytes of the source -/

theorem inByte_keeps (F : Bytes R) : Keeps R inByte := by
  refine keeps_get_bind fun s => ?_
  by_cases h : s.src.len ≤ s.src.pos
  · simp only [if_pos h]
    exact F.hitEnd s h
  · simp only [if_neg h]
    exact F.advance s h

theorem get8_keeps (F : Bytes R) : Keeps R get8 := inByte_keeps F

theorem get32_keeps (F : Bytes R) : Keeps R get32 :=
  keeps_bind F.toComposes (keeps_readMany F.toComposes (get8_keeps F) 4) fun _ => keeps_pure F.toComposes _

theorem get64_keeps (F : Bytes R) : Keeps R get64 :=
  keeps_bind F.toComposes (get32_keeps F) fun _ => keeps_bind F.toComposes (get32_keeps F) fun _ =>
    keeps_pure F.toComposes _

theorem getn_keeps (F : Bytes R) (k : Nat) : Keeps R (getn k) :=
  keeps_bind F.toComposes (keeps_readMany F.toComposes (get8_keeps F) k) fun _ =>
    keeps_bind F.toComposes (keeps_get F.toComposes) fun _ => keeps_pure F.toComposes _

theorem getn_length {k : Nat} {s t : State} {p : List Byte × Bool} (h : getn k s = .ok p t) : p.1.length = k := by
  obtain ⟨bs, u, hb, h⟩ := bind_ok_iff.1 h
  rw [get_bind, pure_run] at h
  cases h
  exact readMany_length hb

theorem setPos_keeps (F : Scanning R) (p : Word) : Keeps R (setPos p) := by
  refine keeps_get_bind fun s => ?_
  by_cases h : s.src.len ≤ p
  · simp only [if_pos h]
    exact F.moveEnd s
  · simp only [if_neg h]
    exact F.move s p h

/-! ### Pages -/

theorem markPageStart_keeps (F : Reading R) : Keeps R markPageStart := fun s => F.mark s

theorem note_keeps (F : Reading R) (e : ErrCode) : Keeps R (note e) := fun s => F.noted s e

theorem setReader_keeps (F : Reading R) (f : BitReader → BitReader) : Keeps R (setReader f) := fun s => F.reader s _

theorem capturePattern_keeps (F : Reading R) : Keeps R capturePattern :=
  keeps_bind F.toComposes (markPageStart_keeps F) fun _ =>
    keeps_bind F.toComposes (keeps_readMany F.toComposes (get8_keeps F.toBytes) 4) fun _ => keeps_pure F.toComposes _

theorem startPageNoCapture_keeps (F : Reading R) : Keeps R startPageNoCapture := by
  have C := F.toComposes
  refine keeps_bind C (get8_keeps F.toBytes) fun _ => keeps_ite (fun _ => keeps_raise C _) fun _ => ?_
  refine keeps_bind C (get8_keeps F.toBytes) fun flag => keeps_bind C (get64_keeps F.toBytes) fun granule => ?_
  refine keeps_bind C (get32_keeps F.toBytes) fun _ => keeps_bind C (get32_keeps F.toBytes) fun _ => ?_
  refine keeps_bind C (get32_keeps F.toBytes) fun _ => keeps_bind C (get8_keeps F.toBytes) fun count => ?_
  intro s
  refine at_bind C (getn_keeps F.toBytes _ s) fun p t hp => ?_
  have hlen : p.1.length ≤ 255 := by
    rw [getn_length hp]
    have := count.isLt
    omega
  obtain ⟨segs, ok⟩ := p
  by_cases h : ok = true
  · simp only [if_pos h]
    exact F.latch t flag granule segs hlen
  · simp only [if_neg h]
    exact F.latchPart t flag granule segs hlen

theorem captureFailed_keeps {α : Type} (F : Reading R) : Keeps R (captureFailed : M α) :=
  keeps_bind F.toComposes (keeps_get F.toComposes) fun _ => keeps_raise F.toComposes _

theorem startPage_keeps (F : Reading R) : Keeps R startPage :=
  keeps_bind F.toComposes (capturePattern_keeps F) fun _ =>
    keeps_ite (fun _ => startPageNoCapture_keeps F) fun _ => captureFailed_keeps F

/-! ### Segments and packets -/

theorem consumeSegment_keeps (F : Reading R) : Keeps R consumeSegment :=
  keeps_bind F.toComposes (fun s => F.take s) fun _ =>
    keeps_bind F.toComposes (keeps_get F.toComposes) fun _ => keeps_pure F.toComposes _

theorem nextSegmentFuel_keeps (F : Reading R) : ∀ fuel, Keeps R (nextSegmentFuel fuel)
  | 0 => keeps_pure F.toComposes _
  | fuel + 1 => by
    have C := F.toComposes
    refine keeps_bind C (keeps_get C) fun s => keeps_ite (fun _ => keeps_pure C _) fun _ => ?_
    refine keeps_ite (fun _ => ?_) fun _ => consumeSegment_keeps F
    refine keeps_bind C (fun s => F.which s) fun _ => keeps_bind C (keeps_attempt (startPage_keeps F)) fun r => ?_
    cases r with
    | error e =>
      exact keeps_bind C (note_keeps F e) fun _ => keeps_bind C (fun s => F.ended s) fun _ => keeps_pure C _
    | ok _ =>
      refine keeps_bind C (keeps_get C) fun t => ?_
      refine keeps_ite (fun _ => keeps_bind C (note_keeps F _) fun _ => keeps_pure C _) fun _ => ?_
      exact keeps_ite (fun _ => nextSegmentFuel_keeps F fuel) fun _ => consumeSegment_keeps F

theorem nextSegment_keeps (F : Reading R) : Keeps R nextSegment :=
  keeps_bind F.toComposes (keeps_get F.toComposes) fun _ => nextSegmentFuel_keeps F _

theorem openPacket_keeps (F : Reading R) : Keeps R openPacket :=
  keeps_bind F.toComposes (fun s => F.opened s) fun _ => setReader_keeps F _

theorem startPacketPages_keeps (F : Reading R) : ∀ fuel, Keeps R (startPacketPages fuel)
  | 0 => keeps_pure F.toComposes _
  | fuel + 1 => by
    have C := F.toComposes
    refine keeps_bind C (keeps_get C) fun s => keeps_ite (fun _ => ?_) fun _ => keeps_pure C _
    refine keeps_bind C (startPage_keeps F) fun _ => keeps_bind C (keeps_get C) fun t => ?_
    exact keeps_ite (fun _ => keeps_raise C _) fun _ => startPacketPages_keeps F fuel

theorem startPacket_keeps (F : Reading R) : Keeps R startPacket :=
  keeps_bind F.toComposes (keeps_get F.toComposes) fun _ =>
    keeps_bind F.toComposes (startPacketPages_keeps F _) fun _ => openPacket_keeps F

theorem startPacketOrEnd_keeps (F : Reading R) : Keeps R startPacketOrEnd := by
  have C := F.toComposes
  refine keeps_bind C (keeps_attempt (startPacket_keeps F)) fun r => ?_
  cases r with
  | ok _ => exact keeps_pure C _
  | error e => exact keeps_bind C (keeps_get C) fun s => keeps_ite (fun _ => keeps_pure C _) fun _ => keeps_raise C _

theorem captureRest_keeps (F : Bytes R) : ∀ l, Keeps R (captureRest l)
  | [] => keeps_pure F.toComposes _
  | _ :: bs => keeps_bind F.toComposes (get8_keeps F) fun _ =>
    keeps_ite (fun _ => captureRest_keeps F bs) fun _ => keeps_pure F.toComposes _

theorem maybeStartPacket_keeps (F : Reading R) : Keeps R maybeStartPacket := by
  have C := F.toComposes
  refine keeps_bind C (keeps_get C) fun s => keeps_ite (fun _ => ?_) fun _ =>
    keeps_bind C (startPacket_keeps F) fun _ => keeps_pure C _
  refine keeps_bind C (markPageStart_keeps F) fun _ => keeps_bind C (get8_keeps F.toBytes) fun x => ?_
  refine keeps_bind C (keeps_get C) fun t => keeps_ite (fun _ => keeps_pure C _) fun _ => ?_
  refine keeps_ite (fun _ => keeps_raise C _) fun _ => keeps_bind C (captureRest_keeps F.toBytes _) fun found => ?_
  refine keeps_ite (fun _ => captureFailed_keeps F) fun _ => keeps_bind C (startPageNoCapture_keeps F) fun _ => ?_
  refine keeps_bind C (keeps_get C) fun u => keeps_ite (fun _ => ?_) fun _ => ?_
  · exact keeps_bind C (fun s => F.opened s) fun _ => keeps_raise C _
  · exact startPacketOrEnd_keeps F

/-! ### The page scan -/

theorem scanPage_keeps (F : Scanning R) (retry : Word) : Keeps R (scanPage retry) := by
  have G := F.toBytes
  have C := G.toComposes
  refine keeps_bind C (keeps_readMany C (get8_keeps G) 23) fun rest => keeps_bind C (keeps_get C) fun s => ?_
  refine keeps_ite (fun _ => keeps_pure C _) fun _ => keeps_ite (fun _ => keeps_pure C _) fun _ => ?_
  refine keeps_bind C (keeps_readMany C (get8_keeps G) _) fun segs => ?_
  refine keeps_bind C (keeps_readMany C (get8_keeps G) _) fun body => keeps_bind C (keeps_get C) fun t => ?_
  refine keeps_ite (fun _ => keeps_pure C _) fun _ => keeps_ite (fun _ => ?_) fun _ => keeps_pure C _
  exact keeps_bind C (setPos_keeps F _) fun _ => keeps_pure C _

theorem findPageFuel_keeps (F : Scanning R) : ∀ fuel, Keeps R (findPageFuel fuel)
  | 0 => keeps_pure F.toComposes _
  | fuel + 1 => by
    have G := F.toBytes
    have C := G.toComposes
    refine keeps_bind C (keeps_get C) fun s => keeps_ite (fun _ => keeps_pure C _) fun _ => ?_
    refine keeps_bind C (get8_keeps G) fun x => keeps_ite (fun _ => findPageFuel_keeps F fuel) fun _ => ?_
    refine keeps_bind C (keeps_get C) fun t => keeps_bind C (captureRest_keeps G _) fun captured => ?_
    refine keeps_bind C (keeps_get C) fun u => keeps_ite (fun _ => keeps_pure C _) fun _ => ?_
    refine keeps_bind C (keeps_readIf C (scanPage_keeps F _) _) fun r => ?_
    cases r with
    | notFound => exact keeps_pure C _
    | found page => exact keeps_pure C _
    | again => exact keeps_bind C (setPos_keeps F _) fun _ => findPageFuel_keeps F fuel

theorem findPage_keeps (F : Scanning R) : Keeps R findPage :=
  keeps_bind F.toComposes (keeps_get F.toComposes) fun _ => findPageFuel_keeps F _

/-! ### Packet bytes and bits -/

theorem takePacketByte_keeps (F : Reading R) : Keeps R takePacketByte := by
  have C := F.toComposes
  refine keeps_bind C (fun s => F.byteTaken s) fun _ => keeps_bind C (setReader_keeps F _) fun _ => ?_
  refine keeps_bind C (inByte_keeps F.toBytes) fun b => keeps_bind C (keeps_get C) fun s => ?_
  exact keeps_ite (fun _ => keeps_raise C _) fun _ => keeps_pure C _

theorem get8PacketRaw_keeps (F : Reading R) : Keeps R get8PacketRaw := by
  have C := F.toComposes
  refine keeps_bind C (keeps_get C) fun s => keeps_ite (fun _ => ?_) fun _ => takePacketByte_keeps F
  refine keeps_ite (fun _ => keeps_pure C _) fun _ => keeps_bind C (nextSegment_keeps F) fun n => ?_
  exact keeps_ite (fun _ => keeps_pure C _) fun _ => takePacketByte_keeps F

theorem get8Packet_keeps (F : Reading R) : Keeps R get8Packet :=
  keeps_bind F.toComposes (get8PacketRaw_keeps F) fun _ =>
    keeps_bind F.toComposes (setReader_keeps F _) fun _ => keeps_pure F.toComposes _

theorem get32Packet_keeps (F : Reading R) : Keeps R get32Packet :=
  keeps_bind F.toComposes (keeps_readMany F.toComposes (get8Packet_keeps F) 4) fun _ => keeps_pure F.toComposes _

theorem drainPacketFuel_keeps (F : Reading R) : ∀ fuel, Keeps R (drainPacketFuel fuel)
  | 0 => keeps_pure F.toComposes _
  | fuel + 1 => by
    refine keeps_bind F.toComposes (get8PacketRaw_keeps F) fun x => ?_
    cases x with
    | none => exact keeps_pure F.toComposes _
    | some b => exact drainPacketFuel_keeps F fuel

theorem drainPacket_keeps (F : Reading R) : Keeps R drainPacket :=
  keeps_bind F.toComposes (keeps_get F.toComposes) fun _ => drainPacketFuel_keeps F _

theorem flushPacket_keeps (F : Reading R) : Keeps R flushPacket :=
  keeps_bind F.toComposes (drainPacket_keeps F) fun _ => setReader_keeps F _

theorem refill_keeps (F : Reading R) (want : Nat) : ∀ fuel, Keeps R (refill want fuel)
  | 0 => keeps_pure F.toComposes _
  | fuel + 1 => by
    have C := F.toComposes
    refine keeps_bind C (keeps_get C) fun s => keeps_ite (fun _ => keeps_pure C _) fun _ => ?_
    refine keeps_bind C (get8PacketRaw_keeps F) fun x => ?_
    cases x with
    | none => exact keeps_pure C _
    | some b => exact keeps_bind C (setReader_keeps F _) fun _ => refill_keeps F want fuel

theorem takeBits_keeps (F : Reading R) (n : Nat) : Keeps R (takeBits n) :=
  keeps_bind F.toComposes (keeps_get F.toComposes) fun _ =>
    keeps_bind F.toComposes (setReader_keeps F _) fun _ => keeps_pure F.toComposes _

theorem getBitsShort_keeps (F : Reading R) (n : Nat) : Keeps R (getBitsShort n) := by
  have C := F.toComposes
  refine keeps_bind C (keeps_get C) fun s => keeps_ite (fun _ => keeps_pure C _) fun _ => ?_
  refine keeps_bind C (setReader_keeps F _) fun _ => keeps_bind C (refill_keeps F n 5) fun ok => keeps_ite (fun _ => takeBits_keeps F n) fun _ => ?_
  exact keeps_bind C (setReader_keeps F _) fun _ => keeps_pure C _

theorem getBits_keeps (F : Reading R) (n : Nat) : Keeps R (getBits n) := by
  have C := F.toComposes
  refine keeps_bind C (keeps_get C) fun s => keeps_ite (fun _ => ?_) fun _ => getBitsShort_keeps F n
  exact keeps_bind C (getBitsShort_keeps F _) fun _ => keeps_bind C (getBitsShort_keeps F _) fun _ => keeps_pure C _

theorem getFlag_keeps (F : Reading R) : Keeps R getFlag :=
  keeps_bind F.toComposes (getBits_keeps F 1) fun _ => keeps_pure F.toComposes _

theorem lookAhead_keeps (F : Reading R) : Keeps R lookAhead :=
  keeps_bind F.toComposes (refill_keeps F 32 5) fun _ =>
    keeps_bind F.toComposes (keeps_get F.toComposes) fun _ => keeps_pure F.toComposes _

theorem decodeScalar_keeps (F : Reading R) (b : Nat) : Keeps R (decodeScalar b) := by
  have C := F.toComposes
  refine keeps_bind C (keeps_get C) fun s => keeps_ite (fun _ => keeps_pure C _) fun _ => ?_
  refine keeps_bind C (lookAhead_keeps F) fun avail => keeps_bind C (keeps_get C) fun t => ?_
  cases findEntry t.rd avail (s.tab.codebook b).lengths (s.tab.codebook b).codewords 0 with
  | none => exact keeps_bind C (note_keeps F _) fun _ => keeps_pure C _
  | some p =>
    obtain ⟨e, len⟩ := p
    refine keeps_ite (fun _ => keeps_bind C (setReader_keeps F _) fun _ => keeps_pure C _) fun _ => ?_
    exact keeps_bind C (setReader_keeps F _) fun _ => keeps_pure C _

/-! ### What reading leaves alone -/

/-- The machine with what reading can change taken out. -/
def readView (s : State) : State :=
  { s with
    rd := BitReader.reset, cur := PageCursor.reset
    src := { s.src with pos := 0, eof := false, pageStart := 0 }
    ctl := { s.ctl with error := 0 } }

theorem readView_moving : Moving (Same readView) where
  toComposes := same_composes readView
  hitEnd _ _ := rfl
  advance _ _ := rfl
  mark _ := rfl
  reader _ _ := rfl
  take _ := rfl
  which _ := rfl
  ended _ := rfl
  opened _ := rfl
  byteTaken _ := rfl
  latch _ _ _ _ _ := rfl
  latchPart _ _ _ _ _ := rfl
  noted _ _ := rfl
  moveEnd _ := rfl
  move _ _ _ := rfl

theorem readView_reading : Reading (Same readView) := readView_moving.toReading

end Sys2Proof.Machine
end

