-- ==== Sys2Proof/Laws/Decoding.lean ====
section
/-! SUPPORT. What decoding an audio packet can do to the machine, said once for every relation its primitive changes keep. -/

namespace Sys2Proof.Machine

/-- A relation kept by reading and by every change of the working buffers but the retained half-window, which only the overlap-add
writes. -/
structure Decoding (R : State → State → Prop) : Prop extends Reading R where
  work : ∀ s w, w.previousWindow = s.work.previousWindow → R s { s with work := w }

/-- A relation also kept by the sample-position bookkeeping (48_frame_control.md R524). -/
structure Booking (R : State → State → Prop) : Prop extends Decoding R where
  booked : ∀ s n g, R s { s with ctl := (bookkeeping s.cur n g s.ctl).2 }

variable {R : State → State → Prop}

theorem setWork_keeps (F : Decoding R) {f : Work → Work} (h : ∀ w, (f w).previousWindow = w.previousWindow) :
    Keeps R (setWork f) := fun s => F.work s _ (h _)

/-! ### What no stage writes -/

theorem addVector_window (cb : Codebook) (lt : LookupType) (e : Nat) : ∀ slots i prev (w : Work),
    (addVector cb lt e slots i prev w).previousWindow = w.previousWindow
  | [], _, _, _ => rfl
  | none :: rest, _, _, _ => addVector_window cb lt e rest _ _ _
  | some _ :: rest, _, _, _ => addVector_window cb lt e rest _ _ _

theorem foldl_window {γ : Type} {f : Work → γ → Work} (h : ∀ w x, (f w x).previousWindow = w.previousWindow) : ∀ (l : List γ) w,
    (l.foldl f w).previousWindow = w.previousWindow
  | [], _ => rfl
  | x :: l, w => (foldl_window h l (f w x)).trans (h w x)

theorem clearSpectrum_window (n2 : Nat) (w : Work) (ch : Nat) : (clearSpectrum n2 w ch).previousWindow = w.previousWindow := rfl

theorem clearSubmap_window (map : Mapping) (channels n2 : Nat) (w : Work) (submap : Nat) :
    (clearSubmap map channels n2 w submap).previousWindow = w.previousWindow := foldl_window (clearSpectrum_window n2) _ w

theorem synthesize_window (t : Tables) (map : Mapping) (n : Nat) (w : Work) :
    (synthesize t map n w).previousWindow = w.previousWindow := by
  refine (foldl_window (fun w ch => ?_) _ _).trans
    (foldl_window (f := inverseCouple (n / 2)) (fun _ _ => rfl) _ _)
  unfold renderChannel
  split <;> rfl

/-! ### Vectors and floors -/

theorem decodeVqAs_keeps (F : Decoding R) (lt : LookupType) (b : Nat) (slots : List (Option (Nat × Nat))) :
    Keeps R (decodeVqAs lt b slots) := by
  have G := F.toReading
  have C := G.toComposes
  have go : ∀ lt' : LookupType, Keeps R (do
      let r ← decodeScalar b
      match r with
      | .entry e =>
        let s ← get
        setWork (addVector (s.tab.codebook b) lt' e slots 0 0)
        pure (Scalar.entry e)
      | other => pure other) := by
    intro lt'
    refine keeps_bind C (decodeScalar_keeps G b) fun r => ?_
    cases r with
    | entry e =>
      exact keeps_bind C (keeps_get C) fun s => keeps_bind C (setWork_keeps F (addVector_window _ _ _ _ _ _)) fun _ => keeps_pure C _
    | eop => exact keeps_pure C _
    | noMatch => exact keeps_pure C _
  cases lt with
  | none => exact keeps_bind C (note_keeps G _) fun _ => keeps_pure C _
  | lattice => exact go .lattice
  | direct => exact go .direct

theorem decodeVq_keeps (F : Decoding R) (b : Nat) (slots : List (Option (Nat × Nat))) : Keeps R (decodeVq b slots) :=
  keeps_bind F.toComposes (keeps_get F.toComposes) fun _ => decodeVqAs_keeps F _ _ _

theorem setFinalY_keeps (F : Decoding R) (ch j : Nat) (v : Int) : Keeps R (setFinalY ch j v) := setWork_keeps F fun _ => rfl

theorem setZeroChannel_keeps (F : Decoding R) (ch : Nat) (v : Bool) : Keeps R (setZeroChannel ch v) := setWork_keeps F fun _ => rfl

theorem floorDims_keeps (F : Decoding R) (ch : Nat) (cls : FloorClass) : ∀ n cval offset,
    Keeps R (floorDims ch cls n cval offset)
  | 0, _, _ => keeps_pure F.toComposes _
  | n + 1, cval, offset => by
    have C := F.toComposes
    refine keeps_ite (fun _ => ?_) fun _ => ?_
    · refine keeps_bind C (decodeScalar_keeps F.toReading _) fun r => ?_
      cases r with
      | entry t => exact keeps_bind C (setFinalY_keeps F _ _ _) fun _ => floorDims_keeps F ch cls n _ _
      | eop => exact keeps_pure C _
      | noMatch => exact keeps_pure C _
    · exact keeps_bind C (setFinalY_keeps F _ _ _) fun _ => floorDims_keeps F ch cls n _ _

theorem floorClassValue_keeps (F : Decoding R) (cls : FloorClass) : Keeps R (floorClassValue cls) := by
  have C := F.toComposes
  refine keeps_ite (fun _ => keeps_pure C _) fun _ => keeps_bind C (decodeScalar_keeps F.toReading _) fun r => ?_
  cases r <;> exact keeps_pure C _

theorem floorPartitions_keeps (F : Decoding R) (ch : Nat) (fl : Floor) : ∀ l offset,
    Keeps R (floorPartitions ch fl l offset)
  | [], _ => keeps_pure F.toComposes _
  | c :: rest, offset => by
    have C := F.toComposes
    refine keeps_bind C (floorClassValue_keeps F _) fun cval => ?_
    cases cval with
    | none => exact keeps_pure C _
    | some v =>
      refine keeps_bind C (floorDims_keeps F ch _ _ _ _) fun ok => ?_
      exact keeps_ite (fun _ => floorPartitions_keeps F ch fl rest _) fun _ => keeps_pure C _

theorem floor1Decode_keeps (F : Decoding R) (ch : Nat) (fl : Floor) : Keeps R (floor1Decode ch fl) := by
  have C := F.toComposes
  have G := F.toReading
  refine keeps_bind C (getBits_keeps G 1) fun nonzero => keeps_ite (fun _ => setZeroChannel_keeps F _ _) fun _ => ?_
  refine keeps_bind C (getBits_keeps G _) fun y0 => keeps_bind C (setFinalY_keeps F _ _ _) fun _ => ?_
  refine keeps_bind C (getBits_keeps G _) fun y1 => keeps_bind C (setFinalY_keeps F _ _ _) fun _ => ?_
  refine keeps_bind C (floorPartitions_keeps F ch fl _ _) fun ok => keeps_bind C (keeps_get C) fun s => ?_
  refine keeps_ite (fun _ => ?_) fun _ => setZeroChannel_keeps F _ _
  exact keeps_bind C (setWork_keeps F fun _ => rfl) fun _ => setZeroChannel_keeps F _ _

/-! ### Residues -/

theorem partitionStrided_keeps (F : Decoding R) (b : Nat) (lane : Lane) (off step dim : Nat) : ∀ n k,
    Keeps R (partitionStrided b lane off step dim n k)
  | 0, _ => keeps_pure F.toComposes _
  | n + 1, k => by
    refine keeps_bind F.toComposes (decodeVq_keeps F _ _) fun r => ?_
    cases r with
    | entry e => exact partitionStrided_keeps F b lane off step dim n (k + 1)
    | eop => exact keeps_pure F.toComposes _
    | noMatch => exact keeps_pure F.toComposes _

theorem partitionContiguous_keeps (F : Decoding R) (b : Nat) (lane : Lane) (off size dim : Nat) : ∀ n k,
    Keeps R (partitionContiguous b lane off size dim n k)
  | 0, _ => keeps_pure F.toComposes _
  | n + 1, k => by
    refine keeps_ite (fun _ => keeps_pure F.toComposes _) fun _ =>
      keeps_bind F.toComposes (decodeVq_keeps F _ _) fun r => ?_
    cases r with
    | entry e => exact partitionContiguous_keeps F b lane off size dim n (k + dim)
    | eop => exact keeps_pure F.toComposes _
    | noMatch => exact keeps_pure F.toComposes _

theorem partitionVq_keeps (F : Decoding R) (ty : ResidueType) (b : Nat) (lane : Lane) (off size : Nat) :
    Keeps R (partitionVq ty b lane off size) := by
  refine keeps_bind F.toComposes (keeps_get F.toComposes) fun s => ?_
  cases ty with
  | type0 => exact partitionStrided_keeps F _ _ _ _ _ _ _
  | type1 => exact partitionContiguous_keeps F _ _ _ _ _ _ _
  | type2 => exact partitionContiguous_keeps F _ _ _ _ _ _ _

theorem readClasses_keeps (F : Decoding R) (res : Residue) : ∀ l, Keeps R (readClasses res l)
  | [] => keeps_pure F.toComposes _
  | _ :: rest => by
    refine keeps_bind F.toComposes (decodeScalar_keeps F.toReading _) fun q => ?_
    cases q with
    | entry e =>
      refine keeps_bind F.toComposes (readClasses_keeps F res rest) fun more => ?_
      cases more <;> exact keeps_pure F.toComposes _
    | eop => exact keeps_pure F.toComposes _
    | noMatch => exact keeps_pure F.toComposes _

theorem decodePartition_keeps (F : Decoding R) (rc : ResidueCall) (pass p i : Nat) : ∀ l,
    Keeps R (decodePartition rc pass p i l)
  | [] => keeps_pure F.toComposes _
  | (lane, classes) :: rest => by
    refine keeps_ite (fun _ => ?_) fun _ => decodePartition_keeps F rc pass p i rest
    refine keeps_bind F.toComposes (partitionVq_keeps F _ _ _ _ _) fun ok => ?_
    exact keeps_ite (fun _ => decodePartition_keeps F rc pass p i rest) fun _ => keeps_pure F.toComposes _

theorem decodeGroup_keeps (F : Decoding R) (rc : ResidueCall) (pass p : Nat) (lanes : List (Lane × List Nat)) :
    ∀ n i, Keeps R (decodeGroup rc pass p lanes n i)
  | 0, _ => keeps_pure F.toComposes _
  | n + 1, i => by
    refine keeps_ite (fun _ => keeps_pure F.toComposes _) fun _ => ?_
    refine keeps_bind F.toComposes (decodePartition_keeps F rc _ _ _ _) fun ok => ?_
    exact keeps_ite (fun _ => decodeGroup_keeps F rc pass p lanes n (i + 1)) fun _ => keeps_pure F.toComposes _

theorem firstPass_keeps (F : Decoding R) (rc : ResidueCall) : ∀ fuel p, Keeps R (firstPass rc fuel p)
  | 0, _ => keeps_pure F.toComposes _
  | fuel + 1, p => by
    have C := F.toComposes
    refine keeps_ite (fun _ => keeps_pure C _) fun _ => ?_
    refine keeps_bind C (readClasses_keeps F _ _) fun classes => ?_
    cases classes with
    | none => exact keeps_pure C _
    | some cs =>
      refine keeps_bind C (decodeGroup_keeps F rc _ _ _ _ _) fun ok => ?_
      refine keeps_ite (fun _ => ?_) fun _ => keeps_pure C _
      refine keeps_bind C (firstPass_keeps F rc fuel _) fun more => ?_
      cases more <;> exact keeps_pure C _

theorem laterPass_keeps (F : Decoding R) (rc : ResidueCall) (pass : Nat) : ∀ gs p, Keeps R (laterPass rc pass gs p)
  | [], _ => keeps_pure F.toComposes _
  | cs :: gs, p => by
    refine keeps_bind F.toComposes (decodeGroup_keeps F rc _ _ _ _ _) fun ok => ?_
    exact keeps_ite (fun _ => laterPass_keeps F rc pass gs _) fun _ => keeps_pure F.toComposes _

theorem laterPasses_keeps (F : Decoding R) (rc : ResidueCall) (groups : List (List (List Nat))) : ∀ l,
    Keeps R (laterPasses rc groups l)
  | [] => keeps_pure F.toComposes _
  | pass :: rest => by
    refine keeps_bind F.toComposes (laterPass_keeps F rc _ _ _) fun ok => ?_
    exact keeps_ite (fun _ => laterPasses_keeps F rc groups rest) fun _ => keeps_pure F.toComposes _

theorem residuePasses_keeps (F : Decoding R) (rc : ResidueCall) : Keeps R (residuePasses rc) := by
  refine keeps_ite (fun _ => keeps_pure F.toComposes _) fun _ => ?_
  refine keeps_bind F.toComposes (firstPass_keeps F rc _ _) fun groups => ?_
  cases groups with
  | some gs => exact laterPasses_keeps F rc gs _
  | none => exact keeps_pure F.toComposes _

theorem residueDecodeAs_keeps (F : Decoding R) (ty : ResidueType) (map : Mapping) (submap n2 : Nat) :
    Keeps R (residueDecodeAs ty map submap n2) :=
  keeps_bind F.toComposes (keeps_get F.toComposes) fun _ =>
    keeps_bind F.toComposes (setWork_keeps F fun w => foldl_window (clearSpectrum_window n2) _ w) fun _ => residuePasses_keeps F _

theorem residueDecode_keeps (F : Decoding R) (map : Mapping) (n2 submap : Nat) : Keeps R (residueDecode map n2 submap) :=
  keeps_bind F.toComposes (keeps_get F.toComposes) fun _ => residueDecodeAs_keeps F _ _ _ _

theorem decodeResidues_keeps (F : Decoding R) (map : Mapping) (n2 : Nat) : ∀ l, Keeps R (decodeResidues map n2 l)
  | [] => keeps_pure F.toComposes _
  | submap :: rest => by
    have C := F.toComposes
    refine keeps_bind C (residueDecode_keeps F _ _ _) fun ok => keeps_ite (fun _ => decodeResidues_keeps F map n2 rest) fun _ => ?_
    exact keeps_bind C (keeps_get C) fun s => setWork_keeps F fun w =>
      foldl_window (clearSubmap_window map s.tab.channels n2) rest w

/-! ### The whole packet -/

theorem decodeFloors_keeps (F : Decoding R) (map : Mapping) (l : List Nat) : Keeps R (decodeFloors map l) :=
  keeps_forEach F.toComposes (fun ch => keeps_bind F.toComposes (keeps_get F.toComposes) fun _ =>
    floor1Decode_keeps F ch _) l

theorem decodeMode_keeps (F : Booking R) (mode : ModeEntry) : Keeps R (decodeMode mode) := by
  have D := F.toDecoding
  have G := D.toReading
  have C := G.toComposes
  refine keeps_bind C (keeps_get C) fun s => ?_
  refine keeps_bind C (keeps_readIf C (getFlag_keeps G) _) fun prev => ?_
  refine keeps_bind C (keeps_readIf C (getFlag_keeps G) _) fun next => ?_
  refine keeps_bind C (decodeFloors_keeps D _ _) fun _ => keeps_bind C (setWork_keeps D fun _ => rfl) fun _ => ?_
  refine keeps_bind C (decodeResidues_keeps D _ _ _) fun _ => ?_
  refine keeps_bind C (setWork_keeps D (synthesize_window _ _ _)) fun _ => keeps_bind C (flushPacket_keeps G) fun _ => ?_
  exact keeps_get_bind fun u => F.booked u _ _

theorem audioBody_keeps (F : Booking R) : Keeps R audioBody := by
  have G := F.toReading
  have C := G.toComposes
  refine keeps_bind C (keeps_get C) fun s => keeps_bind C (getBits_keeps G _) fun i => ?_
  cases s.tab.modes[i]? with
  | none => exact keeps_bind C (flushPacket_keeps G) fun _ => keeps_raise C _
  | some mode => exact decodeMode_keeps F mode

theorem decodePacketFuel_keeps (F : Booking R) : ∀ fuel, Keeps R (decodePacketFuel fuel)
  | 0 => keeps_pure F.toComposes _
  | fuel + 1 => by
    have G := F.toReading
    have C := G.toComposes
    refine keeps_bind C (maybeStartPacket_keeps G) fun more => keeps_ite (fun _ => keeps_pure C _) fun _ => ?_
    refine keeps_bind C (getBits_keeps G 1) fun v => ?_
    have skip : Keeps R (do
        let s ← get
        if s.ctl.api = .push then raise .badPacketType
        else
          flushPacket
          decodePacketFuel fuel : M (Option Frame)) := by
      refine keeps_bind C (keeps_get C) fun s => keeps_ite (fun _ => keeps_raise C _) fun _ => ?_
      exact keeps_bind C (flushPacket_keeps G) fun _ => decodePacketFuel_keeps F fuel
    simp only [decodePoint]
    by_cases hv : v = 0
    · rw [if_pos hv]
      exact keeps_bind C (audioBody_keeps F) fun f => keeps_pure C _
    · rw [if_neg hv]
      exact skip

theorem decodePacket_keeps (F : Booking R) : Keeps R decodePacket :=
  keeps_bind F.toComposes (keeps_get F.toComposes) fun _ => decodePacketFuel_keeps F _

/-! ### What decoding leaves alone -/

/-- The machine with what decoding a packet can change taken out. -/
def audioView (s : State) : State :=
  { s with
    rd := BitReader.reset, cur := PageCursor.reset
    src := { s.src with pos := 0, eof := false, pageStart := 0 }
    work := { Work.reset with previousWindow := s.work.previousWindow }
    ctl := { s.ctl with
      error := 0, currentLoc := 0, currentLocValid := false, discardSamplesDeferred := 0, firstDecode := false } }

theorem discardStart_fields (c : Control) (n : Nat) (g : Geometry) :
    { (discardStart c n g).1 with
      error := 0, currentLoc := 0, currentLocValid := false, discardSamplesDeferred := 0, firstDecode := false } =
    { c with
      error := 0, currentLoc := 0, currentLocValid := false, discardSamplesDeferred := 0, firstDecode := false } := by
  unfold discardStart
  split
  · rfl
  · split
    · split <;> rfl
    · rfl

/-- The bookkeeping writes the position, its validity, the deferred discard and the priming flag, and nothing else. -/
theorem bookkeeping_fields (cur : PageCursor) (n : Nat) (g : Geometry) (c : Control) :
    { (bookkeeping cur n g c).2 with
      error := 0, currentLoc := 0, currentLocValid := false, discardSamplesDeferred := 0, firstDecode := false } =
    { c with
      error := 0, currentLoc := 0, currentLocValid := false, discardSamplesDeferred := 0, firstDecode := false } := by
  rw [← discardStart_fields c n g]
  unfold bookkeeping advanceLoc
  simp only []
  split
  · split
    · rfl
    · split <;> rfl
  · split <;> rfl

theorem audioView_booking : Booking (Same audioView) where
  toComposes := same_composes audioView
  hitEnd _ _ := rfl
  advance _ _ := rfl
  mark _ := rfl
  reader _ _ := rfl
  take _ := rfl
  which _ := rfl
  ended _ := rfl
  opened _ := rfl
  byteTaken _ := rfl
  latch _ _ _ _ _ := rfl
  latchPart _ _ _ _ _ := rfl
  noted _ _ := rfl
  work s w h := by
    show audioView _ = audioView _
    simp only [audioView, h]
  booked s n g := by
    show audioView _ = audioView _
    simp only [audioView, bookkeeping_fields]

end Sys2Proof.Machine
end

