-- ==== Sys2Proof/Laws/Raising.lean ====
section
/-! SUPPORT. Which error codes the datapath steps can raise. -/

namespace Sys2Proof.Machine

/-- The codes the framer and the packet reader raise (41_ogg_framer.md R232 to R242, 40_bitreader.md R213). -/
def FramerCode (e : ErrCode) : Prop :=
  e = .missingCapturePattern ∨ e = .invalidStreamStructureVersion ∨ e = .continuedPacketFlagInvalid ∨ e = .unexpectedEof

/-- No code at all. -/
def NoCode (_ : ErrCode) : Prop := False

/-- The codes decoding an audio packet raises (48_frame_control.md R520). -/
def AudioCode (e : ErrCode) : Prop := FramerCode e ∨ e = .invalidStream ∨ e = .badPacketType

/-- The codes reading the headers raises (60_exceptions.md R602, R603). -/
def OpenCode (e : ErrCode) : Prop := e.classIn true = .setup ∨ e.classIn true = .resource

theorem framer_audio {e : ErrCode} (h : FramerCode e) : AudioCode e := Or.inl h

theorem framer_open {e : ErrCode} (h : FramerCode e) : OpenCode e := by
  rcases h with rfl | rfl | rfl | rfl <;> exact Or.inl rfl

/-- Every code of audio decoding is of the stream class there (60_exceptions.md R601). -/
theorem audio_class {e : ErrCode} (h : AudioCode e) : e.classIn false = .stream := by
  rcases h with (rfl | rfl | rfl | rfl) | rfl | rfl <;> rfl

variable {E : ErrCode → Prop}

theorem raises_never {α : Type} {m : M α} (h : Raises NoCode m) : Raises E m := h.mono fun _ hf => hf.elim

theorem note_raises (e : ErrCode) : Raises NoCode (note e) := raises_modify _

theorem inByte_raises : Raises NoCode inByte := by
  refine raises_bind raises_get fun s => raises_ite (fun _ => ?_) fun _ => ?_
  · exact raises_bind (raises_modify _) fun _ => raises_pure _
  · exact raises_bind (raises_modify _) fun _ => raises_pure _

theorem get8_raises : Raises NoCode get8 := inByte_raises

theorem get32_raises : Raises NoCode get32 := raises_bind (raises_readMany get8_raises 4) fun _ => raises_pure _

theorem get64_raises : Raises NoCode get64 := raises_bind get32_raises fun _ => raises_bind get32_raises fun _ => raises_pure _

theorem getn_raises (k : Nat) : Raises NoCode (getn k) :=
  raises_bind (raises_readMany get8_raises k) fun _ => raises_bind raises_get fun _ => raises_pure _

theorem setPos_raises (p : Word) : Raises NoCode (setPos p) := by
  refine raises_bind raises_get fun s => raises_ite (fun _ => ?_) fun _ => ?_
  · exact raises_bind (raises_modify _) fun _ => raises_pure _
  · exact raises_bind (raises_modify _) fun _ => raises_pure _

theorem capturePattern_raises : Raises NoCode capturePattern :=
  raises_bind (raises_modify _) fun _ => raises_bind (raises_readMany get8_raises 4) fun _ => raises_pure _

theorem startPageNoCapture_raises : Raises FramerCode startPageNoCapture := by
  refine raises_bind (raises_never get8_raises) fun _ => raises_ite (fun _ => raises_raise (by simp [FramerCode])) fun _ => ?_
  refine raises_bind (raises_never get8_raises) fun _ => raises_bind (raises_never get64_raises) fun _ => ?_
  refine raises_bind (raises_never get32_raises) fun _ => raises_bind (raises_never get32_raises) fun _ => ?_
  refine raises_bind (raises_never get32_raises) fun _ => raises_bind (raises_never get8_raises) fun _ => ?_
  refine raises_bind (raises_never (getn_raises _)) fun p => ?_
  refine raises_ite (fun _ => raises_modify _) fun _ => raises_bind (raises_modify _) fun _ => ?_
  exact raises_raise (by simp [FramerCode])

theorem captureFailed_raises {α : Type} : Raises FramerCode (captureFailed : M α) :=
  raises_bind raises_get fun s => by
    cases s.captureCut && Config.cutCaptureIsEof <;> exact raises_raise (by simp [FramerCode])

theorem startPage_raises : Raises FramerCode startPage :=
  raises_bind (raises_never capturePattern_raises) fun _ =>
    raises_ite (fun _ => startPageNoCapture_raises) fun _ => captureFailed_raises

theorem consumeSegment_raises : Raises NoCode consumeSegment :=
  raises_bind (raises_modify _) fun _ => raises_bind raises_get fun _ => raises_pure _

theorem nextSegmentFuel_raises : ∀ fuel, Raises NoCode (nextSegmentFuel fuel)
  | 0 => raises_pure _
  | fuel + 1 => by
    refine raises_bind raises_get fun s => raises_ite (fun _ => raises_pure _) fun _ => ?_
    refine raises_ite (fun _ => ?_) fun _ => consumeSegment_raises
    refine raises_bind (raises_modify _) fun _ => raises_bind (raises_attempt _) fun r => ?_
    cases r with
    | error e => exact raises_bind (note_raises e) fun _ => raises_bind (raises_modify _) fun _ => raises_pure _
    | ok _ =>
      refine raises_bind raises_get fun t => ?_
      refine raises_ite (fun _ => raises_bind (note_raises _) fun _ => raises_pure _) fun _ => ?_
      exact raises_ite (fun _ => nextSegmentFuel_raises fuel) fun _ => consumeSegment_raises

theorem nextSegment_raises : Raises NoCode nextSegment := raises_bind raises_get fun _ => nextSegmentFuel_raises _

theorem startPacketPages_raises : ∀ fuel, Raises FramerCode (startPacketPages fuel)
  | 0 => raises_pure _
  | fuel + 1 => by
    refine raises_bind raises_get fun s => raises_ite (fun _ => ?_) fun _ => raises_pure _
    refine raises_bind startPage_raises fun _ => raises_bind raises_get fun t => ?_
    exact raises_ite (fun _ => raises_raise (by simp [FramerCode])) fun _ => startPacketPages_raises fuel

theorem openPacket_raises : Raises NoCode openPacket := raises_bind (raises_modify _) fun _ => raises_modify _

theorem startPacket_raises : Raises FramerCode startPacket :=
  raises_bind raises_get fun _ => raises_bind (startPacketPages_raises _) fun _ => raises_never openPacket_raises

theorem startPacketOrEnd_raises : Raises FramerCode startPacketOrEnd := by
  refine raises_attempt_bind startPacket_raises fun r hr => ?_
  cases r with
  | ok _ => exact raises_pure _
  | error e => exact raises_bind raises_get fun s => raises_ite (fun _ => raises_pure _) fun _ => raises_raise (hr e rfl)

theorem captureRest_raises : ∀ l, Raises NoCode (captureRest l)
  | [] => raises_pure _
  | _ :: bs => raises_bind get8_raises fun _ => raises_ite (fun _ => captureRest_raises bs) fun _ => raises_pure _

theorem maybeStartPacket_raises : Raises FramerCode maybeStartPacket := by
  refine raises_bind raises_get fun s => raises_ite (fun _ => ?_) fun _ =>
    raises_bind startPacket_raises fun _ => raises_pure _
  refine raises_bind (raises_modify _) fun _ => raises_bind (raises_never get8_raises) fun x => ?_
  refine raises_bind raises_get fun t => raises_ite (fun _ => raises_pure _) fun _ => ?_
  refine raises_ite (fun _ => raises_raise (by simp [FramerCode])) fun _ =>
    raises_bind (raises_never (captureRest_raises _)) fun found => ?_
  refine raises_ite (fun _ => captureFailed_raises) fun _ =>
    raises_bind startPageNoCapture_raises fun _ => ?_
  refine raises_bind raises_get fun u => raises_ite (fun _ => ?_) fun _ => ?_
  · exact raises_bind (raises_modify _) fun _ => raises_raise (by simp [FramerCode])
  · exact startPacketOrEnd_raises

theorem scanPage_raises (retry : Word) : Raises NoCode (scanPage retry) := by
  refine raises_bind (raises_readMany get8_raises 23) fun rest => raises_bind raises_get fun s => ?_
  refine raises_ite (fun _ => raises_pure _) fun _ => raises_ite (fun _ => raises_pure _) fun _ => ?_
  refine raises_bind (raises_readMany get8_raises _) fun segs => ?_
  refine raises_bind (raises_readMany get8_raises _) fun body => raises_bind raises_get fun t => ?_
  refine raises_ite (fun _ => raises_pure _) fun _ => raises_ite (fun _ => ?_) fun _ => raises_pure _
  exact raises_bind (setPos_raises _) fun _ => raises_pure _

theorem findPageFuel_raises : ∀ fuel, Raises NoCode (findPageFuel fuel)
  | 0 => raises_pure _
  | fuel + 1 => by
    refine raises_bind raises_get fun s => raises_ite (fun _ => raises_pure _) fun _ => ?_
    refine raises_bind get8_raises fun x => raises_ite (fun _ => findPageFuel_raises fuel) fun _ => ?_
    refine raises_bind raises_get fun t => raises_bind (captureRest_raises _) fun captured => ?_
    refine raises_bind raises_get fun u => raises_ite (fun _ => raises_pure _) fun _ => ?_
    refine raises_bind (raises_readIf (scanPage_raises _) _) fun r => ?_
    cases r with
    | notFound => exact raises_pure _
    | found page => exact raises_pure _
    | again => exact raises_bind (setPos_raises _) fun _ => findPageFuel_raises fuel

/-- The page scan never raises. -/
theorem findPage_raises : Raises NoCode findPage := raises_bind raises_get fun _ => findPageFuel_raises _

/-! ### Packet bytes and bits -/

theorem takePacketByte_raises : Raises FramerCode takePacketByte := by
  refine raises_bind (raises_modify _) fun _ => raises_bind (raises_modify _) fun _ => ?_
  refine raises_bind (raises_never inByte_raises) fun b => raises_bind raises_get fun s => ?_
  exact raises_ite (fun _ => raises_raise (by simp [FramerCode])) fun _ => raises_pure _

theorem get8PacketRaw_raises : Raises FramerCode get8PacketRaw := by
  refine raises_bind raises_get fun s => raises_ite (fun _ => ?_) fun _ => takePacketByte_raises
  refine raises_ite (fun _ => raises_pure _) fun _ => raises_bind (raises_never nextSegment_raises) fun n => ?_
  exact raises_ite (fun _ => raises_pure _) fun _ => takePacketByte_raises

theorem get8Packet_raises : Raises FramerCode get8Packet :=
  raises_bind get8PacketRaw_raises fun _ => raises_bind (raises_modify _) fun _ => raises_pure _

theorem get32Packet_raises : Raises FramerCode get32Packet :=
  raises_bind (raises_readMany get8Packet_raises 4) fun _ => raises_pure _

theorem drainPacketFuel_raises : ∀ fuel, Raises FramerCode (drainPacketFuel fuel)
  | 0 => raises_pure _
  | fuel + 1 => by
    refine raises_bind get8PacketRaw_raises fun x => ?_
    cases x with
    | none => exact raises_pure _
    | some b => exact drainPacketFuel_raises fuel

theorem drainPacket_raises : Raises FramerCode drainPacket := raises_bind raises_get fun _ => drainPacketFuel_raises _

theorem flushPacket_raises : Raises FramerCode flushPacket := raises_bind drainPacket_raises fun _ => raises_modify _

theorem refill_raises (want : Nat) : ∀ fuel, Raises FramerCode (refill want fuel)
  | 0 => raises_pure _
  | fuel + 1 => by
    refine raises_bind raises_get fun s => raises_ite (fun _ => raises_pure _) fun _ => ?_
    refine raises_bind get8PacketRaw_raises fun x => ?_
    cases x with
    | none => exact raises_pure _
    | some b => exact raises_bind (raises_modify _) fun _ => refill_raises want fuel

theorem takeBits_raises (n : Nat) : Raises NoCode (takeBits n) :=
  raises_bind raises_get fun _ => raises_bind (raises_modify _) fun _ => raises_pure _

theorem getBitsShort_raises (n : Nat) : Raises FramerCode (getBitsShort n) := by
  refine raises_bind raises_get fun s => raises_ite (fun _ => raises_pure _) fun _ => ?_
  refine raises_bind (raises_modify _) fun _ => raises_bind (refill_raises n 5) fun ok => raises_ite (fun _ => raises_never (takeBits_raises n)) fun _ => ?_
  exact raises_bind (raises_modify _) fun _ => raises_pure _

theorem getBits_raises (n : Nat) : Raises FramerCode (getBits n) := by
  refine raises_bind raises_get fun s => raises_ite (fun _ => ?_) fun _ => getBitsShort_raises n
  exact raises_bind (getBitsShort_raises _) fun _ => raises_bind (getBitsShort_raises _) fun _ => raises_pure _

theorem getFlag_raises : Raises FramerCode getFlag := raises_bind (getBits_raises 1) fun _ => raises_pure _

theorem lookAhead_raises : Raises FramerCode lookAhead :=
  raises_bind (refill_raises 32 5) fun _ => raises_bind raises_get fun _ => raises_pure _

theorem decodeScalar_raises (b : Nat) : Raises FramerCode (decodeScalar b) := by
  refine raises_bind raises_get fun s => raises_ite (fun _ => raises_pure _) fun _ => ?_
  refine raises_bind lookAhead_raises fun avail => raises_bind raises_get fun t => ?_
  cases findEntry t.rd avail (s.tab.codebook b).lengths (s.tab.codebook b).codewords 0 with
  | none => exact raises_bind (raises_modify _) fun _ => raises_pure _
  | some p =>
    obtain ⟨e, len⟩ := p
    refine raises_ite (fun _ => raises_bind (raises_modify _) fun _ => raises_pure _) fun _ => ?_
    exact raises_bind (raises_modify _) fun _ => raises_pure _

/-! ### Audio packets -/

theorem decodeVqAs_raises (lt : LookupType) (b : Nat) (slots : List (Option (Nat × Nat))) :
    Raises FramerCode (decodeVqAs lt b slots) := by
  have go : ∀ lt' : LookupType, Raises FramerCode (do
      let r ← decodeScalar b
      match r with
      | .entry e =>
        let s ← get
        setWork (addVector (s.tab.codebook b) lt' e slots 0 0)
        pure (Scalar.entry e)
      | other => pure other) := by
    intro lt'
    refine raises_bind (decodeScalar_raises b) fun r => ?_
    cases r with
    | entry e => exact raises_bind raises_get fun s => raises_bind (raises_modify _) fun _ => raises_pure _
    | eop => exact raises_pure _
    | noMatch => exact raises_pure _
  cases lt with
  | none => exact raises_bind (raises_modify _) fun _ => raises_pure _
  | lattice => exact go .lattice
  | direct => exact go .direct

theorem decodeVq_raises (b : Nat) (slots : List (Option (Nat × Nat))) : Raises FramerCode (decodeVq b slots) :=
  raises_bind raises_get fun _ => decodeVqAs_raises _ _ _

theorem floorDims_raises (ch : Nat) (cls : FloorClass) : ∀ n cval offset,
    Raises FramerCode (floorDims ch cls n cval offset)
  | 0, _, _ => raises_pure _
  | n + 1, cval, offset => by
    refine raises_ite (fun _ => ?_) fun _ => ?_
    · refine raises_bind (decodeScalar_raises _) fun r => ?_
      cases r with
      | entry t => exact raises_bind (raises_modify _) fun _ => floorDims_raises ch cls n _ _
      | eop => exact raises_pure _
      | noMatch => exact raises_pure _
    · exact raises_bind (raises_modify _) fun _ => floorDims_raises ch cls n _ _

theorem floorClassValue_raises (cls : FloorClass) : Raises FramerCode (floorClassValue cls) := by
  refine raises_ite (fun _ => raises_pure _) fun _ => raises_bind (decodeScalar_raises _) fun r => ?_
  cases r <;> exact raises_pure _

theorem floorPartitions_raises (ch : Nat) (fl : Floor) : ∀ l offset, Raises FramerCode (floorPartitions ch fl l offset)
  | [], _ => raises_pure _
  | c :: rest, offset => by
    refine raises_bind (floorClassValue_raises _) fun cval => ?_
    cases cval with
    | none => exact raises_pure _
    | some v =>
      refine raises_bind (floorDims_raises ch _ _ _ _) fun ok => ?_
      exact raises_ite (fun _ => floorPartitions_raises ch fl rest _) fun _ => raises_pure _

theorem floor1Decode_raises (ch : Nat) (fl : Floor) : Raises FramerCode (floor1Decode ch fl) := by
  refine raises_bind (getBits_raises 1) fun nonzero => raises_ite (fun _ => raises_modify _) fun _ => ?_
  refine raises_bind (getBits_raises _) fun y0 => raises_bind (raises_modify _) fun _ => ?_
  refine raises_bind (getBits_raises _) fun y1 => raises_bind (raises_modify _) fun _ => ?_
  refine raises_bind (floorPartitions_raises ch fl _ _) fun ok => raises_bind raises_get fun s => ?_
  refine raises_ite (fun _ => ?_) fun _ => raises_modify _
  exact raises_bind (raises_modify _) fun _ => raises_modify _

theorem partitionStrided_raises (b : Nat) (lane : Lane) (off step dim : Nat) : ∀ n k,
    Raises FramerCode (partitionStrided b lane off step dim n k)
  | 0, _ => raises_pure _
  | n + 1, k => by
    refine raises_bind (decodeVq_raises _ _) fun r => ?_
    cases r with
    | entry e => exact partitionStrided_raises b lane off step dim n (k + 1)
    | eop => exact raises_pure _
    | noMatch => exact raises_pure _

theorem partitionContiguous_raises (b : Nat) (lane : Lane) (off size dim : Nat) : ∀ n k,
    Raises FramerCode (partitionContiguous b lane off size dim n k)
  | 0, _ => raises_pure _
  | n + 1, k => by
    refine raises_ite (fun _ => raises_pure _) fun _ => raises_bind (decodeVq_raises _ _) fun r => ?_
    cases r with
    | entry e => exact partitionContiguous_raises b lane off size dim n (k + dim)
    | eop => exact raises_pure _
    | noMatch => exact raises_pure _

theorem partitionVq_raises (ty : ResidueType) (b : Nat) (lane : Lane) (off size : Nat) :
    Raises FramerCode (partitionVq ty b lane off size) := by
  refine raises_bind raises_get fun s => ?_
  cases ty with
  | type0 => exact partitionStrided_raises _ _ _ _ _ _ _
  | type1 => exact partitionContiguous_raises _ _ _ _ _ _ _
  | type2 => exact partitionContiguous_raises _ _ _ _ _ _ _

theorem readClasses_raises (res : Residue) : ∀ l, Raises FramerCode (readClasses res l)
  | [] => raises_pure _
  | _ :: rest => by
    refine raises_bind (decodeScalar_raises _) fun q => ?_
    cases q with
    | entry e =>
      refine raises_bind (readClasses_raises res rest) fun more => ?_
      cases more <;> exact raises_pure _
    | eop => exact raises_pure _
    | noMatch => exact raises_pure _

theorem decodePartition_raises (rc : ResidueCall) (pass p i : Nat) : ∀ l,
    Raises FramerCode (decodePartition rc pass p i l)
  | [] => raises_pure _
  | (lane, classes) :: rest => by
    refine raises_ite (fun _ => ?_) fun _ => decodePartition_raises rc pass p i rest
    refine raises_bind (partitionVq_raises _ _ _ _ _) fun ok => ?_
    exact raises_ite (fun _ => decodePartition_raises rc pass p i rest) fun _ => raises_pure _

theorem decodeGroup_raises (rc : ResidueCall) (pass p : Nat) (lanes : List (Lane × List Nat)) : ∀ n i,
    Raises FramerCode (decodeGroup rc pass p lanes n i)
  | 0, _ => raises_pure _
  | n + 1, i => by
    refine raises_ite (fun _ => raises_pure _) fun _ => raises_bind (decodePartition_raises rc _ _ _ _) fun ok => ?_
    exact raises_ite (fun _ => decodeGroup_raises rc pass p lanes n (i + 1)) fun _ => raises_pure _

theorem firstPass_raises (rc : ResidueCall) : ∀ fuel p, Raises FramerCode (firstPass rc fuel p)
  | 0, _ => raises_pure _
  | fuel + 1, p => by
    refine raises_ite (fun _ => raises_pure _) fun _ => raises_bind (readClasses_raises _ _) fun classes => ?_
    cases classes with
    | none => exact raises_pure _
    | some cs =>
      refine raises_bind (decodeGroup_raises rc _ _ _ _ _) fun ok => ?_
      refine raises_ite (fun _ => ?_) fun _ => raises_pure _
      refine raises_bind (firstPass_raises rc fuel _) fun more => ?_
      cases more <;> exact raises_pure _

theorem laterPass_raises (rc : ResidueCall) (pass : Nat) : ∀ gs p, Raises FramerCode (laterPass rc pass gs p)
  | [], _ => raises_pure _
  | cs :: gs, p => by
    refine raises_bind (decodeGroup_raises rc _ _ _ _ _) fun ok => ?_
    exact raises_ite (fun _ => laterPass_raises rc pass gs _) fun _ => raises_pure _

theorem laterPasses_raises (rc : ResidueCall) (groups : List (List (List Nat))) : ∀ l,
    Raises FramerCode (laterPasses rc groups l)
  | [] => raises_pure _
  | pass :: rest => by
    refine raises_bind (laterPass_raises rc _ _ _) fun ok => ?_
    exact raises_ite (fun _ => laterPasses_raises rc groups rest) fun _ => raises_pure _

theorem residuePasses_raises (rc : ResidueCall) : Raises FramerCode (residuePasses rc) := by
  refine raises_ite (fun _ => raises_pure _) fun _ => raises_bind (firstPass_raises rc _ _) fun groups => ?_
  cases groups with
  | some gs => exact laterPasses_raises rc gs _
  | none => exact raises_pure _

theorem residueDecodeAs_raises (ty : ResidueType) (map : Mapping) (submap n2 : Nat) :
    Raises FramerCode (residueDecodeAs ty map submap n2) :=
  raises_bind raises_get fun _ => raises_bind (raises_modify _) fun _ => residuePasses_raises _

theorem residueDecode_raises (map : Mapping) (n2 submap : Nat) : Raises FramerCode (residueDecode map n2 submap) :=
  raises_bind raises_get fun _ => residueDecodeAs_raises _ _ _ _

theorem decodeResidues_raises (map : Mapping) (n2 : Nat) : ∀ l, Raises FramerCode (decodeResidues map n2 l)
  | [] => raises_pure _
  | submap :: rest => raises_bind (residueDecode_raises map n2 submap) fun _ =>
    raises_ite (fun _ => decodeResidues_raises map n2 rest) fun _ => raises_bind raises_get fun _ => raises_modify _

theorem decodeFloors_raises (map : Mapping) (l : List Nat) : Raises FramerCode (decodeFloors map l) :=
  raises_forEach (fun ch => raises_bind raises_get fun _ => floor1Decode_raises ch _) l

theorem decodeMode_raises (mode : ModeEntry) : Raises FramerCode (decodeMode mode) := by
  refine raises_bind raises_get fun s => raises_bind (raises_readIf getFlag_raises _) fun prev => ?_
  refine raises_bind (raises_readIf getFlag_raises _) fun next => raises_bind (decodeFloors_raises _ _) fun _ => ?_
  refine raises_bind (raises_modify _) fun _ => raises_bind (decodeResidues_raises _ _ _) fun _ => ?_
  refine raises_bind (raises_modify _) fun _ => raises_bind flushPacket_raises fun _ => ?_
  exact raises_bind raises_get fun u => raises_bind (raises_modify _) fun _ => raises_pure _

theorem audioBody_raises : Raises AudioCode audioBody := by
  refine raises_bind raises_get fun s => raises_bind ((getBits_raises _).mono fun _ => framer_audio) fun i => ?_
  cases s.tab.modes[i]? with
  | none =>
    exact raises_bind (flushPacket_raises.mono fun _ => framer_audio) fun _ => raises_raise (by simp [AudioCode])
  | some mode => exact (decodeMode_raises mode).mono fun _ => framer_audio

theorem decodePacketFuel_raises : ∀ fuel, Raises AudioCode (decodePacketFuel fuel)
  | 0 => raises_pure _
  | fuel + 1 => by
    refine raises_bind (maybeStartPacket_raises.mono fun _ => framer_audio) fun more =>
      raises_ite (fun _ => raises_pure _) fun _ => ?_
    refine raises_bind ((getBits_raises 1).mono fun _ => framer_audio) fun v => ?_
    have skip : Raises AudioCode (do
        let s ← get
        if s.ctl.api = .push then raise .badPacketType
        else
          flushPacket
          decodePacketFuel fuel : M (Option Frame)) := by
      refine raises_bind raises_get fun s => raises_ite (fun _ => raises_raise (by simp [AudioCode])) fun _ => ?_
      exact raises_bind (flushPacket_raises.mono fun _ => framer_audio) fun _ => decodePacketFuel_raises fuel
    simp only [decodePoint]
    by_cases hv : v = 0
    · rw [if_pos hv]
      exact raises_bind audioBody_raises fun f => raises_pure _
    · rw [if_neg hv]
      exact skip

/-- Decoding a packet raises only codes of the stream class. -/
theorem decodePacket_raises : Raises AudioCode decodePacket :=
  raises_bind raises_get fun _ => decodePacketFuel_raises _

/-! ### Stream length -/

theorem lastPageFuel_raises : ∀ fuel page, Raises NoCode (lastPageFuel fuel page)
  | 0, _ => raises_pure _
  | fuel + 1, page => by
    refine raises_ite (fun _ => raises_pure _) fun _ => raises_bind (setPos_raises _) fun _ => ?_
    refine raises_bind findPage_raises fun found => ?_
    cases found with
    | none => exact raises_pure _
    | some next => exact lastPageFuel_raises fuel next

theorem lengthUnknown_raises : Raises NoCode lengthUnknown := raises_bind (raises_modify _) fun _ => raises_modify _

theorem recordLength_raises (found : Option FoundPage) : Raises NoCode (recordLength found) := by
  cases found with
  | none => exact lengthUnknown_raises
  | some first =>
    refine raises_bind raises_get fun s => raises_bind (lastPageFuel_raises _ _) fun page => ?_
    cases lengthOfGranule (s.granuleAt page.start) with
    | none => exact lengthUnknown_raises
    | some total => exact raises_modify _

theorem lengthScan_raises : Raises NoCode lengthScan := by
  refine raises_bind raises_get fun s => raises_bind (setPos_raises _) fun _ => raises_bind findPage_raises fun found => ?_
  exact raises_bind (recordLength_raises _) fun _ => raises_bind (setPos_raises _) fun _ => raises_pure _

/-- `stream_length()` never raises (48_frame_control.md R552). -/
theorem streamLength_raises : Raises NoCode streamLength :=
  raises_bind raises_get fun _ => raises_bind (raises_readIf lengthScan_raises _) fun _ =>
    raises_bind raises_get fun _ => raises_pure _

theorem probeFirstPage_raises : Raises NoCode probeFirstPage :=
  raises_bind findPage_raises fun _ => raises_bind raises_get fun _ => raises_bind (raises_modify _) fun _ =>
    raises_bind (setPos_raises _) fun _ => raises_pure _

theorem rewind_raises : Raises NoCode rewind :=
  raises_bind raises_get fun _ => raises_bind (setPos_raises _) fun _ => raises_bind (raises_modify _) fun _ =>
    raises_bind (raises_modify _) fun _ => raises_modify _

/-- A step that never raises always returns. -/
theorem returns_of_never {α : Type} {m : M α} (h : Raises NoCode m) (s : State) : ∃ a t, m s = .ok a t := by
  cases hm : m s with
  | ok a t => exact ⟨a, t, rfl⟩
  | error e t => exact (h s t e hm).elim

end Sys2Proof.Machine
end

