-- ==== Sys2Proof/Laws/Setting.lean ====
section
/-! SUPPORT. What parsing the headers can do to the machine and which codes it raises, said once. -/

namespace Sys2Proof.Machine

/-- Two table sets of one stream identity. -/
structure SameIdentity (t u : Tables) : Prop where
  channels : u.channels = t.channels
  rate : u.sampleRate = t.sampleRate
  log0 : u.logBlocksize0 = t.logBlocksize0
  log1 : u.logBlocksize1 = t.logBlocksize1

/-- A relation kept by reading, by filling the tables, and by writing a checked stream identity (42_setup.md R283, R284). -/
structure Setting (R : State → State → Prop) : Prop extends Decoding R where
  reserved : ∀ s w, R s { s with work := w }
  tables : ∀ s t, SameIdentity s.tab t → R s { s with tab := t }
  channels : ∀ s c, c ≠ 0 → c < 256 → c ≤ s.params.maxChannels → R s { s with tab.channels := c }
  rate : ∀ s r, r ≠ 0 → R s { s with tab.sampleRate := r }
  sizes : ∀ s a b, 6 ≤ a → a ≤ b → b ≤ 13 → R s { s with tab.logBlocksize0 := a, tab.logBlocksize1 := b }

variable {R : State → State → Prop}

theorem setTables_keeps (F : Setting R) {f : Tables → Tables} (h : ∀ t, SameIdentity t (f t)) : Keeps R (setTables f) :=
  fun s => F.tables s _ (h s.tab)

/-! ### Fields -/

theorem setupBits_keeps (F : Setting R) (n : Nat) : Keeps R (setupBits n) := by
  have C := F.toComposes
  refine keeps_bind C (getBits_keeps F.toReading n) fun v => keeps_bind C (keeps_get C) fun s => ?_
  exact keeps_ite (fun _ => keeps_raise C _) fun _ => keeps_pure C _

theorem setupFlag_keeps (F : Setting R) : Keeps R setupFlag :=
  keeps_bind F.toComposes (setupBits_keeps F 1) fun _ => keeps_pure F.toComposes _

theorem biased_keeps (F : Setting R) (n : Nat) : Keeps R (biased n) :=
  keeps_bind F.toComposes (setupBits_keeps F n) fun _ => keeps_pure F.toComposes _

theorem vorbisString_keeps (F : Setting R) (e : ErrCode) : Keeps R (vorbisString e) :=
  keeps_bind F.toComposes (keeps_readMany F.toComposes (get8Packet_keeps F.toReading) 6) fun _ =>
    keeps_check F.toComposes _ _

/-! ### Identification and comment headers -/

theorem identificationRest_keeps (F : Setting R) : Keeps R identificationRest := by
  have G := F.toReading
  have C := G.toComposes
  refine keeps_bind C (get32Packet_keeps G) fun rate => keeps_check_bind C fun hr => ?_
  refine keeps_bind C (fun s => F.rate s rate (by simpa using hr)) fun _ => ?_
  refine keeps_bind C (get32Packet_keeps G) fun brMax => keeps_bind C (get32Packet_keeps G) fun brNominal => ?_
  refine keeps_bind C (get32Packet_keeps G) fun brMin => ?_
  refine keeps_bind C (setTables_keeps F fun t => ⟨rfl, rfl, rfl, rfl⟩) fun _ => ?_
  refine keeps_bind C (get8Packet_keeps G) fun x => keeps_check_bind C fun hx => ?_
  simp only [Bool.and_eq_true, decide_eq_true_eq] at hx
  refine keeps_bind C (fun s => F.sizes s _ _ hx.1.1.1.1 hx.2 hx.1.2) fun _ => ?_
  exact keeps_bind C (get8Packet_keeps G) fun framing => keeps_bind C (keeps_check C _ _) fun _ => flushPacket_keeps G

theorem identificationBody_keeps (F : Setting R) : Keeps R identificationBody := by
  have G := F.toReading
  have C := G.toComposes
  refine keeps_bind C (vorbisString_keeps F _) fun _ => keeps_bind C (get32Packet_keeps G) fun version => ?_
  refine keeps_check_bind C fun _ => keeps_bind C (get8Packet_keeps G) fun channels => ?_
  refine keeps_check_bind C fun h0 => keeps_get_bind fun s => at_check_bind C fun h1 => ?_
  have hc : (eopByte channels).toNat < 256 := (eopByte channels).isLt
  exact at_bind C (F.channels s _ (by simpa using h0) hc (by simpa using h1)) fun _ t _ => identificationRest_keeps F t

theorem commentBody_keeps (F : Setting R) : Keeps R commentBody :=
  keeps_bind F.toComposes (vorbisString_keeps F _) fun _ => flushPacket_keeps F.toReading

/-! ### Codebooks -/

theorem unorderedLength_keeps (F : Setting R) (sparse : Bool) : Keeps R (unorderedLength sparse) := by
  have C := F.toComposes
  refine keeps_bind C (keeps_readIf C (setupFlag_keeps F) _) fun present => ?_
  refine keeps_ite (fun _ => ?_) fun _ => keeps_pure C _
  exact keeps_bind C (setupBits_keeps F 5) fun v => keeps_bind C (keeps_check C _ _) fun _ => keeps_pure C _

theorem orderedLengths_keeps (F : Setting R) (entries : Nat) : ∀ fuel entry len,
    Keeps R (orderedLengths entries fuel entry len)
  | 0, _, _ => keeps_pure F.toComposes _
  | fuel + 1, entry, len => by
    have C := F.toComposes
    refine keeps_ite (fun _ => keeps_pure C _) fun _ => keeps_bind C (setupBits_keeps F _) fun n => ?_
    refine keeps_bind C (keeps_check C _ _) fun _ => ?_
    exact keeps_bind C (orderedLengths_keeps F entries fuel _ _) fun rest => keeps_pure C _

theorem codewordLengths_keeps (F : Setting R) (ordered : Bool) (entries : Nat) :
    Keeps R (codewordLengths ordered entries) := by
  have C := F.toComposes
  refine keeps_ite (fun _ => ?_) fun _ => ?_
  · exact keeps_bind C (setupBits_keeps F 5) fun first => orderedLengths_keeps F _ _ _ _
  · exact keeps_bind C (setupFlag_keeps F) fun sparse => keeps_readMany C (unorderedLength_keeps F sparse) _

theorem finishCodebook_keeps (F : Setting R) : Keeps R finishCodebook := by
  have C := F.toComposes
  refine keeps_bind C (keeps_get C) fun s => ?_
  simp only []
  cases computeCodewords (s.tab.codebook (s.tab.codebooks.length - 1)).lengths with
  | none => exact keeps_raise C _
  | some cws => exact setTables_keeps F fun t => ⟨rfl, rfl, rfl, rfl⟩

theorem lookupFields_keeps (F : Setting R) (lt : LookupType) : Keeps R (lookupFields lt) := by
  have C := F.toComposes
  refine keeps_bind C (setupBits_keeps F 32) fun minimum => keeps_bind C (setupBits_keeps F 32) fun delta => ?_
  refine keeps_bind C (setupBits_keeps F 4) fun bits => keeps_bind C (setupFlag_keeps F) fun sequence => ?_
  refine keeps_bind C (keeps_get C) fun s => keeps_bind C (keeps_check C _ _) fun _ => ?_
  refine keeps_bind C (keeps_readMany C (setupBits_keeps F _) _) fun mults => ?_
  exact setTables_keeps F fun t => ⟨rfl, rfl, rfl, rfl⟩

theorem lookupSetup_keeps (F : Setting R) (lt : LookupType) : Keeps R (lookupSetup lt) :=
  keeps_ite (fun _ => finishCodebook_keeps F) fun _ =>
    keeps_bind F.toComposes (lookupFields_keeps F lt) fun _ => finishCodebook_keeps F

theorem lookupField_keeps (F : Setting R) (v : Nat) : Keeps R (lookupField v) := by
  unfold lookupField
  split
  · exact lookupSetup_keeps F _
  · exact lookupSetup_keeps F _
  · exact lookupSetup_keeps F _
  · exact keeps_raise F.toComposes _

theorem codebookSetup_keeps (F : Setting R) : Keeps R codebookSetup := by
  have C := F.toComposes
  refine keeps_bind C (setupBits_keeps F 24) fun sync => keeps_bind C (keeps_check C _ _) fun _ => ?_
  refine keeps_bind C (setupBits_keeps F 16) fun dimensions => keeps_bind C (setupBits_keeps F 24) fun entries => ?_
  refine keeps_bind C (keeps_check C _ _) fun _ => keeps_bind C (setupFlag_keeps F) fun ordered => ?_
  refine keeps_bind C (codewordLengths_keeps F _ _) fun lengths => ?_
  refine keeps_bind C (setTables_keeps F fun t => ⟨rfl, rfl, rfl, rfl⟩) fun _ => ?_
  exact keeps_bind C (setupBits_keeps F 4) fun lt => lookupField_keeps F lt

theorem timePlaceholder_keeps (F : Setting R) : Keeps R timePlaceholder :=
  keeps_bind F.toComposes (setupBits_keeps F 16) fun _ => keeps_check F.toComposes _ _

/-! ### Floors -/

theorem subclassBook_keeps (F : Setting R) : Keeps R subclassBook := by
  have C := F.toComposes
  exact keeps_bind C (setupBits_keeps F 8) fun v => keeps_bind C (keeps_get C) fun s =>
    keeps_bind C (keeps_check C _ _) fun _ => keeps_pure C _

theorem floorClassSetup_keeps (F : Setting R) : Keeps R floorClassSetup := by
  have C := F.toComposes
  refine keeps_bind C (setupBits_keeps F 3) fun dim => keeps_bind C (setupBits_keeps F 2) fun sub => ?_
  refine keeps_bind C (keeps_readIf C (setupBits_keeps F 8) _) fun master => keeps_bind C (keeps_get C) fun s => ?_
  refine keeps_bind C (keeps_check C _ _) fun _ => ?_
  exact keeps_bind C (keeps_readMany C (subclassBook_keeps F) _) fun books => keeps_pure C _

theorem floorXs_keeps (F : Setting R) (rangebits : Nat) (classes : List FloorClass) : ∀ l,
    Keeps R (floorXs rangebits classes l)
  | [] => keeps_pure F.toComposes _
  | _ :: rest => by
    have C := F.toComposes
    refine keeps_bind C (keeps_readMany C (setupBits_keeps F _) _) fun xs => ?_
    exact keeps_bind C (floorXs_keeps F rangebits classes rest) fun more => keeps_pure C _

theorem floor0Setup_keeps (F : Setting R) : Keeps R floor0Setup := by
  have C := F.toComposes
  refine keeps_bind C (setupBits_keeps F 8) fun _ => keeps_bind C (setupBits_keeps F 16) fun _ => ?_
  refine keeps_bind C (setupBits_keeps F 16) fun _ => keeps_bind C (setupBits_keeps F 6) fun _ => ?_
  refine keeps_bind C (setupBits_keeps F 8) fun _ => keeps_bind C (setupBits_keeps F 4) fun books => ?_
  exact keeps_bind C (keeps_readMany C (setupBits_keeps F 8) _) fun _ => keeps_raise C _

theorem floor1Setup_keeps (F : Setting R) : Keeps R floor1Setup := by
  have C := F.toComposes
  refine keeps_bind C (setupBits_keeps F 5) fun partitions => ?_
  refine keeps_bind C (keeps_readMany C (setupBits_keeps F 4) _) fun partitionClass => ?_
  refine keeps_bind C (keeps_readMany C (floorClassSetup_keeps F) _) fun classes => ?_
  refine keeps_bind C (setupBits_keeps F 2) fun mult => keeps_bind C (setupBits_keeps F 4) fun rangebits => ?_
  refine keeps_bind C (floorXs_keeps F _ _ _) fun more => keeps_bind C (keeps_check C _ _) fun _ => ?_
  exact setTables_keeps F fun t => ⟨rfl, rfl, rfl, rfl⟩

theorem floorField_keeps (F : Setting R) (v : Nat) : Keeps R (floorField v) := by
  unfold floorField
  split
  · exact floor0Setup_keeps F
  · exact floor1Setup_keeps F
  · exact keeps_raise F.toComposes _

theorem floorSetup_keeps (F : Setting R) : Keeps R floorSetup :=
  keeps_bind F.toComposes (setupBits_keeps F 16) fun ty => floorField_keeps F ty

/-! ### Residues -/

theorem residueCascade_keeps (F : Setting R) : Keeps R residueCascade := by
  have C := F.toComposes
  refine keeps_bind C (setupBits_keeps F 3) fun low => keeps_bind C (setupFlag_keeps F) fun flag => ?_
  exact keeps_bind C (keeps_readIf C (setupBits_keeps F 5) _) fun high => keeps_pure C _

theorem residueBook_keeps (F : Setting R) (cascade pass : Nat) : Keeps R (residueBook cascade pass) := by
  have C := F.toComposes
  refine keeps_ite (fun _ => ?_) fun _ => keeps_pure C _
  exact keeps_bind C (setupBits_keeps F 8) fun v => keeps_bind C (keeps_get C) fun s =>
    keeps_bind C (keeps_check C _ _) fun _ => keeps_pure C _

theorem residueClassBooks_keeps (F : Setting R) (cascade : Nat) : ∀ l, Keeps R (residueClassBooks cascade l)
  | [] => keeps_pure F.toComposes _
  | _ :: rest => keeps_bind F.toComposes (residueBook_keeps F _ _) fun _ =>
    keeps_bind F.toComposes (residueClassBooks_keeps F cascade rest) fun _ => keeps_pure F.toComposes _

theorem residueBooks_keeps (F : Setting R) : ∀ l, Keeps R (residueBooks l)
  | [] => keeps_pure F.toComposes _
  | _ :: rest => keeps_bind F.toComposes (residueClassBooks_keeps F _ _) fun _ =>
    keeps_bind F.toComposes (residueBooks_keeps F rest) fun _ => keeps_pure F.toComposes _

theorem residueSetupAs_keeps (F : Setting R) (ty : ResidueType) : Keeps R (residueSetupAs ty) := by
  have C := F.toComposes
  refine keeps_bind C (setupBits_keeps F 24) fun first => keeps_bind C (setupBits_keeps F 24) fun last => ?_
  refine keeps_bind C (keeps_check C _ _) fun _ => keeps_bind C (setupBits_keeps F 24) fun partSize => ?_
  refine keeps_bind C (setupBits_keeps F 6) fun classifications => ?_
  refine keeps_bind C (setupBits_keeps F 8) fun classbook => keeps_bind C (keeps_get C) fun s => ?_
  refine keeps_bind C (keeps_check C _ _) fun _ => ?_
  refine keeps_bind C (keeps_readMany C (residueCascade_keeps F) _) fun cascades => ?_
  refine keeps_bind C (residueBooks_keeps F _) fun books => ?_
  exact setTables_keeps F fun t => ⟨rfl, rfl, rfl, rfl⟩

theorem residueField_keeps (F : Setting R) (v : Nat) : Keeps R (residueField v) := by
  unfold residueField
  split
  · exact residueSetupAs_keeps F _
  · exact residueSetupAs_keeps F _
  · exact residueSetupAs_keeps F _
  · exact keeps_raise F.toComposes _

theorem residueSetup_keeps (F : Setting R) : Keeps R residueSetup :=
  keeps_bind F.toComposes (setupBits_keeps F 16) fun ty => residueField_keeps F ty

/-! ### Mappings and modes -/

theorem couplingStep_keeps (F : Setting R) (channels : Nat) : Keeps R (couplingStep channels) := by
  have C := F.toComposes
  exact keeps_bind C (setupBits_keeps F _) fun _ => keeps_bind C (setupBits_keeps F _) fun _ =>
    keeps_bind C (keeps_check C _ _) fun _ => keeps_pure C _

theorem muxEntry_keeps (F : Setting R) (submaps : Nat) : Keeps R (muxEntry submaps) := by
  have C := F.toComposes
  exact keeps_bind C (setupBits_keeps F 4) fun _ => keeps_bind C (keeps_check C _ _) fun _ => keeps_pure C _

theorem submapEntry_keeps (F : Setting R) : Keeps R submapEntry := by
  have C := F.toComposes
  refine keeps_bind C (setupBits_keeps F 8) fun _ => keeps_bind C (setupBits_keeps F 8) fun floor => ?_
  refine keeps_bind C (keeps_get C) fun s => keeps_bind C (keeps_check C _ _) fun _ => ?_
  exact keeps_bind C (setupBits_keeps F 8) fun residue => keeps_bind C (keeps_check C _ _) fun _ => keeps_pure C _

theorem mapping0Setup_keeps (F : Setting R) : Keeps R mapping0Setup := by
  have C := F.toComposes
  refine keeps_bind C (keeps_get C) fun s => keeps_bind C (setupFlag_keeps F) fun several => ?_
  refine keeps_bind C (keeps_readIf C (biased_keeps F 4) _) fun submaps => ?_
  refine keeps_bind C (setupFlag_keeps F) fun coupled => ?_
  refine keeps_bind C (keeps_readIf C (biased_keeps F 8) _) fun steps => keeps_bind C (keeps_check C _ _) fun _ => ?_
  refine keeps_bind C (keeps_readMany C (couplingStep_keeps F _) _) fun coupling => ?_
  refine keeps_bind C (setupBits_keeps F 2) fun reserved => keeps_bind C (keeps_check C _ _) fun _ => ?_
  refine keeps_bind C (keeps_readIf C (keeps_readMany C (muxEntry_keeps F _) _) _) fun mux => ?_
  refine keeps_bind C (keeps_readMany C (submapEntry_keeps F) _) fun subs => ?_
  exact setTables_keeps F fun t => ⟨rfl, rfl, rfl, rfl⟩

theorem mappingField_keeps (F : Setting R) (v : Nat) : Keeps R (mappingField v) := by
  unfold mappingField
  split
  · exact mapping0Setup_keeps F
  · exact keeps_raise F.toComposes _

theorem mappingSetup_keeps (F : Setting R) : Keeps R mappingSetup :=
  keeps_bind F.toComposes (setupBits_keeps F 16) fun ty => mappingField_keeps F ty

theorem modeSetup_keeps (F : Setting R) : Keeps R modeSetup := by
  have C := F.toComposes
  refine keeps_bind C (setupFlag_keeps F) fun long => keeps_bind C (setupBits_keeps F 16) fun windowtype => ?_
  refine keeps_bind C (keeps_check C _ _) fun _ => keeps_bind C (setupBits_keeps F 16) fun transformtype => ?_
  refine keeps_bind C (keeps_check C _ _) fun _ => keeps_bind C (setupBits_keeps F 8) fun mapping => ?_
  refine keeps_bind C (keeps_get C) fun s => keeps_bind C (keeps_check C _ _) fun _ => ?_
  exact setTables_keeps F fun t => ⟨rfl, rfl, rfl, rfl⟩

/-! ### The whole of the headers -/

theorem countedTable_keeps (F : Setting R) (width : Nat) {entry : M Unit} (h : Keeps R entry) :
    Keeps R (countedTable width entry) :=
  keeps_bind F.toComposes (biased_keeps F width) fun n => keeps_times F.toComposes h n

theorem setupBody_keeps (F : Setting R) : Keeps R setupBody := by
  have C := F.toComposes
  refine keeps_bind C (vorbisString_keeps F _) fun _ => keeps_bind C (countedTable_keeps F 8 (codebookSetup_keeps F)) fun _ => ?_
  refine keeps_bind C (countedTable_keeps F 6 (timePlaceholder_keeps F)) fun _ => ?_
  refine keeps_bind C (countedTable_keeps F 6 (floorSetup_keeps F)) fun _ => ?_
  refine keeps_bind C (countedTable_keeps F 6 (residueSetup_keeps F)) fun _ => ?_
  refine keeps_bind C (countedTable_keeps F 6 (mappingSetup_keeps F)) fun _ => ?_
  refine keeps_bind C (countedTable_keeps F 6 (modeSetup_keeps F)) fun _ => ?_
  exact keeps_bind C (setupBits_keeps F 1) fun _ => flushPacket_keeps F.toReading

theorem firstPageChecks_keeps (F : Setting R) : Keeps R firstPageChecks := by
  have C := F.toComposes
  refine keeps_bind C (keeps_get C) fun s => keeps_bind C (keeps_check C _ _) fun _ => ?_
  refine keeps_bind C (keeps_check C _ _) fun _ => keeps_ite (fun _ => keeps_pure C _) fun _ => ?_
  refine keeps_ite (fun _ => keeps_raise C _) fun _ => ?_
  refine keeps_bind C (keeps_readMany C (get8_keeps F.toBytes) 8) fun bs => ?_
  exact keeps_ite (fun _ => keeps_raise C _) fun _ => keeps_raise C _

theorem headerPacket_keeps (F : Setting R) (k : HeaderKind) {body : M Unit} (h : Keeps R body) :
    Keeps R (headerPacket k body) := by
  have C := F.toComposes
  exact keeps_bind C (startPacket_keeps F.toReading) fun _ => keeps_bind C (get8Packet_keeps F.toReading) fun x =>
    keeps_bind C (keeps_check C _ _) fun _ => h

theorem parseHeaders_keeps (F : Setting R) : Keeps R parseHeaders := by
  have C := F.toComposes
  refine keeps_bind C (startPage_keeps F.toReading) fun _ => keeps_bind C (firstPageChecks_keeps F) fun _ => ?_
  refine keeps_bind C (headerPacket_keeps F _ (identificationBody_keeps F)) fun _ => ?_
  refine keeps_bind C (headerPacket_keeps F _ (commentBody_keeps F)) fun _ => ?_
  exact headerPacket_keeps F _ (setupBody_keeps F)

theorem finishTables_keeps (F : Setting R) : Keeps R finishTables := by
  have C := F.toComposes
  refine keeps_bind C (setTables_keeps F fun t => ⟨rfl, rfl, rfl, rfl⟩) fun _ => keeps_bind C (keeps_get C) fun s => ?_
  exact keeps_bind C (keeps_check C _ _) fun _ => fun s => F.reserved s _

theorem openTables_keeps (F : Setting R) : Keeps R openTables :=
  keeps_bind F.toComposes (parseHeaders_keeps F) fun _ => finishTables_keeps F

/-! ### What parsing leaves alone -/

/-- The machine with what parsing the headers can change taken out. -/
def setupView (s : State) : State :=
  { s with
    rd := BitReader.reset, cur := PageCursor.reset
    src := { s.src with pos := 0, eof := false, pageStart := 0 }
    work := Work.reset
    tab := Tables.absent
    ctl := { s.ctl with error := 0 } }

theorem setupView_setting : Setting (Same setupView) where
  toComposes := same_composes setupView
  hitEnd _ _ := rfl
  advance _ _ := rfl
  mark _ := rfl
  reader _ _ := rfl
  take _ := rfl
  which _ := rfl
  ended _ := rfl
  opened _ := rfl
  byteTaken _ := rfl
  latch _ _ _ _ _ := rfl
  latchPart _ _ _ _ _ := rfl
  noted _ _ := rfl
  work _ _ _ := rfl
  reserved _ _ := rfl
  tables _ _ _ := rfl
  channels _ _ _ _ _ := rfl
  rate _ _ _ := rfl
  sizes _ _ _ _ _ _ := rfl

/-! ### Codes -/

theorem setupBits_raises (n : Nat) : Raises OpenCode (setupBits n) := by
  refine raises_bind ((getBits_raises n).mono fun _ => framer_open) fun v => raises_bind raises_get fun s => ?_
  exact raises_ite (fun _ => raises_raise (Or.inl rfl)) fun _ => raises_pure _

theorem setupFlag_raises : Raises OpenCode setupFlag := raises_bind (setupBits_raises 1) fun _ => raises_pure _

theorem biased_raises (n : Nat) : Raises OpenCode (biased n) := raises_bind (setupBits_raises n) fun _ => raises_pure _

theorem checkSetup_raises (b : Bool) : Raises OpenCode (check b .invalidSetup) := raises_check (Or.inl rfl)

theorem checkFirst_raises (b : Bool) : Raises OpenCode (check b .invalidFirstPage) := raises_check (Or.inl rfl)

theorem get8Packet_raisesOpen : Raises OpenCode get8Packet := get8Packet_raises.mono fun _ => framer_open

theorem get32Packet_raisesOpen : Raises OpenCode get32Packet := get32Packet_raises.mono fun _ => framer_open

theorem flushPacket_raisesOpen : Raises OpenCode flushPacket := flushPacket_raises.mono fun _ => framer_open

theorem vorbisString_raises {e : ErrCode} (h : OpenCode e) : Raises OpenCode (vorbisString e) :=
  raises_bind (raises_readMany get8Packet_raisesOpen 6) fun _ => raises_check h

theorem identificationRest_raises : Raises OpenCode identificationRest := by
  refine raises_bind get32Packet_raisesOpen fun rate => raises_bind (checkFirst_raises _) fun _ => ?_
  refine raises_bind (raises_modify _) fun _ => raises_bind get32Packet_raisesOpen fun _ => ?_
  refine raises_bind get32Packet_raisesOpen fun _ => raises_bind get32Packet_raisesOpen fun _ => ?_
  refine raises_bind (raises_modify _) fun _ => raises_bind get8Packet_raisesOpen fun x => ?_
  refine raises_bind (checkSetup_raises _) fun _ => raises_bind (raises_modify _) fun _ => ?_
  refine raises_bind get8Packet_raisesOpen fun framing => raises_bind (checkFirst_raises _) fun _ => ?_
  exact flushPacket_raisesOpen

theorem identificationBody_raises : Raises OpenCode identificationBody := by
  refine raises_bind (vorbisString_raises (Or.inl rfl)) fun _ => raises_bind get32Packet_raisesOpen fun version => ?_
  refine raises_bind (checkFirst_raises _) fun _ => raises_bind get8Packet_raisesOpen fun channels => ?_
  refine raises_bind (checkFirst_raises _) fun _ => raises_bind raises_get fun s => ?_
  refine raises_bind (raises_check (Or.inl rfl)) fun _ => raises_bind (raises_modify _) fun _ => ?_
  exact identificationRest_raises

theorem commentBody_raises : Raises OpenCode commentBody :=
  raises_bind (vorbisString_raises (Or.inl rfl)) fun _ => flushPacket_raisesOpen

theorem unorderedLength_raises (sparse : Bool) : Raises OpenCode (unorderedLength sparse) := by
  refine raises_bind (raises_readIf setupFlag_raises _) fun present => raises_ite (fun _ => ?_) fun _ => raises_pure _
  exact raises_bind (setupBits_raises 5) fun v => raises_bind (checkSetup_raises _) fun _ => raises_pure _

theorem orderedLengths_raises (entries : Nat) : ∀ fuel entry len, Raises OpenCode (orderedLengths entries fuel entry len)
  | 0, _, _ => raises_pure _
  | fuel + 1, entry, len => by
    refine raises_ite (fun _ => raises_pure _) fun _ => raises_bind (setupBits_raises _) fun n => ?_
    refine raises_bind (checkSetup_raises _) fun _ => ?_
    exact raises_bind (orderedLengths_raises entries fuel _ _) fun rest => raises_pure _

theorem codewordLengths_raises (ordered : Bool) (entries : Nat) : Raises OpenCode (codewordLengths ordered entries) := by
  refine raises_ite (fun _ => ?_) fun _ => ?_
  · exact raises_bind (setupBits_raises 5) fun first => orderedLengths_raises _ _ _ _
  · exact raises_bind setupFlag_raises fun sparse => raises_readMany (unorderedLength_raises sparse) _

theorem finishCodebook_raises : Raises OpenCode finishCodebook := by
  refine raises_bind raises_get fun s => ?_
  simp only []
  cases computeCodewords (s.tab.codebook (s.tab.codebooks.length - 1)).lengths with
  | none => exact raises_raise (Or.inl rfl)
  | some cws => exact raises_modify _

theorem lookupFields_raises (lt : LookupType) : Raises OpenCode (lookupFields lt) := by
  refine raises_bind (setupBits_raises 32) fun minimum => raises_bind (setupBits_raises 32) fun delta => ?_
  refine raises_bind (setupBits_raises 4) fun bits => raises_bind setupFlag_raises fun sequence => ?_
  refine raises_bind raises_get fun s => raises_bind (checkSetup_raises _) fun _ => ?_
  exact raises_bind (raises_readMany (setupBits_raises _) _) fun mults => raises_modify _

theorem lookupSetup_raises (lt : LookupType) : Raises OpenCode (lookupSetup lt) :=
  raises_ite (fun _ => finishCodebook_raises) fun _ =>
    raises_bind (lookupFields_raises lt) fun _ => finishCodebook_raises

theorem lookupField_raises (v : Nat) : Raises OpenCode (lookupField v) := by
  unfold lookupField
  split
  · exact lookupSetup_raises _
  · exact lookupSetup_raises _
  · exact lookupSetup_raises _
  · exact raises_raise (Or.inl rfl)

theorem codebookSetup_raises : Raises OpenCode codebookSetup := by
  refine raises_bind (setupBits_raises 24) fun sync => raises_bind (checkSetup_raises _) fun _ => ?_
  refine raises_bind (setupBits_raises 16) fun dimensions => raises_bind (setupBits_raises 24) fun entries => ?_
  refine raises_bind (checkSetup_raises _) fun _ => raises_bind setupFlag_raises fun ordered => ?_
  refine raises_bind (codewordLengths_raises _ _) fun lengths => raises_bind (raises_modify _) fun _ => ?_
  exact raises_bind (setupBits_raises 4) fun lt => lookupField_raises lt

theorem timePlaceholder_raises : Raises OpenCode timePlaceholder :=
  raises_bind (setupBits_raises 16) fun _ => checkSetup_raises _

theorem subclassBook_raises : Raises OpenCode subclassBook :=
  raises_bind (setupBits_raises 8) fun v => raises_bind raises_get fun s =>
    raises_bind (checkSetup_raises _) fun _ => raises_pure _

theorem floorClassSetup_raises : Raises OpenCode floorClassSetup := by
  refine raises_bind (setupBits_raises 3) fun dim => raises_bind (setupBits_raises 2) fun sub => ?_
  refine raises_bind (raises_readIf (setupBits_raises 8) _) fun master => raises_bind raises_get fun s => ?_
  refine raises_bind (checkSetup_raises _) fun _ => ?_
  exact raises_bind (raises_readMany subclassBook_raises _) fun books => raises_pure _

theorem floorXs_raises (rangebits : Nat) (classes : List FloorClass) : ∀ l, Raises OpenCode (floorXs rangebits classes l)
  | [] => raises_pure _
  | _ :: rest => raises_bind (raises_readMany (setupBits_raises _) _) fun xs =>
    raises_bind (floorXs_raises rangebits classes rest) fun more => raises_pure _

theorem floor0Setup_raises : Raises OpenCode floor0Setup := by
  refine raises_bind (setupBits_raises 8) fun _ => raises_bind (setupBits_raises 16) fun _ => ?_
  refine raises_bind (setupBits_raises 16) fun _ => raises_bind (setupBits_raises 6) fun _ => ?_
  refine raises_bind (setupBits_raises 8) fun _ => raises_bind (setupBits_raises 4) fun books => ?_
  exact raises_bind (raises_readMany (setupBits_raises 8) _) fun _ => raises_raise (Or.inl rfl)

theorem floor1Setup_raises : Raises OpenCode floor1Setup := by
  refine raises_bind (setupBits_raises 5) fun partitions => ?_
  refine raises_bind (raises_readMany (setupBits_raises 4) _) fun partitionClass => ?_
  refine raises_bind (raises_readMany floorClassSetup_raises _) fun classes => ?_
  refine raises_bind (setupBits_raises 2) fun mult => raises_bind (setupBits_raises 4) fun rangebits => ?_
  refine raises_bind (floorXs_raises _ _ _) fun more => raises_bind (checkSetup_raises _) fun _ => ?_
  exact raises_modify _

theorem floorField_raises (v : Nat) : Raises OpenCode (floorField v) := by
  unfold floorField
  split
  · exact floor0Setup_raises
  · exact floor1Setup_raises
  · exact raises_raise (Or.inl rfl)

theorem floorSetup_raises : Raises OpenCode floorSetup := raises_bind (setupBits_raises 16) fun ty => floorField_raises ty

theorem residueCascade_raises : Raises OpenCode residueCascade := by
  refine raises_bind (setupBits_raises 3) fun low => raises_bind setupFlag_raises fun flag => ?_
  exact raises_bind (raises_readIf (setupBits_raises 5) _) fun high => raises_pure _

theorem residueBook_raises (cascade pass : Nat) : Raises OpenCode (residueBook cascade pass) := by
  refine raises_ite (fun _ => ?_) fun _ => raises_pure _
  exact raises_bind (setupBits_raises 8) fun v => raises_bind raises_get fun s =>
    raises_bind (checkSetup_raises _) fun _ => raises_pure _

theorem residueClassBooks_raises (cascade : Nat) : ∀ l, Raises OpenCode (residueClassBooks cascade l)
  | [] => raises_pure _
  | _ :: rest => raises_bind (residueBook_raises _ _) fun _ =>
    raises_bind (residueClassBooks_raises cascade rest) fun _ => raises_pure _

theorem residueBooks_raises : ∀ l, Raises OpenCode (residueBooks l)
  | [] => raises_pure _
  | _ :: rest => raises_bind (residueClassBooks_raises _ _) fun _ =>
    raises_bind (residueBooks_raises rest) fun _ => raises_pure _

theorem residueSetupAs_raises (ty : ResidueType) : Raises OpenCode (residueSetupAs ty) := by
  refine raises_bind (setupBits_raises 24) fun first => raises_bind (setupBits_raises 24) fun last => ?_
  refine raises_bind (checkSetup_raises _) fun _ => raises_bind (setupBits_raises 24) fun partSize => ?_
  refine raises_bind (setupBits_raises 6) fun classifications => ?_
  refine raises_bind (setupBits_raises 8) fun classbook => raises_bind raises_get fun s => ?_
  refine raises_bind (checkSetup_raises _) fun _ => ?_
  refine raises_bind (raises_readMany residueCascade_raises _) fun cascades => ?_
  exact raises_bind (residueBooks_raises _) fun books => raises_modify _

theorem residueField_raises (v : Nat) : Raises OpenCode (residueField v) := by
  unfold residueField
  split
  · exact residueSetupAs_raises _
  · exact residueSetupAs_raises _
  · exact residueSetupAs_raises _
  · exact raises_raise (Or.inl rfl)

theorem residueSetup_raises : Raises OpenCode residueSetup :=
  raises_bind (setupBits_raises 16) fun ty => residueField_raises ty

theorem couplingStep_raises (channels : Nat) : Raises OpenCode (couplingStep channels) :=
  raises_bind (setupBits_raises _) fun _ => raises_bind (setupBits_raises _) fun _ =>
    raises_bind (checkSetup_raises _) fun _ => raises_pure _

theorem muxEntry_raises (submaps : Nat) : Raises OpenCode (muxEntry submaps) :=
  raises_bind (setupBits_raises 4) fun _ => raises_bind (checkSetup_raises _) fun _ => raises_pure _

theorem submapEntry_raises : Raises OpenCode submapEntry := by
  refine raises_bind (setupBits_raises 8) fun _ => raises_bind (setupBits_raises 8) fun floor => ?_
  refine raises_bind raises_get fun s => raises_bind (checkSetup_raises _) fun _ => ?_
  exact raises_bind (setupBits_raises 8) fun residue => raises_bind (checkSetup_raises _) fun _ => raises_pure _

theorem mapping0Setup_raises : Raises OpenCode mapping0Setup := by
  refine raises_bind raises_get fun s => raises_bind setupFlag_raises fun several => ?_
  refine raises_bind (raises_readIf (biased_raises 4) _) fun submaps => raises_bind setupFlag_raises fun coupled => ?_
  refine raises_bind (raises_readIf (biased_raises 8) _) fun steps => raises_bind (checkSetup_raises _) fun _ => ?_
  refine raises_bind (raises_readMany (couplingStep_raises _) _) fun coupling => ?_
  refine raises_bind (setupBits_raises 2) fun reserved => raises_bind (checkSetup_raises _) fun _ => ?_
  refine raises_bind (raises_readIf (raises_readMany (muxEntry_raises _) _) _) fun mux => ?_
  exact raises_bind (raises_readMany submapEntry_raises _) fun subs => raises_modify _

theorem mappingField_raises (v : Nat) : Raises OpenCode (mappingField v) := by
  unfold mappingField
  split
  · exact mapping0Setup_raises
  · exact raises_raise (Or.inl rfl)

theorem mappingSetup_raises : Raises OpenCode mappingSetup :=
  raises_bind (setupBits_raises 16) fun ty => mappingField_raises ty

theorem modeSetup_raises : Raises OpenCode modeSetup := by
  refine raises_bind setupFlag_raises fun long => raises_bind (setupBits_raises 16) fun windowtype => ?_
  refine raises_bind (checkSetup_raises _) fun _ => raises_bind (setupBits_raises 16) fun transformtype => ?_
  refine raises_bind (checkSetup_raises _) fun _ => raises_bind (setupBits_raises 8) fun mapping => ?_
  exact raises_bind raises_get fun s => raises_bind (checkSetup_raises _) fun _ => raises_modify _

theorem times_raises {E : ErrCode → Prop} {step : M Unit} (h : Raises E step) : ∀ n, Raises E (times step n)
  | 0 => raises_pure _
  | n + 1 => raises_bind h fun _ => times_raises h n

theorem countedTable_raises (width : Nat) {entry : M Unit} (h : Raises OpenCode entry) :
    Raises OpenCode (countedTable width entry) := raises_bind (biased_raises width) fun n => times_raises h n

theorem setupBody_raises : Raises OpenCode setupBody := by
  refine raises_bind (vorbisString_raises (Or.inl rfl)) fun _ => ?_
  refine raises_bind (countedTable_raises 8 codebookSetup_raises) fun _ => ?_
  refine raises_bind (countedTable_raises 6 timePlaceholder_raises) fun _ => ?_
  refine raises_bind (countedTable_raises 6 floorSetup_raises) fun _ => ?_
  refine raises_bind (countedTable_raises 6 residueSetup_raises) fun _ => ?_
  refine raises_bind (countedTable_raises 6 mappingSetup_raises) fun _ => ?_
  refine raises_bind (countedTable_raises 6 modeSetup_raises) fun _ => ?_
  exact raises_bind (setupBits_raises 1) fun _ => flushPacket_raisesOpen

theorem firstPageChecks_raises : Raises OpenCode firstPageChecks := by
  refine raises_bind raises_get fun s => raises_bind (checkFirst_raises _) fun _ => ?_
  refine raises_bind (checkFirst_raises _) fun _ => raises_ite (fun _ => raises_pure _) fun _ => ?_
  refine raises_ite (fun _ => raises_raise (Or.inl rfl)) fun _ => ?_
  refine raises_bind (raises_never (raises_readMany get8_raises 8)) fun bs => ?_
  exact raises_ite (fun _ => raises_raise (Or.inl rfl)) fun _ => raises_raise (Or.inl rfl)

theorem headerError_open (k : HeaderKind) : OpenCode (headerError k) := by cases k <;> exact Or.inl rfl

theorem headerPacket_raises (k : HeaderKind) {body : M Unit} (h : Raises OpenCode body) :
    Raises OpenCode (headerPacket k body) :=
  raises_bind (startPacket_raises.mono fun _ => framer_open) fun _ => raises_bind get8Packet_raisesOpen fun x =>
    raises_bind (raises_check (headerError_open k)) fun _ => h

theorem parseHeaders_raises : Raises OpenCode parseHeaders := by
  refine raises_bind (startPage_raises.mono fun _ => framer_open) fun _ => raises_bind firstPageChecks_raises fun _ => ?_
  refine raises_bind (headerPacket_raises _ identificationBody_raises) fun _ => ?_
  refine raises_bind (headerPacket_raises _ commentBody_raises) fun _ => ?_
  exact headerPacket_raises _ setupBody_raises

theorem finishTables_raises : Raises OpenCode finishTables := by
  refine raises_bind (raises_modify _) fun _ => raises_bind raises_get fun s => ?_
  exact raises_bind (raises_check (Or.inr rfl)) fun _ => raises_modify _

/-- Every error of an open is one that fails it (60_exceptions.md R602, R603). -/
theorem openTables_raises : Raises OpenCode openTables :=
  raises_bind parseHeaders_raises fun _ => finishTables_raises

end Sys2Proof.Machine
end

