-- ==== Sys2Proof/Laws/Invariant.lean ====
section
/-! SUPPORT. The ranges of the cursor and the position are kept by every datapath step, and the stream identity is legal after an
identification header was read. -/

namespace Sys2Proof.Machine

/-! ### The cursor -/

theorem lastEnding_go (acc : Int) (l : List (Byte × Nat)) (n : Nat) (hacc : -1 ≤ acc ∧ acc < n)
    (hl : ∀ p ∈ l, p.2 < n) :
    -1 ≤ l.foldl (fun acc p => if p.1 < 255 then (p.2 : Int) else acc) acc ∧
      l.foldl (fun acc p => if p.1 < 255 then (p.2 : Int) else acc) acc < n := by
  induction l generalizing acc with
  | nil => exact hacc
  | cons p l ih =>
    refine ih _ ?_ fun q hq => hl q (by simp [hq])
    have := hl p (by simp)
    dsimp only
    split <;> omega

/-- The index found is one of the table's, or -1 (41_ogg_framer.md R236). -/
theorem lastEndingSegment_range (segs : List Byte) :
    -1 ≤ lastEndingSegment segs ∧ lastEndingSegment segs < segs.length ∨ segs = [] ∧ lastEndingSegment segs = -1 := by
  cases h : segs with
  | nil => exact Or.inr ⟨rfl, rfl⟩
  | cons b bs =>
    refine Or.inl (lastEnding_go _ _ _ ⟨Int.le_refl _, by simp⟩ fun p hp => ?_)
    have := List.snd_lt_of_mem_zipIdx hp
    simpa using this

theorem latch_table {segs old : List Byte} (h1 : segs.length ≤ 255) (h2 : old.length = 255) :
    (segs ++ old.drop segs.length).length = 255 := by
  simp
  omega

theorem latchPage_inRange {c : PageCursor} (flag : Byte) (g : BitVec 64) {segs : List Byte} (hs : segs.length ≤ 255)
    (h : c.InRange) : (latchPage flag g segs c).InRange := by
  have hr := lastEndingSegment_range segs
  refine ⟨latch_table hs h.table, hs, ?_, h.bytes, h.which, ?_⟩
  · show -1 ≤ (if segs.length = 0 then (-1 : Int) else 0) ∧ (if segs.length = 0 then (-1 : Int) else 0) ≤ 254
    split <;> omega
  · show -2 ≤ (if _ then lastEndingSegment segs else (-2 : Int)) ∧ (if _ then lastEndingSegment segs else (-2 : Int)) ≤ 254
    split <;> omega

theorem latchPartialPage_inRange {c : PageCursor} (flag : Byte) (g : BitVec 64) {segs : List Byte}
    (hs : segs.length ≤ 255) (h : c.InRange) : (latchPartialPage flag g segs c).InRange :=
  ⟨latch_table hs h.table, hs, h.next, h.bytes, h.which, h.known⟩

theorem takeSegment_inRange {c : PageCursor} (h : c.InRange) : (takeSegment c).InRange := by
  have hn := h.next
  have hc := h.count
  refine ⟨h.table, h.count, ?_, ?_, ?_, h.known⟩
  · show -1 ≤ (if (c.segmentCount : Int) ≤ c.nextSeg + 1 then (-1 : Int) else c.nextSeg + 1) ∧
      (if (c.segmentCount : Int) ≤ c.nextSeg + 1 then (-1 : Int) else c.nextSeg + 1) ≤ 254
    split <;> omega
  · show (c.segments.getD c.nextSeg.toNat 0).toNat ≤ 255
    have := (c.segments.getD c.nextSeg.toNat 0).isLt
    omega
  · have hw := h.which
    simp only [takeSegment]
    split <;> omega

/-! ### The ranges every step keeps -/

/-- The part of the invariant that holds inside a command too. -/
structure State.CoreOk (s : State) : Prop where
  mem : Memory.wf s.mem = true
  cur : s.cur.InRange
  src : s.src.pos ≤ s.src.len

theorem advance_le {a b : Word} (h : ¬ b ≤ a) : a + 1 ≤ b := by
  have h' := BitVec.not_le.1 h
  rw [BitVec.lt_def] at h'
  rw [BitVec.le_def, BitVec.toNat_add]
  have := b.isLt
  have h1 : (1 : Word).toNat = 1 := rfl
  rw [h1]
  omega

theorem coreOk_moving : Moving (Retains State.CoreOk) where
  toComposes := retains_composes _
  hitEnd _ _ h := ⟨h.mem, h.cur, h.src⟩
  advance _ hp h := ⟨h.mem, h.cur, advance_le hp⟩
  mark _ h := ⟨h.mem, h.cur, h.src⟩
  reader _ _ h := ⟨h.mem, h.cur, h.src⟩
  take _ h := ⟨h.mem, takeSegment_inRange h.cur, h.src⟩
  which s h := by
    have hc := h.cur.count
    exact ⟨h.mem, ⟨h.cur.table, h.cur.count, h.cur.next, h.cur.bytes, ⟨by dsimp; omega, by dsimp; omega⟩, h.cur.known⟩, h.src⟩
  ended _ h := ⟨h.mem, ⟨h.cur.table, h.cur.count, h.cur.next, h.cur.bytes, h.cur.which, h.cur.known⟩, h.src⟩
  opened _ h := ⟨h.mem, ⟨h.cur.table, h.cur.count, h.cur.next, by dsimp; omega, h.cur.which, h.cur.known⟩, h.src⟩
  byteTaken s h := by
    have hb := h.cur.bytes
    exact ⟨h.mem, ⟨h.cur.table, h.cur.count, h.cur.next, by dsimp; omega, h.cur.which, h.cur.known⟩, h.src⟩
  latch _ flag g _ hs h := ⟨h.mem, latchPage_inRange flag g hs h.cur, h.src⟩
  latchPart _ flag g _ hs h := ⟨h.mem, latchPartialPage_inRange flag g hs h.cur, h.src⟩
  noted _ _ h := ⟨h.mem, h.cur, h.src⟩
  moveEnd _ h := ⟨h.mem, h.cur, BitVec.le_refl _⟩
  move _ _ hp h := ⟨h.mem, h.cur, BitVec.le_of_lt (BitVec.not_le.1 hp)⟩

theorem coreOk_booking : Booking (Retains State.CoreOk) where
  toReading := coreOk_moving.toReading
  work _ _ _ h := ⟨h.mem, h.cur, h.src⟩
  booked _ _ _ h := ⟨h.mem, h.cur, h.src⟩

theorem coreOk_setting : Setting (Retains State.CoreOk) where
  toDecoding := coreOk_booking.toDecoding
  reserved _ _ h := ⟨h.mem, h.cur, h.src⟩
  tables _ _ _ h := ⟨h.mem, h.cur, h.src⟩
  channels _ _ _ _ _ h := ⟨h.mem, h.cur, h.src⟩
  rate _ _ _ h := ⟨h.mem, h.cur, h.src⟩
  sizes _ _ _ _ _ _ h := ⟨h.mem, h.cur, h.src⟩

/-! ### The stream identity -/

/-- The three parts of a legal stream identity. -/
def State.ChannelsOk (s : State) : Prop := 1 ≤ s.tab.channels ∧ s.tab.channels ≤ 255 ∧ s.tab.channels ≤ s.params.maxChannels

def State.RateOk (s : State) : Prop := s.tab.sampleRate ≠ 0

def State.SizesOk (s : State) : Prop :=
  6 ≤ s.tab.logBlocksize0 ∧ s.tab.logBlocksize0 ≤ s.tab.logBlocksize1 ∧ s.tab.logBlocksize1 ≤ 13

theorem identity_iff (s : State) :
    s.tab.IdentityOk s.params ↔ s.ChannelsOk ∧ s.RateOk ∧ s.SizesOk :=
  ⟨fun h => ⟨h.channels, h.rate, h.sizes⟩, fun h => ⟨h.1, h.2.1, h.2.2⟩⟩

theorem channelsOk_setting : Setting (Retains State.ChannelsOk) where
  toComposes := retains_composes _
  hitEnd _ _ h := h
  advance _ _ h := h
  mark _ h := h
  reader _ _ h := h
  take _ h := h
  which _ h := h
  ended _ h := h
  opened _ h := h
  byteTaken _ h := h
  latch _ _ _ _ _ h := h
  latchPart _ _ _ _ _ h := h
  noted _ _ h := h
  work _ _ _ h := h
  reserved _ _ h := h
  tables s t hi h := by
    show 1 ≤ t.channels ∧ t.channels ≤ 255 ∧ t.channels ≤ s.params.maxChannels
    rw [hi.channels]
    exact h
  channels _ c h0 h1 h2 _ := by
    show 1 ≤ c ∧ c ≤ 255 ∧ _
    exact ⟨by omega, by omega, h2⟩
  rate _ _ _ h := h
  sizes _ _ _ _ _ _ h := h

theorem rateOk_setting : Setting (Retains State.RateOk) where
  toComposes := retains_composes _
  hitEnd _ _ h := h
  advance _ _ h := h
  mark _ h := h
  reader _ _ h := h
  take _ h := h
  which _ h := h
  ended _ h := h
  opened _ h := h
  byteTaken _ h := h
  latch _ _ _ _ _ h := h
  latchPart _ _ _ _ _ h := h
  noted _ _ h := h
  work _ _ _ h := h
  reserved _ _ h := h
  tables s t hi h := by
    show t.sampleRate ≠ 0
    rw [hi.rate]
    exact h
  channels _ _ _ _ _ h := h
  rate _ _ hr _ := hr
  sizes _ _ _ _ _ _ h := h

theorem sizesOk_setting : Setting (Retains State.SizesOk) where
  toComposes := retains_composes _
  hitEnd _ _ h := h
  advance _ _ h := h
  mark _ h := h
  reader _ _ h := h
  take _ h := h
  which _ h := h
  ended _ h := h
  opened _ h := h
  byteTaken _ h := h
  latch _ _ _ _ _ h := h
  latchPart _ _ _ _ _ h := h
  noted _ _ h := h
  work _ _ _ h := h
  reserved _ _ h := h
  tables s t hi h := by
    show 6 ≤ t.logBlocksize0 ∧ t.logBlocksize0 ≤ t.logBlocksize1 ∧ t.logBlocksize1 ≤ 13
    rw [hi.log0, hi.log1]
    exact h
  channels _ _ _ _ _ h := h
  rate _ _ _ h := h
  sizes _ _ _ h1 h2 h3 _ := ⟨h1, h2, h3⟩

/-- A legal identity stays legal through everything a header parse does. -/
theorem identity_setting : Setting (Retains fun s => s.tab.IdentityOk s.params) := by
  have e : (fun s : State => s.tab.IdentityOk s.params) = fun s => s.ChannelsOk ∧ s.RateOk ∧ s.SizesOk :=
    funext fun s => propext (identity_iff s)
  rw [e]
  have A := channelsOk_setting
  have B := rateOk_setting
  have C := sizesOk_setting
  exact
    { toComposes := retains_composes _
      hitEnd := fun s h hp => ⟨A.hitEnd s h hp.1, B.hitEnd s h hp.2.1, C.hitEnd s h hp.2.2⟩
      advance := fun s h hp => ⟨A.advance s h hp.1, B.advance s h hp.2.1, C.advance s h hp.2.2⟩
      mark := fun s hp => hp
      reader := fun s r hp => hp
      take := fun s hp => hp
      which := fun s hp => hp
      ended := fun s hp => hp
      opened := fun s hp => hp
      byteTaken := fun s hp => hp
      latch := fun _ _ _ _ _ hp => hp
      latchPart := fun _ _ _ _ _ hp => hp
      noted := fun _ _ hp => hp
      work := fun _ _ _ hp => hp
      reserved := fun _ _ hp => hp
      tables := fun s t hi hp => ⟨A.tables s t hi hp.1, B.tables s t hi hp.2.1, C.tables s t hi hp.2.2⟩
      channels := fun s c h0 h1 h2 hp => ⟨A.channels s c h0 h1 h2 hp.1, hp.2⟩
      rate := fun s r hr hp => ⟨hp.1, B.rate s r hr hp.2.1, hp.2.2⟩
      sizes := fun s a b h1 h2 h3 hp => ⟨hp.1, hp.2.1, C.sizes s a b h1 h2 h3 hp.2.2⟩ }

/-- Every run that returns ends in a state that meets `Q`. -/
def Ensures {α : Type} (Q : State → Prop) (m : M α) : Prop := ∀ s a t, m s = .ok a t → Q t

variable {α β : Type} {Q : State → Prop}

theorem ensures_skip {m : M α} {k : α → M β} (h : ∀ a, Ensures Q (k a)) : Ensures Q (m >>= k) := by
  intro s b u hb
  obtain ⟨a, t, _, hk⟩ := bind_ok_iff.1 hb
  exact h a t b u hk

theorem ensures_keep {m : M α} {k : α → M β} (h : Ensures Q m) (hk : ∀ a, Keeps (Retains Q) (k a)) :
    Ensures Q (m >>= k) := by
  intro s b u hb
  obtain ⟨a, t, hm, hk'⟩ := bind_ok_iff.1 hb
  exact (hk a).ok hk' (h s a t hm)

theorem ensures_check {b : Bool} {e : ErrCode} {k : Unit → M β} (h : b = true → Ensures Q (k ())) :
    Ensures Q (check b e >>= k) := by
  cases b with
  | true => exact h rfl
  | false =>
    intro s a t ht
    rw [bind_error (check_false e s)] at ht
    cases ht

theorem ensures_modify {f : State → State} {k : Unit → M β} (h : ∀ s, Q (f s)) (hk : Keeps (Retains Q) (k ())) :
    Ensures Q ((modify f : M Unit) >>= k) := by
  intro s b u hb
  rw [bind_ok (modify_run f s)] at hb
  exact hk.ok hb (h s)

/-- A check made at the state that a change then starts from. -/
theorem ensures_get_check {p : State → Bool} {e : ErrCode} {f : State → State} {k : Unit → M β}
    (h : ∀ s, p s = true → Q (f s)) (hk : Keeps (Retains Q) (k ())) :
    Ensures Q ((get : M State) >>= fun s => check (p s) e >>= fun _ => (modify f : M Unit) >>= k) := by
  intro s b u hb
  rw [get_bind] at hb
  cases hp : p s with
  | true =>
    rw [hp, bind_ok (check_true e s), bind_ok (modify_run f s)] at hb
    exact hk.ok hb (h s hp)
  | false =>
    rw [hp, bind_error (check_false e s)] at hb
    cases hb

theorem identification_channels : Ensures State.ChannelsOk identificationBody := by
  refine ensures_skip fun _ => ensures_skip fun _ => ensures_check fun _ => ensures_skip fun ch => ?_
  refine ensures_check fun h0 => ?_
  refine ensures_get_check (p := fun s => decide ((eopByte ch).toNat ≤ s.params.maxChannels)) ?_
    (identificationRest_keeps channelsOk_setting)
  intro s h1
  have := (eopByte ch).isLt
  simp only [bne_iff_ne, ne_eq] at h0
  exact ⟨by show 1 ≤ (eopByte ch).toNat; omega, by show (eopByte ch).toNat ≤ 255; omega, by simpa using h1⟩

theorem identification_rate : Ensures State.RateOk identificationBody := by
  have F := rateOk_setting
  have G := F.toReading
  have C := G.toComposes
  refine ensures_skip fun _ => ensures_skip fun _ => ensures_check fun _ => ensures_skip fun ch => ?_
  refine ensures_skip fun _ => ensures_skip fun _ => ensures_skip fun _ => ensures_skip fun _ => ?_
  refine ensures_skip fun rate => ensures_check fun hr => ?_
  refine ensures_modify (fun s => ?_) ?_
  · simpa [State.RateOk] using hr
  · refine keeps_bind C (get32Packet_keeps G) fun brMax => keeps_bind C (get32Packet_keeps G) fun brNominal => ?_
    refine keeps_bind C (get32Packet_keeps G) fun brMin => ?_
    refine keeps_bind C (setTables_keeps F fun t => ⟨rfl, rfl, rfl, rfl⟩) fun _ => ?_
    refine keeps_bind C (get8Packet_keeps G) fun x => keeps_check_bind C fun hx => ?_
    simp only [Bool.and_eq_true, decide_eq_true_eq] at hx
    refine keeps_bind C (fun s => F.sizes s _ _ hx.1.1.1.1 hx.2 hx.1.2) fun _ => ?_
    exact keeps_bind C (get8Packet_keeps G) fun framing => keeps_bind C (keeps_check C _ _) fun _ => flushPacket_keeps G

theorem identification_sizes : Ensures State.SizesOk identificationBody := by
  have G := sizesOk_setting.toReading
  have C := G.toComposes
  refine ensures_skip fun _ => ensures_skip fun _ => ensures_check fun _ => ensures_skip fun ch => ?_
  refine ensures_skip fun _ => ensures_skip fun _ => ensures_skip fun _ => ensures_skip fun _ => ?_
  refine ensures_skip fun rate => ensures_skip fun _ => ensures_skip fun _ => ensures_skip fun _ => ?_
  refine ensures_skip fun _ => ensures_skip fun _ => ensures_skip fun _ => ensures_skip fun x => ?_
  refine ensures_check fun hx => ?_
  simp only [Bool.and_eq_true, decide_eq_true_eq] at hx
  refine ensures_modify (fun s => ⟨hx.1.1.1.1, hx.2, hx.1.2⟩) ?_
  exact keeps_bind C (get8Packet_keeps G) fun framing => keeps_bind C (keeps_check C _ _) fun _ => flushPacket_keeps G

/-- An identification header that is accepted leaves a legal stream identity (42_setup.md R283, R284). -/
theorem identification_identity : Ensures (fun s => s.tab.IdentityOk s.params) identificationBody :=
  fun s u t h => (identity_iff t).2
    ⟨identification_channels s u t h, identification_rate s u t h, identification_sizes s u t h⟩

/-- Headers that are accepted leave a legal stream identity. -/
theorem openTables_identity : Ensures (fun s => s.tab.IdentityOk s.params) openTables := by
  have F := identity_setting
  have C := F.toComposes
  refine ensures_keep ?_ fun _ => finishTables_keeps F
  refine ensures_skip fun _ => ensures_skip fun _ => ensures_keep ?_ fun _ => ?_
  · exact ensures_skip fun _ => ensures_skip fun _ => ensures_skip fun _ => identification_identity
  · refine keeps_bind C (headerPacket_keeps F _ (commentBody_keeps F)) fun _ => ?_
    exact headerPacket_keeps F _ (setupBody_keeps F)

end Sys2Proof.Machine
end

