-- ==== Sys2Proof/Laws/Commands.lean ====
section
/-! SUPPORT. The invariant across errors, commands and events: each operation that a step is made of keeps it. -/

namespace Sys2Proof.Machine

/-! ### Parts of the invariant -/

theorem State.Inv.core {s : State} (h : s.Inv) : s.CoreOk := ⟨h.mem, h.cur, h.src⟩

/-- The invariant of a state that agrees with a safe one on state, api, identity and parameters. -/
theorem State.Inv.of_core {s t : State} (h : s.Inv) (hc : t.CoreOk) (h1 : t.ctl.state = s.ctl.state)
    (h2 : t.ctl.api = s.ctl.api) (h3 : t.tab = s.tab) (h4 : t.params = s.params) : t.Inv := by
  refine ⟨hc.mem, hc.cur, hc.src, ⟨?_, ?_, ?_, ?_⟩, ?_⟩
  · rw [h1, h2]; exact h.api.closed
  · rw [h1, h2]; exact h.api.awaiting
  · rw [h1, h2]; exact h.api.decoding
  · rw [h1, h2]; exact h.api.eof
  · unfold State.infoValid
    rw [h1, h3, h4]
    exact h.info

/-- A state in which no rule asks for more than the ranges. -/
theorem State.Inv.of_error {t : State} (hc : t.CoreOk) (h : t.ctl.state = .error) : t.Inv := by
  refine ⟨hc.mem, hc.cur, hc.src, ⟨?_, ?_, ?_, ?_⟩, ?_⟩ <;> simp [State.infoValid, h]

/-- A decoding or ended state. -/
theorem State.Inv.of_open {t : State} (hc : t.CoreOk) (hi : t.tab.IdentityOk t.params)
    (h : t.ctl.state = .decoding ∧ (t.ctl.api = .pull ∨ t.ctl.api = .push) ∨ t.ctl.state = .eof ∧ t.ctl.api = .pull) :
    t.Inv := by
  refine ⟨hc.mem, hc.cur, hc.src, ⟨?_, ?_, ?_, ?_⟩, fun _ => hi⟩ <;> rcases h with ⟨h1, h2⟩ | ⟨h1, h2⟩ <;> simp [h1, h2]

theorem bookkeeping_state (cur : PageCursor) (n : Nat) (g : Geometry) (c : Control) :
    (bookkeeping cur n g c).2.state = c.state ∧ (bookkeeping cur n g c).2.api = c.api := by
  have h := bookkeeping_fields cur n g c
  exact ⟨(congrArg Control.state h :), (congrArg Control.api h :)⟩

theorem inv_moving : Moving (Retains State.Inv) where
  toComposes := retains_composes _
  hitEnd s hp h := h.of_core (coreOk_moving.hitEnd s hp h.core) rfl rfl rfl rfl
  advance s hp h := h.of_core (coreOk_moving.advance s hp h.core) rfl rfl rfl rfl
  mark s h := h.of_core (coreOk_moving.mark s h.core) rfl rfl rfl rfl
  reader s r h := h.of_core (coreOk_moving.reader s r h.core) rfl rfl rfl rfl
  take s h := h.of_core (coreOk_moving.take s h.core) rfl rfl rfl rfl
  which s h := h.of_core (coreOk_moving.which s h.core) rfl rfl rfl rfl
  ended s h := h.of_core (coreOk_moving.ended s h.core) rfl rfl rfl rfl
  opened s h := h.of_core (coreOk_moving.opened s h.core) rfl rfl rfl rfl
  byteTaken s h := h.of_core (coreOk_moving.byteTaken s h.core) rfl rfl rfl rfl
  latch s flag g segs hs h := h.of_core (coreOk_moving.latch s flag g segs hs h.core) rfl rfl rfl rfl
  latchPart s flag g segs hs h := h.of_core (coreOk_moving.latchPart s flag g segs hs h.core) rfl rfl rfl rfl
  noted s e h := h.of_core (coreOk_moving.noted s e h.core) rfl rfl rfl rfl
  moveEnd s h := h.of_core (coreOk_moving.moveEnd s h.core) rfl rfl rfl rfl
  move s p hp h := h.of_core (coreOk_moving.move s p hp h.core) rfl rfl rfl rfl

theorem inv_booking : Booking (Retains State.Inv) where
  toReading := inv_moving.toReading
  work s w hw h := h.of_core (coreOk_booking.work s w hw h.core) rfl rfl rfl rfl
  booked s n g h := h.of_core (coreOk_booking.booked s n g h.core) (bookkeeping_state _ _ _ _).1
    (bookkeeping_state _ _ _ _).2 rfl rfl

theorem inv_setting : Setting (Retains State.Inv) where
  toDecoding := inv_booking.toDecoding
  reserved s w h := h.of_core (coreOk_setting.reserved s w h.core) rfl rfl rfl rfl
  tables s t hi h := ⟨h.mem, h.cur, h.src, h.api, fun hv => identity_setting.tables s t hi (h.info hv)⟩
  channels s c h0 h1 h2 h := ⟨h.mem, h.cur, h.src, h.api, fun hv => identity_setting.channels s c h0 h1 h2 (h.info hv)⟩
  rate s r hr h := ⟨h.mem, h.cur, h.src, h.api, fun hv => identity_setting.rate s r hr (h.info hv)⟩
  sizes s a b h1 h2 h3 h := ⟨h.mem, h.cur, h.src, h.api, fun hv => identity_setting.sizes s a b h1 h2 h3 (h.info hv)⟩

/-! ### Errors -/

/-- Taking an error keeps the invariant, whatever the code. -/
theorem takeError_inv (e : ErrCode) {s : State} (h : s.Inv) : (takeError e s).Inv := by
  have fatal : ({ ((s.setError e).setResult .error).discardTables with ctl.state := .error } : State).Inv :=
    State.Inv.of_error ⟨h.mem, h.cur, h.src⟩ rfl
  unfold takeError
  cases hc : e.classIn s.inHeaders with
  | setup => exact fatal
  | resource => exact fatal
  | misuse => exact State.Inv.of_error ⟨h.mem, h.cur, h.src⟩ rfl
  | command => exact h.of_core ⟨h.mem, h.cur, h.src⟩ rfl rfl rfl rfl
  | signal => exact h.of_core ⟨h.mem, h.cur, h.src⟩ rfl rfl rfl rfl
  | stream =>
    by_cases hp : s.ctl.api = .push
    · simp only [if_pos hp]
      exact h.of_core ⟨h.mem, h.cur, h.src⟩ rfl rfl rfl rfl
    · simp only [if_neg hp]
      by_cases hq : e = .unexpectedEof ∧ s.ctl.state = .decoding
      · simp only [if_pos hq]
        have hv : s.infoValid = true := by simp [State.infoValid, hq.2]
        have ha : s.ctl.api = .pull := (h.api.decoding hq.2).resolve_right hp
        exact State.Inv.of_open ⟨h.mem, h.cur, h.src⟩ (h.info hv) (Or.inr ⟨rfl, ha⟩)
      · simp only [if_neg hq]
        exact h.of_core ⟨h.mem, h.cur, h.src⟩ rfl rfl rfl rfl

theorem setControl_inv {f : Control → Control} (h1 : ∀ c, (f c).state = c.state) (h2 : ∀ c, (f c).api = c.api) :
    Keeps (Retains State.Inv) (setControl f) :=
  fun s h => h.of_core ⟨h.mem, h.cur, h.src⟩ (h1 _) (h2 _) rfl rfl

theorem skipTail_inv : Keeps (Retains State.Inv) skipTail :=
  keeps_bind inv_moving.toComposes (fun s => inv_moving.opened s) fun _ => flushPacket_keeps inv_moving.toReading

theorem word_zero_le (w : Word) : (0 : Word) ≤ w := by
  rw [BitVec.le_def]
  exact Nat.zero_le _

theorem neg_one_range : (-1 : Int) ≤ -1 ∧ (-1 : Int) ≤ 254 := ⟨by omega, by omega⟩

theorem nextSeg_none_inRange {c : PageCursor} (h : c.InRange) : ({ c with nextSeg := -1 } : PageCursor).InRange :=
  ⟨h.table, h.count, neg_one_range, h.bytes, h.which, h.known⟩

theorem rescan_inv : Keeps (Retains State.Inv) rescan := by
  have C := inv_moving.toComposes
  refine keeps_bind C (keeps_get C) fun s => keeps_bind C (setPos_keeps inv_moving.toScanning _) fun _ => ?_
  refine keeps_bind C (findPage_keeps inv_moving.toScanning) fun _ => keeps_bind C (fun _ h => ?_) fun _ => ?_
  · exact h.of_core ⟨h.mem, nextSeg_none_inRange h.cur, h.src⟩ rfl rfl rfl rfl
  · exact setControl_inv (fun _ => rfl) fun _ => rfl

theorem recover_inv (e : ErrCode) : Keeps (Retains State.Inv) (recover e) := by
  have C := inv_moving.toComposes
  cases e <;> first | exact rescan_inv | exact skipTail_inv | exact keeps_pure C _

theorem failFrame_inv (e : ErrCode) {s : State} (h : s.Inv) : (failFrame e s).Inv := by
  unfold failFrame
  split
  · exact takeError_inv e h
  · split
    · next hr => exact takeError_inv e ((recover_inv e).ok hr h)
    · next hr => exact takeError_inv e ((recover_inv e).error hr h)

/-! ### Opening -/

theorem cursorReset_inRange : PageCursor.reset.InRange :=
  ⟨List.length_replicate, Nat.zero_le _, neg_one_range, Nat.zero_le _, neg_one_range,
    Int.le_refl _, by show (-2 : Int) ≤ 254; omega⟩

theorem openPrologue_core (api : Api) {s : State} (h : s.CoreOk) : (openPrologue api s).CoreOk :=
  ⟨h.mem, cursorReset_inRange, word_zero_le _⟩

theorem openTables_view {s : State} (a : Unit) {t : State} (h : openTables s = .ok a t) :
    t.ctl.state = s.ctl.state ∧ t.ctl.api = s.ctl.api := by
  have hv := (openTables_keeps setupView_setting).ok h
  exact ⟨congrArg (fun v => v.ctl.state) hv, congrArg (fun v => v.ctl.api) hv⟩

theorem openTables_errorView {s t : State} {e : ErrCode} (h : openTables s = .error e t) :
    t.ctl.state = s.ctl.state ∧ t.ctl.api = s.ctl.api := by
  have hv := (openTables_keeps setupView_setting).error h
  exact ⟨congrArg (fun v => v.ctl.state) hv, congrArg (fun v => v.ctl.api) hv⟩

/-- A failed open ends in ERROR (60_exceptions.md R602, R603). -/
theorem takeError_open {e : ErrCode} {t : State} (he : OpenCode e) (hh : t.inHeaders = true) :
    takeError e t = { ((t.setError e).setResult .error).discardTables with ctl.state := .error } := by
  unfold takeError
  rw [hh]
  rcases he with he | he <;> rw [he]

theorem probeFirstPage_inv : Keeps (Retains State.Inv) probeFirstPage := by
  have C := inv_moving.toComposes
  refine keeps_bind C (findPage_keeps inv_moving.toScanning) fun found => keeps_bind C (keeps_get C) fun s => ?_
  refine keeps_bind C (setControl_inv (fun _ => rfl) fun _ => rfl) fun _ => ?_
  exact keeps_bind C (setPos_keeps inv_moving.toScanning _) fun _ => keeps_pure C _

/-- OPEN_PULL's steps either succeed after the headers were accepted, or raise what the headers raise. -/
theorem openPullSteps_error {s t : State} {e : ErrCode} (h : openPullSteps s = .error e t) : openTables s = .error e t := by
  rcases bind_error_iff.1 h with h | ⟨_, u, _, h⟩
  · exact h
  · rw [bind_ok (modify_run openRuntime u)] at h
    exact (probeFirstPage_raises _ _ _ h).elim

theorem openRuntime_inv {s : State} (hc : s.CoreOk) (hi : s.tab.IdentityOk s.params)
    (ha : s.ctl.api = .pull ∨ s.ctl.api = .push) : (openRuntime s).Inv :=
  State.Inv.of_open ⟨hc.mem, hc.cur, hc.src⟩ hi (Or.inl ⟨rfl, ha⟩)

theorem setResult_inv (r : Result) {s : State} (h : s.Inv) : (s.setResult r).Inv :=
  h.of_core ⟨h.mem, h.cur, h.src⟩ rfl rfl rfl rfl

theorem openPullBody_inv {s : State} (h : s.Inv) : (openPullBody s).Inv := by
  have hc : ({ openPrologue .pull s with ctl.state := .awaitingHeaders } : State).CoreOk :=
    ⟨h.mem, cursorReset_inRange, word_zero_le _⟩
  unfold openPullBody
  split
  · next t hr =>
    refine setResult_inv _ ?_
    obtain ⟨_, u, hu, hr⟩ := bind_ok_iff.1 hr
    rw [bind_ok (modify_run openRuntime u)] at hr
    have hv := openTables_view _ hu
    refine probeFirstPage_inv.ok hr (openRuntime_inv ((openTables_keeps coreOk_setting).ok hu hc)
      (openTables_identity _ _ _ hu) (Or.inl ?_))
    rw [hv.2]
    rfl
  · next e t hr =>
    have hu := openPullSteps_error hr
    have hv := openTables_errorView hu
    have ht := (openTables_keeps coreOk_setting).error hu hc
    rw [takeError_open (openTables_raises _ _ _ hu) (by simp [State.inHeaders, hv.1])]
    exact State.Inv.of_error ⟨ht.mem, ht.cur, ht.src⟩ rfl

theorem openNeedsMore_inv {t : State} (hc : t.CoreOk) (ha : t.ctl.api = .push) : (openNeedsMore t).Inv := by
  refine ⟨hc.mem, hc.cur, hc.src, ⟨?_, ?_, ?_, ?_⟩, ?_⟩
  · intro hs; cases hs
  · intro _; exact ha
  · intro hs; cases hs
  · intro hs; cases hs
  · intro hs; cases hs

theorem openPushBody_inv {s : State} (h : s.Inv) (hs : s.ctl.state = .closed ∨ s.ctl.state = .awaitingHeaders) :
    (openPushBody s).Inv := by
  have hc := openPrologue_core .push h.core
  unfold openPushBody
  split
  · next t hr =>
    have ht := (openTables_keeps coreOk_setting).ok hr hc
    have ha : t.ctl.api = .push := (openTables_view _ hr).2
    split
    · exact openNeedsMore_inv ht ha
    · have hi := openRuntime_inv ht (openTables_identity _ _ _ hr) (Or.inr ha)
      exact hi.of_core ⟨hi.mem, hi.cur, hi.src⟩ rfl rfl rfl rfl
  · next e t hr =>
    have ht := (openTables_keeps coreOk_setting).error hr hc
    have hv := openTables_errorView hr
    split
    · exact openNeedsMore_inv ht hv.2
    · have hh : t.inHeaders = true := by
        have h1 : t.ctl.state = s.ctl.state := hv.1
        rcases hs with hs | hs <;> simp [State.inHeaders, h1, hs]
      rw [takeError_open (openTables_raises _ _ _ hr) hh]
      exact State.Inv.of_error ⟨ht.mem, ht.cur, ht.src⟩ rfl

/-! ### Decoding -/

theorem finishFrame_fields (f : Frame) (s : State) :
    { (finishFrame f s).2 with work := Work.reset, ctl := { (finishFrame f s).2.ctl with previousLength := 0 } } =
    { s with work := Work.reset, ctl := { s.ctl with previousLength := 0 } } := by
  unfold finishFrame
  simp only []
  split
  · rfl
  · split <;> rfl

/-- The machine with what the overlap-add and the output slice can change taken out. -/
def outputView (s : State) : State :=
  { s with work := Work.reset, ctl := { s.ctl with previousLength := 0, outLeft := 0, outLen := 0 } }

/-- Delivering a frame changes the buffers, the retained length and the output slice, and nothing else. -/
theorem deliverFrame_view (f : Frame) (s : State) : outputView (deliverFrame f s).2 = outputView s := by
  have h := congrArg outputView (finishFrame_fields f s)
  exact h

theorem inv_of_outputView {s t : State} (hv : outputView t = outputView s) (h : s.Inv) : t.Inv := by
  have hm : t.mem = s.mem := (congrArg State.mem hv :)
  have hc : t.cur = s.cur := (congrArg State.cur hv :)
  have hs : t.src = s.src := (congrArg State.src hv :)
  exact h.of_core ⟨hm ▸ h.mem, hc ▸ h.cur, hs ▸ h.src⟩ (congrArg (fun v => v.ctl.state) hv)
    (congrArg (fun v => v.ctl.api) hv) (congrArg State.tab hv :) (congrArg State.params hv :)

theorem deliverFrame_inv (f : Frame) {s : State} (h : s.Inv) : (deliverFrame f s).2.Inv :=
  inv_of_outputView (deliverFrame_view f s) h

theorem decodeFrameBody_inv {s : State} (h : s.Inv) (ha : s.ctl.api = .pull)
    (hs : s.ctl.state = .decoding ∨ s.ctl.state = .eof) : (decodeFrameBody s).Inv := by
  have hp : (framePrologue s).Inv := h.of_core ⟨h.mem, h.cur, h.src⟩ rfl rfl rfl rfl
  have hi : s.tab.IdentityOk s.params := h.info (by rcases hs with hs | hs <;> simp [State.infoValid, hs])
  unfold decodeFrameBody
  split
  · exact setResult_inv _ hp
  · split
    · next f t hr =>
      have ht := deliverFrame_inv f ((decodePacket_keeps inv_booking).ok hr hp)
      exact ht.of_core ⟨ht.mem, ht.cur, ht.src⟩ rfl rfl rfl rfl
    · next t hr =>
      have ht := (decodePacket_keeps inv_booking).ok hr hp
      have hv := (decodePacket_keeps audioView_booking).ok hr
      have hta : t.ctl.api = .pull := (congrArg (fun v => v.ctl.api) hv).trans ha
      have htt : t.tab = s.tab := (congrArg State.tab hv :)
      have htp : t.params = s.params := (congrArg State.params hv :)
      refine State.Inv.of_open ⟨ht.mem, ht.cur, ht.src⟩ ?_ (Or.inr ⟨rfl, hta⟩)
      show t.tab.IdentityOk t.params
      rw [htt, htp]
      exact hi
    · next e t hr =>
      exact failFrame_inv e ((decodePacket_keeps inv_booking).error hr hp)

theorem resyncScan_inv {s : State} (h : s.Inv) : (resyncScan s).Inv := by
  unfold resyncScan
  simp only []
  split
  · exact h.of_core ⟨h.mem, nextSeg_none_inRange h.cur, h.src⟩ rfl rfl rfl rfl
  · have ht := takeError_inv .needMoreData h
    exact ht.of_core ⟨ht.mem, ht.cur, ht.src⟩ rfl rfl rfl rfl

theorem pushFails_inv (e : ErrCode) {s : State} (h : s.Inv) : (pushFails e s).Inv := by
  have ht := takeError_inv e h
  exact ht.of_core ⟨ht.mem, ht.cur, ht.src⟩ rfl rfl rfl rfl

theorem reportConsumed_inv {s : State} (h : s.Inv) : s.reportConsumed.Inv :=
  h.of_core ⟨h.mem, h.cur, h.src⟩ rfl rfl rfl rfl

theorem skipPushed_inv (e : ErrCode) : Keeps (Retains State.Inv) (skipPushed e) := by
  have C := inv_moving.toComposes
  have D := drainPacket_keeps inv_moving.toReading
  exact keeps_ite (fun _ => keeps_bind C (fun s => inv_moving.opened s) fun _ => D) fun _ => D

theorem pushPacket_inv {s : State} (h : s.Inv) : (pushPacket s).Inv := by
  unfold pushPacket
  split
  · next f t hr =>
    have ht := deliverFrame_inv f ((decodePacket_keeps inv_booking).ok hr h)
    exact ht.of_core ⟨ht.mem, ht.cur, ht.src⟩ rfl rfl rfl rfl
  · next t hr => exact reportConsumed_inv ((decodePacket_keeps inv_booking).ok hr h)
  · next e t hr =>
    have ht := (decodePacket_keeps inv_booking).error hr h
    split
    · split
      · next hk => exact reportConsumed_inv ((skipPushed_inv e).ok hk ht)
      · next hk => exact pushFails_inv _ ((skipPushed_inv e).error hk ht)
    · exact pushFails_inv e ht

theorem pushDecodeBody_inv {s : State} (h : s.Inv) : (pushDecodeBody s).Inv := by
  have hp : ({ s.takeChunk with ctl.outLen := 0, regs.ret1 := 0, regs.ret2 := BitVec.ofNat 32 s.tab.channels } : State).Inv :=
    h.of_core ⟨h.mem, h.cur, word_zero_le _⟩ rfl rfl rfl rfl
  unfold pushDecodeBody
  simp only []
  split
  · exact resyncScan_inv hp
  · split
    · exact takeError_inv _ hp
    · exact takeError_inv _ (hp.of_core ⟨hp.mem, hp.cur, hp.src⟩ rfl rfl rfl rfl)
    · exact pushPacket_inv hp

/-! ### Length and seeking -/

theorem lastPageFuel_inv : ∀ fuel page, Keeps (Retains State.Inv) (lastPageFuel fuel page)
  | 0, _ => keeps_pure inv_moving.toComposes _
  | fuel + 1, page => by
    have C := inv_moving.toComposes
    refine keeps_ite (fun _ => keeps_pure C _) fun _ => keeps_bind C (setPos_keeps inv_moving.toScanning _) fun _ => ?_
    refine keeps_bind C (findPage_keeps inv_moving.toScanning) fun found => ?_
    cases found with
    | none => exact keeps_pure C _
    | some next => exact lastPageFuel_inv fuel next

theorem lengthUnknown_inv : Keeps (Retains State.Inv) lengthUnknown :=
  keeps_bind inv_moving.toComposes (note_keeps inv_moving.toReading _) fun _ =>
    setControl_inv (fun _ => rfl) fun _ => rfl

theorem recordLength_inv (found : Option FoundPage) : Keeps (Retains State.Inv) (recordLength found) := by
  have C := inv_moving.toComposes
  cases found with
  | none => exact lengthUnknown_inv
  | some first =>
    refine keeps_bind C (keeps_get C) fun s => keeps_bind C (lastPageFuel_inv _ _) fun page => ?_
    cases lengthOfGranule (s.granuleAt page.start) with
    | none => exact lengthUnknown_inv
    | some total => exact setControl_inv (fun _ => rfl) fun _ => rfl

theorem streamLength_inv : Keeps (Retains State.Inv) streamLength := by
  have C := inv_moving.toComposes
  refine keeps_bind C (keeps_get C) fun s => keeps_bind C (keeps_readIf C ?_ _) fun _ => ?_
  · refine keeps_bind C (keeps_get C) fun s => keeps_bind C (setPos_keeps inv_moving.toScanning _) fun _ => ?_
    refine keeps_bind C (findPage_keeps inv_moving.toScanning) fun found => keeps_bind C (recordLength_inv _) fun _ => ?_
    exact keeps_bind C (setPos_keeps inv_moving.toScanning _) fun _ => keeps_pure C _
  · exact keeps_bind C (keeps_get C) fun t => keeps_pure C _

theorem streamLengthBody_inv {s : State} (h : s.Inv) : (streamLengthBody s).Inv := by
  unfold streamLengthBody
  split
  · next n t hr =>
    have ht := streamLength_inv.ok hr h
    exact ht.of_core ⟨ht.mem, ht.cur, ht.src⟩ rfl rfl rfl rfl
  · next e t hr => exact takeError_inv e (streamLength_inv.error hr h)

/-- A safe open instance of the pull api. -/
structure State.PullOk (s : State) : Prop where
  core : s.CoreOk
  info : s.tab.IdentityOk s.params
  api : s.ctl.api = .pull

/-- What a safe pull instance is after `rewind`: decoding. -/
theorem rewind_inv {s : State} (h : s.Inv) (ha : s.ctl.api = .pull)
    (hs : s.ctl.state = .decoding ∨ s.ctl.state = .eof) : (endState rewind s).Inv := by
  have hi : s.tab.IdentityOk s.params := h.info (by rcases hs with hs | hs <;> simp [State.infoValid, hs])
  obtain ⟨b, t, ht⟩ := returns_of_never (setPos_raises s.src.firstAudioPageOffset) s
  have h1 := (setPos_keeps coreOk_moving.toScanning _).ok ht h.core
  have hv := (setPos_keeps readView_moving.toScanning _).ok ht
  have e : endState rewind s = { t with
      cur := { t.cur with nextSeg := -1, lastSeg := false, bytesInSeg := 0 }
      rd := { t.rd with validBits := 0 }
      ctl := { t.ctl with
        firstDecode := true, previousLength := 0, discardSamplesDeferred := 0, currentLoc := 0
        currentLocValid := false, outLen := 0, state := .decoding } } := by
    refine endState_ok (a := ()) ?_
    unfold rewind
    rw [get_bind, bind_ok ht]
    rfl
  rw [e]
  have htt : t.tab = s.tab := (congrArg State.tab hv :)
  have htp : t.params = s.params := (congrArg State.params hv :)
  have hta : t.ctl.api = s.ctl.api := congrArg (fun v => v.ctl.api) hv
  refine State.Inv.of_open ⟨h1.mem, ?_, h1.src⟩ ?_ (Or.inl ⟨rfl, Or.inl (hta.trans ha)⟩)
  · exact ⟨h1.cur.table, h1.cur.count, neg_one_range, Nat.zero_le _, h1.cur.which, h1.cur.known⟩
  · show t.tab.IdentityOk t.params
    rw [htt, htp]
    exact hi

theorem runState_endState {m : M Unit} (h : Raises NoCode m) (s : State) : runState m s = endState m s := by
  obtain ⟨a, t, ht⟩ := returns_of_never h s
  simp [runState, endState, ht]

theorem seekStartBody_inv {s : State} (h : s.Inv) (ha : s.ctl.api = .pull)
    (hs : s.ctl.state = .decoding ∨ s.ctl.state = .eof) : (seekStartBody s).Inv := by
  unfold seekStartBody
  split
  · exact takeError_inv _ h
  · rw [runState_endState rewind_raises]
    exact setResult_inv _ (rewind_inv h ha hs)

/-- Where `SetPos` ends (20_memory.md R94). -/
theorem setPos_end (p : Word) (s : State) : ∃ b, setPos p s = .ok b { s with
    src := { s.src with pos := if s.src.len ≤ p then s.src.len else p, eof := decide (s.src.len ≤ p) } } := by
  by_cases h : s.src.len ≤ p
  · exact ⟨false, by unfold setPos; rw [get_bind, if_pos h]; simp [h]; rfl⟩
  · exact ⟨true, by unfold setPos; rw [get_bind, if_neg h]; simp [h]; rfl⟩

/-- A sum of offsets reaches a source's end just when its exact value does (00_scope.md R16). -/
theorem le_offsetPlus (len p : Word) (k : Nat) : len ≤ offsetPlus p k ↔ len.toNat ≤ p.toNat + k := by
  have := len.isLt
  rw [BitVec.le_def, offsetPlus, BitVec.toNat_ofNat]
  omega

/-- A sum of offsets inside a source is exact. -/
theorem offsetPlus_toNat {len p : Word} {k : Nat} (h : p.toNat + k < len.toNat) : (offsetPlus p k).toNat = p.toNat + k := by
  have := len.isLt
  rw [offsetPlus, BitVec.toNat_ofNat]
  omega

/-- Where the rewind of SEEK_START ends (48_frame_control.md R549). -/
theorem rewind_end (s : State) : endState rewind s = { s with
      src := { s.src with
        pos := if s.src.len ≤ s.src.firstAudioPageOffset then s.src.len else s.src.firstAudioPageOffset
        eof := decide (s.src.len ≤ s.src.firstAudioPageOffset) }
      cur := { s.cur with nextSeg := -1, lastSeg := false, bytesInSeg := 0 }
      rd := { s.rd with validBits := 0 }
      ctl := { s.ctl with
        firstDecode := true, previousLength := 0, discardSamplesDeferred := 0, currentLoc := 0
        currentLocValid := false, outLen := 0, state := .decoding } } := by
  obtain ⟨b, hb⟩ := setPos_end s.src.firstAudioPageOffset s
  refine endState_ok (a := ()) ?_
  unfold rewind
  rw [get_bind, bind_ok hb]
  rfl

theorem rewind_decoding (s : State) : (endState rewind s).ctl.state = .decoding ∧
    (endState rewind s).ctl.api = s.ctl.api := by
  rw [rewind_end]
  exact ⟨rfl, rfl⟩

theorem PageCursor.inRange_iff (c : PageCursor) : c.inRange = true ↔ c.InRange := by
  unfold PageCursor.inRange
  rw [decide_eq_true_iff]
  exact ⟨fun ⟨a, b, c, d, e, f⟩ => ⟨a, b, c, d, e, f⟩, fun ⟨a, b, c, d, e, f⟩ => ⟨a, b, c, d, e, f⟩⟩

/-- The ranges a landing stands in (10_state.md R32 to R41, R47, R48, R61). -/
theorem holdsPoint_iff {s : State} {p : DecodePoint} : s.holdsPoint p = true ↔
    p.rd.inRange = true ∧ p.cur.InRange ∧ p.pos ≤ s.src.len ∧ (p.eof = true → p.pos = s.src.len) ∧
      p.discardSamplesDeferred ≤ s.tab.blocksize true ∧ p.previousLength ≤ s.tab.blocksize true / 2 ∧
      p.previousWindow.map List.length = s.work.previousWindow.map List.length := by
  unfold State.holdsPoint
  simp only [Bool.and_eq_true, decide_eq_true_eq, beq_iff_eq, PageCursor.inRange_iff, and_assoc]

/-- The pending code a policy may leave (notes/assumptions/39.md). -/
theorem leavesCode_iff {s : State} {code : Byte} :
    s.leavesCode code = true ↔ code = s.ctl.error ∨ code ∈ ([10, 21, 30, 31, 32, 36] : List Byte) := decide_eq_true_iff

/-- What an accepted landing is (48_frame_control.md R548). -/
theorem landsAt_iff {s : State} {target : Word} {p : DecodePoint} : s.landsAt target p = true ↔
    p.currentLoc ≤ target ∧ s.holdsPoint p = true ∧ s.leavesCode p.error = true ∧
      (s.landed p).remaining = s.remaining.drop p.currentLoc.toNat := by
  unfold State.landsAt
  simp [and_assoc]

theorem landed_inv {s : State} {p : DecodePoint} (h : s.Inv) (ha : s.ctl.api = .pull) (hs : s.ctl.state = .decoding)
    (hc : p.cur.InRange) (hp : p.pos ≤ s.src.len) : (s.landed p).Inv :=
  State.Inv.of_open ⟨h.mem, hc, hp⟩ (h.info (by simp [State.infoValid, hs])) (Or.inl ⟨rfl, Or.inl ha⟩)

/-- A seek either lands where its policy says or is rewound with `seek_failed` (48_frame_control.md R548). -/
theorem seekEnd_cases (policy : Option DecodePoint) (target : Word) (s : State) :
    (∃ p, policy = some p ∧ (endState rewind s).landsAt target p = true ∧ seekEnd policy target s = (endState rewind s).landed p) ∨
    (∀ p, policy = some p → (endState rewind s).landsAt target p = false) ∧
      seekEnd policy target s = takeError .seekFailed (endState rewind s) := by
  unfold seekEnd
  rw [runState_endState rewind_raises]
  cases policy with
  | none => exact .inr ⟨by simp, rfl⟩
  | some p =>
    cases h : (endState rewind s).landsAt target p with
    | true => exact .inl ⟨p, rfl, h, by simp [h]⟩
    | false => exact .inr ⟨fun q hq => by cases hq; exact h, by simp [h]⟩

theorem seekEnd_inv (policy : Option DecodePoint) (target : Word) {s : State} (h : s.Inv) (ha : s.ctl.api = .pull)
    (hs : s.ctl.state = .decoding ∨ s.ctl.state = .eof) : (seekEnd policy target s).Inv := by
  have hr := rewind_inv h ha hs
  have hd := rewind_decoding s
  obtain ⟨p, _, hl, he⟩ | ⟨_, he⟩ := seekEnd_cases policy target s <;> rw [he]
  · obtain ⟨_, hc, hp, _⟩ := holdsPoint_iff.1 (landsAt_iff.1 hl).2.1
    exact landed_inv hr (hd.2.trans ha) hd.1 hc hp
  · exact takeError_inv _ hr

theorem seekTo_inv (target length : Word) {s : State} (h : s.Inv) (ha : s.ctl.api = .pull)
    (hs : s.ctl.state = .decoding ∨ s.ctl.state = .eof) : (seekTo target length s).Inv := seekEnd_inv _ _ h ha hs

/-- The machine with what `stream_length()` can change taken out. -/
def lengthView (s : State) : State :=
  { s with
    src := { s.src with pos := 0, eof := false }
    ctl := { s.ctl with error := 0, totalSamples := 0, totalSamplesKnown := .unknown, pLast := ProbedPage.reset } }

theorem lengthView_scanning : Scanning (Same lengthView) where
  toComposes := same_composes lengthView
  hitEnd _ _ := rfl
  advance _ _ := rfl
  moveEnd _ := rfl
  move _ _ _ := rfl

theorem lastPageFuel_keeps {R : State → State → Prop} (F : Scanning R) : ∀ fuel page, Keeps R (lastPageFuel fuel page)
  | 0, _ => keeps_pure F.toComposes _
  | fuel + 1, page => by
    have C := F.toComposes
    refine keeps_ite (fun _ => keeps_pure C _) fun _ => keeps_bind C (setPos_keeps F _) fun _ => ?_
    refine keeps_bind C (findPage_keeps F) fun found => ?_
    cases found with
    | none => exact keeps_pure C _
    | some next => exact lastPageFuel_keeps F fuel next

theorem streamLength_keeps {R : State → State → Prop} (F : Scanning R) (hn : ∀ s e, R s (s.setError e))
    (hc : ∀ (s : State) a b c, R s { s with ctl := { s.ctl with totalSamples := a, totalSamplesKnown := b, pLast := c } }) :
    Keeps R streamLength := by
  have C := F.toComposes
  have unknown : Keeps R lengthUnknown :=
    keeps_bind C (fun s => hn s _) fun _ => fun s => hc s s.ctl.totalSamples .unknown s.ctl.pLast
  refine keeps_bind C (keeps_get C) fun s => keeps_bind C (keeps_readIf C ?_ _) fun _ => ?_
  · refine keeps_bind C (keeps_get C) fun s => keeps_bind C (setPos_keeps F _) fun _ => ?_
    refine keeps_bind C (findPage_keeps F) fun found => keeps_bind C ?_ fun _ => ?_
    · cases found with
      | none => exact unknown
      | some first =>
        refine keeps_bind C (keeps_get C) fun s => keeps_bind C (lastPageFuel_keeps F _ _) fun page => ?_
        cases lengthOfGranule (s.granuleAt page.start) with
        | none => exact unknown
        | some total => exact fun s => hc s total .known ⟨page.start, page.stop, total⟩
    · exact keeps_bind C (setPos_keeps F _) fun _ => keeps_pure C _
  · exact keeps_bind C (keeps_get C) fun t => keeps_pure C _

theorem streamLength_view : Keeps (Same lengthView) streamLength :=
  streamLength_keeps lengthView_scanning (fun _ _ => rfl) fun _ _ _ _ => rfl

theorem seekBody_inv {s : State} (h : s.Inv) (ha : s.ctl.api = .pull)
    (hs : s.ctl.state = .decoding ∨ s.ctl.state = .eof) : (seekBody s).Inv := by
  unfold seekBody
  simp only []
  split
  · exact takeError_inv _ h
  · split
    · next e t hr => exact takeError_inv e (streamLength_inv.error hr h)
    · next length t hr =>
      have ht := streamLength_inv.ok hr h
      have hv := streamLength_view.ok hr
      have h1 : t.ctl.api = s.ctl.api := congrArg (fun v => v.ctl.api) hv
      have h2 : t.ctl.state = s.ctl.state := congrArg (fun v => v.ctl.state) hv
      split
      · exact takeError_inv _ ht
      · split
        · exact takeError_inv _ ht
        · exact seekTo_inv _ _ ht (h1.trans ha) (by rw [h2]; exact hs)

/-! ### Every instruction -/

/-- A command keeps the invariant when its body does where the checks let it run (60_exceptions.md R610). -/
theorem runCommand_inv (i : Instr) {body : State → State} {s : State} (h : s.Inv)
    (hb : commandAllowed i s.ctl.state = true → (∀ api, commandApi i = some api → s.ctl.api = api) → (body s).Inv) :
    (runCommand i body s).Inv := by
  unfold runCommand
  split
  · exact takeError_inv _ h
  · next hal =>
    have hal : commandAllowed i s.ctl.state = true := by simpa using hal
    split
    · next api hapi =>
      split
      · next he =>
        exact hb hal fun api' h' => by rw [hapi] at h'; cases h'; exact he
      · exact takeError_inv _ h
    · next hnone => exact hb hal fun api' h' => by rw [hnone] at h'; cases h'

theorem hardReset_inv {s : State} (h : Memory.wf s.mem = true) : s.hardReset.Inv :=
  ⟨h, cursorReset_inRange, BitVec.le_refl _,
    ⟨fun _ => rfl, fun h => (by cases h), fun h => (by cases h), fun h => (by cases h)⟩, fun h => (by cases h)⟩

theorem closeBody_inv {s : State} (h : s.Inv) : (closeBody s).Inv := by
  have hr := hardReset_inv h.mem
  exact hr.of_core ⟨hr.mem, hr.cur, hr.src⟩ rfl rfl rfl rfl

/-- A datapath step run by itself keeps the invariant when its steps do. -/
theorem runElement_inv {m : M Unit} (hm : Keeps (Retains State.Inv) m) {s t : State} (h : s.Inv)
    (he : runElement m s = .next t) : t.Inv := by
  unfold runElement at he
  split at he
  · next hr =>
    cases he
    exact hm.ok hr h
  · next hr =>
    cases he
    exact failFrame_inv _ (hm.error hr h)

theorem runOnEntry_inv {b : Bool} {m : M Unit} (hm : Keeps (Retains State.Inv) m) {s t : State} (h : s.Inv)
    (he : runOnEntry b m s = .next t) : t.Inv := by
  unfold runOnEntry at he
  split at he
  · exact runElement_inv hm h he
  · cases he

end Sys2Proof.Machine
end

