-- ==== Sys2Proof/Laws/Parsing.lean ====
section
/-! SUPPORT. Parsing setup fields that lie wholly in the latched page: each parsing function, run on the bits its fields encode to,
returns the fields' values and stops after them. -/

namespace Sys2Proof.Machine

/-- From tables `t`, the step reads exactly `bits`, returns `a`, and leaves tables `t'`. -/
def Parses {α : Type} (m : M α) (t t' : Tables) (bits : List Bool) (a : α) : Prop :=
  ∀ s rest, s.tab = t → s.Holds (bits ++ rest) →
    ∃ u, m s = .ok a u ∧ u.Holds rest ∧ ParsedFrom s u t'

variable {α β : Type} {t t' t'' : Tables}

theorem parsedFrom_trans {s u v : State} (h1 : ParsedFrom s u t') (h2 : ParsedFrom u v t'') : ParsedFrom s v t'' := by
  refine ⟨within_chain h1.within h2.within, ?_⟩
  have h := h2.frame
  rw [h1.frame] at h
  exact h

theorem parsedFrom_read {s u : State} (ht : s.tab = t) (h : ReadFrom s u) : ParsedFrom s u t :=
  ⟨h.within, by rw [← ht]; exact h.frame⟩

theorem parsedFrom_tables (s : State) (t : Tables) : ParsedFrom s { s with tab := t } t := ⟨⟨within_refl _, rfl⟩, rfl⟩

theorem parsedFrom_tab {s u : State} (h : ParsedFrom s u t') : u.tab = t' := by rw [h.frame]

theorem parses_pure (a : α) : Parses (pure a) t t [] a := by
  intro s rest ht h
  exact ⟨s, rfl, h, parsedFrom_read ht (readFrom_refl s)⟩

theorem parses_bind {m : M α} {k : α → M β} {b1 b2 : List Bool} {a : α} {c : β} (hm : Parses m t t' b1 a)
    (hk : Parses (k a) t' t'' b2 c) : Parses (m >>= k) t t'' (b1 ++ b2) c := by
  intro s rest ht h
  rw [List.append_assoc] at h
  obtain ⟨u, hu, h1, h2⟩ := hm s _ ht h
  obtain ⟨v, hv, h3, h4⟩ := hk u rest (parsedFrom_tab h2) h1
  exact ⟨v, by rw [bind_ok hu, hv], h3, parsedFrom_trans h2 h4⟩

/-- A last step that reads nothing. -/
theorem parses_bind_nil {m : M α} {k : α → M β} {b1 : List Bool} {a : α} {c : β} (hm : Parses m t t' b1 a)
    (hk : Parses (k a) t' t'' [] c) : Parses (m >>= k) t t'' b1 c := by
  have := parses_bind hm hk
  rwa [List.append_nil] at this

/-- A first step that reads nothing. -/
theorem parses_nil_bind {m : M α} {k : α → M β} {b2 : List Bool} {a : α} {c : β} (hm : Parses m t t' [] a)
    (hk : Parses (k a) t' t'' b2 c) : Parses (m >>= k) t t'' b2 c := parses_bind hm hk

theorem parses_get_bind {k : State → M β} {b : List Bool} {c : β} (h : ∀ s : State, s.tab = t → Parses (k s) t t' b c) :
    Parses ((get : M State) >>= k) t t' b c := fun s rest ht hh => h s ht s rest ht hh

theorem parses_check {c : Bool} (e : ErrCode) (h : c = true) : Parses (check c e) t t [] () := by
  rw [h]
  exact parses_pure ()

theorem parses_setTables (f : Tables → Tables) : Parses (setTables f) t (f t) [] () := by
  intro s rest ht h
  exact ⟨{ s with tab := f s.tab }, rfl, ⟨⟨h.here.latched, h.here.fits, h.here.live⟩, h.reader, h.valid, h.bits⟩,
    by rw [ht]; exact parsedFrom_tables s _⟩

theorem parses_readIf_true {m : M α} {b : Bool} {bits : List Bool} {a : α} (d : α) (hb : b = true) (h : Parses m t t bits a) :
    Parses (readIf b m d) t t bits a := by
  rw [hb]
  exact h

theorem parses_readIf_false {m : M α} {b : Bool} (d : α) (hb : b = false) : Parses (readIf b m d) t t [] d := by
  rw [hb]
  exact parses_pure d

/-- Reading a list of things one after another. -/
theorem parses_readMany {one : M α} {γ : Type} (enc : γ → List Bool) (val : γ → α) : ∀ xs : List γ,
    (∀ x ∈ xs, Parses one t t (enc x) (val x)) → Parses (readMany one xs.length) t t (xs.flatMap enc) (xs.map val)
  | [], _ => parses_pure _
  | x :: xs, h =>
    parses_bind (h x (List.mem_cons_self ..))
      (parses_bind_nil (parses_readMany enc val xs fun y hy => h y (List.mem_cons_of_mem _ hy)) (parses_pure _))

/-! ### Fields -/

/-- A field (42_setup.md R288). -/
theorem parses_setupBits {n v : Nat} (hv : v < 2 ^ n) (hn : n ≤ 32) : Parses (setupBits n) t t (fieldBits n v) v := by
  intro s rest ht h
  obtain ⟨u, hu, h1, h2⟩ := getBits_field h hv hn
  refine ⟨u, ?_, h1, parsedFrom_read ht h2⟩
  unfold setupBits
  rw [bind_ok hu, get_bind, if_neg (by have := h1.valid; omega)]
  rfl

theorem fieldBits_one (b : Bool) : fieldBits 1 b.toNat = [b] := by cases b <;> rfl

theorem parses_setupFlag (b : Bool) : Parses setupFlag t t [b] b := by
  rw [← fieldBits_one]
  refine parses_bind_nil (parses_setupBits (Bool.toNat_lt b) (by omega)) ?_
  cases b <;> exact parses_pure _

theorem parses_biased {n v : Nat} (hv : v < 2 ^ n) (hn : n ≤ 32) : Parses (biased n) t t (fieldBits n v) (v + 1) :=
  parses_bind_nil (parses_setupBits hv hn) (parses_pure _)

/-- A value field that holds one less. -/
theorem parses_count {n v : Nat} (hv : CountOk n v) (hn : n ≤ 32) : Parses (biased n) t t (fieldBits n (v - 1)) v := by
  have := parses_biased (t := t) (n := n) (v := v - 1) (by have := hv.1; have := hv.2; omega) hn
  rwa [Nat.sub_add_cancel hv.1] at this

/-! ### Floors -/

theorem parses_subclassBook {b : Nat} (h : b < 2 ^ 8 ∧ b ≤ t.codebooks.length) :
    Parses subclassBook t t (fieldBits 8 b) ((b : Int) - 1) := by
  refine parses_bind_nil (parses_setupBits h.1 (by omega)) (parses_get_bind fun s hs => ?_)
  exact parses_nil_bind (parses_check _ (by rw [hs]; simpa using h.2)) (parses_pure _)

theorem parses_floorClass {f : ClassFields} (h : f.Legal t.codebooks.length) : Parses floorClassSetup t t f.encode f.entry := by
  refine parses_bind (parses_setupBits h.widths.1 (by omega)) ?_
  refine parses_bind (parses_setupBits h.widths.2 (by omega)) ?_
  have hm := h.master
  have master : Parses (readIf (f.subclasses != 0) (setupBits 8) 0) t t
      (if f.subclasses = 0 then [] else fieldBits 8 f.masterbook) f.masterbook := by
    by_cases hz : f.subclasses = 0
    · rw [if_pos hz] at hm
      rw [if_pos hz, hm]
      exact parses_readIf_false _ (by simp [hz])
    · rw [if_neg hz] at hm
      rw [if_neg hz]
      exact parses_readIf_true _ (by simp [hz]) (parses_setupBits hm.1 (by omega))
  refine parses_bind master (parses_get_bind fun s hs => parses_nil_bind (parses_check _ ?_) ?_)
  · rw [hs]
    by_cases hz : f.subclasses = 0
    · simp [hz]
    · rw [if_neg hz] at hm
      simp [hm.2]
  · have hb := parses_readMany (t := t) (one := subclassBook) (fieldBits 8) (fun b : Nat => (b : Int) - 1) f.books
      fun b hb => parses_subclassBook (h.books b hb)
    rw [h.count] at hb
    refine parses_bind_nil hb ?_
    show Parses (pure f.entry) t t [] f.entry
    exact parses_pure _

/-- Reading plain fields of one width. -/
theorem parses_fields {n : Nat} (hn : n ≤ 32) (xs : List Nat) (h : ∀ x ∈ xs, x < 2 ^ n) :
    Parses (readMany (setupBits n) xs.length) t t (xs.flatMap (fieldBits n)) xs := by
  have := parses_readMany (t := t) (one := setupBits n) (fieldBits n) id xs fun x hx => parses_setupBits (h x hx) hn
  rwa [List.map_id] at this

/-- The X values of the partitions, taken from one list (30_encoding.md R167). -/
theorem parses_floorXs {rangebits : Nat} (hr : rangebits ≤ 32) (classes : List FloorClass) : ∀ (l xs : List Nat),
    xs.length = (l.map fun c => (classes.getD c ⟨0, 0, 0, []⟩).dim).sum → (∀ x ∈ xs, x < 2 ^ rangebits) →
    Parses (floorXs rangebits classes l) t t (xs.flatMap (fieldBits rangebits)) xs
  | [], xs, hl, _ => by
    have : xs = [] := List.length_eq_zero_iff.1 (by simpa using hl)
    rw [this]
    exact parses_pure _
  | c :: l, xs, hl, hx => by
    have hd : (classes.getD c ⟨0, 0, 0, []⟩).dim ≤ xs.length := by
      rw [List.map_cons, List.sum_cons] at hl
      omega
    generalize hdim : (classes.getD c ⟨0, 0, 0, []⟩).dim = d at *
    have h1 := parses_fields (t := t) hr (xs.take d) fun x hx' => hx x (List.mem_of_mem_take hx')
    have h2 := parses_floorXs hr classes l (xs.drop d)
      (by rw [List.length_drop, hl, List.map_cons, List.sum_cons, hdim]; omega)
      fun x hx' => hx x (List.mem_of_mem_drop hx')
    rw [List.length_take, Nat.min_eq_left hd] at h1
    have h3 : Parses (floorXs rangebits classes (c :: l)) t t ((xs.take d).flatMap (fieldBits rangebits)
        ++ (xs.drop d).flatMap (fieldBits rangebits)) (xs.take d ++ xs.drop d) := by
      refine parses_bind (a := xs.take d) ?_ (parses_bind_nil h2 (parses_pure _))
      rw [hdim]
      exact h1
    rw [← List.flatMap_append, List.take_append_drop] at h3
    exact h3

theorem parses_floor1Setup {f : FloorFields} (h : f.Legal t.codebooks.length) :
    Parses floor1Setup t { t with floors := t.floors ++ [f.entry] } f.encode () := by
  refine parses_bind (parses_setupBits h.partitions (by omega)) ?_
  refine parses_bind (parses_fields (by omega) _ h.classNumbers) ?_
  have hc := parses_readMany (t := t) ClassFields.encode ClassFields.entry f.classes fun c hc => parses_floorClass (h.classes c hc)
  rw [h.classCount] at hc
  refine parses_bind hc ?_
  refine parses_bind (parses_setupBits h.widths.1 (by omega)) ?_
  have hr := h.widths.2
  refine parses_bind (parses_setupBits hr (by omega)) ?_
  refine parses_bind_nil (parses_floorXs (by omega) _ _ f.xs h.xCount h.xValues) ?_
  exact parses_nil_bind (parses_check _ h.distinct) (parses_setTables _)

/-! ### Residues -/

theorem parses_cascade {f : CascadeFields} (h : f.Legal) : Parses residueCascade t t f.encode f.value := by
  refine parses_bind (parses_setupBits h.1 (by omega)) (parses_bind (parses_setupFlag _) ?_)
  cases hh : f.high with
  | none =>
    refine parses_nil_bind (parses_readIf_false _ rfl) ?_
    rw [CascadeFields.value, hh]
    exact parses_pure _
  | some v =>
    refine parses_bind_nil (parses_readIf_true _ rfl (parses_setupBits (h.2 v hh) (by omega))) ?_
    rw [CascadeFields.value, hh]
    exact parses_pure _

/-- The bits of one book field. -/
def bookBits (b : Option Nat) : List Bool := match b with | some v => fieldBits 8 v | none => []

/-- The book number of a field. -/
def bookNumber (b : Option Nat) : Int := match b with | some v => (v : Int) | none => -1

theorem parses_residueBook {cascade pass : Nat} {b : Option Nat} (hs : b.isSome = cascade.testBit pass)
    (hv : ∀ v, b = some v → v < 2 ^ 8 ∧ v < t.codebooks.length) :
    Parses (residueBook cascade pass) t t (bookBits b) (bookNumber b) := by
  unfold residueBook
  rw [← hs]
  cases b with
  | none => exact parses_pure _
  | some v =>
    refine parses_bind_nil (parses_setupBits (hv v rfl).1 (by omega)) (parses_get_bind fun s ht => ?_)
    exact parses_nil_bind (parses_check _ (by rw [ht]; simpa using (hv v rfl).2)) (parses_pure _)

theorem parses_classBooks {cascade : Nat} : ∀ (passes : List Nat) (bs : List (Option Nat)),
    bs.map Option.isSome = passes.map cascade.testBit →
    (∀ v, some v ∈ bs → v < 2 ^ 8 ∧ v < t.codebooks.length) →
    Parses (residueClassBooks cascade passes) t t (bs.flatMap bookBits) (bs.map bookNumber)
  | [], [], _, _ => parses_pure _
  | [], b :: bs, h, _ => by simp at h
  | p :: ps, [], h, _ => by simp at h
  | p :: ps, b :: bs, h, hv => by
    rw [List.map_cons, List.map_cons, List.cons.injEq] at h
    refine parses_bind (parses_residueBook h.1 fun v hb => hv v (hb ▸ List.mem_cons_self ..)) ?_
    exact parses_bind_nil (parses_classBooks ps bs h.2 fun v hb => hv v (List.mem_cons_of_mem _ hb)) (parses_pure _)

theorem parses_residueBooks : ∀ (cs : List CascadeFields) (books : List (List (Option Nat))),
    books.length = cs.length →
    (∀ p ∈ cs.zip books, p.2.map Option.isSome = (List.range 8).map p.1.value.testBit) →
    (∀ bs ∈ books, ∀ v, some v ∈ bs → v < 2 ^ 8 ∧ v < t.codebooks.length) →
    Parses (residueBooks (cs.map CascadeFields.value)) t t (books.flatMap fun bs => bs.flatMap bookBits)
      (books.map fun bs => bs.map bookNumber)
  | [], [], _, _, _ => parses_pure _
  | [], b :: bs, h, _, _ => by simp at h
  | c :: cs, [], h, _, _ => by simp at h
  | c :: cs, b :: bs, h, hm, hv => by
    refine parses_bind (parses_classBooks _ b (hm (c, b) (List.mem_cons_self ..)) fun v hb => hv b (List.mem_cons_self ..) v hb) ?_
    exact parses_bind_nil (parses_residueBooks cs bs (by simpa using h) (fun p hp => hm p (List.mem_cons_of_mem _ hp))
      fun x hx => hv x (List.mem_cons_of_mem _ hx)) (parses_pure _)

theorem parses_residueSetup {f : ResidueFields} (ty : ResidueType) (h : f.Legal t.codebooks.length) :
    Parses (residueSetupAs ty) t { t with residues := t.residues ++ [f.entry ty (t.codebook f.classbook)] } f.encode () := by
  obtain ⟨w1, w2, w3, w4, w5⟩ := h.widths
  refine parses_bind (parses_setupBits w1 (by omega)) (parses_bind (parses_setupBits w2 (by omega)) ?_)
  refine parses_nil_bind (parses_check _ (by simpa using h.order)) ?_
  refine parses_bind (parses_setupBits w3 (by omega)) (parses_bind (parses_setupBits w4 (by omega)) ?_)
  refine parses_bind (parses_setupBits w5 (by omega)) (parses_get_bind fun s hs => ?_)
  refine parses_nil_bind (parses_check _ (by rw [hs]; simpa using h.classbook)) ?_
  have hc := parses_readMany (t := t) CascadeFields.encode CascadeFields.value f.cascades fun c hc => parses_cascade (h.cascades c hc)
  rw [h.cascadeCount] at hc
  refine parses_bind hc (parses_bind_nil (parses_residueBooks f.cascades f.books (h.bookCount.trans h.cascadeCount.symm) h.books
    h.bookValues) ?_)
  have := parses_setTables (t := t) fun t =>
    { t with
      residues := t.residues ++
        [{ type := ty, first := f.first, last := f.last, partSize := f.partSize + 1
           classifications := f.classifications + 1, classbook := f.classbook
           books := f.books.map fun bs => bs.map bookNumber
           classdata := (List.range (s.tab.codebook f.classbook).entries).map
             (classDigits (f.classifications + 1) (s.tab.codebook f.classbook).dimensions) }] }
  rw [hs] at this
  rw [hs]
  exact this

/-! ### Mappings and modes -/

theorem ilog_le {v n : Nat} (h : v < 2 ^ n) : ilog v ≤ n := by
  unfold ilog
  split
  · omega
  · next hz => exact (Nat.log2_lt hz).2 h

theorem lt_ilog (v : Nat) : v < 2 ^ ilog v := by
  unfold ilog
  split
  · next hz => simp [hz]
  · exact Nat.lt_log2_self

theorem parses_coupling {channels : Nat} (hc : channels ≤ 256) {p : Nat × Nat}
    (h : p.1 < channels ∧ p.2 < channels ∧ p.1 ≠ p.2) :
    Parses (couplingStep channels) t t (fieldBits (ilog (channels - 1)) p.1 ++ fieldBits (ilog (channels - 1)) p.2) p := by
  have hl := lt_ilog (channels - 1)
  have hw : ilog (channels - 1) ≤ 32 := (ilog_le (n := 8) (by omega)).trans (by omega)
  refine parses_bind (parses_setupBits (by omega) hw) (parses_bind_nil (parses_setupBits (by omega) hw) ?_)
  exact parses_nil_bind (parses_check _ (by simp [h.1, h.2.1, h.2.2])) (parses_pure _)

theorem parses_mux {submaps v : Nat} (hv : v < 2 ^ 4) (h : v < submaps) : Parses (muxEntry submaps) t t (fieldBits 4 v) v :=
  parses_bind_nil (parses_setupBits hv (by omega)) (parses_nil_bind (parses_check _ (by simpa using h)) (parses_pure _))

theorem parses_submap {p : Nat × Nat × Nat} (h : p.1 < 2 ^ 8 ∧ p.2.1 < 2 ^ 8 ∧ p.2.2 < 2 ^ 8 ∧ p.2.1 < t.floors.length ∧
    p.2.2 < t.residues.length) :
    Parses submapEntry t t (fieldBits 8 p.1 ++ (fieldBits 8 p.2.1 ++ fieldBits 8 p.2.2)) p.2 := by
  refine parses_bind (parses_setupBits h.1 (by omega)) (parses_bind (parses_setupBits h.2.1 (by omega)) ?_)
  refine parses_get_bind fun s hs => parses_nil_bind (parses_check _ (by rw [hs]; simpa using h.2.2.2.1)) ?_
  refine parses_bind_nil (parses_setupBits h.2.2.1 (by omega)) ?_
  exact parses_nil_bind (parses_check _ (by rw [hs]; simpa using h.2.2.2.2)) (parses_pure _)

theorem parses_mapping0Setup {f : MappingFields} (hch : t.channels ≤ 256) (h : f.Legal t) :
    Parses mapping0Setup t { t with mappings := t.mappings ++ [f.entry t.channels] } (f.encode t.channels) () := by
  refine parses_get_bind fun s hs => ?_
  rw [hs]
  refine parses_bind (parses_setupFlag f.several.isSome) ?_
  have several : Parses (readIf f.several.isSome (biased 4) 1) t t
      (match f.several with | some v => fieldBits 4 v | none => []) f.submapCount := by
    unfold MappingFields.submapCount
    cases hv : f.several with
    | none => exact parses_readIf_false _ rfl
    | some v => exact parses_readIf_true _ rfl (parses_biased (h.several v hv) (by omega))
  refine parses_bind several (parses_bind (parses_setupFlag f.coupling.isSome) ?_)
  have coupled : Parses (readIf f.coupling.isSome (biased 8) 0) t t
      (match f.coupling with | some l => fieldBits 8 (l.length - 1) | none => []) f.steps.length := by
    unfold MappingFields.steps
    cases hv : f.coupling with
    | none => exact parses_readIf_false _ rfl
    | some l => exact parses_readIf_true _ rfl (parses_count (h.stepCount l hv) (by omega))
  refine parses_bind coupled (parses_nil_bind (parses_check _ (by simpa using h.stepRange)) ?_)
  have steps := parses_readMany (t := t) (one := couplingStep t.channels) (γ := Nat × Nat)
    (fun p => fieldBits (ilog (t.channels - 1)) p.1 ++ fieldBits (ilog (t.channels - 1)) p.2) id f.steps
    fun p hp => parses_coupling hch (h.steps p hp)
  rw [List.map_id] at steps
  refine parses_bind steps (parses_bind (parses_setupBits (by omega) (by omega)) ?_)
  refine parses_nil_bind (parses_check _ rfl) ?_
  have count16 : f.submapCount ≤ 16 := by
    unfold MappingFields.submapCount
    cases hv : f.several with
    | none => simp
    | some v =>
      have := h.several v hv
      simp only
      omega
  have mux : Parses (readIf (decide (1 < f.submapCount)) (readMany (muxEntry f.submapCount) t.channels)
      (List.replicate t.channels 0)) t t (f.mux.flatMap (fieldBits 4))
      (if 1 < f.submapCount then f.mux else List.replicate t.channels 0) := by
    have hl := h.muxCount
    by_cases hs : 1 < f.submapCount
    · rw [if_pos hs] at hl ⊢
      have hm := parses_readMany (t := t) (one := muxEntry f.submapCount) (fieldBits 4) id f.mux
        fun v hv => parses_mux (by have := h.mux v hv; omega) (h.mux v hv)
      rw [List.map_id, hl] at hm
      exact parses_readIf_true _ (by simpa using hs) hm
    · rw [if_neg hs] at hl ⊢
      rw [List.length_eq_zero_iff.1 hl]
      exact parses_readIf_false _ (by simpa using hs)
  refine parses_bind mux ?_
  have subs := parses_readMany (t := t) (one := submapEntry) (γ := Nat × Nat × Nat)
    (fun p => fieldBits 8 p.1 ++ (fieldBits 8 p.2.1 ++ fieldBits 8 p.2.2)) Prod.snd f.submaps
    fun p hp => parses_submap (h.submaps p hp)
  rw [h.submapCount] at subs
  refine parses_bind_nil subs ?_
  have last := parses_setTables (t := t) fun u =>
    { u with mappings := u.mappings ++ [⟨f.submapCount, f.steps, if 1 < f.submapCount then f.mux else
      List.replicate t.channels 0, (f.submaps.map Prod.snd).map Prod.fst, (f.submaps.map Prod.snd).map Prod.snd⟩] }
  rw [List.map_map, List.map_map] at last
  rw [List.map_map, List.map_map]
  exact last

theorem parses_modeSetup {f : ModeFields} (h : f.mapping < 2 ^ 8 ∧ f.mapping < t.mappings.length) :
    Parses modeSetup t { t with modes := t.modes ++ [⟨f.long, f.mapping⟩] } f.encode () := by
  refine parses_bind (parses_setupFlag _) (parses_bind (parses_setupBits (by omega) (by omega)) ?_)
  refine parses_nil_bind (parses_check _ rfl) (parses_bind (parses_setupBits (by omega) (by omega)) ?_)
  refine parses_nil_bind (parses_check _ rfl) (parses_bind_nil (parses_setupBits h.1 (by omega)) ?_)
  refine parses_get_bind fun s hs => parses_nil_bind (parses_check _ (by rw [hs]; simpa using h.2)) ?_
  exact parses_setTables _

/-! ### Codebooks -/

theorem parses_unordered (sparse : Bool) {l : Option Nat} (h : ∀ len, l = some len → 1 ≤ len ∧ len ≤ 31)
    (hs : sparse = false → l ≠ none) : Parses (unorderedLength sparse) t t (lengthBits sparse l) l := by
  have present : Parses (readIf sparse setupFlag true) t t (if sparse then [l.isSome] else []) l.isSome := by
    cases sparse with
    | true => exact parses_readIf_true _ rfl (parses_setupFlag _)
    | false =>
      have : l.isSome = true := by
        cases l with
        | none => exact (hs rfl rfl).elim
        | some _ => rfl
      rw [this]
      exact parses_readIf_false _ rfl
  refine parses_bind present ?_
  cases l with
  | none => exact parses_pure _
  | some len =>
    obtain ⟨h1, h2⟩ := h len rfl
    refine parses_bind_nil (parses_setupBits (v := len - 1) (by omega) (by omega)) ?_
    rw [Nat.sub_add_cancel h1]
    exact parses_nil_bind (parses_check _ (by simp; omega)) (parses_pure _)

theorem parses_ordered {entries : Nat} (he : entries < 2 ^ 24) : ∀ (runs : List Nat) (fuel entry len : Nat),
    entry + runs.sum = entries → (∀ i < runs.length, entry + (runs.take i).sum < entries) → len + runs.length ≤ 32 →
    runs.length < fuel → Parses (orderedLengths entries fuel entry len) t t (runBits entries entry runs) (runLengths len runs)
  | [], fuel + 1, entry, len, hsum, _, _, _ => by
    unfold orderedLengths
    rw [if_pos (by simp at hsum; omega)]
    exact parses_pure _
  | n :: runs, fuel + 1, entry, len, hsum, hrun, hlen, hfuel => by
    rw [List.sum_cons] at hsum
    rw [List.length_cons] at hlen hfuel
    have h0 := hrun 0 (by simp)
    simp only [List.take_zero, List.sum_nil, Nat.add_zero] at h0
    unfold orderedLengths
    rw [if_neg (by omega)]
    have hn : n < 2 ^ ilog (entries - entry) := by
      have := lt_ilog (entries - entry)
      omega
    have hw : ilog (entries - entry) ≤ 32 := (ilog_le (n := 24) (by omega)).trans (by omega)
    refine parses_bind (parses_setupBits hn hw) (parses_nil_bind (parses_check _ (by simp; omega)) ?_)
    refine parses_bind_nil (parses_ordered he runs fuel (entry + n) (len + 1) (by omega) (fun i hi => ?_) (by omega) (by omega))
      (parses_pure _)
    have := hrun (i + 1) (by simpa using hi)
    rw [List.take_succ_cons, List.sum_cons] at this
    omega

theorem parses_lengths {entries : Nat} (he : entries < 2 ^ 24) {f : LengthFields} (h : f.Legal entries) :
    Parses (do let ordered ← setupFlag; codewordLengths ordered entries) t t (f.encode entries) f.lengths := by
  cases f with
  | unordered sparse ls =>
    obtain ⟨h1, h2, h3⟩ := h
    refine parses_bind (parses_setupFlag false) (parses_bind (parses_setupFlag sparse) ?_)
    have := parses_readMany (t := t) (one := unorderedLength sparse) (lengthBits sparse) id ls fun l hl =>
      parses_unordered sparse (fun len hlen => h2 len (hlen ▸ hl)) fun hs hn => h3 hs (hn ▸ hl)
    rw [List.map_id, h1] at this
    exact this
  | ordered first runs =>
    obtain ⟨h1, h2, h3⟩ := h
    refine parses_bind (parses_setupFlag true) (parses_bind (parses_setupBits (by omega) (by omega)) ?_)
    exact parses_ordered he runs 33 0 (first + 1) (by omega) (fun i hi => by have := h3 i hi; omega) (by omega) (by omega)

end Sys2Proof.Machine
end

