-- ==== Sys2Proof/Laws/Headers.lean ====
section
/-! SUPPORT. Parsing whole header packets that lie in the latched page: the codebooks, the counted tables, the setup body, and the
byte fields of the identification and comment headers. -/

namespace Sys2Proof.Machine

variable {α β : Type} {t t' t'' : Tables}

/-! ### Codebooks -/

theorem mapLast_concat {γ : Type} (f : γ → γ) (pre : List γ) (x : γ) : mapLast f (pre ++ [x]) = pre ++ [f x] := by
  unfold mapLast
  rw [List.length_append, List.length_singleton, Nat.add_sub_cancel]
  induction pre with
  | nil => rfl
  | cons y ys ih => simpa using ih

theorem codebook_last {pre : List Codebook} {cb : Codebook} (ht : t.codebooks = pre ++ [cb]) :
    t.codebook (t.codebooks.length - 1) = cb := by
  unfold Tables.codebook
  rw [ht, List.length_append, List.length_singleton, Nat.add_sub_cancel]
  simp [List.getD]

theorem parses_finishCodebook {pre : List Codebook} {cb : Codebook} {cws : List Word} (ht : t.codebooks = pre ++ [cb])
    (hc : computeCodewords cb.lengths = some cws) :
    Parses finishCodebook t { t with codebooks := pre ++ [{ cb with codewords := cws }] } [] () := by
  refine parses_get_bind fun s hs => ?_
  rw [hs, codebook_last ht]
  simp only [hc]
  have := parses_setTables (t := t) fun t => { t with codebooks := mapLast (fun c => { c with codewords := cws }) t.codebooks }
  simp only [ht, mapLast_concat] at this
  exact this

theorem parses_lookupFields {lt : LookupType} {pre : List Codebook} {cb : Codebook} {f : LookupFields}
    (ht : t.codebooks = pre ++ [cb]) (h : f.Legal lt cb) :
    Parses (lookupFields lt) t { t with codebooks := pre ++ [f.apply lt cb] } f.encode () := by
  obtain ⟨w1, w2, w3⟩ := h.widths
  refine parses_bind (parses_setupBits w1 (by omega)) (parses_bind (parses_setupBits w2 (by omega)) ?_)
  refine parses_bind (parses_setupBits w3 (by omega)) (parses_bind (parses_setupFlag _) ?_)
  refine parses_get_bind fun s hs => ?_
  rw [hs, codebook_last ht]
  have hcount : (lookupCount lt cb != 0) = true := by
    rw [← h.count.1]
    simpa using h.count.2
  refine parses_nil_bind (parses_check _ hcount) ?_
  have hm := parses_fields (t := t) (n := f.bits + 1) (by omega) f.multiplicands h.values
  rw [h.count.1] at hm
  refine parses_bind_nil hm ?_
  have := parses_setTables (t := t) fun t =>
    { t with
      codebooks := mapLast
        (fun c =>
          { c with
            lookupType := lt, minimumValue := float32Unpack f.minimum, deltaValue := float32Unpack f.delta
            valueBits := f.bits + 1, sequenceP := f.sequence, lookupValues := lookupCount lt cb
            multiplicands := f.multiplicands })
        t.codebooks }
  simp only [ht, mapLast_concat] at this
  exact this

/-- What follows the lookup type field of a book with VQ fields (42_setup.md R295 to R300). -/
theorem parses_lookupSetup {lt : LookupType} (hlt : lt ≠ .none) {pre : List Codebook} {cb : Codebook} {f : LookupFields}
    {cws : List Word} (ht : t.codebooks = pre ++ [cb]) (h : f.Legal lt cb) (hc : computeCodewords cb.lengths = some cws) :
    Parses (lookupSetup lt) t { t with codebooks := pre ++ [{ f.apply lt cb with codewords := cws }] } f.encode () := by
  unfold lookupSetup
  rw [if_neg hlt]
  exact parses_bind_nil (parses_lookupFields ht h) (parses_finishCodebook rfl hc)

theorem lookupField_run (lt : LookupType) : lookupField lt.code = lookupSetup lt := by cases lt <;> rfl

theorem lookupType_code_lt (lt : LookupType) : lt.code < 2 ^ 4 := by cases lt <;> decide

theorem parses_codebookSetup {f : CodebookFields} (h : f.Legal) :
    Parses codebookSetup t { t with codebooks := t.codebooks ++ [f.entry] } f.encode () := by
  refine parses_bind (parses_setupBits (by omega) (by omega)) (parses_nil_bind (parses_check _ rfl) ?_)
  refine parses_bind (parses_setupBits h.widths.1 (by omega)) (parses_bind (parses_setupBits h.widths.2 (by omega)) ?_)
  have hd : (!(f.dimensions == 0 && f.entries != 0)) = true := by
    by_cases hz : f.dimensions = 0
    · simp [hz, h.dimension hz]
    · simp [hz]
  refine parses_nil_bind (parses_check _ hd) ?_
  obtain ⟨cws, hc⟩ := Option.isSome_iff_exists.1 h.codewords
  let k : List (Option Nat) → M Unit := fun lengths => do
    setTables fun t =>
      { t with codebooks := t.codebooks ++ [⟨f.dimensions, f.entries, lengths, .none, 0, 0, 0, false, 0, [], []⟩] }
    let lt ← setupBits 4
    lookupField lt
  have rest : Parses (k f.lengths.lengths) t { t with codebooks := t.codebooks ++ [f.entry] } f.lookupBits () := by
    refine parses_nil_bind (parses_setTables _) (parses_bind (parses_setupBits (lookupType_code_lt f.lookupType) (by omega)) ?_)
    rw [lookupField_run]
    have he : f.entry = { f.valued with codewords := cws } := by rw [CodebookFields.entry, hc]; rfl
    rw [he, CodebookFields.valued]
    by_cases hlt : f.lookupType = .none
    · rw [if_pos hlt, if_pos hlt, hlt]
      exact parses_finishCodebook rfl hc
    · rw [if_neg hlt, if_neg hlt]
      exact parses_lookupSetup hlt rfl (h.lookup hlt) hc
  have := parses_bind (k := k) (parses_lengths (t := t) h.widths.2 h.lengths) rest
  rw [bind_assoc] at this
  exact this

/-! ### Counted tables -/

/-- Reading a list of table entries one after another, where each adds itself to the tables. -/
theorem parses_times {γ : Type} {one : M Unit} (enc : γ → List Bool) (add : Tables → γ → Tables) (P : Tables → Prop) :
    ∀ (xs : List γ) (t : Tables), P t → (∀ x ∈ xs, ∀ t, P t → Parses one t (add t x) (enc x) () ∧ P (add t x)) →
      Parses (times one xs.length) t (xs.foldl add t) (xs.flatMap enc) ()
  | [], _, _, _ => parses_pure _
  | x :: xs, t, hp, h => by
    obtain ⟨h1, h2⟩ := h x (List.mem_cons_self ..) t hp
    exact parses_bind h1 (parses_times enc add P xs _ h2 fun y hy => h y (List.mem_cons_of_mem _ hy))

/-- A counted table (30_encoding.md section 4). -/
theorem parses_countedTable {γ : Type} {width : Nat} {one : M Unit} (hw : width ≤ 32) (enc : γ → List Bool)
    (add : Tables → γ → Tables) (P : Tables → Prop) (xs : List γ) (hn : CountOk width xs.length) (hp : P t)
    (h : ∀ x ∈ xs, ∀ t, P t → Parses one t (add t x) (enc x) () ∧ P (add t x)) :
    Parses (countedTable width one) t (xs.foldl add t) (countedBits width xs.length (xs.flatMap enc)) () :=
  parses_bind (parses_count hn hw) (parses_times enc add P xs t hp h)

theorem foldl_codebooks {γ : Type} (f : γ → Codebook) : ∀ (xs : List γ) (t : Tables),
    xs.foldl (fun t x => { t with codebooks := t.codebooks ++ [f x] }) t = { t with codebooks := t.codebooks ++ xs.map f }
  | [], t => by simp
  | x :: xs, t => by
    rw [List.foldl_cons, foldl_codebooks f xs]
    simp

theorem foldl_codebooks_nil {γ : Type} (f : γ → Codebook) (xs : List γ) (t : Tables) (h : t.codebooks = []) :
    xs.foldl (fun t x => { t with codebooks := t.codebooks ++ [f x] }) t = { t with codebooks := xs.map f } := by
  rw [foldl_codebooks, h, List.nil_append]

theorem foldl_floors {γ : Type} (f : γ → Floor) : ∀ (xs : List γ) (t : Tables),
    xs.foldl (fun t x => { t with floors := t.floors ++ [f x] }) t = { t with floors := t.floors ++ xs.map f }
  | [], t => by simp
  | x :: xs, t => by
    rw [List.foldl_cons, foldl_floors f xs]
    simp

theorem foldl_floors_nil {γ : Type} (f : γ → Floor) (xs : List γ) (t : Tables) (h : t.floors = []) :
    xs.foldl (fun t x => { t with floors := t.floors ++ [f x] }) t = { t with floors := xs.map f } := by
  rw [foldl_floors, h, List.nil_append]

theorem foldl_residues {γ : Type} (f : γ → Residue) : ∀ (xs : List γ) (t : Tables),
    xs.foldl (fun t x => { t with residues := t.residues ++ [f x] }) t = { t with residues := t.residues ++ xs.map f }
  | [], t => by simp
  | x :: xs, t => by
    rw [List.foldl_cons, foldl_residues f xs]
    simp

theorem foldl_residues_nil {γ : Type} (f : γ → Residue) (xs : List γ) (t : Tables) (h : t.residues = []) :
    xs.foldl (fun t x => { t with residues := t.residues ++ [f x] }) t = { t with residues := xs.map f } := by
  rw [foldl_residues, h, List.nil_append]

theorem foldl_mappings {γ : Type} (f : γ → Mapping) : ∀ (xs : List γ) (t : Tables),
    xs.foldl (fun t x => { t with mappings := t.mappings ++ [f x] }) t = { t with mappings := t.mappings ++ xs.map f }
  | [], t => by simp
  | x :: xs, t => by
    rw [List.foldl_cons, foldl_mappings f xs]
    simp

theorem foldl_mappings_nil {γ : Type} (f : γ → Mapping) (xs : List γ) (t : Tables) (h : t.mappings = []) :
    xs.foldl (fun t x => { t with mappings := t.mappings ++ [f x] }) t = { t with mappings := xs.map f } := by
  rw [foldl_mappings, h, List.nil_append]

theorem foldl_modes {γ : Type} (f : γ → ModeEntry) : ∀ (xs : List γ) (t : Tables),
    xs.foldl (fun t x => { t with modes := t.modes ++ [f x] }) t = { t with modes := t.modes ++ xs.map f }
  | [], t => by simp
  | x :: xs, t => by
    rw [List.foldl_cons, foldl_modes f xs]
    simp

theorem foldl_modes_nil {γ : Type} (f : γ → ModeEntry) (xs : List γ) (t : Tables) (h : t.modes = []) :
    xs.foldl (fun t x => { t with modes := t.modes ++ [f x] }) t = { t with modes := xs.map f } := by
  rw [foldl_modes, h, List.nil_append]

theorem foldl_same {γ : Type} (xs : List γ) (t : Tables) : xs.foldl (fun t _ => t) t = t := by
  induction xs with
  | nil => rfl
  | cons x xs ih => exact ih

theorem parses_timePlaceholder : Parses timePlaceholder t t (fieldBits 16 0) () :=
  parses_bind_nil (parses_setupBits (by omega) (by omega)) (parses_check _ rfl)

theorem residueField_run (ty : ResidueType) : residueField ty.code = residueSetupAs ty := by cases ty <;> rfl

theorem residueType_code_lt (ty : ResidueType) : ty.code < 2 ^ 16 := by cases ty <;> decide

/-- A mapping's checks look at the channels and at how many floors and residues there are. -/
theorem mappingLegal_congr {f : MappingFields} (h : f.Legal t) (hc : t'.channels = t.channels)
    (hf : t'.floors.length = t.floors.length) (hr : t'.residues.length = t.residues.length) : f.Legal t' := by
  refine ⟨h.several, h.stepCount, ?_, ?_, ?_, h.mux, h.submapCount, ?_⟩
  · rw [hc]; exact h.stepRange
  · rw [hc]; exact h.steps
  · rw [hc]; exact h.muxCount
  · rw [hf, hr]; exact h.submaps

/-- The tables with no entry yet: the stream identity alone. -/
structure Tables.Bare (t : Tables) : Prop where
  codebooks : t.codebooks = []
  floors : t.floors = []
  residues : t.residues = []
  mappings : t.mappings = []
  modes : t.modes = []

/-- The setup body after "vorbis" up to and with its framing bit (42_setup.md R288 to R324). -/
def setupTables : M Unit := do
  countedTable 8 codebookSetup
  countedTable 6 timePlaceholder
  countedTable 6 floorSetup
  countedTable 6 residueSetup
  countedTable 6 mappingSetup
  countedTable 6 modeSetup
  let _framing ← setupBits 1
  pure ()

theorem parses_setupTables {f : SetupFields} (hb : t.Bare) (hch : t.channels ≤ 256) (h : f.Legal t) :
    Parses setupTables t (f.tables t) (f.encode t.channels) () := by
  have c1 := parses_countedTable (t := t) (one := codebookSetup) (width := 8) (by omega) CodebookFields.encode
    (fun t x => { t with codebooks := t.codebooks ++ [x.entry] }) (fun _ => True) f.codebooks h.codebookCount trivial
    fun x hx t _ => ⟨parses_codebookSetup (h.codebooks x hx), trivial⟩
  rw [foldl_codebooks_nil] at c1
  swap; exact hb.codebooks
  refine parses_bind c1 ?_
  have c2 := parses_countedTable (one := timePlaceholder) (width := 6)
    (t := { t with codebooks := f.codebooks.map CodebookFields.entry }) (by omega) (fun _ : Unit => fieldBits 16 0)
    (fun t _ => t) (fun _ => True) (List.replicate f.times ()) (by rw [List.length_replicate]; exact h.times) trivial
    fun x _ t _ => ⟨parses_timePlaceholder, trivial⟩
  rw [foldl_same, List.length_replicate] at c2
  have hrep : (List.replicate f.times ()).flatMap (fun _ => fieldBits 16 0) = (List.replicate f.times (fieldBits 16 0)).flatten := by
    rw [List.flatMap_def, List.map_replicate]
  rw [hrep] at c2
  refine parses_bind c2 ?_
  have c3 := parses_countedTable (one := floorSetup) (width := 6)
    (t := { t with codebooks := f.codebooks.map CodebookFields.entry }) (by omega)
    (fun x : FloorFields => fieldBits 16 1 ++ x.encode) (fun t x => { t with floors := t.floors ++ [x.entry] })
    (fun u => u.codebooks.length = f.codebooks.length) f.floors h.floorCount (by simp)
    fun x hx u hu => ⟨parses_bind (parses_setupBits (by omega) (by omega)) (parses_floor1Setup (by rw [hu]; exact h.floors x hx)), hu⟩
  rw [foldl_floors_nil] at c3
  swap; exact hb.floors
  refine parses_bind c3 ?_
  have c4 := parses_countedTable (one := residueSetup) (width := 6)
    (t := { t with codebooks := f.codebooks.map CodebookFields.entry, floors := f.floors.map FloorFields.entry }) (by omega)
    (fun r : ResidueType × ResidueFields => fieldBits 16 r.1.code ++ r.2.encode)
    (fun u r => { u with residues := u.residues ++ [r.2.entry r.1
      ((f.codebooks.map CodebookFields.entry).getD r.2.classbook ⟨0, 0, [], .none, 0, 0, 0, false, 0, [], []⟩)] })
    (fun u => u.codebooks = f.codebooks.map CodebookFields.entry) f.residues h.residueCount rfl
    fun x hx u hu => ⟨parses_bind (parses_setupBits (residueType_code_lt _) (by omega)) (by
      rw [residueField_run, ← hu]
      exact parses_residueSetup _ (by rw [hu, List.length_map]; exact h.residues x hx)), hu⟩
  rw [foldl_residues_nil] at c4
  swap; exact hb.residues
  refine parses_bind c4 ?_
  have c5 := parses_countedTable (one := mappingSetup) (width := 6)
    (t := { t with
      codebooks := f.codebooks.map CodebookFields.entry, floors := f.floors.map FloorFields.entry
      residues := f.residues.map fun r => r.2.entry r.1
        ((f.codebooks.map CodebookFields.entry).getD r.2.classbook ⟨0, 0, [], .none, 0, 0, 0, false, 0, [], []⟩) })
    (by omega) (fun m : MappingFields => fieldBits 16 0 ++ m.encode t.channels)
    (fun u m => { u with mappings := u.mappings ++ [m.entry t.channels] })
    (fun u => u.channels = t.channels ∧ u.floors.length = f.floors.length ∧ u.residues.length = f.residues.length) f.mappings
    h.mappingCount ⟨rfl, by simp, by simp⟩
    fun x hx u hu => ⟨parses_bind (parses_setupBits (by omega) (by omega)) (by
      have hl : x.Legal u := mappingLegal_congr (h.mappings x hx) hu.1 (by rw [hu.2.1]; simp [SetupFields.tables])
        (by rw [hu.2.2]; simp [SetupFields.tables])
      rw [← hu.1]
      exact parses_mapping0Setup (by rw [hu.1]; exact hch) hl), hu⟩
  rw [foldl_mappings_nil] at c5
  swap; exact hb.mappings
  refine parses_bind c5 ?_
  have c6 := parses_countedTable (one := modeSetup) (width := 6)
    (t := { t with
      codebooks := f.codebooks.map CodebookFields.entry, floors := f.floors.map FloorFields.entry
      residues := f.residues.map fun r => r.2.entry r.1
        ((f.codebooks.map CodebookFields.entry).getD r.2.classbook ⟨0, 0, [], .none, 0, 0, 0, false, 0, [], []⟩)
      mappings := f.mappings.map fun m => m.entry t.channels })
    (by omega) ModeFields.encode
    (fun u m => { u with modes := u.modes ++ [⟨m.long, m.mapping⟩] }) (fun u => u.mappings.length = f.mappings.length) f.modes
    h.modeCount (by simp)
    fun x hx u hu => ⟨parses_modeSetup (by rw [hu]; exact h.modes x hx), hu⟩
  rw [foldl_modes_nil] at c6
  swap; exact hb.modes
  refine parses_bind c6 ?_
  have c7 := parses_setupBits (t := f.tables t) (n := 1) (v := f.framing.toNat) (Bool.toNat_lt _) (by omega)
  rw [fieldBits_one] at c7
  exact parses_bind_nil c7 (parses_pure _)

/-! ### Bytes -/

theorem drainPacketFuel_end {s t : State} (fuel : Nat) (h : get8PacketRaw s = .ok none t) :
    drainPacketFuel (fuel + 1) s = .ok () t := by
  rw [drainPacketFuel, bind_ok h]
  rfl

theorem drainPacketFuel_byte {s t : State} {b : Byte} (fuel : Nat) (h : get8PacketRaw s = .ok (some b) t) :
    drainPacketFuel (fuel + 1) s = drainPacketFuel fuel t := by
  rw [drainPacketFuel, bind_ok h]

theorem drainPacketFuel_here : ∀ (fuel : Nat) (s : State), s.PacketHere → s.packetSize < fuel →
    ∃ u, drainPacketFuel fuel s = .ok () u ∧ u.PacketHere ∧ u.packetSize = 0 ∧ u.cur.lastSeg = true ∧ ReadFrom s u := by
  intro fuel
  induction fuel with
  | zero => intro s _ hf; omega
  | succ fuel ih =>
    intro s h hf
    cases hk : s.packetSize with
    | zero =>
      obtain ⟨c, hget, hc, hw, hl⟩ := get8PacketRaw_end h hk
      obtain ⟨hh, hs⟩ := end_here h hk hc
      exact ⟨_, drainPacketFuel_end fuel hget, hh, hs, hl, readFrom_end h hk hc hw⟩
    | succ k =>
      obtain ⟨c, hget, hc, hw⟩ := get8PacketRaw_byte h hk
      obtain ⟨hh, hs⟩ := byteOn_here h hk hc
      obtain ⟨u, hu, h1, h2, h3, h4⟩ := ih _ hh (by omega)
      exact ⟨u, by rw [drainPacketFuel_byte fuel hget, hu], h1, h2, h3, readFrom_trans (readFrom_byteOn h hk hc hw) h4⟩

theorem drainPacket_here {s : State} (h : s.PacketHere) :
    ∃ u, drainPacket s = .ok () u ∧ u.PacketHere ∧ u.packetSize = 0 ∧ u.cur.lastSeg = true ∧ ReadFrom s u := by
  have hf := h.fits
  exact drainPacketFuel_here s.packetFuel s h (by unfold State.packetFuel; omega)

/-- `flush_packet()` takes the rest of the packet (40_bitreader.md R211). -/
theorem flushPacket_here {s : State} (h : s.PacketHere) : ∃ u, flushPacket s = .ok () u ∧ u.PacketDone ∧ ReadFrom s u := by
  obtain ⟨u, hu, h1, h2, h3, h4⟩ := drainPacket_here h
  refine ⟨{ u with rd.validBits := 0 }, ?_, ⟨⟨h1.latched, h1.fits, h1.live⟩, h2, h3, rfl⟩,
    readFrom_trans h4 (readFrom_reader u _)⟩
  unfold flushPacket
  rw [bind_ok hu, setReader_run]

/-- From tables `t`, the step takes exactly the packet bytes `bytes`, returns `a`, and leaves tables `t'`. -/
def Takes {α : Type} (p : Config.Params) (m : M α) (t t' : Tables) (bytes : List Byte) (a : α) : Prop :=
  ∀ s rest, s.tab = t → s.params = p → s.PacketHere → s.packetBytes = bytes ++ rest →
    ∃ u, m s = .ok a u ∧ u.PacketHere ∧ u.packetBytes = rest ∧ ParsedFrom s u t' ∧
      (bytes ≠ [] → u.rd.validBits = 0) ∧ (s.rd.validBits = 0 → u.rd.validBits = 0)

variable {p : Config.Params}

theorem takes_pure (a : α) : Takes p (pure a) t t [] a := by
  intro s rest ht _ h hb
  exact ⟨s, rfl, h, hb, parsedFrom_read ht (readFrom_refl s), fun h => (h rfl).elim, id⟩

theorem takes_bind {m : M α} {k : α → M β} {b1 b2 : List Byte} {a : α} {c : β} (hm : Takes p m t t' b1 a)
    (hk : Takes p (k a) t' t'' b2 c) : Takes p (m >>= k) t t'' (b1 ++ b2) c := by
  intro s rest ht hp h hb
  rw [List.append_assoc] at hb
  obtain ⟨u, hu, h1, h2, h3, h4, h5⟩ := hm s _ ht hp h hb
  obtain ⟨v, hv, g1, g2, g3, g4, g5⟩ := hk u rest (parsedFrom_tab h3) (by rw [h3.frame, ← hp]) h1 h2
  refine ⟨v, by rw [bind_ok hu, hv], g1, g2, parsedFrom_trans h3 g3, fun hne => ?_, fun hz => g5 (h5 hz)⟩
  · by_cases hb2 : b2 = []
    · rw [hb2, List.append_nil] at hne
      exact g5 (h4 hne)
    · exact g4 hb2

theorem takes_bind_nil {m : M α} {k : α → M β} {b1 : List Byte} {a : α} {c : β} (hm : Takes p m t t' b1 a)
    (hk : Takes p (k a) t' t'' [] c) : Takes p (m >>= k) t t'' b1 c := by
  have := takes_bind hm hk
  rwa [List.append_nil] at this

theorem takes_nil_bind {m : M α} {k : α → M β} {b2 : List Byte} {a : α} {c : β} (hm : Takes p m t t' [] a)
    (hk : Takes p (k a) t' t'' b2 c) : Takes p (m >>= k) t t'' b2 c := takes_bind hm hk

theorem takes_get_bind {k : State → M β} {b : List Byte} {c : β}
    (h : ∀ s : State, s.tab = t → s.params = p → Takes p (k s) t t' b c) :
    Takes p ((get : M State) >>= k) t t' b c := fun s rest ht hp hh hb => h s ht hp s rest ht hp hh hb

theorem takes_check {c : Bool} (e : ErrCode) (h : c = true) : Takes p (check c e) t t [] () := by
  rw [h]
  exact takes_pure ()

theorem takes_setTables (f : Tables → Tables) : Takes p (setTables f) t (f t) [] () := by
  intro s rest ht _ h hb
  exact ⟨{ s with tab := f s.tab }, rfl, ⟨h.latched, h.fits, h.live⟩, hb, by rw [ht]; exact parsedFrom_tables s _,
    fun h => (h rfl).elim, id⟩

theorem packetBytes_length (s : State) : s.packetBytes.length = s.packetSize := by simp [State.packetBytes]

/-- One packet byte (40_bitreader.md R207). -/
theorem takes_get8Packet (b : Byte) : Takes p get8Packet t t [b] (some b) := by
  intro s rest ht _ h hb
  have hlen := packetBytes_length s
  rw [hb, List.length_append, List.length_singleton, Nat.add_comm] at hlen
  obtain ⟨c, hget, hc, hw⟩ := get8PacketRaw_byte h hlen.symm
  obtain ⟨hh, hs⟩ := byteOn_here h hlen.symm hc
  have hbytes := packetBytes_cons hlen.symm hc
  rw [hb, List.singleton_append, List.cons.injEq] at hbytes
  refine ⟨{ s.byteOn c with rd.validBits := 0 }, ?_, ⟨hh.latched, hh.fits, hh.live⟩, hbytes.2.symm,
    parsedFrom_read ht (readFrom_trans (readFrom_byteOn h hlen.symm hc hw) (readFrom_reader _ _)), fun _ => rfl, fun _ => rfl⟩
  unfold get8Packet
  rw [bind_ok hget, bind_ok (setReader_run _ _), hbytes.1]
  rfl

theorem takes_bytes : ∀ bs : List Byte, Takes p (readMany get8Packet bs.length) t t bs (bs.map some)
  | [] => takes_pure _
  | b :: bs => takes_bind (takes_get8Packet b) (takes_bind_nil (takes_bytes bs) (takes_pure _))

theorem leNat_bytesOf : ∀ n v, v < 256 ^ n → leNat (bytesOf n v) = v
  | 0, v, h => by
    have : v = 0 := by simpa using h
    rw [this]
    rfl
  | n + 1, v, h => by
    rw [Nat.pow_succ] at h
    rw [bytesOf, leNat, leNat_bytesOf n (v / 256) (Nat.div_lt_of_lt_mul (by omega)), BitVec.toNat_ofNat]
    omega

theorem bytesOf_length : ∀ n v, (bytesOf n v).length = n
  | 0, _ => rfl
  | n + 1, v => by rw [bytesOf, List.length_cons, bytesOf_length n]

/-- A 32-bit little-endian packet integer (40_bitreader.md R208). -/
theorem takes_get32Packet {v : Nat} (hv : v < 2 ^ 32) : Takes p get32Packet t t (bytesOf 4 v) (BitVec.ofNat 32 v) := by
  have h := takes_bytes (p := p) (t := t) (bytesOf 4 v)
  rw [bytesOf_length] at h
  refine takes_bind_nil h ?_
  have hm : ((bytesOf 4 v).map some).map eopByte = bytesOf 4 v := by
    rw [List.map_map]
    exact List.map_id _
  rw [hm, leNat_bytesOf 4 v (by omega)]
  exact takes_pure _

theorem takes_vorbis (e : ErrCode) : Takes p (vorbisString e) t t vorbisBytes () :=
  takes_bind_nil (takes_bytes vorbisBytes) (takes_check _ (by decide))

/-- From tables `t`, the step takes `bytes`, flushes the rest of the packet, and leaves tables `t'`. -/
def Finishes (p : Config.Params) (m : M Unit) (t t' : Tables) (bytes : List Byte) : Prop :=
  ∀ s rest, s.tab = t → s.params = p → s.PacketHere → s.packetBytes = bytes ++ rest →
    ∃ u, m s = .ok () u ∧ u.PacketDone ∧ ParsedFrom s u t'

theorem finishes_flush : Finishes p flushPacket t t [] := by
  intro s rest ht _ hh _
  obtain ⟨u, hu, g1, g2⟩ := flushPacket_here hh
  exact ⟨u, hu, g1, parsedFrom_read ht g2⟩

theorem finishes_bind {m : M α} {k : α → M Unit} {b1 b2 : List Byte} {a : α} (hm : Takes p m t t' b1 a)
    (hk : Finishes p (k a) t' t'' b2) : Finishes p (m >>= k) t t'' (b1 ++ b2) := by
  intro s rest ht hp hh hb
  rw [List.append_assoc] at hb
  obtain ⟨v, hv, h1, h2, h3, _, _⟩ := hm s _ ht hp hh hb
  obtain ⟨u, hu, g1, g2⟩ := hk v rest (parsedFrom_tab h3) (by rw [h3.frame, ← hp]) h1 h2
  exact ⟨u, by rw [bind_ok hv, hu], g1, parsedFrom_trans h3 g2⟩

theorem finishes_bind_nil {m : M α} {k : α → M Unit} {b1 : List Byte} {a : α} (hm : Takes p m t t' b1 a)
    (hk : Finishes p (k a) t' t'' []) : Finishes p (m >>= k) t t'' b1 := by
  have := finishes_bind hm hk
  rwa [List.append_nil] at this

theorem finishes_nil_bind {m : M α} {k : α → M Unit} {b2 : List Byte} {a : α} (hm : Takes p m t t' [] a)
    (hk : Finishes p (k a) t' t'' b2) : Finishes p (m >>= k) t t'' b2 := finishes_bind hm hk

theorem finishes_get_bind {k : State → M Unit} {b : List Byte}
    (h : ∀ s : State, s.tab = t → s.params = p → Finishes p (k s) t t' b) : Finishes p ((get : M State) >>= k) t t' b :=
  fun s rest ht hp hh hb => h s ht hp s rest ht hp hh hb

theorem finishes_comment : Finishes p commentBody t t vorbisBytes :=
  finishes_bind_nil (takes_vorbis _) finishes_flush

theorem bytesOf_one (v : Nat) : bytesOf 1 v = [BitVec.ofNat 8 v] := rfl

theorem byte_toNat {v : Nat} (h : v < 2 ^ 8) : (eopByte (some (BitVec.ofNat 8 v))).toNat = v := by
  show (BitVec.ofNat 8 v).toNat = v
  rw [BitVec.toNat_ofNat, Nat.mod_eq_of_lt h]

/-- The identification packet (42_setup.md R282 to R285). -/
theorem finishes_identification {f : IdentFields} (h : f.Legal p) :
    Finishes p identificationBody t (f.apply t) f.encode := by
  obtain ⟨hc0, hc1, hc2⟩ := h.channels
  obtain ⟨hs0, hs1, hs2⟩ := h.sizes
  refine finishes_bind (takes_vorbis _) (finishes_bind (takes_get32Packet (by omega)) ?_)
  refine finishes_nil_bind (takes_check _ rfl) ?_
  rw [bytesOf_one]
  refine finishes_bind (takes_get8Packet _) ?_
  dsimp only
  rw [byte_toNat hc1]
  refine finishes_nil_bind (takes_check _ (by simp; omega)) (finishes_get_bind fun s _ hp => ?_)
  refine finishes_nil_bind (takes_check _ (by rw [hp]; simpa using hc2)) (finishes_nil_bind (takes_setTables _) ?_)
  refine finishes_bind (takes_get32Packet h.rate.2) (finishes_nil_bind (takes_check _ ?_) ?_)
  · rw [bne_iff_ne]
    intro hz
    have := congrArg BitVec.toNat hz
    rw [BitVec.toNat_ofNat, Nat.mod_eq_of_lt h.rate.2] at this
    have := h.rate.1
    simp_all
  refine finishes_nil_bind (takes_setTables _) (finishes_bind (takes_get32Packet h.bitrates.1) ?_)
  refine finishes_bind (takes_get32Packet h.bitrates.2.1) (finishes_bind (takes_get32Packet h.bitrates.2.2) ?_)
  refine finishes_nil_bind (takes_setTables _) ?_
  rw [bytesOf_one, bytesOf_one]
  refine finishes_bind (takes_get8Packet _) ?_
  dsimp only
  rw [byte_toNat (v := f.log0 + 16 * f.log1) (by omega), show (f.log0 + 16 * f.log1) % 16 = f.log0 by omega,
    show (f.log0 + 16 * f.log1) / 16 = f.log1 by omega]
  refine finishes_nil_bind (takes_check _ (by simp; omega)) (finishes_nil_bind (takes_setTables _) ?_)
  refine finishes_bind_nil (takes_get8Packet _) (finishes_nil_bind (takes_check _ ?_) finishes_flush)
  have := h.framing
  simp [eopByte, BitVec.getLsbD, Nat.testBit_zero]
  omega

/-- The setup packet (42_setup.md R288 to R324). -/
theorem setupBody_here {f : SetupFields} {s : State} {rest : List Bool} (hb : s.tab.Bare) (hch : s.tab.channels ≤ 256)
    (h : f.Legal s.tab) (hh : s.PacketHere) (hv : s.packetBytes.take 6 = vorbisBytes)
    (hbits : (s.packetBytes.drop 6).flatMap byteBits = f.encode s.tab.channels ++ rest) :
    ∃ u, setupBody s = .ok () u ∧ u.PacketDone ∧ ParsedFrom s u (f.tables s.tab) := by
  have hsplit : s.packetBytes = vorbisBytes ++ s.packetBytes.drop 6 := by rw [← hv, List.take_append_drop]
  obtain ⟨v, hv1, h1, h2, h3, h4, _⟩ := takes_vorbis (p := s.params) (t := s.tab) .invalidSetup s _ rfl rfl hh hsplit
  have hz : v.rd.validBits = 0 := h4 (by decide)
  have hold : v.Holds (f.encode s.tab.channels ++ rest) := by
    refine ⟨h1, ⟨by omega, fun h => by omega⟩, by omega, ?_⟩
    rw [State.packetBits, BitReader.heldBits, hz, h2, hbits]
    rfl
  obtain ⟨w, hw, g1, g2⟩ := parses_setupTables hb hch h v rest (parsedFrom_tab h3) hold
  obtain ⟨u, hu, k1, k2⟩ := flushPacket_here g1.here
  refine ⟨u, ?_, k1, parsedFrom_trans h3 (parsedFrom_trans g2 (parsedFrom_read (parsedFrom_tab g2) k2))⟩
  have hs : setupBody = (do vorbisString .invalidSetup; setupTables; flushPacket) := by
    unfold setupBody setupTables
    simp only [bind_assoc, pure_bind]
  rw [hs, bind_ok hv1, bind_ok hw, hu]

end Sys2Proof.Machine
end

