-- ==== Sys2Proof/Laws/PerInstr.lean ====
section
/-! SUPPORT. Facts about every instruction as syntax, one lemma for each constructor. -/

namespace Sys2Proof.Laws.Width

/-- The encoding of a well-formed instruction fits the width of the point it is read at. -/
def Statement (i : Instr) : Prop := WellFormed i → encode i < 2 ^ (contextOf i).width

theorem openPull : Statement .openPull := fun _ => by decide

theorem openPush : Statement .openPush := fun _ => by decide

theorem pushDecode : Statement .pushDecode := fun _ => by decide

theorem decodeFrame : Statement .decodeFrame := fun _ => by decide

theorem getInfo : Statement .getInfo := fun _ => by decide

theorem seek : Statement .seek := fun _ => by decide

theorem seekStart : Statement .seekStart := fun _ => by decide

theorem streamLength : Statement .streamLength := fun _ => by decide

theorem getError : Statement .getError := fun _ => by decide

theorem close : Statement .close := fun _ => by decide

theorem illegalCommand (word : Word) : Statement (.illegalCommand word) := fun _ => word.isLt

theorem oggPage : Statement .oggPage := fun _ => by decide

theorem hdrIdentification : Statement .hdrIdentification := fun _ => by decide

theorem hdrComment : Statement .hdrComment := fun _ => by decide

theorem hdrSetup : Statement .hdrSetup := fun _ => by decide

theorem audioPacket : Statement .audioPacket := fun _ => by decide

theorem badPacketType : Statement .badPacketType := fun _ => by decide

theorem lookupNone (site : LookupSite) : Statement (.lookupNone site) := fun _ => by simp [encode, contextOf, Context.width, StreamPoint.width]

theorem lookupLattice (site : LookupSite) : Statement (.lookupLattice site) := fun _ => by simp [encode, contextOf, Context.width, StreamPoint.width]

theorem lookupDirect (site : LookupSite) : Statement (.lookupDirect site) := fun _ => by simp [encode, contextOf, Context.width, StreamPoint.width]

theorem floorType0 : Statement .floorType0 := fun _ => by decide

theorem floorType1 (site : FloorSite) : Statement (.floorType1 site) := fun _ => by simp [encode, contextOf, Context.width, StreamPoint.width]

theorem residueType0 (site : ResidueSite) : Statement (.residueType0 site) := fun _ => by simp [encode, contextOf, Context.width, StreamPoint.width]

theorem residueType1 (site : ResidueSite) : Statement (.residueType1 site) := fun _ => by simp [encode, contextOf, Context.width, StreamPoint.width]

theorem residueType2 (site : ResidueSite) : Statement (.residueType2 site) := fun _ => by simp [encode, contextOf, Context.width, StreamPoint.width]

theorem mappingType0 : Statement .mappingType0 := fun _ => by decide

end Sys2Proof.Laws.Width
end

