-- ==== Sys2Proof/Laws/Running.lean ====
section
/-! SUPPORT. Decoding a packet that lies wholly in the latched page never raises, whatever its bits are. -/

namespace Sys2Proof.Machine

/-- A relation between working buffers that steps can be chained by. -/
structure WorkRel (R : Work → Work → Prop) : Prop where
  refl : ∀ w, R w w
  trans : ∀ {u v w}, R u v → R v w → R u w

/-- From a state inside a packet of the latched page, the step returns, stays inside it, changes only what decoding a packet may, and
changes the working buffers by `R` only. -/
def Runs (R : Work → Work → Prop) {α : Type} (m : M α) : Prop :=
  ∀ s, s.PacketHere → ∃ a t, m s = .ok a t ∧ t.PacketHere ∧ DecodedFrom s t ∧ R s.work t.work

variable {α β : Type} {R : Work → Work → Prop}

theorem decodedFrom_refl (s : State) : DecodedFrom s s := ⟨⟨within_refl _, rfl⟩, rfl⟩

theorem decodedFrom_trans {s t u : State} (h1 : DecodedFrom s t) (h2 : DecodedFrom t u) : DecodedFrom s u := by
  refine ⟨within_chain h1.within h2.within, ?_⟩
  have h := h2.frame
  rw [h1.frame] at h
  exact h

theorem decodedFrom_read {s t : State} (h : ReadFrom s t) : DecodedFrom s t := by
  refine ⟨h.within, ?_⟩
  rw [h.frame]

theorem runs_pure (W : WorkRel R) (a : α) : Runs R (pure a) := fun s h => ⟨a, s, rfl, h, decodedFrom_refl s, W.refl _⟩

theorem runs_bind (W : WorkRel R) {m : M α} {k : α → M β} (hm : Runs R m) (hk : ∀ a, Runs R (k a)) : Runs R (m >>= k) := by
  intro s h
  obtain ⟨a, t, ht, h1, w1, r1⟩ := hm s h
  obtain ⟨b, u, hu, h2, w2, r2⟩ := hk a t h1
  exact ⟨b, u, by rw [bind_ok ht, hu], h2, decodedFrom_trans w1 w2, W.trans r1 r2⟩

theorem runs_get (W : WorkRel R) : Runs R (get : M State) := fun s h => ⟨s, s, rfl, h, decodedFrom_refl s, W.refl _⟩

theorem runs_ite {c : Prop} [Decidable c] {m n : M α} (hm : c → Runs R m) (hn : ¬c → Runs R n) : Runs R (if c then m else n) := by
  split
  · exact hm ‹_›
  · exact hn ‹_›

theorem runs_forEach (W : WorkRel R) {step : α → M Unit} : ∀ l : List α, (∀ a ∈ l, Runs R (step a)) → Runs R (forEach step l)
  | [], _ => runs_pure W _
  | x :: xs, h => runs_bind W (h x (by simp)) fun _ => runs_forEach W xs fun a ha => h a (by simp [ha])

theorem runs_note (W : WorkRel R) (e : ErrCode) : Runs R (note e) :=
  fun s h => ⟨(), s.setError e, rfl, ⟨h.latched, h.fits, h.live⟩, ⟨⟨within_refl _, rfl⟩, rfl⟩, W.refl _⟩

theorem runs_setReader (W : WorkRel R) (f : BitReader → BitReader) : Runs R (setReader f) :=
  fun s h => ⟨(), { s with rd := f s.rd }, rfl, ⟨h.latched, h.fits, h.live⟩, ⟨⟨within_refl _, rfl⟩, rfl⟩, W.refl _⟩

theorem runs_setWork {f : Work → Work} (hR : ∀ w, R w (f w)) : Runs R (setWork f) :=
  fun s h => ⟨(), { s with work := f s.work }, rfl, ⟨h.latched, h.fits, h.live⟩, ⟨⟨within_refl _, rfl⟩, rfl⟩, hR _⟩

theorem runs_get8PacketRaw (W : WorkRel R) : Runs R get8PacketRaw := by
  intro s h
  cases hk : s.packetSize with
  | zero =>
    obtain ⟨c, hget, hc, hw, _⟩ := get8PacketRaw_end h hk
    exact ⟨none, _, hget, (end_here h hk hc).1, decodedFrom_read (readFrom_end h hk hc hw), W.refl _⟩
  | succ k =>
    obtain ⟨c, hget, hc, hw⟩ := get8PacketRaw_byte h hk
    exact ⟨_, _, hget, (byteOn_here h hk hc).1, decodedFrom_read (readFrom_byteOn h hk hc hw), W.refl _⟩

theorem runs_refill (W : WorkRel R) (want : Nat) : ∀ fuel, Runs R (refill want fuel)
  | 0 => runs_pure W _
  | fuel + 1 => by
    refine runs_bind W (runs_get W) fun s => runs_ite (fun _ => runs_pure W _) fun _ => runs_bind W (runs_get8PacketRaw W) fun x => ?_
    cases x with
    | none => exact runs_pure W _
    | some b => exact runs_bind W (runs_setReader W _) fun _ => runs_refill W want fuel

theorem runs_getBitsShort (W : WorkRel R) (n : Nat) : Runs R (getBitsShort n) := by
  refine runs_bind W (runs_get W) fun s => runs_ite (fun _ => runs_pure W _) fun _ => runs_bind W (runs_setReader W _) fun _ =>
    runs_bind W (runs_refill W n 5) fun ok => ?_
  exact runs_ite (fun _ => runs_bind W (runs_get W) fun _ => runs_bind W (runs_setReader W _) fun _ => runs_pure W _)
    fun _ => runs_bind W (runs_setReader W _) fun _ => runs_pure W _

theorem runs_getBits (W : WorkRel R) (n : Nat) : Runs R (getBits n) := by
  refine runs_bind W (runs_get W) fun s => runs_ite (fun _ => ?_) fun _ => runs_getBitsShort W n
  exact runs_bind W (runs_getBitsShort W _) fun _ => runs_bind W (runs_getBitsShort W _) fun _ => runs_pure W _

theorem runs_lookAhead (W : WorkRel R) : Runs R lookAhead :=
  runs_bind W (runs_refill W 32 5) fun _ => runs_bind W (runs_get W) fun _ => runs_pure W _

theorem runs_decodeScalar (W : WorkRel R) (b : Nat) : Runs R (decodeScalar b) := by
  refine runs_bind W (runs_get W) fun s => runs_ite (fun _ => runs_pure W _) fun _ => ?_
  refine runs_bind W (runs_lookAhead W) fun avail => runs_bind W (runs_get W) fun t => ?_
  split
  · exact runs_bind W (runs_note W _) fun _ => runs_pure W _
  · exact runs_ite (fun _ => runs_bind W (runs_setReader W _) fun _ => runs_pure W _)
      fun _ => runs_bind W (runs_setReader W _) fun _ => runs_pure W _

/-- A step may add vectors to the slots. -/
def AddsTo (R : Work → Work → Prop) (slots : List (Option (Nat × Nat))) : Prop :=
  ∀ cb lt e w, R w (addVector cb lt e slots 0 0 w)

theorem runs_decodeVqAs (W : WorkRel R) (lt : LookupType) (b : Nat) {slots : List (Option (Nat × Nat))} (hR : AddsTo R slots) :
    Runs R (decodeVqAs lt b slots) := by
  have go : ∀ lt' : LookupType, Runs R (do
      let r ← decodeScalar b
      match r with
      | .entry e =>
        let s ← get
        setWork (addVector (s.tab.codebook b) lt' e slots 0 0)
        pure (Scalar.entry e)
      | other => pure other) := by
    intro lt'
    refine runs_bind W (runs_decodeScalar W b) fun r => ?_
    cases r with
    | entry e => exact runs_bind W (runs_get W) fun s => runs_bind W (runs_setWork fun w => hR _ _ _ w) fun _ => runs_pure W _
    | eop => exact runs_pure W _
    | noMatch => exact runs_pure W _
  cases lt with
  | none => exact runs_bind W (runs_note W _) fun _ => runs_pure W _
  | lattice => exact go .lattice
  | direct => exact go .direct

theorem runs_decodeVq (W : WorkRel R) (b : Nat) {slots : List (Option (Nat × Nat))} (hR : AddsTo R slots) : Runs R (decodeVq b slots) :=
  runs_bind W (runs_get W) fun _ => runs_decodeVqAs W _ _ hR

/-! ### Floors -/

/-- A step may write the floor state of channel `ch`. -/
structure FloorRel (R : Work → Work → Prop) (ch : Nat) : Prop where
  rel : WorkRel R
  final : ∀ (f : List I16 → List I16) w, R w { w with finalY := w.finalY.modify ch f }
  zero : ∀ (v : Bool) w, R w { w with zeroChannel := w.zeroChannel.set ch v }

theorem runs_floorDims {ch : Nat} (F : FloorRel R ch) (cls : FloorClass) : ∀ n cval offset, Runs R (floorDims ch cls n cval offset)
  | 0, _, _ => runs_pure F.rel _
  | n + 1, cval, offset => by
    refine runs_ite (fun _ => runs_bind F.rel (runs_decodeScalar F.rel _) fun r => ?_) fun _ =>
      runs_bind F.rel (runs_setWork (F.final _)) fun _ => runs_floorDims F cls n _ _
    cases r with
    | entry t => exact runs_bind F.rel (runs_setWork (F.final _)) fun _ => runs_floorDims F cls n _ _
    | eop => exact runs_pure F.rel _
    | noMatch => exact runs_pure F.rel _

theorem runs_floorClassValue (W : WorkRel R) (cls : FloorClass) : Runs R (floorClassValue cls) := by
  refine runs_ite (fun _ => runs_pure W _) fun _ => runs_bind W (runs_decodeScalar W _) fun r => ?_
  cases r <;> exact runs_pure W _

theorem runs_floorPartitions {ch : Nat} (F : FloorRel R ch) (fl : Floor) : ∀ l offset, Runs R (floorPartitions ch fl l offset)
  | [], _ => runs_pure F.rel _
  | c :: rest, offset => by
    refine runs_bind F.rel (runs_floorClassValue F.rel _) fun cval => ?_
    cases cval with
    | none => exact runs_pure F.rel _
    | some v =>
      exact runs_bind F.rel (runs_floorDims F _ _ _ _) fun ok =>
        runs_ite (fun _ => runs_floorPartitions F fl rest _) fun _ => runs_pure F.rel _

theorem runs_floor1Decode {ch : Nat} (F : FloorRel R ch) (fl : Floor) : Runs R (floor1Decode ch fl) := by
  have W := F.rel
  refine runs_bind W (runs_getBits W 1) fun nz => runs_ite (fun _ => runs_setWork (F.zero _)) fun _ => ?_
  refine runs_bind W (runs_getBits W _) fun y0 => runs_bind W (runs_setWork (F.final _)) fun _ => runs_bind W (runs_getBits W _) fun y1 => ?_
  refine runs_bind W (runs_setWork (F.final _)) fun _ => runs_bind W (runs_floorPartitions F _ _ _) fun ok => runs_bind W (runs_get W) fun s => ?_
  exact runs_ite (fun _ => runs_bind W (runs_setWork (F.final _)) fun _ => runs_setWork (F.zero _)) fun _ => runs_setWork (F.zero _)

/-! ### Residues -/

/-- A step may clear and add to the spectra of the channels in `chans`. -/
structure ResidueRel (R : Work → Work → Prop) (chans : List Nat) : Prop where
  rel : WorkRel R
  adds : ∀ slots : List (Option (Nat × Nat)), (∀ ch idx, some (ch, idx) ∈ slots → ch ∈ chans) → AddsTo R slots
  clears : ∀ (n2 ch : Nat) w, ch ∈ chans → R w (clearSpectrum n2 w ch)

/-- The lane lies over the channels. -/
def Lane.Over (chans : List Nat) (l : Lane) : Prop := ∀ t ch idx, l.slot t = some (ch, idx) → ch ∈ chans

theorem runs_partitionStrided {chans : List Nat} (F : ResidueRel R chans) (b : Nat) {lane : Lane} (hl : lane.Over chans)
    (off step dim : Nat) : ∀ n k, Runs R (partitionStrided b lane off step dim n k)
  | 0, _ => runs_pure F.rel _
  | n + 1, k => by
    refine runs_bind F.rel (runs_decodeVq F.rel _ (F.adds _ ?_)) fun r => ?_
    · intro ch idx h
      obtain ⟨i, -, hi⟩ := List.mem_map.1 h
      exact hl _ _ _ hi
    · cases r with
      | entry e => exact runs_partitionStrided F b hl off step dim n _
      | eop => exact runs_pure F.rel _
      | noMatch => exact runs_pure F.rel _

theorem runs_partitionContiguous {chans : List Nat} (F : ResidueRel R chans) (b : Nat) {lane : Lane} (hl : lane.Over chans)
    (off size dim : Nat) : ∀ n k, Runs R (partitionContiguous b lane off size dim n k)
  | 0, _ => runs_pure F.rel _
  | n + 1, k => by
    refine runs_ite (fun _ => runs_pure F.rel _) fun _ => runs_bind F.rel (runs_decodeVq F.rel _ (F.adds _ ?_)) fun r => ?_
    · intro ch idx h
      obtain ⟨i, -, hi⟩ := List.mem_map.1 h
      exact hl _ _ _ hi
    · cases r with
      | entry e => exact runs_partitionContiguous F b hl off size dim n _
      | eop => exact runs_pure F.rel _
      | noMatch => exact runs_pure F.rel _

theorem runs_partitionVq {chans : List Nat} (F : ResidueRel R chans) (ty : ResidueType) (b : Nat) {lane : Lane} (hl : lane.Over chans)
    (off size : Nat) : Runs R (partitionVq ty b lane off size) := by
  refine runs_bind F.rel (runs_get F.rel) fun s => ?_
  cases ty
  · exact runs_partitionStrided F _ hl _ _ _ _ _
  · exact runs_partitionContiguous F _ hl _ _ _ _ _
  · exact runs_partitionContiguous F _ hl _ _ _ _ _

theorem runs_readClasses (W : WorkRel R) (res : Residue) : ∀ l, Runs R (readClasses res l)
  | [] => runs_pure W _
  | _ :: rest => by
    refine runs_bind W (runs_decodeScalar W _) fun q => ?_
    cases q with
    | entry e =>
      refine runs_bind W (runs_readClasses W res rest) fun more => ?_
      cases more <;> exact runs_pure W _
    | eop => exact runs_pure W _
    | noMatch => exact runs_pure W _

theorem runs_decodePartition {chans : List Nat} (F : ResidueRel R chans) (rc : ResidueCall) (pass p i : Nat) :
    ∀ l : List (Lane × List Nat), (∀ x ∈ l, x.1.Over chans) → Runs R (decodePartition rc pass p i l)
  | [], _ => runs_pure F.rel _
  | (lane, classes) :: rest, hl =>
    have hr := runs_decodePartition F rc pass p i rest fun x hx => hl x (by simp [hx])
    runs_ite (fun _ => runs_bind F.rel (runs_partitionVq F _ _ (hl (lane, classes) (by simp)) _ _) fun _ =>
      runs_ite (fun _ => hr) fun _ => runs_pure F.rel _)
      fun _ => hr

theorem runs_decodeGroup {chans : List Nat} (F : ResidueRel R chans) (rc : ResidueCall) (pass p : Nat)
    {lanes : List (Lane × List Nat)} (hl : ∀ x ∈ lanes, x.1.Over chans) : ∀ n i, Runs R (decodeGroup rc pass p lanes n i)
  | 0, _ => runs_pure F.rel _
  | n + 1, i =>
    runs_ite (fun _ => runs_pure F.rel _) fun _ => runs_bind F.rel (runs_decodePartition F _ _ _ _ _ hl) fun _ =>
      runs_ite (fun _ => runs_decodeGroup F rc pass p hl n _) fun _ => runs_pure F.rel _

theorem zip_over {chans : List Nat} {lanes : List Lane} (hl : ∀ x ∈ lanes, x.Over chans) (cs : List (List Nat)) :
    ∀ x ∈ lanes.zip cs, x.1.Over chans := fun _ hx => hl _ (List.of_mem_zip hx).1

theorem runs_firstPass {chans : List Nat} (F : ResidueRel R chans) (rc : ResidueCall) (hl : ∀ x ∈ rc.lanes, x.Over chans) :
    ∀ fuel p, Runs R (firstPass rc fuel p)
  | 0, _ => runs_pure F.rel _
  | fuel + 1, p => by
    refine runs_ite (fun _ => runs_pure F.rel _) fun _ => runs_bind F.rel (runs_readClasses F.rel _ _) fun classes => ?_
    cases classes with
    | none => exact runs_pure F.rel _
    | some cs =>
      refine runs_bind F.rel (runs_decodeGroup F _ _ _ (zip_over hl _) _ _) fun ok => runs_ite (fun _ => ?_) fun _ => runs_pure F.rel _
      refine runs_bind F.rel (runs_firstPass F rc hl fuel _) fun more => ?_
      cases more <;> exact runs_pure F.rel _

theorem runs_laterPass {chans : List Nat} (F : ResidueRel R chans) (rc : ResidueCall) (hl : ∀ x ∈ rc.lanes, x.Over chans)
    (pass : Nat) : ∀ gs p, Runs R (laterPass rc pass gs p)
  | [], _ => runs_pure F.rel _
  | cs :: gs, p => runs_bind F.rel (runs_decodeGroup F _ _ _ (zip_over hl _) _ _) fun _ =>
      runs_ite (fun _ => runs_laterPass F rc hl pass gs _) fun _ => runs_pure F.rel _

theorem runs_laterPasses {chans : List Nat} (F : ResidueRel R chans) (rc : ResidueCall) (hl : ∀ x ∈ rc.lanes, x.Over chans)
    (groups : List (List (List Nat))) : ∀ l, Runs R (laterPasses rc groups l)
  | [] => runs_pure F.rel _
  | pass :: rest => runs_bind F.rel (runs_laterPass F rc hl _ _ _) fun _ =>
      runs_ite (fun _ => runs_laterPasses F rc hl groups rest) fun _ => runs_pure F.rel _

theorem runs_residuePasses {chans : List Nat} (F : ResidueRel R chans) (rc : ResidueCall) (hl : ∀ x ∈ rc.lanes, x.Over chans) :
    Runs R (residuePasses rc) := by
  refine runs_ite (fun _ => runs_pure F.rel _) fun _ => runs_bind F.rel (runs_firstPass F _ hl _ _) fun groups => ?_
  cases groups with
  | none => exact runs_pure F.rel _
  | some gs => exact runs_laterPasses F _ hl _ _

theorem residueLanes_over (ty : ResidueType) (sc : List Nat) (zero : List Bool) : ∀ x ∈ residueLanes ty sc zero, x.Over sc := by
  intro x hx t ch idx h
  simp only [residueLanes] at hx
  split at hx
  · split at hx
    · rw [List.mem_singleton.1 hx] at h
      simp only [Lane.slot] at h
      split at h
      · rename_i heq
        cases h
        obtain ⟨y, hy, he⟩ := List.mem_map.1 (List.mem_of_getElem? heq)
        have hey : y = ch := congrArg Prod.fst he
        exact hey ▸ hy
      · cases h
    · cases hx
  · obtain ⟨y, hy, rfl⟩ := List.mem_map.1 hx
    simp only [Lane.slot] at h
    cases h
    exact (List.mem_filter.1 hy).1

theorem clears_foldl {chans : List Nat} (F : ResidueRel R chans) (n2 : Nat) : ∀ (l : List Nat) w, (∀ ch ∈ l, ch ∈ chans) →
    R w (l.foldl (clearSpectrum n2) w)
  | [], w, _ => F.rel.refl w
  | c :: l, w, h => F.rel.trans (F.clears n2 c w (h c (by simp))) (clears_foldl F n2 l _ fun ch hc => h ch (by simp [hc]))

/-- Residue decode of one submap, for states whose tables have `channels` channels. -/
theorem residueDecodeAs_runs (channels : Nat) {map : Mapping} {submap : Nat} (F : ResidueRel R (submapChannels map channels submap))
    (ty : ResidueType) (n2 : Nat) {s : State} (hc : s.tab.channels = channels) (h : s.PacketHere) :
    ∃ whole t, residueDecodeAs ty map submap n2 s = .ok whole t ∧ t.PacketHere ∧ DecodedFrom s t ∧ R s.work t.work := by
  subst hc
  obtain ⟨_, t, ht, h1, w1, r1⟩ := runs_setWork (R := R) (f := fun w => clearSubmap map s.tab.channels n2 w submap)
    (fun w => clears_foldl F n2 _ w fun _ hc => hc) s h
  obtain ⟨whole, u, hu, h2, w2, r2⟩ := runs_residuePasses F
    { ty := ty
      res := s.tab.residue (map.submapResidue.getD submap 0)
      classwords := (s.tab.codebook (s.tab.residue (map.submapResidue.getD submap 0)).classbook).dimensions
      lower := (residueRange ty (s.tab.residue (map.submapResidue.getD submap 0)) n2
        (submapChannels map s.tab.channels submap).length).1
      partRead := (residueRange ty (s.tab.residue (map.submapResidue.getD submap 0)) n2
        (submapChannels map s.tab.channels submap).length).2
      lanes := residueLanes ty (submapChannels map s.tab.channels submap) s.work.zeroChannel } (residueLanes_over _ _ _) t h1
  refine ⟨whole, u, ?_, h2, decodedFrom_trans w1 w2, F.rel.trans r1 r2⟩
  simp only [residueDecodeAs]
  rw [get_bind, bind_ok ht]
  exact hu

/-! ### What floor and residue decode leave alone -/

/-- Only the floor state of channel `ch` differs. -/
def FloorOnly (ch : Nat) (v w : Work) : Prop :=
  w = { v with finalY := w.finalY, zeroChannel := w.zeroChannel } ∧
    ∀ c, c ≠ ch → w.finalY.getD c [] = v.finalY.getD c [] ∧ w.zeroChannel.getD c true = v.zeroChannel.getD c true

theorem getD_modify_ne' {α : Type} (l : List α) (f : α → α) {i j : Nat} (d : α) (h : j ≠ i) : (l.modify i f).getD j d = l.getD j d := by
  rw [List.getD_eq_getElem?_getD, List.getD_eq_getElem?_getD, List.getElem?_modify]
  simp [Ne.symm h]

theorem getD_set_ne' {α : Type} (l : List α) (v : α) {i j : Nat} (d : α) (h : j ≠ i) : (l.set i v).getD j d = l.getD j d := by
  rw [List.getD_eq_getElem?_getD, List.getD_eq_getElem?_getD, List.getElem?_set_ne (Ne.symm h)]

theorem floorOnly_rel (ch : Nat) : FloorRel (FloorOnly ch) ch where
  rel := ⟨fun _ => ⟨rfl, fun _ _ => ⟨rfl, rfl⟩⟩, fun {u v w} h1 h2 => by
    refine ⟨?_, fun c hc => ⟨(h2.2 c hc).1.trans (h1.2 c hc).1, (h2.2 c hc).2.trans (h1.2 c hc).2⟩⟩
    have h := h2.1
    rw [h1.1] at h
    exact h⟩
  final := fun f w => ⟨rfl, fun c hc => ⟨getD_modify_ne' _ _ _ hc, rfl⟩⟩
  zero := fun v w => ⟨rfl, fun c hc => ⟨rfl, getD_set_ne' _ _ _ hc⟩⟩

/-- Only the channel buffers of `chans` differ. -/
def SpectraOnly (chans : List Nat) (v w : Work) : Prop :=
  w = { v with channelBuffer := w.channelBuffer } ∧ ∀ c, c ∉ chans → w.channelBuffer.getD c [] = v.channelBuffer.getD c []

theorem spectraOnly_rel (chans : List Nat) : WorkRel (SpectraOnly chans) :=
  ⟨fun _ => ⟨rfl, fun _ _ => rfl⟩, fun {u v w} h1 h2 => by
    refine ⟨?_, fun c hc => (h2.2 c hc).trans (h1.2 c hc)⟩
    have h := h2.1
    rw [h1.1] at h
    exact h⟩

theorem spectraOnly_modify {chans : List Nat} {ch : Nat} (hc : ch ∈ chans) (f : List F32 → List F32) (w : Work) :
    SpectraOnly chans w { w with channelBuffer := w.channelBuffer.modify ch f } :=
  ⟨rfl, fun _ hn => getD_modify_ne' _ _ _ fun e => hn (e ▸ hc)⟩

theorem spectraOnly_addVector {chans : List Nat} (cb : Codebook) (lt : LookupType) (e : Nat) :
    ∀ (slots : List (Option (Nat × Nat))) (i : Nat) (prev : F32) (w : Work),
      (∀ ch idx, some (ch, idx) ∈ slots → ch ∈ chans) → SpectraOnly chans w (addVector cb lt e slots i prev w)
  | [], _, _, w, _ => (spectraOnly_rel chans).refl w
  | none :: rest, i, prev, w, h => spectraOnly_addVector cb lt e rest _ _ w fun ch idx hm => h ch idx (by simp [hm])
  | some (c, k) :: rest, i, prev, w, h =>
    (spectraOnly_rel chans).trans (spectraOnly_modify (h c k (by simp)) _ w)
      (spectraOnly_addVector cb lt e rest _ _ _ fun ch idx hm => h ch idx (by simp [hm]))

theorem spectraOnly_residue (chans : List Nat) : ResidueRel (SpectraOnly chans) chans where
  rel := spectraOnly_rel chans
  adds := fun slots h cb lt e w => spectraOnly_addVector cb lt e slots 0 0 w h
  clears := fun _ _ w hc => spectraOnly_modify hc _ w

/-! ### A packet -/

/-- Any change of the working buffers. -/
abbrev AnyWork : Work → Work → Prop := fun _ _ => True

theorem anyWork_rel : WorkRel AnyWork := ⟨fun _ => trivial, fun _ _ => trivial⟩

theorem anyWork_floor (ch : Nat) : FloorRel AnyWork ch := ⟨anyWork_rel, fun _ _ => trivial, fun _ _ => trivial⟩

theorem anyWork_residue (chans : List Nat) : ResidueRel AnyWork chans :=
  ⟨anyWork_rel, fun _ _ _ _ _ _ => trivial, fun _ _ _ _ => trivial⟩

theorem runs_readIf (W : WorkRel R) {m : M α} {b : Bool} (h : Runs R m) (a : α) : Runs R (readIf b m a) :=
  runs_ite (fun _ => h) fun _ => runs_pure W a

theorem runs_getFlag (W : WorkRel R) : Runs R getFlag := runs_bind W (runs_getBits W 1) fun _ => runs_pure W _

theorem runs_decodeFloors (map : Mapping) (l : List Nat) : Runs AnyWork (decodeFloors map l) :=
  runs_forEach anyWork_rel l fun ch _ => runs_bind anyWork_rel (runs_get anyWork_rel) fun _ => runs_floor1Decode (anyWork_floor ch) _

theorem runs_residueDecode (map : Mapping) (n2 submap : Nat) : Runs AnyWork (residueDecode map n2 submap) :=
  runs_bind anyWork_rel (runs_get anyWork_rel) fun _ _ h => residueDecodeAs_runs _ (anyWork_residue _) _ n2 rfl h

theorem runs_decodeResidues (map : Mapping) (n2 : Nat) : ∀ l, Runs AnyWork (decodeResidues map n2 l)
  | [] => runs_pure anyWork_rel _
  | submap :: rest => runs_bind anyWork_rel (runs_residueDecode map n2 submap) fun _ =>
    runs_ite (fun _ => runs_decodeResidues map n2 rest) fun _ => runs_bind anyWork_rel (runs_get anyWork_rel) fun _ =>
      runs_setWork fun _ => trivial

/-- What follows the window flags of an audio packet (48_frame_control.md R520). -/
theorem decodeMode_rest {s v : State} {mode : ModeEntry} {prev next : Bool} (hp : (do
      let prev ← readIf mode.long getFlag false
      let next ← readIf mode.long getFlag false
      pure (prev, next) : M (Bool × Bool)) s = .ok (prev, next) v) (hh : v.PacketHere) (hf : DecodedFrom s v) :
    ∃ u, u.PacketDone ∧ DecodedFrom s u ∧
      let n := s.tab.blocksize mode.long
      let b := bookkeeping u.cur n (geometry n (s.tab.blocksize false) mode.long prev next) u.ctl
      decodeMode mode s = .ok b.1 { u with ctl := b.2 } := by
  obtain ⟨prev', v1, h1, hp⟩ := bind_ok_iff.1 hp
  obtain ⟨next', v2, h2, hp⟩ := bind_ok_iff.1 hp
  cases hp
  generalize hmap : s.tab.mapping mode.mapping = map
  generalize hn : s.tab.blocksize mode.long = n
  obtain ⟨_, w1, g1, k1, f1, _⟩ := runs_decodeFloors map (List.range s.tab.channels) _ hh
  obtain ⟨_, w2, g2, k2, f2, _⟩ := runs_setWork (R := AnyWork) (f := propagateNonzero map) (fun _ => trivial) w1 k1
  obtain ⟨_, w3, g3, k3, f3, _⟩ := runs_decodeResidues map (n / 2) (List.range map.submaps) w2 k2
  obtain ⟨_, w4, g4, k4, f4, _⟩ := runs_setWork (R := AnyWork) (f := synthesize s.tab map n) (fun _ => trivial) w3 k3
  obtain ⟨u, g5, k5, f5⟩ := flushPacket_here k4
  refine ⟨u, k5, decodedFrom_trans hf (decodedFrom_trans f1 (decodedFrom_trans f2 (decodedFrom_trans f3 (decodedFrom_trans f4
    (decodedFrom_read f5))))), ?_⟩
  simp only [decodeMode]
  rw [get_bind, bind_ok h1, bind_ok h2, hmap, hn, bind_ok g1, bind_ok g2, bind_ok g3, bind_ok g4, bind_ok g5, get_bind]
  rfl

end Sys2Proof.Machine
end

