-- ==== Sys2Proof/Laws/Vectors.lean ====
section
/-! SUPPORT. Decoding a codeword: where the unread bits begin with the codeword of an entry, `decode_scalar` returns that entry and
leaves the rest. -/

namespace Sys2Proof.Machine

/-! ### Look-ahead -/

/-- The look-ahead shows the next bits of the packet, at most 32 (40_bitreader.md R210). -/
theorem lookAhead_holds {s : State} {bits : List Bool} (h : s.Holds bits) :
    ∃ t, lookAhead s = .ok (min 32 bits.length) t ∧ t.Holds bits ∧ ReadFrom s t ∧
      (min 32 bits.length : Int) ≤ t.rd.validBits ∧
      ∀ k, t.rd.peek (min 32 bits.length) k = (decide (k < min 32 bits.length) && bits.getD k false) := by
  obtain ⟨ok, t, ht, h1, h2, h3, h4⟩ := refill_holds (want := 32) (by omega) (fuel := 5) h
  have hlen := holds_length h1
  have hv := h1.valid
  have havail : min 32 t.rd.validBits.toNat = min 32 bits.length := by
    cases ok with
    | true =>
      have := h3 rfl (by have := h.valid; omega)
      omega
    | false =>
      have := (h4 rfl).1
      omega
  have hle : (min 32 bits.length : Int) ≤ t.rd.validBits := by omega
  refine ⟨t, ?_, h1, h2, hle, fun k => ?_⟩
  · unfold lookAhead
    rw [bind_ok ht, get_bind, pure_run, havail]
  · unfold BitReader.peek
    by_cases hk : k < min 32 bits.length
    · simp only [hk, decide_true, Bool.true_and]
      have hkv : k < t.rd.validBits.toNat := by omega
      rw [← h1.bits, State.packetBits, List.getD_append _ _ _ _ (by simpa using hkv), BitReader.heldBits,
        List.getD_eq_getElem _ _ (by simpa using hkv)]
      simp
    · simp [hk]

/-! ### Codewords -/

@[simp] theorem codewordBits_length (len : Nat) (cw : Word) : (codewordBits len cw).length = len := by simp [codewordBits]

theorem codewordBits_get {len : Nat} {cw : Word} {i : Nat} (h : i < len) :
    (codewordBits len cw).getD i false = cw.getLsbD (len - 1 - i) := by
  rw [codewordBits, List.getD_eq_getElem _ _ (by simpa using h)]
  simp

/-- A codeword whose bits begin another's covers a number the other covers. -/
theorem covers_of_begins {l1 l2 : Nat} {c1 c2 : Word} (hl : l1 ≤ l2) (h2 : l2 ≤ 32) (f1 : c1.toNat < 2 ^ l1)
    (f2 : c2.toNat < 2 ^ l2) (h : ∀ i < l1, c1.getLsbD (l1 - 1 - i) = c2.getLsbD (l2 - 1 - i)) :
    ∃ x, Covers l1 c1 x ∧ Covers l2 c2 x := by
  have hc : c1.toNat = c2.toNat / 2 ^ (l2 - l1) := by
    apply Nat.eq_of_testBit_eq
    intro j
    rw [Nat.testBit_div_two_pow]
    by_cases hj : j < l1
    · have := h (l1 - 1 - j) (by omega)
      rw [show l1 - 1 - (l1 - 1 - j) = j by omega, show l2 - 1 - (l1 - 1 - j) = j + (l2 - l1) by omega] at this
      exact this
    · rw [Nat.testBit_lt_two_pow (Nat.lt_of_lt_of_le f1 (Nat.pow_le_pow_right (by omega) (by omega))),
        Nat.testBit_lt_two_pow (Nat.lt_of_lt_of_le f2 (Nat.pow_le_pow_right (by omega) (by omega)))]
  have p12 : 2 ^ (l2 - l1) * 2 ^ (32 - l2) = 2 ^ (32 - l1) := by
    rw [← Nat.pow_add]
    congr 1
    omega
  have hpos := Nat.two_pow_pos (32 - l2)
  have hd := Nat.div_mul_le_self c2.toNat (2 ^ (l2 - l1))
  have hm := Nat.lt_div_mul_add (a := c2.toNat) (Nat.two_pow_pos (l2 - l1))
  refine ⟨c2.toNat * 2 ^ (32 - l2), ⟨?_, ?_⟩, ⟨Nat.le_refl _, by omega⟩⟩
  · rw [hc, ← p12, ← Nat.mul_assoc]
    exact Nat.mul_le_mul_right _ hd
  · rw [hc, ← p12, ← Nat.mul_assoc, ← Nat.add_mul]
    exact (Nat.mul_lt_mul_right hpos).2 hm

/-! ### Matching -/

/-- `findEntry` gives the first entry whose codeword matches (43_codebook.md R342, R343). -/
theorem findEntry_first {r : BitReader} {avail : Nat} : ∀ {ls : List (Option Nat)} {cws : List Word} {e0 e len : Nat} {cw : Word},
    cws.length = ls.length → ls[e]? = some (some len) → cws[e]? = some cw → codewordMatches r avail len cw = true →
    (∀ e' len' cw', e' < e → ls[e']? = some (some len') → cws[e']? = some cw' → codewordMatches r avail len' cw' = false) →
    findEntry r avail ls cws e0 = some (e0 + e, len)
  | [], _, _, _, _, _, _, h, _, _, _ => by simp at h
  | _ :: _, [], _, _, _, _, hlen, _, _, _, _ => by simp at hlen
  | l :: ls, c :: cws, e0, e, len, cw, hlen, h1, h2, hm, hno => by
    cases e with
    | zero =>
      simp at h1 h2
      rw [h1, h2, findEntry, if_pos hm]
      rfl
    | succ e =>
      have ih := findEntry_first (e0 := e0 + 1) (e := e) (len := len) (cw := cw) (ls := ls) (cws := cws) (by simpa using hlen)
        (by simpa using h1) (by simpa using h2) hm
        fun e' len' cw' he h3 h4 => hno (e' + 1) len' cw' (by omega) (by simpa using h3) (by simpa using h4)
      have hsum : e0 + 1 + e = e0 + (e + 1) := by omega
      rw [hsum] at ih
      cases l with
      | none =>
        rw [findEntry, ih]
      | some len' =>
        have := hno 0 len' c (by omega) rfl rfl
        rw [findEntry, this, if_neg (by simp), ih]

theorem matches_iff {r : BitReader} {avail len : Nat} {cw : Word} : codewordMatches r avail len cw = true ↔
    ∀ i < len, r.peek avail i = cw.getLsbD (len - 1 - i) := by
  simp [codewordMatches]

/-- `decode_scalar` on bits that begin with an entry's canonical codeword (43_codebook.md R342 to R344). -/
theorem decodeScalar_codeword {s : State} {b e len : Nat} {cb : Codebook} {cw : Word} {rest : List Bool}
    (hcb : s.tab.codebook b = cb) (hl : LengthsOk cb.lengths) (hc : computeCodewords cb.lengths = some cb.codewords)
    (he : cb.lengths[e]? = some (some len)) (hcw : cb.codewords[e]? = some cw) (h : s.Holds (codewordBits len cw ++ rest)) :
    ∃ t, decodeScalar b s = .ok (.entry e) t ∧ t.Holds rest ∧ ReadFrom s t := by
  have hover := computeCodewords_over hl hc
  have hlen := hl len (List.mem_of_getElem? he)
  obtain ⟨t, ht, h1, h2, h3, h4⟩ := lookAhead_holds h
  have hsize : (codewordBits len cw ++ rest).length = len + rest.length := by simp
  generalize havail : min 32 (codewordBits len cw ++ rest).length = avail at *
  have hin : len ≤ avail := by omega
  have bit : ∀ i < len, t.rd.peek avail i = cw.getLsbD (len - 1 - i) := by
    intro i hi
    rw [h4 i, List.getD_append _ _ _ _ (by simpa using hi), codewordBits_get hi, decide_eq_true (by omega), Bool.true_and]
  have first : findEntry t.rd avail cb.lengths cb.codewords 0 = some (0 + e, len) := by
    refine findEntry_first hover.length he hcw (matches_iff.2 bit) fun e' len' cw' hlt hl' hc' => ?_
    by_contra hm
    have hm := matches_iff.1 (by simpa using hm)
    have hlen' := hl len' (List.mem_of_getElem? hl')
    have hmeet : ∃ x, Covers len cw x ∧ Covers len' cw' x := by
      rcases Nat.le_total len len' with hle | hle
      · exact covers_of_begins hle hlen'.2 (hover.fits e len cw he hcw) (hover.fits e' len' cw' hl' hc')
          fun i hi => by rw [← bit i hi, hm i (by omega)]
      · obtain ⟨x, hx1, hx2⟩ := covers_of_begins hle hlen.2 (hover.fits e' len' cw' hl' hc') (hover.fits e len cw he hcw)
          fun i hi => by rw [← hm i hi, bit i (by omega)]
        exact ⟨x, hx2, hx1⟩
    obtain ⟨x, hx, hx'⟩ := hmeet
    have := hover.apart e e' len len' cw cw' x he hcw hl' hc' hx hx'
    omega
  obtain ⟨hok, hheld⟩ := consumeBits_ok h1.reader (n := len) (by omega)
  refine ⟨{ t with rd := consumeBits len t.rd }, ?_, ⟨⟨h1.here.latched, h1.here.fits, h1.here.live⟩, hok, ?_, ?_⟩,
    readFrom_trans h2 (readFrom_reader t _)⟩
  · have hv := h.valid
    unfold decodeScalar
    rw [get_bind, if_neg (by omega), bind_ok ht, get_bind, hcb, first, Nat.zero_add]
    dsimp only
    rw [if_neg (by omega), bind_ok (setReader_run _ t), pure_run]
  · show 0 ≤ t.rd.validBits - len
    omega
  · have hheldlen : len ≤ t.rd.heldBits.length := by rw [heldBits_length]; omega
    have hb := h1.bits
    unfold State.packetBits at hb
    show (consumeBits len t.rd).heldBits ++ t.packetBytes.flatMap byteBits = rest
    rw [hheld, ← List.drop_append_of_le_length hheldlen, hb, List.drop_left' (codewordBits_length len cw)]

end Sys2Proof.Machine
end

