-- ==== Sys2Proof/Laws/Placement.lean ====
section
/-! SUPPORT. Where a vector's elements land, and what decoding one vector whose codeword is next does to the machine. -/

namespace Sys2Proof.Machine

/-! ### Samples -/

/-- A sample of a working buffer. -/
def Work.sample (w : Work) (ch i : Nat) : F32 := (w.channelBuffer.getD ch []).getD i 0

/-- The size of a working buffer. -/
def Work.size (w : Work) (ch : Nat) : Nat := (w.channelBuffer.getD ch []).length

@[simp] theorem modifySample_sample (ch idx : Nat) (f : F32 → F32) (w : Work) (c j : Nat) :
    (modifySample ch idx f w).sample c j =
      if c = ch ∧ j = idx ∧ idx < w.size ch then f (w.sample c j) else w.sample c j := by
  unfold Work.sample modifySample Work.size
  simp only [List.getD_eq_getElem?_getD, List.getElem?_modify]
  by_cases h : c = ch
  · subst h
    cases hb : w.channelBuffer[c]? with
    | none => simp
    | some b =>
      by_cases hj : j = idx
      · subst hj
        by_cases hl : j < b.length
        · simp [hl]
        · simp [hl]
      · simp [hj, Ne.symm hj]
  · simp [h, Ne.symm h]

@[simp] theorem modifySample_size (ch idx : Nat) (f : F32 → F32) (w : Work) (c : Nat) : (modifySample ch idx f w).size c = w.size c := by
  unfold Work.size modifySample
  simp only [List.getD_eq_getElem?_getD, List.getElem?_modify]
  by_cases h : ch = c
  · subst h
    cases w.channelBuffer[ch]? <;> simp
  · simp [h]

/-! ### A vector -/

@[simp] theorem addVector_size (cb : Codebook) (lt : LookupType) (e : Nat) : ∀ slots i prev (w : Work) ch,
    (addVector cb lt e slots i prev w).size ch = w.size ch
  | [], _, _, _, _ => rfl
  | none :: r, _, _, w, ch => addVector_size cb lt e r _ _ w ch
  | some (_, _) :: r, _, _, _, ch => (addVector_size cb lt e r _ _ _ ch).trans (modifySample_size _ _ _ _ _)

/-- A sample that no slot names keeps its value. -/
theorem addVector_frame (cb : Codebook) (lt : LookupType) (e : Nat) : ∀ slots i prev (w : Work) ch idx, some (ch, idx) ∉ slots →
    (addVector cb lt e slots i prev w).sample ch idx = w.sample ch idx
  | [], _, _, _, _, _, _ => rfl
  | none :: r, _, _, w, ch, idx, h => addVector_frame cb lt e r _ _ w ch idx fun hm => h (by simp [hm])
  | some (c, k) :: r, _, _, w, ch, idx, h => by
    unfold addVector
    rw [addVector_frame cb lt e r _ _ _ ch idx fun hm => h (by simp [hm]), modifySample_sample, if_neg]
    rintro ⟨rfl, rfl, _⟩
    simp at h

theorem vqValue_term (cb : Codebook) (lt : LookupType) (e i : Nat) (prev : F32) :
    vqValue cb lt e i prev = fadd (vectorTerm cb lt e i) prev := by
  unfold vqValue vectorTerm vqOffset
  cases lt <;> rfl

/-- The running sum before element `i` (43_codebook.md R350). -/
def runningSum (cb : Codebook) (lt : LookupType) (e : Nat) : Nat → F32
  | 0 => 0
  | i + 1 => if cb.sequenceP then vectorValue cb lt e i else 0

theorem vqValue_runningSum (cb : Codebook) (lt : LookupType) (e i : Nat) :
    vqValue cb lt e i (runningSum cb lt e i) = vectorValue cb lt e i := by
  rw [vqValue_term]
  cases i <;> rfl

/-- Each element is added to its slot. -/
theorem addVector_value (cb : Codebook) (lt : LookupType) (e : Nat) : ∀ slots i (w : Work) j ch idx, (slots.filterMap id).Nodup →
    slots[j]? = some (some (ch, idx)) → idx < w.size ch →
    (addVector cb lt e slots i (runningSum cb lt e i) w).sample ch idx = fadd (w.sample ch idx) (vectorValue cb lt e (i + j))
  | [], _, _, _, _, _, _, h, _ => by simp at h
  | s :: r, i, w, j, ch, idx, hn, h, hl => by
    have hprev : (if cb.sequenceP then vectorValue cb lt e i else runningSum cb lt e i) = runningSum cb lt e (i + 1) := by
      show _ = if cb.sequenceP then vectorValue cb lt e i else 0
      by_cases hs : cb.sequenceP
      · simp [hs]
      · cases i <;> simp [hs, runningSum]
    unfold addVector
    simp only [vqValue_runningSum, hprev]
    cases j with
    | zero =>
      simp only [List.getElem?_cons_zero, Option.some.injEq] at h
      subst h
      have hnot : some (ch, idx) ∉ r := by
        intro hm
        simp at hn
        exact hn.1 hm
      rw [addVector_frame _ _ _ _ _ _ _ _ _ hnot, modifySample_sample, if_pos ⟨rfl, rfl, hl⟩]
      rfl
    | succ j =>
      have h : r[j]? = some (some (ch, idx)) := by simpa using h
      have hmem : some (ch, idx) ∈ r := List.mem_of_getElem? h
      cases s with
      | none =>
        rw [addVector_value cb lt e r (i + 1) w j ch idx (by simpa using hn) h hl]
        congr 2; omega
      | some p =>
        obtain ⟨c, k⟩ := p
        simp at hn
        rw [addVector_value cb lt e r (i + 1) _ j ch idx hn.2 h (by simpa using hl), modifySample_sample, if_neg]
        · congr 2; omega
        · rintro ⟨rfl, rfl, _⟩
          exact hn.1 hmem

/-- Decoding a vector whose codeword is next: its bits are consumed and the vector is added (43_codebook.md R350 to R353). -/
theorem decodeVqAs_codeword {s : State} {lt : LookupType} {b e len : Nat} {cw : Word} {cb : Codebook} {rest : List Bool}
    (slots : List (Option (Nat × Nat))) (hlt : lt ≠ .none) (hcb : s.tab.codebook b = cb)
    (hl : ∀ l, some l ∈ cb.lengths → 1 ≤ l ∧ l ≤ 31) (hc : computeCodewords cb.lengths = some cb.codewords)
    (he : cb.lengths[e]? = some (some len)) (hcw : cb.codewords[e]? = some cw) (hh : s.Holds (codewordBits len cw ++ rest)) :
    ∃ t, decodeVqAs lt b slots s = .ok (.entry e) t ∧ t.Holds rest ∧ DecodedFrom s t ∧ t.tab = s.tab ∧ t.ctl = s.ctl ∧
      t.work = addVector cb lt e slots 0 0 s.work := by
  obtain ⟨t, ht, h1, h2⟩ := decodeScalar_codeword hcb (fun l h => ⟨(hl l h).1, by have := (hl l h).2; omega⟩) hc he hcw hh
  have hw : t.work = s.work := by rw [h2.frame]
  have htab : t.tab.codebook b = cb := by rw [h2.frame]; exact hcb
  have hd : decodeVqAs lt b slots s = .ok (.entry e) { t with work := addVector cb lt e slots 0 0 t.work } := by
    cases lt with
    | none => exact absurd rfl hlt
    | lattice => unfold decodeVqAs; simp only []; rw [bind_ok ht]; simp only []; rw [get_bind, htab]; rfl
    | direct => unfold decodeVqAs; simp only []; rw [bind_ok ht]; simp only []; rw [get_bind, htab]; rfl
  rw [hw] at hd
  refine ⟨_, hd, ⟨⟨h1.here.latched, h1.here.fits, h1.here.live⟩, h1.reader, h1.valid, h1.bits⟩, ⟨⟨h2.within.cursor, h2.within.stop⟩, ?_⟩, ?_, ?_, rfl⟩
  · show ({ t with work := _ } : State) = _
    rw [h2.frame]
  · show t.tab = s.tab
    rw [h2.frame]
  · show t.ctl = s.ctl
    rw [h2.frame]

/-- No two positions of a lane share a slot, when a lane's channels differ (45_residue.md R432). -/
theorem slot_injective {lane : Lane} (h : ∀ chans, lane = .interleaved chans → (chans.map Prod.fst).Nodup) {x y ch idx : Nat}
    (hx : lane.slot x = some (ch, idx)) (hy : lane.slot y = some (ch, idx)) : x = y := by
  cases lane with
  | single c =>
    unfold Lane.slot at hx hy
    simp only [Option.some.injEq, Prod.mk.injEq] at hx hy
    omega
  | interleaved chans =>
    have hn := h chans rfl
    have key : ∀ z, (Lane.interleaved chans).slot z = some (ch, idx) → ∃ hz : z % chans.length < (chans.map Prod.fst).length,
        (chans.map Prod.fst)[z % chans.length] = ch ∧ z / chans.length = idx := by
      intro z hz
      unfold Lane.slot at hz
      simp only [] at hz
      split at hz
      · next c hc =>
        simp only [Option.some.injEq, Prod.mk.injEq] at hz
        obtain ⟨hlt, he⟩ := List.getElem?_eq_some_iff.1 hc
        exact ⟨by simpa using hlt, by simp [he, hz.1], hz.2⟩
      · cases hz
    obtain ⟨h1, e1, d1⟩ := key x hx
    obtain ⟨h2, e2, d2⟩ := key y hy
    have hm : x % chans.length = y % chans.length := (List.Nodup.getElem_inj_iff hn).1 (e1.trans e2.symm)
    rw [← Nat.div_add_mod x chans.length, ← Nat.div_add_mod y chans.length, hm, d1, d2]

end Sys2Proof.Machine
end

