-- ==== Sys2Proof/Laws/Source.lean ====
section
/-! SUPPORT. Reading bytes that the source holds, page headers among them, and the headers of a stream laid one packet to a
page. -/

namespace Sys2Proof.Machine

variable {α β : Type}

/-! ### Bytes ahead -/

theorem word_add_toNat {a : Word} {n : Nat} (h : a.toNat + n < 2 ^ 32) : (a + BitVec.ofNat 32 n).toNat = a.toNat + n := by
  rw [BitVec.toNat_add, BitVec.toNat_ofNat]
  omega

theorem moved_moved (s : State) (m n : Nat) : (s.moved m).moved n = s.moved (m + n) := by
  unfold State.moved
  simp [BitVec.ofNat_add, BitVec.add_assoc]

theorem moved_zero (s : State) : s.moved 0 = s := by
  unfold State.moved
  simp

theorem ahead_moved {s : State} {b1 b2 : List Byte} (h : s.Ahead (b1 ++ b2)) : (s.moved b1.length).Ahead b2 := by
  have hf := h.fits
  have hlen := s.src.len.isLt
  rw [List.length_append] at hf
  have hp : (s.moved b1.length).src.pos.toNat = s.src.pos.toNat + b1.length := word_add_toNat (by omega)
  refine ⟨?_, fun i hi => ?_, h.live⟩
  · rw [hp]
    show _ ≤ s.src.len.toNat
    omega
  · have := h.same (b1.length + i) (by rw [List.length_append]; omega)
    rw [List.getD_append_right _ _ _ _ (by omega), Nat.add_sub_cancel_left] at this
    rw [← this]
    show s.srcByte (s.src.pos + BitVec.ofNat 32 b1.length + BitVec.ofNat 32 i) = _
    rw [BitVec.add_assoc, ← BitVec.ofNat_add]

/-- The step reads exactly `bytes` from the source and returns `a`. -/
def Gets {α : Type} (m : M α) (bytes : List Byte) (a : α) : Prop :=
  ∀ s rest, s.Ahead (bytes ++ rest) → m s = .ok a (s.moved bytes.length)

theorem gets_pure (a : α) : Gets (pure a) [] a := fun s _ _ => by rw [List.length_nil, moved_zero, pure_run]

theorem gets_bind {m : M α} {k : α → M β} {b1 b2 : List Byte} {a : α} {c : β} (hm : Gets m b1 a) (hk : Gets (k a) b2 c) :
    Gets (m >>= k) (b1 ++ b2) c := by
  intro s rest h
  rw [List.append_assoc] at h
  rw [bind_ok (hm s _ h), hk _ rest (ahead_moved h), moved_moved, List.length_append]

theorem gets_bind_nil {m : M α} {k : α → M β} {b1 : List Byte} {a : α} {c : β} (hm : Gets m b1 a) (hk : Gets (k a) [] c) :
    Gets (m >>= k) b1 c := by
  have := gets_bind hm hk
  rwa [List.append_nil] at this

theorem gets_get8 (b : Byte) : Gets get8 [b] b := by
  intro s rest h
  have hf := h.fits
  have hb := h.same 0 (by simp)
  simp only [List.length_append, List.length_singleton] at hf
  have hle : ¬ s.src.len ≤ s.src.pos := by rw [BitVec.le_def]; omega
  unfold get8 inByte
  rw [get_bind]
  simp only [if_neg hle]
  have : s.srcByte s.src.pos = b := by simpa using hb
  rw [this]
  rfl

theorem gets_bytes : ∀ bs : List Byte, Gets (readMany get8 bs.length) bs bs
  | [] => gets_pure _
  | b :: bs => gets_bind (gets_get8 b) (gets_bind_nil (gets_bytes bs) (gets_pure _))

theorem leNat_mod : ∀ n v, leNat (bytesOf n v) = v % 256 ^ n
  | 0, v => by simp [bytesOf, leNat, Nat.mod_one]
  | n + 1, v => by
    rw [bytesOf, leNat, leNat_mod n (v / 256), BitVec.toNat_ofNat, show 256 ^ (n + 1) = 256 * 256 ^ n from Nat.pow_succ',
      Nat.mod_mul]

theorem gets_get32 (v : Nat) : Gets get32 (bytesOf 4 v) (BitVec.ofNat 32 v) := by
  have h := gets_bytes (bytesOf 4 v)
  rw [bytesOf_length] at h
  refine gets_bind_nil h ?_
  have : BitVec.ofNat 32 (leNat (bytesOf 4 v)) = BitVec.ofNat 32 v := by
    rw [leNat_mod]
    apply BitVec.eq_of_toNat_eq
    simp
  rw [this]
  exact gets_pure _

theorem bytesOf_add : ∀ m n v, bytesOf (m + n) v = bytesOf m v ++ bytesOf n (v / 256 ^ m)
  | 0, n, v => by simp [bytesOf]
  | m + 1, n, v => by
    rw [Nat.add_right_comm, bytesOf, bytesOf, bytesOf_add m n (v / 256), List.cons_append, Nat.div_div_eq_div_mul,
      Nat.pow_succ, Nat.mul_comm 256]

theorem gets_get64 (g : BitVec 64) : Gets get64 (bytesOf 8 g.toNat) g := by
  rw [bytesOf_add 4 4]
  refine gets_bind (gets_get32 _) (gets_bind_nil (gets_get32 _) ?_)
  have : BitVec.ofNat 32 (g.toNat / 256 ^ 4) ++ BitVec.ofNat 32 g.toNat = g := by
    apply BitVec.eq_of_toNat_eq
    have := g.isLt
    rw [BitVec.toNat_append, BitVec.toNat_ofNat, BitVec.toNat_ofNat, ← Nat.shiftLeft_add_eq_or_of_lt (by omega), Nat.shiftLeft_eq]
    omega
  rw [this]
  exact gets_pure _

/-! ### Page headers -/

theorem startPageNoCapture_ahead {s : State} {f : PageFields} {rest : List Byte} (hs : f.segments.length ≤ 255)
    (h : s.Ahead (f.encode ++ rest)) : startPageNoCapture s = .ok () (s.pageRead f) := by
  unfold PageFields.encode at h
  rw [List.append_assoc] at h
  have h1 := ahead_moved h
  rw [List.append_assoc] at h1
  have h2 := ahead_moved h1
  rw [List.append_assoc] at h2
  have h3 := ahead_moved h2
  rw [List.append_assoc] at h3
  have h4 := ahead_moved h3
  rw [List.append_assoc] at h4
  have h5 := ahead_moved h4
  rw [List.append_assoc] at h5
  have h6 := ahead_moved h5
  rw [List.append_assoc] at h6
  have h7 := ahead_moved h6
  have hc : (BitVec.ofNat 8 f.segments.length).toNat = f.segments.length := by
    rw [BitVec.toNat_ofNat]
    omega
  unfold startPageNoCapture
  rw [bind_ok (gets_get8 0 _ _ h), if_neg (by simp), bind_ok (gets_get8 f.flag _ _ h1), bind_ok (gets_get64 f.granule _ _ h2),
    bind_ok (gets_get32 f.serial _ _ h3), bind_ok (gets_get32 f.sequence _ _ h4), bind_ok (gets_get32 f.crc _ _ h5),
    bind_ok (gets_get8 _ _ _ h6), hc]
  have h8 := gets_bytes f.segments _ _ h7
  have hgetn : getn f.segments.length (((((((s.moved [(0 : Byte)].length).moved [f.flag].length).moved
      (bytesOf 8 f.granule.toNat).length).moved (bytesOf 4 f.serial).length).moved (bytesOf 4 f.sequence).length).moved
      (bytesOf 4 f.crc).length).moved [BitVec.ofNat 8 f.segments.length].length) =
      .ok (f.segments, true) (s.moved f.encode.length) := by
    unfold getn
    rw [bind_ok h8, get_bind, pure_run]
    simp only [moved_moved]
    have hl : (s.moved f.encode.length).src.eof = false := h.live
    congr 2
    · simp [State.moved, h.live]
    · unfold PageFields.encode
      simp only [List.length_append]
      omega
  rw [bind_ok hgetn]
  rfl

theorem markPageStart_run (s : State) : markPageStart s = .ok () { s with src.pageStart := s.src.pos } := rfl

theorem capturePattern_ahead {s : State} {rest : List Byte} (h : s.Ahead (captureBytes ++ rest)) :
    capturePattern s = .ok true s.captured := by
  have h1 : ({ s with src.pageStart := s.src.pos } : State).Ahead (captureBytes ++ rest) := ⟨h.fits, h.same, h.live⟩
  unfold capturePattern
  rw [bind_ok (markPageStart_run s), bind_ok ((show Gets (readMany get8 4) captureBytes captureBytes from gets_bytes captureBytes) _ _ h1)]
  rfl

theorem captured_ahead {s : State} {rest : List Byte} (h : s.Ahead (captureBytes ++ rest)) : s.captured.Ahead rest :=
  ahead_moved (s := { s with src.pageStart := s.src.pos }) (b1 := captureBytes) ⟨h.fits, h.same, h.live⟩

theorem startPage_ahead {s : State} {f : PageFields} {rest : List Byte} (hs : f.segments.length ≤ 255)
    (h : s.Ahead (captureBytes ++ (f.encode ++ rest))) : startPage s = .ok () (s.captured.pageRead f) := by
  unfold startPage
  rw [bind_ok (capturePattern_ahead h), if_pos rfl]
  exact startPageNoCapture_ahead hs (captured_ahead h)

theorem pageRead_ahead {s : State} {f : PageFields} {rest : List Byte} (h : s.Ahead (f.encode ++ rest)) :
    (s.pageRead f).Ahead rest := by
  have := ahead_moved h
  exact ⟨this.fits, this.same, this.live⟩

/-! ### Where the source ends -/

/-- What a failed capture test raises (60_exceptions.md R612; notes/assumptions/44.md). -/
theorem captureFailed_run {α : Type} (s : State) : (captureFailed : M α) s =
    .error (if s.captureCut && Config.cutCaptureIsEof then .unexpectedEof else .missingCapturePattern) s := rfl

/-- A packet start after the first page that finds its packet (41_ogg_framer.md R241). -/
theorem startPacketOrEnd_ok {s t : State} (h : startPacket s = .ok () t) : startPacketOrEnd s = .ok true t := by
  unfold startPacketOrEnd
  rw [bind_ok (attempt_ok h)]
  rfl

/-- A packet start after the first page that raises: only a page sought at the source's very end may end the stream instead
(48_frame_control.md R530; notes/assumptions/45.md). -/
theorem startPacketOrEnd_error {s t : State} {e : ErrCode} (h : startPacket s = .error e t) : startPacketOrEnd s =
    if e = .missingCapturePattern ∧ t.src.len ≤ t.src.pageStart ∧ Config.emptyPageIsEnd = true then .ok false t else .error e t := by
  unfold startPacketOrEnd
  rw [bind_ok (attempt_error h)]
  dsimp only
  rw [get_bind]
  simp only [Bool.and_eq_true, decide_eq_true_eq, and_assoc]
  split <;> rfl

/-! ### A packet that fills a page -/

theorem lacing_sum (n : Nat) : sumSegments (lacing n) 0 = (n, true) := by
  unfold lacing
  have key : ∀ k p, sumSegments (List.replicate k (255 : Byte) ++ [BitVec.ofNat 8 (n % 255)]) p = (p + 255 * k + n % 255, true) := by
    intro k
    induction k with
    | zero =>
      intro p
      have : (BitVec.ofNat 8 (n % 255)).toNat = n % 255 := by
        rw [BitVec.toNat_ofNat]
        omega
      simp only [List.replicate_zero, List.nil_append, sumSegments, this]
      rw [if_pos (by omega)]
      simp
    | succ k ih =>
      intro p
      rw [List.replicate_succ, List.cons_append, sumSegments, if_neg (by decide), ih]
      have : (255 : Byte).toNat = 255 := rfl
      rw [this]
      congr 1
      omega
  rw [key]
  congr 1
  omega

theorem lacing_ending (n : Nat) : endingSegment (lacing n) = (lacing n).length := by
  unfold lacing
  generalize n / 255 = k
  induction k with
  | zero =>
    have : (BitVec.ofNat 8 (n % 255)).toNat = n % 255 := by
      rw [BitVec.toNat_ofNat]
      omega
    simp only [List.replicate_zero, List.nil_append, endingSegment, this]
    rw [if_pos (by omega)]
    rfl
  | succ k ih =>
    rw [List.replicate_succ, List.cons_append, endingSegment, if_neg (by decide), ih, List.length_cons]
    omega

theorem lacing_ne (n : Nat) : (lacing n).length ≠ 0 := by simp [lacing]

theorem openPacket_run (s : State) : openPacket s = .ok () s.opened := rfl

theorem latched_new (flag : Byte) (g : BitVec 64) (segs : List Byte) (c : PageCursor) (hs : segs.length ≠ 0) :
    (latchPage flag g segs c).latched = segs := by
  unfold PageCursor.latched
  have h1 : (latchPage flag g segs c).nextSeg = 0 := by simp [latchPage, hs]
  have h2 : (latchPage flag g segs c).segments = segs ++ c.segments.drop segs.length := rfl
  have h3 : (latchPage flag g segs c).segmentCount = segs.length := rfl
  rw [h1, h2, h3, Int.toNat_zero, List.drop_zero, List.take_left]

/-- A packet that fills the page just read lies ahead, and a new page follows it. -/
theorem opened_here {s : State} {f : PageFields} {body rest : List Byte} (hs : f.segments = lacing body.length)
    (h : (s.pageRead f).Ahead (body ++ rest)) :
    (s.pageRead f).opened.PacketHere ∧ (s.pageRead f).opened.packetBytes = body ∧
      (s.pageRead f).opened.packetSize = body.length ∧ (s.pageRead f).opened.cur.nextPacket = -1 := by
  have hne : f.segments.length ≠ 0 := by rw [hs]; exact lacing_ne _
  have hlat : (s.pageRead f).opened.cur.latched = f.segments := latched_new f.flag f.granule f.segments s.cur hne
  have hseg : (s.pageRead f).opened.cur.nextSeg = 0 := by
    show (if f.segments.length = 0 then (-1 : Int) else 0) = 0
    rw [if_neg hne]
  have hlast : (s.pageRead f).opened.cur.lastSeg = false := rfl
  have hbytes : (s.pageRead f).opened.cur.bytesInSeg = 0 := rfl
  have hleft : (s.pageRead f).opened.cur.packetLeft = some body.length := by
    unfold PageCursor.packetLeft
    rw [hlast, hseg, hlat, hs, lacing_sum, hbytes]
    simp
  have hsize : (s.pageRead f).opened.packetSize = body.length := packetSize_eq hleft
  have hf := h.fits
  rw [List.length_append] at hf
  refine ⟨⟨by rw [hleft]; rfl, ?_, h.live⟩, ?_, hsize, ?_⟩
  · rw [hsize]
    show (s.pageRead f).src.pos.toNat + body.length ≤ (s.pageRead f).src.len.toNat
    omega
  · unfold State.packetBytes
    rw [hsize]
    refine List.ext_getElem (by simp) fun i h1 h2 => ?_
    have := h.same i (by rw [List.length_append]; omega)
    rw [List.getD_append _ _ _ _ h2, List.getD_eq_getElem _ _ h2] at this
    rw [← this]
    simp
    rfl
  · rw [nextPacket_open hlast (by omega), hseg, hlat, hs, lacing_ending]
    have hcnt : (s.pageRead f).opened.cur.segmentCount = (lacing body.length).length := by
      show f.segments.length = _
      rw [hs]
    rw [hcnt, if_pos (by simp)]

/-! ### The headers of a stream -/

/-- `start_packet()` where a new page holds one packet (41_ogg_framer.md R241). -/
theorem startPacket_ahead {s : State} {f : PageFields} {body rest : List Byte} (hn : s.cur.nextSeg = -1)
    (hc : pageContinued f.flag = false) (hs : f.segments = lacing body.length) (hl : f.segments.length ≤ 255)
    (h : s.Ahead (captureBytes ++ (f.encode ++ (body ++ rest)))) :
    startPacket s = .ok () (s.captured.pageRead f).opened := by
  have hf := h.fits
  have hseg : (s.captured.pageRead f).cur.nextSeg = 0 := by
    show (if f.segments.length = 0 then (-1 : Int) else 0) = 0
    rw [if_neg (by rw [hs]; exact lacing_ne _)]
  have hpages : startPacketPages (s.src.len.toNat + 1) s = .ok () (s.captured.pageRead f) := by
    obtain ⟨k, hk⟩ : ∃ k, s.src.len.toNat = k + 1 := by
      refine ⟨s.src.len.toNat - 1, ?_⟩
      rw [List.length_append] at hf
      have : captureBytes.length = 4 := rfl
      omega
    rw [hk, startPacketPages, get_bind, if_pos hn, bind_ok (startPage_ahead hl h), get_bind]
    rw [if_neg (show ¬ pageContinued (s.captured.pageRead f).cur.pageFlag = true from by
      show ¬ pageContinued f.flag = true
      simp [hc]), startPacketPages, get_bind, if_neg (by omega)]
    rfl
  unfold startPacket
  rw [get_bind, bind_ok hpages, openPacket_run]

/-- The end of a packet that fills a page: the source goes on after it, and a new page is next. -/
theorem done_ahead {s u : State} {body rest : List Byte} {tab : Tables} (h : s.Ahead (body ++ rest))
    (hsize : s.packetSize = body.length) (hnext : s.cur.nextPacket = -1) (hd : u.PacketDone) (hp : ParsedFrom s u tab) :
    u.Ahead rest ∧ u.cur.nextSeg = -1 ∧ u.src.pos = (s.moved body.length).src.pos := by
  have hstop := hp.within.stop
  rw [hd.taken, hsize] at hstop
  have hmem : u.mem = s.mem := by rw [hp.frame]
  have hbase : u.src.base = s.src.base := by rw [hp.frame]
  have hlen : u.src.len = s.src.len := by rw [hp.frame]
  have hm := ahead_moved h
  have hf := h.fits
  have hlt := s.src.len.isLt
  rw [List.length_append] at hf
  have hpos : u.src.pos = (s.moved body.length).src.pos := by
    apply BitVec.eq_of_toNat_eq
    rw [State.moved, word_add_toNat (by omega)]
    omega
  refine ⟨⟨?_, fun i hi => ?_, hd.here.live⟩, ?_, hpos⟩
  · rw [hpos, hlen]
    exact hm.fits
  · rw [← hm.same i hi, hpos]
    unfold State.srcByte
    rw [hmem, hbase]
    rfl
  · have := hp.within.cursor.next
    rw [hnext, PageCursor.nextPacket, if_pos hd.ended] at this
    exact this

/-- A header packet that fills the page just read (42_setup.md R282, R286, R288). -/
theorem headerPacket_ahead {s w : State} {f : PageFields} {k : HeaderKind} {m : M Unit} {body rest : List Byte} {tab : Tables}
    (hstart : startPacket s = .ok () (w.pageRead f).opened)
    (hs : f.segments = lacing (BitVec.ofNat 8 k.typeByte :: body).length)
    (h : (w.pageRead f).Ahead ((BitVec.ofNat 8 k.typeByte :: body) ++ rest))
    (hm : ∀ v : State, v.PacketHere → v.packetBytes = body → ParsedFrom (w.pageRead f).opened v w.tab →
      ∃ u, m v = .ok () u ∧ u.PacketDone ∧ ParsedFrom v u tab) :
    ∃ u, headerPacket k m s = .ok () u ∧ u.Ahead rest ∧ u.cur.nextSeg = -1 ∧
      ParsedFrom (w.pageRead f).opened u tab ∧ u.src.pos = ((w.pageRead f).moved (body.length + 1)).src.pos := by
  obtain ⟨hh, hb, hsz, hnext⟩ := opened_here hs h
  obtain ⟨v, hv, h1, h2, h3, _, _⟩ := takes_get8Packet (p := w.params) (t := w.tab) (BitVec.ofNat 8 k.typeByte)
    (w.pageRead f).opened body rfl rfl hh hb
  obtain ⟨u, hu, g1, g2⟩ := hm v h1 h2 h3
  have g3 := parsedFrom_trans h3 g2
  have ha : (w.pageRead f).opened.Ahead ((BitVec.ofNat 8 k.typeByte :: body) ++ rest) := ⟨h.fits, h.same, h.live⟩
  obtain ⟨k1, k2, k3⟩ := done_ahead ha hsz hnext g1 g3
  refine ⟨u, ?_, k1, k2, g3, k3⟩
  unfold headerPacket
  rw [bind_ok hstart, bind_ok hv, bind_ok (t := v) (a := ()) (by rw [beq_self_eq_true]; rfl), hu]

theorem identFields_length (f : IdentFields) : f.encode.length = 29 := by
  simp [IdentFields.encode, bytesOf_length, vorbisBytes]

/-- What reading the headers can change. -/
def HeadersFrom (s t : State) (tab : Tables) : Prop :=
  t = { s with
    rd := t.rd, cur := t.cur, src := { s.src with pos := t.src.pos, pageStart := t.src.pageStart }, tab := tab }

theorem headersFrom_trans {s t u : State} {tab tab' : Tables} (h1 : HeadersFrom s t tab) (h2 : HeadersFrom t u tab') :
    HeadersFrom s u tab' := by
  unfold HeadersFrom at *
  rw [h1] at h2
  exact h2

theorem headersFrom_packet {s u : State} {f : PageFields} {tab : Tables}
    (h : ParsedFrom (s.captured.pageRead f).opened u tab) : HeadersFrom s u tab := by
  have hf := h.frame
  have hp : u.src.pageStart = s.src.pos := by
    rw [hf]
    rfl
  unfold HeadersFrom
  rw [hp]
  exact hf

/-- Where the source stands after a page and a packet that fills it. -/
theorem headerPage_pos (s : State) (f : PageFields) (n : Nat) : ((s.captured.pageRead f).moved n).src.pos =
    s.src.pos + BitVec.ofNat 32 4 + BitVec.ofNat 32 f.encode.length + BitVec.ofNat 32 n := rfl

theorem streamPos (h : HeaderStream) {p p1 p2 p3 : Word} {n1 n2 n3 : Nat}
    (h3 : p3 = p2 + BitVec.ofNat 32 4 + BitVec.ofNat 32 h.third.encode.length + BitVec.ofNat 32 (n3 + 1))
    (h2 : p2 = p1 + BitVec.ofNat 32 4 + BitVec.ofNat 32 h.second.encode.length + BitVec.ofNat 32 (n2 + 1))
    (h1 : p1 = p + BitVec.ofNat 32 4 + BitVec.ofNat 32 h.first.encode.length + BitVec.ofNat 32 (n1 + 1))
    (e1 : n1 = h.ident.encode.length) (e2 : n2 = (vorbisBytes ++ h.comment).length)
    (e3 : n3 = h.setup.length) : p3 = p + BitVec.ofNat 32 h.bytes.length := by
  rw [h3, h2, h1]
  simp only [BitVec.add_assoc, ← BitVec.ofNat_add]
  refine congrArg (fun k => p + BitVec.ofNat 32 k) ?_
  simp only [HeaderStream.bytes, List.length_append, List.length_cons]
  rw [List.length_append] at e2
  have : captureBytes.length = 4 := rfl
  omega

/-- The three header packets, one to a page (42_setup.md R281 to R324). -/
theorem parseHeaders_ahead {s : State} {h : HeaderStream} {f : SetupFields} {rest : List Byte} (hl : h.Legal f s.params)
    (ht : s.tab = Tables.absent) (ha : s.Ahead (h.bytes ++ rest)) :
    ∃ u, parseHeaders s = .ok () u ∧ u.Ahead rest ∧ u.cur.nextSeg = -1 ∧
      HeadersFrom s u (f.tables (h.ident.apply Tables.absent)) ∧ u.src.pos = (s.moved h.bytes.length).src.pos := by
  unfold HeaderStream.bytes at ha
  simp only [List.append_assoc] at ha
  obtain ⟨pad, hbits⟩ := hl.bits
  have hl1 : h.first.segments.length = 1 := by rw [hl.firstSegments]; rfl
  have a1 := pageRead_ahead (captured_ahead ha)
  have hs1 : h.first.segments = lacing (BitVec.ofNat 8 HeaderKind.identification.typeByte :: h.ident.encode).length := by
    rw [hl.firstSegments, List.length_cons, identFields_length]
    rfl
  have hstart : startPage s = .ok () (s.captured.pageRead h.first) := startPage_ahead (by omega) ha
  have hseg1 : (s.captured.pageRead h.first).cur.nextSeg = 0 := by
    show (if h.first.segments.length = 0 then (-1 : Int) else 0) = 0
    rw [if_neg (by omega)]
  have hchecks : firstPageChecks (s.captured.pageRead h.first) = .ok () (s.captured.pageRead h.first) := by
    unfold firstPageChecks
    rw [get_bind]
    have c1 : (pageFirst (s.captured.pageRead h.first).cur.pageFlag && !pageLast (s.captured.pageRead h.first).cur.pageFlag &&
        !pageContinued (s.captured.pageRead h.first).cur.pageFlag) = true := by
      show (pageFirst h.first.flag && !pageLast h.first.flag && !pageContinued h.first.flag) = true
      rw [hl.firstFlag.1, hl.firstFlag.2.1, hl.firstFlag.2.2]
      rfl
    have c2 : ((s.captured.pageRead h.first).cur.segmentCount == 1) = true := by
      show (h.first.segments.length == 1) = true
      rw [hl1]
      rfl
    have c3 : ((s.captured.pageRead h.first).cur.segments.getD 0 0).toNat = 30 := by
      show ((h.first.segments ++ _).getD 0 0).toNat = 30
      rw [hl.firstSegments]
      rfl
    dsimp only
    rw [c1, bind_ok (check_true _ _), c2, bind_ok (check_true _ _), c3, if_pos rfl]
    rfl
  have hpkt1 : startPacket (s.captured.pageRead h.first) = .ok () (s.captured.pageRead h.first).opened := by
    unfold startPacket
    rw [get_bind, startPacketPages, bind_ok (a := ()) (t := s.captured.pageRead h.first)
      (by rw [get_bind, if_neg (by omega)]; rfl), openPacket_run]
  obtain ⟨u1, e1, b1, n1, p1, o1⟩ := headerPacket_ahead (m := identificationBody) hpkt1 hs1 a1 fun v hv hb hp =>
    finishes_identification (p := s.params) hl.ident v [] (parsedFrom_tab hp) (by rw [hp.frame]; rfl) hv
      (by rw [List.append_nil]; exact hb)
  have t1 := parsedFrom_tab p1
  have q1 : u1.params = s.params := by rw [p1.frame]; rfl
  have c2 : u1.Ahead (captureBytes ++ (h.second.encode ++ ((BitVec.ofNat 8 HeaderKind.comment.typeByte ::
      (vorbisBytes ++ h.comment)) ++ (captureBytes ++ (h.third.encode ++ ((5 :: h.setup) ++ rest)))))) := by
    have e : BitVec.ofNat 8 HeaderKind.comment.typeByte = 3#8 := rfl
    rw [e]
    simpa [List.append_assoc] using b1
  have hs2 : h.second.segments = lacing (BitVec.ofNat 8 HeaderKind.comment.typeByte :: (vorbisBytes ++ h.comment)).length := by
    rw [hl.secondSegments.1]
    congr 1
    simp [vorbisBytes]
    omega
  obtain ⟨u2, e2, b2, n2, p2, o2⟩ := headerPacket_ahead (m := commentBody) (k := .comment) (body := vorbisBytes ++ h.comment)
    (startPacket_ahead n1 hl.secondFlag hs2 hl.secondSegments.2 c2) hs2 (pageRead_ahead (captured_ahead c2)) fun v hv hb hp =>
    finishes_comment (p := v.params) v h.comment (parsedFrom_tab hp) rfl hv hb
  have t2 := parsedFrom_tab p2
  have c3 : u2.Ahead (captureBytes ++ (h.third.encode ++ ((BitVec.ofNat 8 HeaderKind.setup.typeByte :: h.setup) ++ rest))) := b2
  have hs3 : h.third.segments = lacing (BitVec.ofNat 8 HeaderKind.setup.typeByte :: h.setup).length := by
    rw [hl.thirdSegments.1, List.length_cons, Nat.add_comm]
  have tab2 : u2.tab = h.ident.apply Tables.absent := by
    rw [t2]
    show u1.tab = _
    rw [t1]
    show h.ident.apply s.tab = _
    rw [ht]
  have hch : (h.ident.apply Tables.absent).channels ≤ 256 := by
    have := hl.ident.channels.2.1
    show h.ident.channels ≤ 256
    omega
  obtain ⟨u3, e3, b3, n3, p3, o3⟩ := headerPacket_ahead (tab := f.tables (h.ident.apply Tables.absent)) (m := setupBody) (k := .setup)
    (body := h.setup) (startPacket_ahead n2 hl.thirdFlag hs3 hl.thirdSegments.2 c3) hs3 (pageRead_ahead (captured_ahead c3))
    fun v hv hb hp => by
      have tv : v.tab = h.ident.apply Tables.absent := (parsedFrom_tab hp).trans tab2
      have := setupBody_here (s := v) (f := f) (rest := pad) (by rw [tv]; exact ⟨rfl, rfl, rfl, rfl, rfl⟩) (by rw [tv]; exact hch)
        (by rw [tv]; exact hl.fields) hv (by rw [hb]; exact hl.vorbis) (by rw [hb, tv]; exact hbits)
      rw [tv] at this
      exact this
  refine ⟨u3, ?_, b3, n3, ?_, ?_⟩
  · unfold parseHeaders
    rw [bind_ok hstart, bind_ok hchecks, bind_ok e1, bind_ok e2, e3]
  rotate_left
  · exact streamPos h (o3.trans (headerPage_pos u2 h.third _)) (o2.trans (headerPage_pos u1 h.second _))
      (o1.trans (headerPage_pos s h.first _)) rfl rfl rfl
  · exact headersFrom_trans (headersFrom_trans (headersFrom_packet p1) (headersFrom_packet p2)) (headersFrom_packet p3)

/-- The tables and buffers of an accepted open (42_setup.md R326). -/
theorem openTables_ahead {s : State} {h : HeaderStream} {f : SetupFields} {rest : List Byte} (hl : h.Legal f s.params)
    (ht : s.tab = Tables.absent) (hfit : fitsArena s.params (h.tables f) = true) (ha : s.Ahead (h.bytes ++ rest)) :
    ∃ u, openTables s = .ok () u ∧ u.Ahead rest ∧ u.cur.nextSeg = -1 ∧ u.src.pos = (s.moved h.bytes.length).src.pos ∧ u = { s with
      rd := u.rd, cur := u.cur, src := { s.src with pos := u.src.pos, pageStart := u.src.pageStart }, tab := h.tables f
      work := reserveBuffers (h.tables f).channels ((h.tables f).blocksize true) } := by
  obtain ⟨v, hv, h1, h2, h3, hpos⟩ := parseHeaders_ahead hl ht ha
  unfold HeadersFrom at h3
  refine ⟨{ v with tab := h.tables f, work := reserveBuffers (h.tables f).channels ((h.tables f).blocksize true) }, ?_,
    ⟨h1.fits, h1.same, h1.live⟩, h2, hpos, ?_⟩
  · have htab : ({ v.tab with window0 := windowTable (v.tab.blocksize false), window1 := windowTable (v.tab.blocksize true) } :
        Tables) = h.tables f := by
      rw [h3]
      rfl
    have hp : v.params = s.params := by rw [h3]
    unfold openTables finishTables
    rw [bind_ok hv, bind_ok (setTables_run _ v), get_bind]
    dsimp only
    have hc : v.tab.channels = (h.tables f).channels := by rw [← htab]
    rw [htab, hp, hfit, bind_ok (check_true _ _), setWork_run]
    dsimp only
    rw [hc, ← hp]
  · rw [h3]

end Sys2Proof.Machine
end

