-- ==== Sys2Proof/Laws/Scan.lean ====
section
/-! SUPPORT. What the page scan finds: one lemma on the scan, one on the walk to the last page. -/

namespace Sys2Proof.Machine

/-! ### Reading on, past the end too -/

/-- The machine after `n` bytes are read from the source, or wanted past its end (20_memory.md R93). -/
def State.readOn (s : State) (n : Nat) : State :=
  { s with
    src.pos := BitVec.ofNat 32 (min (s.src.pos.toNat + n) s.src.len.toNat)
    src.eof := s.src.eof || decide (s.src.len.toNat < s.src.pos.toNat + n) }

theorem readOn_pos (s : State) (n : Nat) : (s.readOn n).src.pos.toNat = min (s.src.pos.toNat + n) s.src.len.toNat := by
  show (BitVec.ofNat 32 _).toNat = _
  rw [BitVec.toNat_ofNat]
  have := s.src.len.isLt
  exact Nat.mod_eq_of_lt (by omega)

theorem readOn_readOn (s : State) (m n : Nat) : (s.readOn m).readOn n = s.readOn (m + n) := by
  have hp := readOn_pos s m
  have e1 : min ((s.readOn m).src.pos.toNat + n) s.src.len.toNat = min (s.src.pos.toNat + (m + n)) s.src.len.toNat := by
    rw [hp]; omega
  have e2 : (s.src.eof || decide (s.src.len.toNat < s.src.pos.toNat + m) ||
      decide (s.src.len.toNat < (s.readOn m).src.pos.toNat + n)) =
      (s.src.eof || decide (s.src.len.toNat < s.src.pos.toNat + (m + n))) := by
    rw [hp, Bool.or_assoc, ← Bool.decide_or]
    congr 2
    apply propext
    omega
  show State.readOn (s.readOn m) n = _
  unfold State.readOn at e1 e2 ⊢
  simp only [] at e1 e2 ⊢
  rw [e1, e2]

theorem readOn_zero {s : State} (h : s.src.pos ≤ s.src.len) : s.readOn 0 = s := by
  have h : s.src.pos.toNat ≤ s.src.len.toNat := h
  unfold State.readOn
  simp only [Nat.add_zero, Nat.min_eq_left h, BitVec.ofNat_toNat, BitVec.setWidth_eq]
  rw [decide_eq_false (by omega), Bool.or_false]

theorem readOn_bytesAt (s : State) (n : Nat) : (s.readOn n).bytesAt = s.bytesAt := rfl

theorem get8_readOn {s : State} (h : s.src.pos ≤ s.src.len) : get8 s = .ok (s.byteAt s.src.pos.toNat) (s.readOn 1) := by
  have h : s.src.pos.toNat ≤ s.src.len.toNat := h
  unfold get8 inByte
  rw [get_bind]
  by_cases he : s.src.len ≤ s.src.pos
  · have he' : s.src.len.toNat ≤ s.src.pos.toNat := he
    rw [if_pos he]
    show EStateM.Result.ok _ _ = _
    have e : s.readOn 1 = { s with src := { s.src with eof := true } } := by
      unfold State.readOn
      rw [Nat.min_eq_right (by omega), decide_eq_true (by omega), Bool.or_true, Nat.le_antisymm he' h]
      simp
    rw [e, State.byteAt, if_neg (by omega)]
  · have he' : ¬ s.src.len.toNat ≤ s.src.pos.toNat := he
    rw [if_neg he]
    show EStateM.Result.ok _ _ = _
    have e : s.readOn 1 = { s with src := { s.src with pos := s.src.pos + 1 } } := by
      unfold State.readOn
      rw [Nat.min_eq_left (by omega), decide_eq_false (by omega), Bool.or_false]
      have : (BitVec.ofNat 32 (s.src.pos.toNat + 1)) = s.src.pos + 1 := by
        rw [BitVec.ofNat_add]; simp
      rw [this]
    rw [e, State.byteAt, if_pos (by omega)]
    simp

theorem byteAt_end {s : State} {i : Nat} (h : s.src.len.toNat ≤ i) : s.byteAt i = 0 := if_neg (by omega)

theorem bytesAt_succ (s : State) (i n : Nat) : s.bytesAt i (n + 1) = s.byteAt i :: s.bytesAt (i + 1) n := by
  unfold State.bytesAt
  rw [List.range_succ_eq_map]
  simp [Function.comp_def, Nat.add_comm 1, Nat.add_assoc]

theorem bytesAt_add (s : State) (i m n : Nat) : s.bytesAt i (m + n) = s.bytesAt i m ++ s.bytesAt (i + m) n := by
  unfold State.bytesAt
  rw [List.range_add, List.map_append, List.map_map]
  simp [Function.comp_def, Nat.add_assoc]

@[simp] theorem bytesAt_length (s : State) (i n : Nat) : (s.bytesAt i n).length = n := by simp [State.bytesAt]

theorem bytesAt_getD (s : State) {i n k : Nat} (h : k < n) : (s.bytesAt i n).getD k 0 = s.byteAt (i + k) := by
  simp [State.bytesAt, List.getD_eq_getElem?_getD, h]

/-- Offsets past the end read the same wherever they are. -/
theorem bytesAt_clip (s : State) (i n : Nat) : s.bytesAt (min i s.src.len.toNat) n = s.bytesAt i n := by
  unfold State.bytesAt
  refine List.map_congr_left fun k _ => ?_
  by_cases h : i ≤ s.src.len.toNat
  · rw [Nat.min_eq_left h]
  · rw [byteAt_end (by omega), byteAt_end (by omega)]

theorem readOn_le (s : State) (n : Nat) : (s.readOn n).src.pos ≤ (s.readOn n).src.len := by
  rw [BitVec.le_def, readOn_pos]
  exact Nat.min_le_right _ _

theorem bytes_readOn : ∀ (n : Nat) {s : State}, s.src.pos ≤ s.src.len →
    readMany get8 n s = .ok (s.bytesAt s.src.pos.toNat n) (s.readOn n)
  | 0, s, h => by rw [readOn_zero h]; rfl
  | n + 1, s, h => by
    have hr := bytes_readOn n (readOn_le s 1)
    rw [readOn_readOn, readOn_bytesAt, readOn_pos, bytesAt_clip, Nat.add_comm 1 n] at hr
    unfold readMany
    rw [bind_ok (get8_readOn h), bind_ok hr, bytesAt_succ]
    rfl

/-- The capture test reads up to the first byte that differs (41_ogg_framer.md R242, R255). -/
theorem captureRest_readOn : ∀ (bs : List Byte) {s : State}, s.src.pos ≤ s.src.len →
    ∃ b k, captureRest bs s = .ok b (s.readOn k) ∧ (b = true → k = bs.length) ∧ (b = true ↔ s.bytesAt s.src.pos.toNat bs.length = bs)
  | [], s, h => ⟨true, 0, by rw [readOn_zero h]; rfl, fun _ => rfl, by simp [State.bytesAt]⟩
  | x :: bs, s, h => by
    obtain ⟨b, k, hr, hk, hb⟩ := captureRest_readOn bs (readOn_le s 1)
    rw [readOn_readOn] at hr
    rw [readOn_bytesAt, readOn_pos, bytesAt_clip] at hb
    unfold captureRest
    rw [bind_ok (get8_readOn h), List.length_cons, bytesAt_succ, List.cons.injEq]
    by_cases hx : s.byteAt s.src.pos.toNat = x
    · rw [if_pos hx]
      exact ⟨b, 1 + k, hr, fun hb' => by rw [hk hb']; omega, hb.trans (by simp [hx])⟩
    · rw [if_neg hx]
      exact ⟨false, 1, rfl, by simp, by simp [hx]⟩

/-! ### One attempt -/

theorem crcField_prefix {l r : List Byte} (h : 26 ≤ l.length) : crcField (l ++ r) = crcField l := by
  unfold crcField
  rw [List.drop_append_of_le_length (by omega), List.take_append_of_le_length (by rw [List.length_drop]; omega)]

/-- What the scan tells of the page at an offset. -/
def State.foundAt (s : State) (i : Nat) : FoundPage :=
  ⟨BitVec.ofNat 32 i, BitVec.ofNat 32 (min (i + s.pageSize i) s.src.len.toNat), pageLast (s.byteAt (i + 5))⟩

theorem foundAt_finds {s : State} {i : Nat} (h : s.PageValid i) : s.Finds (s.foundAt i) := by
  have h1 := h.header
  have h2 := s.src.len.isLt
  have e : (s.foundAt i).start.toNat = i := by
    show (BitVec.ofNat 32 i).toNat = i
    rw [BitVec.toNat_ofNat]; exact Nat.mod_eq_of_lt (by omega)
  refine ⟨by rw [e]; exact h, ?_, by rw [e]; rfl⟩
  rw [e]
  show (BitVec.ofNat 32 _).toNat = _
  rw [BitVec.toNat_ofNat]; exact Nat.mod_eq_of_lt (by omega)

/-- `p` differs from `s` at most in the position and the end flag. -/
def Elsewhere (s t : State) : Prop := t = { s with src := { s.src with pos := t.src.pos, eof := t.src.eof } }

theorem elsewhere_trans {s t u : State} (h1 : Elsewhere s t) (h2 : Elsewhere t u) : Elsewhere s u := by
  unfold Elsewhere at *
  rw [h1] at h2
  exact h2

theorem elsewhere_readOn (s : State) (n : Nat) : Elsewhere s (s.readOn n) := rfl

/-- What one attempt at offset `i` of `s` answers: found, or again where no valid page stands, or not found at the end. -/
structure Attempt (s : State) (i : Nat) (r : ScanStep) (t : State) : Prop where
  frame : Elsewhere s t
  again : r = .again → ¬ s.PageValid i
  notFound : r = .notFound → t.src.pos = s.src.len
  found : ∀ page, r = .found page → s.PageValid i ∧ page = s.foundAt i ∧ t.src.pos = BitVec.ofNat 32 i ∧ t.src.eof = false

theorem eof_pos {s : State} {n : Nat} (he : s.src.eof = false) (h : (s.readOn n).src.eof = true) :
    s.src.len.toNat < s.src.pos.toNat + n ∧ (s.readOn n).src.pos = s.src.len := by
  have h' : (s.src.eof || decide (s.src.len.toNat < s.src.pos.toNat + n)) = true := h
  rw [he, Bool.false_or, decide_eq_true_eq] at h'
  refine ⟨h', BitVec.eq_of_toNat_eq ?_⟩
  rw [readOn_pos]; omega

theorem eof_not {s : State} {n : Nat} (h : (s.readOn n).src.eof = false) : s.src.pos.toNat + n ≤ s.src.len.toNat := by
  have h' : (s.src.eof || decide (s.src.len.toNat < s.src.pos.toNat + n)) = false := h
  rw [Bool.or_eq_false_iff, decide_eq_false_iff_not] at h'
  omega

theorem scanPage_attempt {s : State} {i : Nat} (hp : s.src.pos.toNat = i) (he : s.src.eof = false)
    (hc : s.bytesAt i 4 = captureBytes) (h4 : i + 4 ≤ s.src.len.toNat) :
    ∃ r t, scanPage (s.src.pos + 1) (s.readOn 4) = .ok r t ∧ Attempt s i r t := by
  subst hp
  have hb := bytes_readOn 23 (readOn_le s 4)
  rw [readOn_readOn, readOn_bytesAt, readOn_pos, bytesAt_clip] at hb
  have head : captureBytes ++ s.bytesAt (s.src.pos.toNat + 4) 23 = s.bytesAt s.src.pos.toNat 27 := by
    rw [← hc, ← bytesAt_add]
  unfold scanPage
  rw [bind_ok hb, get_bind]
  by_cases h27 : (s.readOn (4 + 23)).src.eof = true
  · obtain ⟨hlt, hpos⟩ := eof_pos he h27
    rw [if_pos h27]
    exact ⟨_, _, rfl, elsewhere_readOn _ _, by simp, fun _ => hpos, by simp⟩
  · have h27' := eof_not (Bool.eq_false_iff.2 h27)
    rw [if_neg h27]
    simp only [head, bytesAt_getD s (show 4 < 27 by omega), bytesAt_getD s (show 26 < 27 by omega),
      bytesAt_getD s (show 5 < 27 by omega)]
    by_cases hv : s.byteAt (s.src.pos.toNat + 4) = 0
    · rw [if_neg (by simp [hv])]
      have hs := bytes_readOn (s.byteAt (s.src.pos.toNat + 26)).toNat (readOn_le s (4 + 23))
      rw [readOn_readOn, readOn_bytesAt, readOn_pos, bytesAt_clip] at hs
      have hbd := bytes_readOn (s.bodySize s.src.pos.toNat) (readOn_le s (4 + 23 + (s.byteAt (s.src.pos.toNat + 26)).toNat))
      rw [readOn_readOn, readOn_bytesAt, readOn_pos, bytesAt_clip] at hbd
      rw [bind_ok hs]
      have hbody : lacingSum (s.bytesAt (s.src.pos.toNat + (4 + 23)) (s.byteAt (s.src.pos.toNat + 26)).toNat) =
          s.bodySize s.src.pos.toNat := rfl
      rw [hbody, bind_ok hbd, get_bind]
      have hsz : 4 + 23 + (s.byteAt (s.src.pos.toNat + 26)).toNat + s.bodySize s.src.pos.toNat = s.pageSize s.src.pos.toNat := rfl
      rw [hsz]
      have hpage : s.bytesAt s.src.pos.toNat 27 ++ s.bytesAt (s.src.pos.toNat + (4 + 23)) (s.byteAt (s.src.pos.toNat + 26)).toNat ++
          s.bytesAt (s.src.pos.toNat + (4 + 23 + (s.byteAt (s.src.pos.toNat + 26)).toNat)) (s.bodySize s.src.pos.toNat) =
          s.bytesAt s.src.pos.toNat (s.pageSize s.src.pos.toNat) := by
        rw [← hsz, ← bytesAt_add, ← bytesAt_add]
      have hfield : crcField (s.bytesAt s.src.pos.toNat 27) = crcField (s.bytesAt s.src.pos.toNat (s.pageSize s.src.pos.toNat)) := by
        rw [← hpage, List.append_assoc, crcField_prefix (by simp)]
      rw [hpage, hfield]
      by_cases hend : 0 < s.bodySize s.src.pos.toNat ∧ (s.readOn (s.pageSize s.src.pos.toNat)).src.eof = true
      · rw [if_pos hend]
        exact ⟨_, _, rfl, elsewhere_readOn _ _, by simp, fun _ => (eof_pos he hend.2).2, by simp⟩
      · rw [if_neg hend]
        by_cases hcrc : pageCrc (s.bytesAt s.src.pos.toNat (s.pageSize s.src.pos.toNat)) =
            crcField (s.bytesAt s.src.pos.toNat (s.pageSize s.src.pos.toNat))
        · rw [if_pos hcrc]
          have hret : s.src.pos + 1 - 1 = s.src.pos := by simp
          have hvalid : s.PageValid s.src.pos.toNat := by
            refine ⟨by omega, hc, hv, fun h0 => ?_, hcrc⟩
            exact eof_not (Bool.eq_false_iff.2 fun h => hend ⟨h0, h⟩)
          have hset : setPos s.src.pos (s.readOn (s.pageSize s.src.pos.toNat)) = .ok true
              { s with src := { s.src with pos := s.src.pos, eof := false } } := by
            unfold setPos
            rw [get_bind, if_neg (by
              show ¬ s.src.len ≤ s.src.pos
              rw [BitVec.le_def]; omega)]
            rfl
          rw [hret, bind_ok hset]
          refine ⟨_, _, rfl, rfl, by simp, by simp, fun page hpg => ⟨hvalid, ?_, by simp, rfl⟩⟩
          cases hpg
          show FoundPage.mk _ _ _ = FoundPage.mk _ _ _
          simp [State.readOn]
        · rw [if_neg hcrc]
          exact ⟨_, _, rfl, elsewhere_readOn _ _, fun _ h => hcrc h.crc, by simp, by simp⟩
    · rw [if_pos hv]
      exact ⟨_, _, rfl, elsewhere_readOn _ _, fun _ h => hv h.version, by simp, by simp⟩

theorem setPos_elsewhere {s v : State} {p : Word} {b : Bool} (hs : setPos p s = .ok b v) : Elsewhere s v := by
  obtain ⟨b', h⟩ := setPos_end p s
  rw [hs] at h
  injection h with _ h
  subst h
  rfl

/-! ### The scan -/

/-- What the scan from the position on answers: the first valid page, or the end of the source. -/
structure Scanned (s : State) (found : Option FoundPage) (t : State) : Prop where
  frame : Elsewhere s t
  none : found = none → t.src.pos = s.src.len
  some : ∀ page, found = some page → s.Finds page ∧ s.src.pos ≤ page.start ∧ t.src.pos = page.start ∧ t.src.eof = false ∧
    ∀ j, s.src.pos.toNat ≤ j → j < page.start.toNat → ¬ s.PageValid j

theorem valid_elsewhere {s t : State} (h : Elsewhere s t) (i : Nat) : t.PageValid i ↔ s.PageValid i := by
  unfold Elsewhere at h
  rw [h]
  exact ⟨fun ⟨a, b, c, d, e⟩ => ⟨a, b, c, d, e⟩, fun ⟨a, b, c, d, e⟩ => ⟨a, b, c, d, e⟩⟩

theorem finds_elsewhere {s t : State} (h : Elsewhere s t) {page : FoundPage} (hf : t.Finds page) : s.Finds page := by
  have hv := (valid_elsewhere h _).1 hf.valid
  have h1 := hf.stop
  have h2 := hf.last
  unfold Elsewhere at h
  rw [h] at h1 h2
  exact ⟨hv, h1, h2⟩

/-- Going on one byte further, where no valid page stands. -/
theorem Scanned.step {s t u : State} {found : Option FoundPage} (h : Elsewhere s t)
    (hp : t.src.pos.toNat = s.src.pos.toNat + 1) (hn : ¬ s.PageValid s.src.pos.toNat) (hs : Scanned t found u) :
    Scanned s found u := by
  have hl : t.src.len = s.src.len := by unfold Elsewhere at h; rw [h]
  refine ⟨elsewhere_trans h hs.frame, fun h0 => (hs.none h0).trans hl, fun page h1 => ?_⟩
  obtain ⟨f, le, pos, eof, least⟩ := hs.some page h1
  have le' : t.src.pos.toNat ≤ page.start.toNat := le
  refine ⟨finds_elsewhere h f, by rw [BitVec.le_def]; omega, pos, eof, fun j h2 h3 hv => ?_⟩
  by_cases hj : j = s.src.pos.toNat
  · exact hn (hj ▸ hv)
  · exact least j (by omega) h3 ((valid_elsewhere h j).2 hv)

theorem findPageFuel_scanned : ∀ (fuel : Nat) {s : State}, s.src.pos ≤ s.src.len → (s.src.eof = true → s.src.pos = s.src.len) →
    (s.src.eof = false → s.src.len.toNat + 1 < s.src.pos.toNat + fuel) → 0 < fuel →
    ∃ found t, findPageFuel fuel s = .ok found t ∧ Scanned s found t
  | 0, _, _, _, _, h => by omega
  | fuel + 1, s, hp, he, hf, _ => by
    have hp' : s.src.pos.toNat ≤ s.src.len.toNat := hp
    unfold findPageFuel
    rw [get_bind]
    by_cases heof : s.src.eof = true
    · rw [if_pos heof]
      exact ⟨none, s, rfl, rfl, fun _ => he heof, by simp⟩
    · have heof' := Bool.eq_false_iff.2 heof
      have hf := hf heof'
      rw [if_neg heof, bind_ok (get8_readOn hp)]
      have hlen : (s.readOn 1).src.len = s.src.len := rfl
      by_cases hx : s.byteAt s.src.pos.toNat = 0x4F
      · have hlt : s.src.pos.toNat < s.src.len.toNat := by
          rcases Nat.lt_or_ge s.src.pos.toNat s.src.len.toNat with h | h
          · exact h
          · rw [byteAt_end h] at hx
            cases hx
        rw [if_neg (by simp [hx]), get_bind]
        have hpos : (s.readOn 1).src.pos = s.src.pos + 1 := by
          apply BitVec.eq_of_toNat_eq
          rw [readOn_pos, BitVec.toNat_add, show (1 : Word).toNat = 1 from rfl]
          have := s.src.len.isLt
          omega
        obtain ⟨b, k, hr, hk, hb⟩ := captureRest_readOn [0x67, 0x67, 0x53] (readOn_le s 1)
        rw [readOn_readOn] at hr
        rw [readOn_bytesAt, readOn_pos, bytesAt_clip] at hb
        rw [bind_ok hr, get_bind]
        have hcap : b = true ↔ s.bytesAt s.src.pos.toNat 4 = captureBytes := by
          rw [hb, bytesAt_succ s s.src.pos.toNat 3, hx]
          simp [captureBytes]
        by_cases he4 : (s.readOn (1 + k)).src.eof = true
        · rw [if_pos he4]
          exact ⟨none, _, rfl, elsewhere_readOn _ _, fun _ => (eof_pos heof' he4).2, by simp⟩
        · rw [if_neg he4]
          have hattempt : ∃ r t, readIf b (scanPage (s.readOn 1).src.pos) .again (s.readOn (1 + k)) = .ok r t ∧
              Attempt s s.src.pos.toNat r t := by
            cases hbv : b with
            | true =>
              have hk4 := hk hbv
              have h4 := eof_not (Bool.eq_false_iff.2 he4)
              rw [hk4] at h4 ⊢
              rw [hpos]
              exact scanPage_attempt rfl heof' (hcap.1 hbv) h4
            | false =>
              refine ⟨.again, _, rfl, elsewhere_readOn _ _, fun _ hv => ?_, by simp, by simp⟩
              have := hcap.2 hv.capture
              rw [hbv] at this
              cases this
          obtain ⟨r, t, hrt, ha⟩ := hattempt
          rw [bind_ok hrt]
          cases r with
          | notFound => exact ⟨none, t, rfl, ha.frame, fun _ => ha.notFound rfl, by simp⟩
          | found page =>
            obtain ⟨hv, rfl, hpt, het⟩ := ha.found page rfl
            refine ⟨_, t, rfl, ha.frame, by simp, fun page hpg => ?_⟩
            cases hpg
            have hst : (s.foundAt s.src.pos.toNat).start = s.src.pos := by simp [State.foundAt]
            refine ⟨foundAt_finds hv, by rw [hst]; exact BitVec.le_refl _, by rw [hpt, hst]; simp, het, fun j h1 h2 => ?_⟩
            rw [hst] at h2
            omega
          | again =>
            have hn := ha.again rfl
            have hfr := ha.frame
            have htl : t.src.len = s.src.len := by unfold Elsewhere at hfr; rw [hfr]
            obtain ⟨b', hset⟩ := setPos_end (s.readOn 1).src.pos t
            change ∃ found u, (setPos (s.readOn 1).src.pos >>= fun _ => findPageFuel fuel) t = _ ∧ _
            rw [bind_ok hset]
            rw [htl, hpos] at hset ⊢
            have hnext : (s.src.pos + 1).toNat = s.src.pos.toNat + 1 := by
              have := s.src.len.isLt
              rw [BitVec.toNat_add, show (1 : Word).toNat = 1 from rfl]
              omega
            have hposv : (if s.src.len ≤ s.src.pos + 1 then s.src.len else s.src.pos + 1).toNat = s.src.pos.toNat + 1 := by
              split
              · next h => have h' : s.src.len.toNat ≤ _ := h; rw [hnext] at h'; omega
              · exact hnext
            obtain ⟨found, u, hu, hsc⟩ := findPageFuel_scanned fuel (s := { t with src := { t.src with
                pos := if s.src.len ≤ s.src.pos + 1 then s.src.len else s.src.pos + 1
                eof := decide (s.src.len ≤ s.src.pos + 1) } })
              (by show _ ≤ t.src.len; rw [htl, BitVec.le_def, hposv]; omega)
              (by
                intro h
                have h := of_decide_eq_true h
                show (if _ then _ else _) = t.src.len
                rw [if_pos h, htl])
              (by
                intro _
                show t.src.len.toNat + 1 < (if _ then _ else _ : Word).toNat + fuel
                rw [hposv, htl]; omega)
              (by omega)
            exact ⟨found, u, hu, hsc.step (elsewhere_trans hfr (setPos_elsewhere hset)) hposv hn⟩
      · rw [if_pos hx]
        have hn : ¬ s.PageValid s.src.pos.toNat := fun hv => hx (by
          have := hv.capture
          rw [bytesAt_succ s s.src.pos.toNat 3] at this
          exact (List.cons.inj this).1)
        by_cases hlt : s.src.pos.toNat < s.src.len.toNat
        · have hpos : (s.readOn 1).src.pos.toNat = s.src.pos.toNat + 1 := by rw [readOn_pos]; omega
          obtain ⟨found, u, hu, hsc⟩ := findPageFuel_scanned fuel (readOn_le s 1)
            (fun h => (eof_pos heof' h).2) (fun _ => by rw [hpos, hlen]; omega) (by omega)
          exact ⟨found, u, hu, hsc.step (elsewhere_readOn _ _) hpos hn⟩
        · have hend : (s.readOn 1).src.eof = true := by
            show (s.src.eof || decide _) = true
            rw [decide_eq_true (by omega), Bool.or_true]
          cases fuel with
          | zero => omega
          | succ fuel =>
            refine ⟨none, s.readOn 1, ?_, elsewhere_readOn _ _, fun _ => (eof_pos heof' hend).2, by simp⟩
            unfold findPageFuel
            rw [get_bind, if_pos hend]
            rfl

/-- `find_page()` (41_ogg_framer.md R255): it answers the first valid page from the position on, or leaves the position at the
source's end. -/
theorem findPage_scanned {s : State} (h : s.src.pos ≤ s.src.len) (he : s.src.eof = true → s.src.pos = s.src.len) :
    ∃ found t, findPage s = .ok found t ∧ Scanned s found t := by
  obtain ⟨found, t, ht, hs⟩ := findPageFuel_scanned (s.src.len.toNat + 2) h he (fun _ => by omega) (by omega)
  exact ⟨found, t, by unfold findPage; rw [get_bind]; exact ht, hs⟩

/-- The scan from an offset that `SetPos` moved to. -/
theorem findPage_after {s v : State} {p : Word} {b : Bool} (hs : setPos p s = .ok b v) :
    ∃ found t, findPage v = .ok found t ∧ Scanned v found t := by
  obtain ⟨b', h⟩ := setPos_end p s
  rw [hs] at h
  injection h with _ h
  subst h
  refine findPage_scanned ?_ fun h => ?_
  · show (if _ then _ else _ : Word) ≤ s.src.len
    split
    · exact BitVec.le_refl _
    · next h => exact BitVec.le_of_lt (BitVec.not_le.1 h)
  · show (if _ then _ else _ : Word) = s.src.len
    rw [if_pos (of_decide_eq_true h)]

theorem scanned_pos {s t v : State} {p : Word} {b : Bool} {page : FoundPage} (hs : setPos p s = .ok b v)
    (hf : Scanned v (some page) t) : p ≤ page.start := by
  obtain ⟨b', h⟩ := setPos_end p s
  rw [hs] at h
  injection h with _ h
  subst h
  obtain ⟨hv, hle, _⟩ := hf.some page rfl
  have h27 := hv.valid.header
  have hle : (if s.src.len ≤ p then s.src.len else p : Word).toNat ≤ page.start.toNat := hle
  have h27 : page.start.toNat + 27 ≤ s.src.len.toNat := h27
  split at hle
  · omega
  · exact hle

theorem finds_rises {s : State} {page : FoundPage} (h : s.Finds page) : page.start.toNat < page.stop.toNat := by
  have h1 := h.stop
  have h2 := h.valid.header
  have h3 : 27 ≤ s.pageSize page.start.toNat := by unfold State.pageSize; omega
  omega

/-- The walk to the last page ends before its fuel does (48_frame_control.md R552). -/
theorem lastPageFuel_last : ∀ (fuel : Nat) {s : State} {page : FoundPage}, s.Finds page →
    s.src.len.toNat < page.start.toNat + fuel →
    ∃ last t, lastPageFuel fuel page s = .ok last t ∧ LastPage s page last ∧ s.Finds last ∧ Elsewhere s t
  | 0, s, page, h, hf => by have := h.valid.header; omega
  | fuel + 1, s, page, h, hf => by
    unfold lastPageFuel
    cases hl : page.last with
    | true => exact ⟨page, s, rfl, .flagged hl, h, rfl⟩
    | false =>
      obtain ⟨b, hset⟩ := setPos_end page.stop s
      have hsv := setPos_elsewhere hset
      obtain ⟨found, w, hw, hsc⟩ := findPage_after hset
      rw [if_neg (by simp), bind_ok hset, bind_ok hw]
      cases found with
      | none => exact ⟨page, w, rfl, .alone hl hset hw, h, elsewhere_trans hsv hsc.frame⟩
      | some following =>
        have hff := (hsc.some following rfl).1
        have hvw := hsc.frame
        have hlen : w.src.len = s.src.len := by
          have h2 := elsewhere_trans hsv hvw
          unfold Elsewhere at h2
          rw [h2]
        have hfw : w.Finds following := by
          refine finds_elsewhere (s := w) (t := _) ?_ hff
          unfold Elsewhere at hvw ⊢
          rw [hvw]
        have hle : page.stop.toNat ≤ following.start.toNat := scanned_pos hset hsc
        have hr := finds_rises h
        obtain ⟨last, t, ht, hlast, hfin, hel⟩ := lastPageFuel_last fuel hfw (by rw [hlen]; omega)
        have hst := elsewhere_trans (elsewhere_trans hsv hvw) hel
        exact ⟨last, t, ht, .next hl hset hw hlast, finds_elsewhere (elsewhere_trans hsv hvw) hfin, hst⟩

end Sys2Proof.Machine
end

