-- ==== Sys2Proof/Tests/Slice0.lean ====
section
/-! SUPPORT. Tests: what the checks refuse, words written out from the encodings, one or two steps of each instruction against the
vectors of spec/95_test_vectors.md, and for every statement with hypotheses a machine that meets them. -/

namespace Sys2Proof.Tests

open Sys2Proof Sys2Proof.Machine

/-! One theorem at a time: the check's limit on memory allows few threads. -/

set_option Elab.async false

/-! ### Small machines -/

/-- Bytes as host memory from an address on. -/
def cells (a : Nat) (bytes : List Byte) : List Host.Cell :=
  ((bytes.zipIdx a).map fun p => (p.2, p.1)).filter fun c => c.2 != 0

/-- A machine whose source is the bytes. -/
def source (bytes : List Byte) : State :=
  { State.reset with mem := cells 0 bytes, src := ⟨0, BitVec.ofNat 32 bytes.length, 0, false, 0, 0⟩ }

/-- A machine inside a packet of one segment. -/
def packet (bytes : List Byte) : State :=
  { source bytes with cur := { PageCursor.reset with bytesInSeg := bytes.length, lastSeg := true } }

/-- A machine before a packet of one latched segment. -/
def latched (bytes : List Byte) : State :=
  { source bytes with
    cur := { PageCursor.reset with
      segments := BitVec.ofNat 8 bytes.length :: List.replicate 254 0, segmentCount := 1, nextSeg := 0 } }

/-- The machine in a state with an api. -/
def phase (st : TopState) (api : Api) (s : State) : State := { s with ctl.state := st, ctl.api := api }

/-- The machine with tables. -/
def tabled (t : Tables) (s : State) : State := { s with tab := t }

/-- Bits as bytes, the first bit lowest. -/
def bitBytes (bits : List Bool) : List Byte :=
  (List.range ((bits.length + 7) / 8)).map fun i => BitVec.ofNat 8 (bitsValue ((bits.drop (8 * i)).take 8))

/-- The machine a step answers, the reset state where it stops. -/
def after : Host.Outcome State Fault Refusal → State
  | .next t => t
  | _ => State.reset

/-- One write to CMD. -/
def command (w : Word) (s : State) : State := after (step { s with pending := [.regWrite 0 4 w] })

/-- The values a step returns, when it does. -/
def value {α : Type} (m : M α) (s : State) : Option α :=
  match m s with
  | .ok a _ => some a
  | .error _ _ => none

/-- The codebook of V-CB2: two entries of length 1. -/
def book1 : Codebook := ⟨1, 2, [some 1, some 1], .none, 0, 0, 0, false, 0, [], [0, 1]⟩

/-- The codebook of V-CB6: pairs of numbers. -/
def book2 : Codebook := ⟨2, 2, [some 1, some 1], .direct, 0, 0x3F800000, 8, false, 4, [1, 2, 3, 4], [0, 1]⟩

/-- The codebook of V-CB5 with a running sum: pairs on a lattice of -1.0, -0.5 and 0.0. -/
def book3 : Codebook :=
  ⟨2, 8, List.replicate 8 (some 3), .lattice, 0xBF800000, 0x3F000000, 2, true, 3, [0, 1, 2], [0, 1, 2, 3, 4, 5, 6, 7]⟩

/-- A floor of two points. -/
def floor2 : Floor := ⟨[], [], 1, 5, [0, 32], [0, 1], [0, 0], [0, 0]⟩

/-- A residue that reads nothing. -/
def residue0 : Residue := ⟨.type0, 0, 0, 1, 1, 0, [List.replicate 8 (-1)], [[0], [0]]⟩

/-- A residue of one partition of four, of the book of pairs in the first pass. -/
def residue4 (ty : ResidueType) : Residue := ⟨ty, 0, 4, 4, 1, 0, [1 :: List.replicate 7 (-1)], [[0], [0]]⟩

/-- The tables of the stream S48: 64/64, one mono channel. -/
def tables48 : Tables :=
  { channels := 1, sampleRate := 44100, logBlocksize0 := 6, logBlocksize1 := 6, codebooks := [book1], floors := [floor2]
    residues := [residue0], mappings := [⟨1, [], [0], [0], [0]⟩], modes := [⟨false, 0⟩] }

/-- The tables of S1: 256/2048, with a long mode. -/
def tables1 : Tables := { tables48 with logBlocksize0 := 8, logBlocksize1 := 11, modes := [⟨false, 0⟩, ⟨true, 0⟩] }

/-- Tables with a residue of pairs over `channels` channels, and spectra of four samples. -/
def tables4 (ty : ResidueType) (channels : Nat) : Tables :=
  { tables48 with
    channels := channels, logBlocksize0 := 3, logBlocksize1 := 3, codebooks := [book1, book2], residues := [residue4 ty]
    mappings := [⟨1, [], List.replicate channels 0, [0], [0]⟩] }

/-- Working buffers of `n` zero samples for each channel, every channel in use. -/
def buffers (channels n : Nat) : Work :=
  ⟨List.replicate channels (List.replicate n 0), List.replicate channels (List.replicate n 0),
    List.replicate channels (List.replicate 4 0), List.replicate channels false, List.replicate channels false⟩

/-! ### What the checks refuse -/

theorem test_wf_reserved_command : ¬ WellFormed (.illegalCommand 0x00000005) := by decide

theorem test_wf_vector_book : ¬ WellFormed (.lookupDirect (.vector 256 [])) := by decide

theorem test_wf_vector_channel : ¬ WellFormed (.lookupLattice (.vector 0 [some (256, 0)])) := by decide

theorem test_wf_vector_sample : ¬ WellFormed (.lookupNone (.vector 0 [none, some (0, 8192)])) := by decide

theorem test_wf_floor_channel : ¬ WellFormed (.floorType1 (.decode 256 0)) := by decide

theorem test_wf_floor_index : ¬ WellFormed (.floorType1 (.decode 0 64)) := by decide

theorem test_wf_residue_mapping : ¬ WellFormed (.residueType0 (.decode false 64 0)) := by decide

theorem test_wf_residue_submap : ¬ WellFormed (.residueType1 (.decode true 0 16)) := by decide

theorem test_wf_accepts : WellFormed (.residueType2 (.decode true 63 15)) ∧ WellFormed (.illegalCommand 0x0000000B) ∧
    WellFormed (.lookupDirect (.vector 255 [some (255, 8191), none])) ∧ WellFormed (.floorType1 (.decode 255 63)) := by decide

/-! ### Words written out from the encodings -/

/-- CMD: RSVD in bits 31 to 8, OPCODE in bits 7 to 0 (30_encoding.md R120, R121). -/
theorem test_decode_commands :
    [0x01, 0x02, 0x03, 0x04, 0x05, 0x06, 0x07, 0x08, 0x09, 0x0A].map decodeCmd =
      [.openPull, .openPush, .pushDecode, .decodeFrame, .getInfo, .seek, .seekStart, .streamLength, .getError, .close] := by decide

/-- Reserved words (30_encoding.md R122): opcode 0, opcode 0x0B and up, and a nonzero RSVD. -/
theorem test_decode_reserved : [0x00000000, 0x0000000B, 0x000000FF, 0x00000109, 0x80000001].map decodeCmd =
    [.illegalCommand 0x00000000, .illegalCommand 0x0000000B, .illegalCommand 0x000000FF, .illegalCommand 0x00000109,
      .illegalCommand 0x80000001] := by decide

/-- "OggS", 'O' first (30_encoding.md R130). -/
theorem test_decode_page : decode (.stream .page) (0x4F + 0x67 * 256 + 0x67 * 65536 + 0x53 * 16777216) = .ok .oggPage ∧
    decode (.stream .page) (0x4F + 0x67 * 256 + 0x67 * 65536 + 0x54 * 16777216) = .error .captureMismatch := by decide

/-- Packet types 1, 3 and 5 (30_encoding.md R140), each at its own point only. -/
theorem test_decode_headers : decode (.stream (.header .identification)) 0b00000001 = .ok .hdrIdentification ∧
    decode (.stream (.header .comment)) 0b00000011 = .ok .hdrComment ∧
    decode (.stream (.header .setup)) 0b00000101 = .ok .hdrSetup ∧
    decode (.stream (.header .setup)) 0b00000011 = .error (.wrongHeaderType .setup) := by decide

/-- The type bit of an audio packet (30_encoding.md R180). -/
theorem test_decode_audio : decode (.stream .audio) 0b10101010 = .ok .audioPacket ∧
    decode (.stream .audio) 0b01010101 = .ok .badPacketType := by decide

/-- The 4-bit lookup types (30_encoding.md R163, R192). -/
theorem test_decode_lookups : [0b0000, 0b0001, 0b0010].map (decode (.stream (.lookup .setup))) =
    [.ok (.lookupNone .setup), .ok (.lookupLattice .setup), .ok (.lookupDirect .setup)] ∧
    decode (.stream (.lookup .setup)) 0b0011 = .error .reservedLookupType ∧
    decode (.stream (.lookup .setup)) 0b1111 = .error .reservedLookupType := by decide

/-- The 16-bit floor types (30_encoding.md R166, R192). -/
theorem test_decode_floors : decode (.stream (.floor .setup)) 0x0000 = .ok .floorType0 ∧
    decode (.stream (.floor .setup)) 0x0001 = .ok (.floorType1 .setup) ∧
    decode (.stream (.floor .setup)) 0x0002 = .error .reservedFloorType ∧
    decode (.stream (.floor .setup)) 0xFFFF = .error .reservedFloorType := by decide

/-- The 16-bit residue types (30_encoding.md R168, R192). -/
theorem test_decode_residues : [0x0000, 0x0001, 0x0002].map (decode (.stream (.residue .setup))) =
    [.ok (.residueType0 .setup), .ok (.residueType1 .setup), .ok (.residueType2 .setup)] ∧
    decode (.stream (.residue .setup)) 0x0003 = .error .reservedResidueType := by decide

/-- The 16-bit mapping type (30_encoding.md R169, R192). -/
theorem test_decode_mapping : decode (.stream .mapping) 0x0000 = .ok .mappingType0 ∧
    decode (.stream .mapping) 0x0100 = .error .reservedMappingType := by decide

/-- The words of the table, each read at the point its bits allow (notes/assumptions/5.md). -/
theorem test_decode_table : decodeTableWord 32 0x00000004 = some .decodeFrame ∧ decodeTableWord 32 0x5367674F = some .oggPage ∧
    decodeTableWord 8 0x05 = some .hdrSetup ∧ decodeTableWord 16 0x0002 = some (.residueType2 .setup) := by decide

/-! ### Helper functions -/

/-- V-IL (00_scope.md R25). -/
theorem test_ilog : [0, 1, 2, 3, 4, 7, 8, 255].map ilog = [0, 1, 2, 2, 3, 3, 4, 8] := by decide +kernel

/-- V-FU (30_encoding.md R164). -/
theorem test_float32Unpack : [0x62800001, 0x62800003, 0xE2800003, 0xE0100000, 0x5FF00000, 0x00000000].map float32Unpack =
    [0x3F800000, 0x40400000, 0xC0400000, 0xBF800000, 0x3F000000, 0x00000000] := by decide +kernel

/-- V-OG5 (41_ogg_framer.md R251). -/
theorem test_crcTable : [0x01, 0x80, 0xFF].map crcTable = [0x04C11DB7, 0x690CE0EE, 0xB1F740B4] := by decide +kernel

/-- V-SU6 and V-SU7 (42_setup.md R301). -/
theorem test_codewords : computeCodewords ([2, 4, 4, 4, 4, 2, 3, 3].map some) =
    some [0b00, 0b0100, 0b0101, 0b0110, 0b0111, 0b10, 0b110, 0b111] ∧ computeCodewords ([1, 1, 1].map some) = none := by
  decide +kernel

/-- V-SU11 (42_setup.md R314). -/
theorem test_floor_tables : sortByX [0, 128, 64, 32, 96] = [0, 3, 2, 4, 1] ∧
    [2, 3, 4].map (lowNeighborOf [0, 128, 64, 32, 96]) = [0, 0, 2] ∧
    [2, 3, 4].map (highNeighborOf [0, 128, 64, 32, 96]) = [1, 2, 1] := by decide +kernel

/-- V-SU13 (42_setup.md R319). -/
theorem test_classDigits : classDigits 3 2 7 = [2, 1] ∧ classDigits 3 2 9 = [0, 0] := by decide

/-- V-FL1 to V-FL3 (44_floor1.md R387, R388). -/
theorem test_floor_points : predictPoint 64 0 128 10 30 = 20 ∧ predictPoint 32 0 128 30 10 = 25 ∧ predictPoint 1 0 3 0 2 = 0 ∧
    [0, 3, 4, 45].map (floorPoint 256 20) = [20, 18, 22, 45] ∧ [40, 31, 30].map (floorPoint 256 240) = [215, 224, 255] := by
  decide +kernel

/-- V-FL4 to V-FL7 (44_floor1.md R394). -/
theorem test_drawLine : drawLine 0 0 4 10 64 = [0, 2, 5, 7] ∧ drawLine 0 10 4 0 64 = [10, 8, 5, 3] ∧ drawLine 2 7 6 7 4 = [7, 7] ∧
    drawLine 0 0 3 1 64 = [0, 0, 0] := by decide +kernel

/-- V-CP1 to V-CP4 and V-CP8 (46_coupling.md R463). -/
theorem test_uncouple : uncouple 0x40400000 0x3F800000 = (0x40400000, 0x40000000) ∧
    uncouple 0x40400000 0xBF800000 = (0x40000000, 0x40400000) ∧ uncouple 0xC0400000 0x3F800000 = (0xC0400000, 0xC0000000) ∧
    uncouple 0xC0400000 0xBF800000 = (0xC0000000, 0xC0400000) ∧ uncouple 0x80000000 0x80000000 = (0x00000000, 0x80000000) := by
  decide +kernel

/-- V-WL1 (47_imdct_lapping.md R483). -/
theorem test_geometry : geometry 2048 256 true true true = ⟨0, 1024, 1024, 2048⟩ ∧
    geometry 2048 256 true false false = ⟨448, 576, 1472, 1600⟩ ∧ geometry 2048 256 true false true = ⟨448, 576, 1024, 2048⟩ ∧
    geometry 2048 256 true true false = ⟨0, 1024, 1472, 1600⟩ ∧ geometry 256 256 false false false = ⟨0, 128, 128, 256⟩ := by decide

/-- V-WL2 (47_imdct_lapping.md R491). -/
theorem test_window : [0, 1, 15, 16, 31].map (fun i => (windowTable 64).getD i 0) =
    [0x3A780018, 0x3C0B464C, 0x3F2DE91D, 0x3F3BDBF9, 0x3F7FFFF8] := by decide +kernel

/-- V-BR3 to V-BR5 (40_bitreader.md R209). -/
theorem test_getBits : value (do let a ← getBits 3; let b ← getBits 6; pure (a, b)) (packet [0xB5, 0x01]) = some (5, 54) ∧
    value (getBits 32) (packet [1, 2, 3, 4]) = some 0x04030201 ∧
    value (do let a ← getBits 9; let b ← getBits 1; pure (a, b)) (packet [0xFF]) = some (0, 0) := by decide +kernel

/-- V-CB2 (43_codebook.md R344). -/
theorem test_decodeScalar : value (readMany (decodeScalar 0) 9) (tabled tables48 (packet [0x02])) =
    some ([0, 1, 0, 0, 0, 0, 0, 0].map Scalar.entry ++ [.eop]) := by decide +kernel

/-! ### The stream S48 (spec/95_test_vectors.md part 3) -/

/-- Its identification packet, with a block byte. -/
def identPacket (blocks : Byte) : List Byte :=
  [1, 0x76, 0x6F, 0x72, 0x62, 0x69, 0x73, 0, 0, 0, 0, 1, 0x44, 0xAC, 0, 0] ++ List.replicate 12 0 ++ [blocks, 1]

/-- Its comment packet. -/
def commentPacket : List Byte := [3, 0x76, 0x6F, 0x72, 0x62, 0x69, 0x73, 0, 0, 0, 0, 0, 0, 0, 0, 1]

/-- Its setup packet, with the three bytes of the codebook sync. -/
def setupPacket (sync : List Byte) : List Byte :=
  [5, 0x76, 0x6F, 0x72, 0x62, 0x69, 0x73, 0] ++ sync ++ [1, 0, 2] ++ List.replicate 7 0 ++ [0x10, 0, 0, 0x28]
    ++ List.replicate 26 0 ++ [1]

/-- A page's bytes: flags, low granule byte, page number, checksum, segments and body. -/
def pageBytes (flags granule number : Byte) (crc segments body : List Byte) : List Byte :=
  [0x4F, 0x67, 0x67, 0x53, 0, flags, granule, 0, 0, 0, 0, 0, 0, 0, 0x78, 0x56, 0x34, 0x12, number, 0, 0, 0] ++ crc
    ++ (BitVec.ofNat 8 segments.length :: segments) ++ body

/-- Its audio page. -/
def audioPage : List Byte := pageBytes 4 0x30 2 [0xA1, 0x51, 0xDC, 0x8A] [1, 1, 1] [0, 0, 0]

/-- The stream. -/
def stream48 : List Byte :=
  pageBytes 2 0 0 [0xF1, 0xA7, 0xF4, 0x4E] [30] (identPacket 0x66)
    ++ pageBytes 0 0 1 [0xE8, 0xBD, 0x01, 0xCF] [16, 52] (commentPacket ++ setupPacket [0x42, 0x43, 0x56]) ++ audioPage

/-- A machine with bytes at address 0 and the arguments of a command. -/
def argued (bytes : List Byte) (arg0 arg1 : Word) : State :=
  { State.reset with mem := cells 0 bytes, regs := { HostRegs.reset with arg0 := arg0, arg1 := arg1 } }

/-- The machine after P1 step 1, at the first audio page. -/
def opened48 : State :=
  { source stream48 with
    src := ⟨0, 188, 155, false, 155, 0⟩
    tab := { tables48 with window0 := windowTable 64, window1 := windowTable 64 }
    ctl := { Control.reset with
      state := .decoding, api := .pull, setupEndsPage := true, pFirst := ⟨155, 188, 48⟩ }
    work := buffers 1 64 }

/-- What a test looks at: STATUS, RET0, RET1, RET2 and ERROR. -/
def results (s : State) : Word × Nat × Nat × Nat × Nat :=
  (s.status, s.regs.ret0.toNat, s.regs.ret1.toNat, s.regs.ret2.toNat, s.ctl.error.toNat)

/-! ### Host commands -/

/-- P2 step 6. -/
theorem test_openPull_capture : results (command 0x01 (argued [0x4F, 0x67, 0x67, 0x54] 0 4)) = (0x08C, 0, 0, 0, 30) := by
  decide +kernel

/-- P1 step 1. -/
theorem test_openPull : let s := command 0x01 (argued stream48 0 188)
    results s = (0x02A, 0, 0, 0, 0) ∧ s.src.firstAudioPageOffset = 155 ∧ s.ctl.pFirst = ⟨155, 188, 48⟩ ∧
      s.readReg 0x024 = 44100 ∧ s.readReg 0x028 = 0x66 ∧ s.readReg 0x02C = 32 := by decide +kernel

/-- P3 step 1. -/
theorem test_openPush : results (command 0x02 (argued stream48 0 40)) = (0x071, 0, 0, 0, 1) := by decide +kernel

/-- P3 step 2, from reset. -/
theorem test_openPush_whole : results (command 0x02 (argued stream48 0 155)) = (0x032, 155, 0, 0, 0) := by decide +kernel

/-- P1 step 4. -/
theorem test_decodeFrame : let s := command 0x04 opened48
    results s = (0x12A, 0, 1, 0, 0) ∧ s.ctl.currentLoc = 0 ∧ s.ctl.previousLength = 32 := by decide +kernel

/-- P1 step 3. -/
theorem test_streamLength : let s := command 0x08 opened48
    results s = (0x02A, 48, 0, 0, 0) ∧ s.ctl.pLast = ⟨155, 188, 48⟩ := by decide +kernel

/-- P1 step 6: the last frame is trimmed to its granule. -/
theorem test_decodeFrame_trim : let s := command 0x04 (command 0x04 (command 0x04 opened48))
    results s = (0x12A, 16, 1, 0, 0) ∧ s.ctl.currentLoc = 48 ∧ s.ctl.previousLength = 0 ∧ s.readReg (0x100000 + 64) = 0 := by
  decide +kernel

/-- P1 step 9. -/
theorem test_seekStart : let s := command 0x07 (command 0x04 opened48)
    results s = (0x02A, 0, 1, 0, 0) ∧ s.src.pos = 155 ∧ s.ctl.firstDecode = true := by decide +kernel

/-- V-FC6: a target past the end, and a stream without a length. -/
theorem test_seek : results (command 0x06 { opened48 with regs.arg0 := 49 }) = (0x08A, 0, 0, 0, 11) ∧
    results (command 0x06 { opened48 with src.len := 187, regs.arg0 := 10 }) = (0x08A, 0, 0, 0, 7) := by decide +kernel

/-- V-CMD11 and V-CMD12. -/
theorem test_getInfo : results (command 0x05 { opened48 with ctl.state := .eof }) = (0x02B, 1, 44100, 32, 0) ∧
    results (command 0x05 State.reset) = (0x080, 0, 0, 0, 64) := by decide +kernel

/-- P2 steps 4 and 5. -/
theorem test_getError : results (command 0x09 { State.reset with ctl.error := 64 }) = (0x020, 64, 0, 0, 0) ∧
    results (command 0x09 (command 0x09 { State.reset with ctl.error := 64 })) = (0x020, 0, 0, 0, 0) := by decide +kernel

/-- P1 step 11. -/
theorem test_close : command 0x0A { opened48 with regs := ⟨1, 2, 3, 4, 5, .error⟩ } =
    { State.reset with mem := cells 0 stream48, regs := ⟨1, 2, 0, 0, 0, .ok⟩ } := by decide +kernel

/-- V-CMD3 and V-CMD4. -/
theorem test_illegalCommand : results (command 0x0000000B State.reset) = (0x080, 0, 0, 0, 64) ∧
    results (command 0x00000109 State.reset) = (0x080, 0, 0, 0, 64) := by decide +kernel

/-- A push instance before the chunk of S48's audio page. -/
def pushed48 (bytes : List Byte) : State :=
  { argued bytes 0 (BitVec.ofNat 32 bytes.length) with
    tab := opened48.tab, work := opened48.work, ctl := { opened48.ctl with api := .push } }

/-- P3 step 4, and V-FC7. -/
theorem test_pushDecode : results (command 0x03 (pushed48 audioPage)) = (0x132, 31, 0, 1, 0) ∧
    results (command 0x03 (pushed48 (audioPage.take 20))) = (0x072, 0, 0, 1, 1) := by decide +kernel

/-- V-FC8. -/
theorem test_pushDecode_bad : let s := command 0x03 (pushed48 ([0x4F, 0x67, 0x67, 0] ++ audioPage.drop 4))
    results s = (0x092, 0, 0, 1, 21) ∧ s.ctl.resync = true := by decide +kernel

/-! ### Datapath steps -/

/-- V-OG2. -/
theorem test_oggPage : let s := after (exec .oggPage (source ([0, 4, 0, 0x10] ++ List.replicate 18 0 ++ [4, 255, 255, 10, 255])))
    s.cur.endSegWithKnownLoc = 2 ∧ s.cur.knownLocForPacket = 4096 ∧ s.cur.nextSeg = 0 ∧ s.src.pos = 27 := by decide +kernel

/-- V-SU1 and V-SU3. -/
theorem test_hdrIdentification :
    (let s := after (exec .hdrIdentification (packet ((identPacket 0xB8).drop 1)));
      s.tab.blocksize false = 256 ∧ s.tab.blocksize true = 2048 ∧ s.tab.channels = 1 ∧ s.tab.sampleRate = 44100) ∧
    [0x8B, 0x55].map (fun b => (after (exec .hdrIdentification (packet ((identPacket b).drop 1)))).ctl.error) = [20, 20] := by
  decide +kernel

/-- The comment packet of S48 is skipped (42_setup.md R287). -/
theorem test_hdrComment : let s := after (exec .hdrComment (packet (commentPacket.drop 1)))
    s.ctl.error = 0 ∧ s.src.pos = 15 ∧ s.cur.bytesInSeg = 0 := by decide +kernel

/-- The setup packet of S48. -/
theorem test_hdrSetup : (after (exec .hdrSetup { packet ((setupPacket [0x42, 0x43, 0x56]).drop 1) with tab.channels := 1 })).tab =
    { Tables.absent with
      channels := 1, codebooks := [book1], floors := [floor2], residues := [residue0], mappings := [⟨1, [], [0], [0], [0]⟩]
      modes := [⟨false, 0⟩] } := by decide +kernel

/-- V-SU16. -/
theorem test_hdrSetup_sync :
    (after (exec .hdrSetup { packet ((setupPacket [0x56, 0x43, 0x42]).drop 1) with tab.channels := 1 })).ctl.error = 20 := by
  decide +kernel

/-- A long packet between short ones (V-FC3 frame 1), from its mode bit on. -/
theorem test_audioPacket : let s := after (exec .audioPacket
      (phase .decoding .pull { tabled tables1 (packet [0x01]) with ctl.firstDecode := true }))
    s.ctl.discardSamplesDeferred = 448 ∧ s.ctl.previousLength = 128 ∧ s.ctl.outLen = 0 ∧ s.ctl.error = 0 := by decide +kernel

/-- A packet with its type bit set is consumed and gives nothing (48_frame_control.md R522). -/
theorem test_badPacketType : let s := after (exec .badPacketType (phase .decoding .pull (packet [0xFF, 0xFF])))
    s.src.pos = 2 ∧ s.cur.bytesInSeg = 0 ∧ s.ctl.error = 0 := by decide +kernel

/-- V-SU6 at its codebook, and V-CB7. -/
theorem test_lookupNone :
    (after (exec (.lookupNone .setup) { packet [] with
      tab.codebooks := [{ book1 with entries := 8, lengths := [2, 4, 4, 4, 4, 2, 3, 3].map some }] })).tab.codebooks.map (·.codewords) =
      [[0b00, 0b0100, 0b0101, 0b0110, 0b0111, 0b10, 0b110, 0b111]] ∧
    (let s := after (exec (.lookupNone (.vector 0 [some (0, 0)])) (tabled tables48 (packet [0xFF])));
      s.ctl.error = 21 ∧ s.src.pos = 0) := by decide +kernel

/-- V-CB5: entries 5, and 4 with and without the running sum, into two zero samples. -/
theorem test_lookupLattice :
    (let run := fun (b : Codebook) (byte : Byte) => (after (exec (.lookupLattice (.vector 0 [some (0, 0), some (0, 1)]))
        { packet [byte] with tab.codebooks := [b], work := buffers 1 2 })).work.channelBuffer;
      (run { book3 with sequenceP := false } 0b101, run { book3 with sequenceP := false } 0b001, run book3 0b001)) =
    ([[0x00000000, 0xBF000000]], [[0xBF000000, 0xBF000000]], [[0xBF000000, 0xBF800000]]) := by decide +kernel

/-- V-CB6. -/
theorem test_lookupDirect : (after (exec (.lookupDirect (.vector 0 [some (0, 0), some (0, 1)]))
    { packet [1] with tab.codebooks := [book2], work := buffers 1 2 })).work.channelBuffer = [[0x40400000, 0x40800000]] := by
  decide +kernel

/-- V-SU14. -/
theorem test_floorType0 : (after (exec .floorType0 (phase .awaitingHeaders .pull (packet (List.replicate 9 0))))).ctl.error = 4 := by
  decide +kernel

/-- V-SU11 in the setup header: 3 X values of one class of dimension 3, rangebits 7. -/
theorem test_floorType1_setup : ((after (exec (.floorType1 .setup) { packet (bitBytes
      (([true, false, false, false, false] ++ [false, false, false, false] ++ [false, true, false, false, false]
        ++ List.replicate 8 false ++ [false, false] ++ [true, true, true, false])
        ++ ([false, false, false, false, false, false, true] ++ [false, false, false, false, false, true, false]
        ++ [false, false, false, false, false, true, true]))) with
      tab.codebooks := [book1] })).tab.floors.map fun f => (f.xs, f.sortedOrder, f.lowNeighbor.drop 2, f.highNeighbor.drop 2)) =
    [([0, 128, 64, 32, 96], [0, 3, 2, 4, 1], [0, 0, 2], [1, 2, 1])] := by decide +kernel

/-- V-FL8, and V-FL10: the packet ends in the second point. -/
theorem test_floorType1 :
    (let s := after (exec (.floorType1 (.decode 0 0)) { tabled tables48 (packet [0xFE]) with work := buffers 1 32 });
      s.work.zeroChannel = [true] ∧ s.rd.validBits = 7) ∧
    (let s := after (exec (.floorType1 (.decode 0 0)) { tabled tables48 (packet [0xFF, 0x01]) with work := buffers 1 32 });
      s.work.zeroChannel = [true] ∧ s.rd.validBits = -1 ∧ s.ctl.error = 0) := by decide +kernel

/-- V-RE2: the vectors [1.0, 2.0] and [3.0, 4.0]. -/
theorem test_residueType0 : (after (exec (.residueType0 (.decode false 0 0))
    { tabled (tables4 .type0 1) (packet [4]) with work := buffers 1 4 })).work.channelBuffer =
    [[0x3F800000, 0x40400000, 0x40000000, 0x40800000]] := by decide +kernel

/-- V-RE3. -/
theorem test_residueType1 : (after (exec (.residueType1 (.decode false 0 0))
    { tabled (tables4 .type1 1) (packet [4]) with work := buffers 1 4 })).work.channelBuffer =
    [[0x3F800000, 0x40000000, 0x40400000, 0x40800000]] := by decide +kernel

/-- V-RE4. -/
theorem test_residueType2 : (after (exec (.residueType2 (.decode false 0 0))
    { tabled (tables4 .type2 2) (packet [4]) with work := buffers 2 4 })).work.channelBuffer =
    [[0x3F800000, 0x40400000, 0, 0], [0x40000000, 0x40800000, 0, 0]] := by decide +kernel

/-- V-SU15. -/
theorem test_mappingType0 : (after (exec .mappingType0 (tabled tables48 (packet [0x02, 0, 0, 0, 0, 0])))).ctl.error = 20 ∧
    (after (exec .mappingType0 { tabled { tables48 with mappings := [] } (packet [0, 0, 0, 0, 0]) with
      work := Work.reset })).tab.mappings = [⟨1, [], [0], [0], [0]⟩] := by decide +kernel

/-! ### Helpers of the witnesses -/

/-- Where a step of the datapath ends. -/
def endOf {α : Type} (m : M α) (s : State) : State :=
  match m s with
  | .ok _ t => t
  | .error _ t => t

/-- What it raises. -/
def raised {α : Type} (m : M α) (s : State) : Option ErrCode :=
  match m s with
  | .ok _ _ => none
  | .error e _ => some e

theorem ok_of_value {α : Type} {m : M α} {s : State} {a : α} (h : value m s = some a) : m s = .ok a (endOf m s) := by
  unfold value at h; unfold endOf; split at h <;> simp_all

theorem error_of_raised {α : Type} {m : M α} {s : State} {e : ErrCode} (h : raised m s = some e) : m s = .error e (endOf m s) := by
  unfold raised at h; unfold endOf; split at h <;> simp_all

theorem here_of {s : State} (h : s.cur.packetLeft.isSome = true ∧ s.src.pos.toNat + s.packetSize ≤ s.src.len.toNat ∧
    s.src.eof = false) : s.PacketHere := ⟨h.1, h.2.1, h.2.2⟩

theorem holds_of {s : State} {bits : List Bool} (h : (s.cur.packetLeft.isSome = true ∧
    s.src.pos.toNat + s.packetSize ≤ s.src.len.toNat ∧ s.src.eof = false) ∧
    ((-1 ≤ s.rd.validBits ∧ s.rd.validBits ≤ 39) ∧ (0 < s.rd.validBits → s.rd.acc.toNat < 2 ^ s.rd.validBits.toNat)) ∧
    0 ≤ s.rd.validBits ∧ s.packetBits = bits) : s.Holds bits :=
  ⟨here_of h.1, ⟨h.2.1.1, h.2.1.2⟩, h.2.2.1, h.2.2.2⟩

theorem ahead_of {s : State} {bytes : List Byte} (h : s.src.pos.toNat + bytes.length ≤ s.src.len.toNat ∧
    (∀ i < bytes.length, s.srcByte (s.src.pos + BitVec.ofNat 32 i) = bytes.getD i 0) ∧ s.src.eof = false) : s.Ahead bytes :=
  ⟨h.1, h.2.1, h.2.2⟩

/-- The machine with accesses pending. -/
def awaiting (l : List Event) (s : State) : State := { s with pending := l }

/-- The machine with a push command's chunk as its source. -/
def chunked (s : State) : State :=
  { s with
    src.base := s.regs.arg0, src.len := s.regs.arg1, src.pos := 0, src.eof := false
    ctl.outLen := 0, regs.ret1 := 0, regs.ret2 := BitVec.ofNat 32 s.tab.channels }

/-- The header of S48's audio page. -/
def audioFields : PageFields := ⟨4, 48, 0x12345678, 2, 0x8ADC51A1, [1, 1, 1]⟩

/-! ### Machines that meet the hypotheses of the statements -/

theorem witness_DecodeEncode : WellFormed (.residueType2 (.decode true 63 15)) ∧ WellFormed (.lookupDirect (.vector 255 [])) ∧
    decode (.stream .audio) 0b11 = .ok .badPacketType := by decide

theorem witness_StepRunsDecoded : (awaiting [.regWrite 0x000 4 4] State.reset).pending = .regWrite 0x000 4 4 :: [] ∧
    decode .cmd 4 = .ok .decodeFrame ∧
    fetchSelector .page (source captureBytes) = .ok 0x5367674F (endOf (fetchSelector .page) (source captureBytes)) ∧
    decode (.stream .page) 0x5367674F = .ok .oggPage :=
  ⟨rfl, by decide, ok_of_value (by decide +kernel), by decide⟩

/-- The first and the last offset of the registers, of the PCM window, and of the space, also where the window ends the space. -/
theorem witness_RegisterReads : State.reset.params.maxChannels = 16 ∧
    (∀ o ∈ [0x000, 0x0FFFFC, 0x100000, 0x17FFFC, 0x180000, 0x1FFFFC], o % 4 = 0 ∧ (o < 0x200000 ∨ o < 0x100000 + 16 * 0x8000)) ∧
    (0x8F7FFC < 0x100000 + 255 * 0x8000 ∧ 0x8F7FFC % 4 = 0) ∧
    (0x100000 + 16 * 0x8000 ≤ 0x180000 ∧ (awaiting [.regWrite 0x1FFFFC 4 1] State.reset).pending = .regWrite 0x1FFFFC 4 1 :: []) ∧
    opened48.ctl.state = .decoding ∧ opened48.tab.logBlocksize0 < 16 ∧ opened48.tab.logBlocksize1 < 16 ∧
    opened48.ctl.totalSamplesKnown ≠ .known ∧ State.reset.ctl.state ≠ .decoding ∧ State.reset.ctl.state ≠ .eof := by decide

theorem witness_StatusRegister : (awaiting [.regWrite 0x004 4 0x1FF] opened48).pending = .regWrite 0x004 4 0x1FF :: [] := rfl

theorem witness_RegisterWrites : (awaiting [.regWrite 0x0FFFFC 4 1] opened48).pending = .regWrite 0x0FFFFC 4 1 :: [] ∧
    (0x038 ≤ 0x0FFFFC ∧ 0x0FFFFC < 0x100000 ∧ 0x0FFFFC % 4 = 0) ∧ 0x038 % 4 = 0 ∧ 0x034 % 4 = 0 := ⟨rfl, by decide⟩

/-- The first and the last word of the window, also with the most channels a stream can have. -/
theorem witness_PcmWindow : (0 < opened48.params.maxChannels ∧ 0 < 0x2000) ∧ (15 < opened48.params.maxChannels ∧ 0x1FFF < 0x2000) ∧
    254 < ({ opened48 with params.maxChannels := 255 } : State).params.maxChannels ∧
    (awaiting [.regRead (0x100000 + 15 * 0x8000 + 4 * 0x1FFF) 4] opened48).pending =
      .regRead (0x100000 + 15 * 0x8000 + 4 * 0x1FFF) 4 :: [] ∧
    (0x100000 ≤ 0x17FFFC ∧ 0x17FFFC < 0x100000 + opened48.params.maxChannels * 0x8000 ∧ 0x17FFFC % 4 = 0) ∧
    (0 < opened48.tab.channels ∧ 0 < (command 0x04 (command 0x04 opened48)).ctl.outLen) := by decide +kernel

theorem witness_AccessWidth : ((2 : Nat) ≠ 4 ∨ 0 % 4 ≠ 0) ∧ ((4 : Nat) ≠ 4 ∨ 2 % 4 ≠ 0) ∧
    (awaiting [.regRead 0 2] opened48).pending = .regRead 0 2 :: [] ∧
    (awaiting [.regWrite 2 4 0] opened48).pending = .regWrite 2 4 0 :: [] := ⟨by decide, by decide, rfl, rfl⟩

theorem witness_ResetValues : ∃ t, (awaiting [.hardReset] opened48).pending = .hardReset :: [] ∧
    step (awaiting [.hardReset] opened48) = .next t := ⟨_, rfl, rfl⟩

theorem witness_IllegalCommand : ((0x100 : Word).extractLsb' 8 24 ≠ 0) ∧ ((0 : Word).extractLsb' 0 8 = 0) ∧
    (0x0B ≤ ((0x0B : Word).extractLsb' 0 8).toNat) ∧ State.reset.ctl.state ∉ [TopState.decoding, .eof] ∧
    opened48.ctl.state ∉ [TopState.closed] ∧
    (awaiting [.regWrite 0x000 4 4] State.reset).pending = .regWrite 0x000 4 4 :: [] := by decide

theorem witness_ApiMixing : opened48.ctl.api = .pull ∧ opened48.ctl.state ∈ [TopState.decoding] ∧
    (phase .decoding .push opened48).ctl.api = .push ∧ (phase .decoding .push opened48).ctl.state ∈ [TopState.decoding, .eof] := by
  decide

theorem witness_RaiseEffect : State.reset.ctl.state = .closed ∧ (opened48.ctl.state = .decoding ∧ opened48.ctl.api = .pull) ∧
    ((phase .decoding .push opened48).ctl.state = .decoding ∧ (phase .decoding .push opened48).ctl.api = .push) := by decide

theorem witness_GetError : ∃ t u, exec .getError opened48 = .next t ∧ exec .getError t = .next u := ⟨_, _, rfl, rfl⟩

theorem witness_GetInfo : opened48.ctl.state = .decoding ∧ (phase .eof .pull opened48).ctl.state = .eof := by decide

theorem witness_SeekStart : opened48.ctl.state = .decoding ∧ opened48.ctl.api = .pull ∧ opened48.ctl.setupEndsPage = true ∧
    ({ opened48 with ctl.setupEndsPage := false } : State).ctl.setupEndsPage = false := by decide

/-- A stream never scanned, one scanned already, a source without a page in reach, and one whose last page has no granule. -/
theorem witness_StreamLengthCompletes : opened48.ctl.state = .decoding ∧ opened48.ctl.api = .pull ∧
    opened48.ctl.totalSamplesKnown = .notComputed ∧ opened48.src.pos ≤ opened48.src.len ∧
    (command 0x08 opened48).ctl.totalSamplesKnown ≠ .notComputed ∧
    value findPage opened48 = some (some ⟨155, 188, true⟩) ∧ value findPage { opened48 with src.len := 187 } = some none ∧
    opened48.granuleAt 155 ≠ BitVec.allOnes 64 := by decide +kernel

/-- A page without segments whose granule is 48, as a whole stream. -/
def emptyPage : List Byte := pageBytes 4 0x30 2 [0x26, 0x33, 0xB6, 0xEC] [] []

/-- That page's fields after its capture pattern. -/
def emptyFields : PageFields := ⟨4, 0x30, 0x12345678, 2, leNat [0x26, 0x33, 0xB6, 0xEC], []⟩

/-- A machine that decodes a stream of that page and one zero byte. -/
def silent48 : State :=
  { opened48 with mem := cells 0 emptyPage, src := ⟨0, 28, 0, false, 0, 0⟩, regs.arg0 := 48 }

/-- A stream without a length; a stream of 48 samples with targets 49, 48 and 0; and a stream of which no samples come, where a
landing at sample 48 is one, with the pending code left or one that decoding gives, in the ranges only. -/
theorem witness_SeekOutcome : (opened48.ctl.state = .decoding ∧ opened48.ctl.api = .pull ∧ opened48.ctl.setupEndsPage = true) ∧
    value streamLength { opened48 with src.len := 187 } = some 0 ∧
    ([0, 48, 49].map fun arg => value streamLength { opened48 with regs.arg0 := arg }) = [some 48, some 48, some 48] ∧
    ((48 : Word) < 49 ∧ (48 : Word) ≤ 48 ∧ (0 : Word) ≤ 48) ∧ value streamLength silent48 = some 48 ∧
    (let w := runState rewind silent48;
      let p := { w.decodePoint with currentLoc := 48 };
      p.currentLoc ≤ silent48.regs.arg0 ∧ p.rd.inRange = true ∧ p.cur.inRange = true ∧ p.pos ≤ silent48.src.len ∧
      (p.eof = true → p.pos = silent48.src.len) ∧ p.discardSamplesDeferred ≤ silent48.tab.blocksize true ∧
      p.previousLength ≤ silent48.tab.blocksize true / 2 ∧ p.error = silent48.ctl.error ∧
      p.previousWindow.map List.length = silent48.work.previousWindow.map List.length ∧
      (w.landed p).remaining = w.remaining.drop 48 ∧
      ([p, { p with error := 21 }].map fun q => (seekEnd (some q) 48 silent48).regs.result) = [.ok, .ok] ∧
      ([{ p with pos := 29 }, { p with previousLength := 9999 }, { p with discardSamplesDeferred := 9999 }, { p with error := 8 }].map
        fun q => (seekEnd (some q) 48 silent48).regs.result) = [.error, .error, .error, .error]) := by decide +kernel

/-- At the end, in EOF, inside a page header and a capture pattern, and after a page without segments. -/
theorem witness_EndOfStream :
    (let s := { opened48 with src.pos := 188 };
      s.ctl.state = .decoding ∧ s.ctl.api = .pull ∧ s.cur.nextSeg = -1 ∧ s.src.len ≤ s.src.pos) ∧
    (phase .eof .pull opened48).ctl.state = .eof ∧
    (let s := { opened48 with src.len := 160 };
      decodePacket (framePrologue s) = .error .unexpectedEof (endOf decodePacket (framePrologue s))) ∧
    (∀ n ∈ [1, 2, 3], 0 < n ∧ n < 4 ∧ 155 + n = (BitVec.ofNat 32 (155 + n)).toNat ∧ ({ opened48 with src.len := BitVec.ofNat 32 (155 + n) } : State).Ahead (captureBytes.take n)) ∧
    (opened48.cur.nextSeg = -1 ∧ opened48.src.pos = 155 ∧ pageContinued emptyFields.flag = false ∧ emptyFields.segments = [] ∧
      ({ silent48 with src.len := 27 } : State).Ahead (captureBytes ++ emptyFields.encode) ∧
      ({ silent48 with src.len := 27 } : State).src.pos.toNat + (captureBytes ++ emptyFields.encode).length = 27) := by
  refine ⟨by decide, rfl, error_of_raised (by decide +kernel), fun n hn => ?_, by decide, by decide, by decide, by decide,
    ahead_of (by decide +kernel), by decide +kernel⟩
  simp only [List.mem_cons, List.not_mem_nil, or_false] at hn
  rcases hn with rfl | rfl | rfl <;> exact ⟨by decide, by decide, by decide, ahead_of (by decide +kernel)⟩

/-- A latched segment, the page of S48, and the end. -/
theorem witness_PacketStart : (latched [0]).cur.nextSeg ≠ -1 ∧
    (opened48.cur.nextSeg = -1 ∧ pageContinued audioFields.flag = false ∧ audioFields.segments ≠ [] ∧
      audioFields.segments.length ≤ 255 ∧ opened48.Ahead (captureBytes ++ (audioFields.encode ++ [0, 0, 0]))) ∧
    ({ opened48 with src.pos := 188 } : State).src.len ≤ ({ opened48 with src.pos := 188 } : State).src.pos :=
  ⟨by decide, ⟨by decide, by decide, by decide, by decide, ahead_of (by decide +kernel)⟩, by decide⟩

/-- A machine of tables with a long mode before an audio packet. -/
def before1 (bytes : List Byte) : State := phase .decoding .pull (tabled tables1 (latched bytes))

/-- A short packet, and a long one with window flags 1 and 0. -/
theorem witness_DecodeFrameCompletes :
    (maybeStartPacket (framePrologue (before1 [0x00])) = .ok true (endOf maybeStartPacket (framePrologue (before1 [0x00]))) ∧
      tables1.modes.length ≤ 64 ∧ tables1.modes[0]? = some ⟨false, 0⟩ ∧
      (endOf maybeStartPacket (framePrologue (before1 [0x00]))).Holds
        ([false] ++ (fieldBits (ilog (tables1.modes.length - 1)) 0 ++ ([] ++ List.replicate 6 false)))) ∧
    maybeStartPacket (framePrologue (before1 [0x06])) = .ok true (endOf maybeStartPacket (framePrologue (before1 [0x06]))) ∧
      tables1.modes[1]? = some ⟨true, 0⟩ ∧
      (endOf maybeStartPacket (framePrologue (before1 [0x06]))).Holds
        ([false] ++ (fieldBits (ilog (tables1.modes.length - 1)) 1 ++ ([true, false] ++ List.replicate 4 false))) :=
  ⟨⟨ok_of_value (by decide +kernel), by decide, by decide, holds_of (by decide +kernel)⟩, ok_of_value (by decide +kernel), by decide,
    holds_of (by decide +kernel)⟩

/-- A page sought at the end of the longest source: nothing follows its failed start, and the next command answers EOF
(48_frame_control.md R531). -/
theorem test_recovery_at_last_offset :
    (let s := failFrame .missingCapturePattern { opened48 with src := ⟨0, 0xFFFFFFFF, 0xFFFFFFFF, true, 0, 0xFFFFFFFF⟩ };
      s.ctl.error = 30 ∧ s.ctl.state = .decoding ∧ s.src.pos = 0xFFFFFFFF ∧ s.src.eof = true ∧
      (decodeFrameBody s).regs.result = .eof) := by decide +kernel

/-- A page whose pattern or version is wrong, the first of them where no page stands, a page whose first packet continues one not
seen, and scans that find a page and none. -/
theorem witness_PageRecovery :
    (let s := framePrologue { opened48 with mem := Memory.write opened48.mem 156 0 };
      decodePacket s = .error .missingCapturePattern (endOf decodePacket s)) ∧
    (let s := framePrologue { opened48 with mem := Memory.write opened48.mem 159 1 };
      decodePacket s = .error .invalidStreamStructureVersion (endOf decodePacket s)) ∧
    (let s := framePrologue silent48;
      decodePacket s = .error .missingCapturePattern (endOf decodePacket s) ∧
      s.src.len.toNat ≤ (endOf decodePacket s).src.pageStart.toNat + 1) ∧
    (let s := { opened48 with mem := Memory.write opened48.mem 156 0 };
      s.ctl.state = .decoding ∧ s.ctl.api = .pull ∧ s.cur.nextSeg = -1 ∧ s.src.eof = false ∧
      s.src.pos.toNat + 4 ≤ s.src.len.toNat ∧ s.bytesAt s.src.pos.toNat 4 ≠ captureBytes) ∧
    (let s := framePrologue { opened48 with mem := Memory.write opened48.mem 160 1 };
      decodePacket s = .error .continuedPacketFlagInvalid (endOf decodePacket s) ∧
      (let t := endOf decodePacket s; { t with cur.lastSeg := false, cur.bytesInSeg := 0 } : State).PacketHere) ∧
    opened48.src.pos ≤ opened48.src.len ∧ (opened48.src.eof = true → opened48.src.pos = opened48.src.len) ∧
    value findPage opened48 = some (some ⟨155, 188, true⟩) ∧ value findPage { opened48 with src.len := 187 } = some none :=
  ⟨error_of_raised (by decide +kernel), error_of_raised (by decide +kernel),
    ⟨error_of_raised (by decide +kernel), by decide +kernel⟩, by decide +kernel,
    ⟨error_of_raised (by decide +kernel), here_of (by decide +kernel)⟩, by decide, by decide, by decide +kernel, by decide +kernel⟩

/-- 26 and 27 bytes of a page, a page whose pattern is wrong, and latched segments with and without their bytes. -/
theorem witness_PushNeedsMore :
    [26, 27, 33].map (fun n => wholePacketPresent (chunked (pushed48 (audioPage.take n)))) = [.need, .need, .present] ∧
    (chunked (pushed48 (0 :: audioPage))).chunkBytes 0 4 ≠ captureBytes ∧
    wholePacketPresent (chunked (pushed48 (0 :: audioPage))) = .bad ∧ (pushed48 audioPage).cur.nextSeg = -1 ∧
    (let s := { pushed48 [0] with cur := (latched [0]).cur };
      s.cur.nextSeg ≠ -1 ∧ (sumSegments s.cur.latched 0).2 = true ∧ ¬s.regs.arg1.toNat < (sumSegments s.cur.latched 0).1) ∧
    (let s := { pushed48 [] with cur := (latched [0]).cur };
      (sumSegments s.cur.latched 0).2 = true ∧ s.regs.arg1.toNat < (sumSegments s.cur.latched 0).1) := by decide +kernel

theorem witness_PushDecodeCompletes : (pushed48 audioPage).ctl.state = .decoding ∧ (pushed48 audioPage).ctl.api = .push ∧
    (pushed48 audioPage).ctl.resync = false ∧ wholePacketPresent (chunked (pushed48 audioPage)) = .present ∧
    maybeStartPacket (chunked (pushed48 audioPage)) = .ok true (endOf maybeStartPacket (chunked (pushed48 audioPage))) ∧
    (pushed48 audioPage).tab.modes[0]? = some ⟨false, 0⟩ ∧
    (endOf maybeStartPacket (chunked (pushed48 audioPage))).Holds
      ([false] ++ (fieldBits (ilog ((pushed48 audioPage).tab.modes.length - 1)) 0 ++ ([] ++ List.replicate 7 false))) :=
  ⟨rfl, rfl, rfl, by decide +kernel, ok_of_value (by decide +kernel), rfl, holds_of (by decide +kernel)⟩

/-- Whether an offset holds a whole page. -/
def wholeAt (s : State) (i : Nat) : Bool :=
  match pageAt s i with
  | .whole _ => true
  | _ => false

theorem not_whole {s : State} {n : Nat} (h : ∀ j < n, wholeAt s j = false) : ∀ j < n, ∀ g, pageAt s j ≠ .whole g := by
  intro j hj g e
  have := h j hj
  simp [wholeAt, e] at this

/-- The page of S48 after two bytes; a chunk without a page; and one whose last byte could begin a page. -/
theorem witness_PushResync :
    (2 < (pushed48 (0x4F :: 0 :: audioPage)).regs.arg1.toNat ∧ pageAt (chunked (pushed48 (0x4F :: 0 :: audioPage))) 2 = .whole 48 ∧
      ∀ j < 2, ∀ g, pageAt (chunked (pushed48 (0x4F :: 0 :: audioPage))) j ≠ .whole g) ∧
    ((∀ j < 2, ∀ g, pageAt (chunked (pushed48 [0, 0])) j ≠ .whole g) ∧
      ∀ j < 2, pageAt (chunked (pushed48 [0, 0])) j ≠ .couldBegin) ∧
    (∀ j < 2, ∀ g, pageAt (chunked (pushed48 [0, 0x4F])) j ≠ .whole g) ∧
      (∀ j < 1, pageAt (chunked (pushed48 [0, 0x4F])) j ≠ .couldBegin) ∧
      pageAt (chunked (pushed48 [0, 0x4F])) 1 = .couldBegin ∧
    [27, 33].map (fun n => decide (pageAt (chunked (pushed48 (audioPage.take n))) 0 = .couldBegin)) = [true, false] ∧
    0 < (chunked (pushed48 [0])).src.len.toNat :=
  ⟨⟨by decide +kernel, by decide +kernel, not_whole (by decide +kernel)⟩, ⟨not_whole (by decide +kernel), by decide +kernel⟩,
    not_whole (by decide +kernel), by decide +kernel, by decide +kernel, by decide +kernel, by decide⟩

/-! ### Headers -/

/-- The identification fields of S48. -/
def ident48 : IdentFields := ⟨1, 44100, 0, 0, 0, 6, 6, 1⟩

/-- The setup fields of S48. -/
def setup48 : SetupFields :=
  { codebooks := [⟨1, 2, .unordered false [some 1, some 1], .none, ⟨0, 0, 0, false, []⟩⟩]
    times := 1
    floors := [⟨[], [], 0, 5, []⟩]
    residues := [(.type0, ⟨0, 0, 0, 0, 0, [⟨0, none⟩], [List.replicate 8 none]⟩)]
    mappings := [⟨none, none, [], [(0, 0, 0)]⟩]
    modes := [⟨false, 0⟩]
    framing := true }

/-- The headers of S48, one packet to a page. -/
def headers48 : HeaderStream :=
  { ident := ident48
    comment := commentPacket.drop 7
    setup := (setupPacket [0x42, 0x43, 0x56]).drop 1
    first := ⟨2, 0, 0x12345678, 0, 0, [30]⟩
    second := ⟨0, 0, 0x12345678, 1, 0, [16]⟩
    third := ⟨0, 0, 0x12345678, 2, 0, [52]⟩ }

theorem ident48_legal : ident48.Legal State.reset.params :=
  ⟨by decide, by decide, by decide, by decide, by decide⟩

theorem setup48_legal (t : Tables) : setup48.Legal t where
  codebookCount := ⟨by decide, by decide⟩
  codebooks := by
    simp only [setup48, List.mem_singleton, forall_eq]
    exact ⟨by decide, by decide, ⟨rfl, by simp, by decide⟩, fun h => absurd rfl h, by decide +kernel⟩
  times := ⟨by decide, by decide⟩
  floorCount := ⟨by decide, by decide⟩
  floors := by
    simp only [setup48, List.mem_singleton, forall_eq]
    exact ⟨by decide, by decide, by decide, by simp, by decide, by decide, by decide, by decide⟩
  residueCount := ⟨by decide, by decide⟩
  residues := by
    simp only [setup48, List.mem_singleton, forall_eq]
    exact ⟨by decide, by decide, by decide, by decide, by simp [CascadeFields.Legal], by decide, by decide +kernel, by simp⟩
  mappingCount := ⟨by decide, by decide⟩
  mappings := by
    simp only [setup48, List.mem_singleton, forall_eq]
    exact ⟨by simp, by simp, by simp [MappingFields.steps], by simp [MappingFields.steps], by simp [MappingFields.submapCount],
      by simp, rfl, by simp [SetupFields.tables]⟩
  modeCount := ⟨by decide, by decide⟩
  modes := by simp [setup48]

theorem witness_OpenCompletes : headers48.Legal setup48 State.reset.params ∧
    fitsArena State.reset.params (headers48.tables setup48) = true ∧ State.reset.ctl.state = .closed ∧
    (let s := argued headers48.bytes 0 183;
      ({ s with src := ⟨s.regs.arg0, s.regs.arg1, 0, false, 0, 0⟩ } : State).Ahead (headers48.bytes ++ [])) :=
  ⟨⟨ident48_legal, by decide, rfl, by decide, by decide, by decide, by decide, setup48_legal _, by decide,
    ⟨List.replicate 7 false, by decide +kernel⟩⟩, rfl, rfl, ahead_of (by decide +kernel)⟩

theorem witness_FailedOpenKeepsNoTable :
    (let s := openPrologue .push (argued stream48 0 40);
      openTables s = .error .invalidFirstPage (endOf openTables s) ∧ (endOf openTables s).src.eof = true) ∧
    (argued stream48 0 0).regs.arg1 = 0 ∧
    (let s := { openPrologue .pull (argued [0x4F, 0x67, 0x67, 0x54] 0 4) with ctl.state := .awaitingHeaders };
      openTables s = .error .missingCapturePattern (endOf openTables s)) ∧
    (let s := openPrologue .push (argued [0x4F, 0x67, 0x67, 0x54] 0 4);
      openTables s = .error .missingCapturePattern (endOf openTables s) ∧ (endOf openTables s).src.eof = false) :=
  ⟨⟨error_of_raised (by decide +kernel), by decide +kernel⟩, rfl, error_of_raised (by decide +kernel),
    error_of_raised (by decide +kernel), by decide +kernel⟩

/-- Segment tables of 3, 0 and 255 segments. -/
theorem witness_PageHeader :
    (∀ segments ∈ [[1, 1, 1], [], List.replicate 255 255], ({ audioFields with segments := segments } : PageFields).segments.length ≤ 255) ∧
    (source (audioFields.encode ++ [0, 0, 0])).Ahead (audioFields.encode ++ [0, 0, 0]) :=
  ⟨by decide +kernel, ahead_of (by decide +kernel)⟩

theorem witness_KnownGranule : (∀ b ∈ List.replicate 255 (255 : Byte), b = 255) ∧
    (2 < [255, 255, 10, (255 : Byte)].length ∧ (4096 : BitVec 64) ≠ BitVec.allOnes 64 ∧
      [255, 255, 10, (255 : Byte)].getD 2 0 < 255 ∧
      ∀ j, 2 < j → j < [255, 255, 10, (255 : Byte)].length → [255, 255, 10, (255 : Byte)].getD j 0 = 255) := by
  refine ⟨by decide +kernel, by decide, by decide, by decide, fun j h1 h2 => ?_⟩
  obtain rfl : j = 3 := by simp at h2; omega
  rfl

/-- S48's fields, and the largest sizes. -/
theorem witness_IdentificationHeader : ident48.Legal State.reset.params ∧ (packet ((identPacket 0x66).drop 1)).PacketHere ∧
    (packet ((identPacket 0x66).drop 1)).packetBytes = ident48.encode ++ [] ∧
    (⟨16, 1, 0, 0, 0, 6, 13, 255⟩ : IdentFields).Legal State.reset.params :=
  ⟨ident48_legal, here_of (by decide +kernel), by decide +kernel, ⟨by decide, by decide, by decide, by decide, by decide⟩⟩

theorem witness_CommentHeader : (packet (commentPacket.drop 1)).PacketHere ∧
    (packet (commentPacket.drop 1)).packetBytes = vorbisBytes ++ [0, 0, 0, 0, 0, 0, 0, 0, 1] :=
  ⟨here_of (by decide +kernel), by decide +kernel⟩

theorem witness_SetupHeader :
    let s := { packet ((setupPacket [0x42, 0x43, 0x56]).drop 1) with tab := { Tables.absent with channels := 1 } };
    s.tab.codebooks = [] ∧ setup48.Legal s.tab ∧ s.PacketHere ∧ s.packetBytes.take 6 = vorbisBytes ∧
      (s.packetBytes.drop 6).flatMap byteBits = setup48.encode s.tab.channels ++ List.replicate 7 false :=
  ⟨rfl, setup48_legal _, here_of (by decide +kernel), by decide +kernel, by decide +kernel⟩

/-- A wrong type byte for each kind. -/
theorem witness_HeaderPrefix : (packet [2, 0x76, 0x6F]).PacketHere ∧
    ∀ k ∈ [HeaderKind.identification, .comment, .setup], (packet [2, 0x76, 0x6F]).packetBytes.take 7 ≠
      BitVec.ofNat 8 k.typeByte :: vorbisBytes := ⟨here_of (by decide +kernel), by decide +kernel⟩

/-- The least and the greatest reserved value at each point. -/
theorem witness_ReservedTypeFields : (3 ≤ 3 ∧ 15 < 2 ^ 4) ∧ 65535 < 2 ^ 16 ∧
    (packet [0xF3]).Holds (fieldBits (StreamPoint.lookup .setup).width 3 ++ List.replicate 4 true) ∧
    (packet [0xFF, 0xFF]).Holds (fieldBits (StreamPoint.floor .setup).width 65535 ++ []) ∧
    (packet [3, 0]).Holds (fieldBits (StreamPoint.residue .setup).width 3 ++ []) ∧
    (packet [1, 0]).Holds (fieldBits StreamPoint.mapping.width 1 ++ []) :=
  ⟨by decide, by decide, holds_of (by decide +kernel), holds_of (by decide +kernel), holds_of (by decide +kernel),
    holds_of (by decide +kernel)⟩

/-! ### Setup elements -/

theorem witness_LookupNone : (tabled tables48 (packet [])).tab.codebooks = [] ++ [book1] ∧
    computeCodewords book1.lengths = some [0, 1] ∧
    computeCodewords ({ book1 with lengths := [some 1, some 1, some 1] } : Codebook).lengths = none ∧
    0 < (tabled tables48 (packet [])).tab.codebooks.length := by decide +kernel

/-- The VQ fields of V-CB5 and of V-CB6. -/
theorem witness_LookupSetup :
    (let f : LookupFields := ⟨0xE0100000, 0x5FF00000, 1, true, [0, 1]⟩;
      f.Legal .lattice { book3 with entries := 8 } ∧ computeCodewords book3.lengths = some [0, 1, 2, 3, 4, 5, 6, 7] ∧
      (packet (bitBytes f.encode)).Holds (f.encode ++ List.replicate 7 false)) ∧
    (let f : LookupFields := ⟨0, 0x62800001, 15, false, [1, 2, 3, 65535]⟩;
      f.Legal .direct book2 ∧ computeCodewords book2.lengths = some [0, 1] ∧
      (packet (bitBytes f.encode)).Holds (f.encode ++ List.replicate 3 false)) :=
  ⟨⟨⟨by decide, by decide +kernel, by decide⟩, by decide +kernel, holds_of (by decide +kernel)⟩,
    ⟨by decide, by decide +kernel, by decide⟩, by decide +kernel, holds_of (by decide +kernel)⟩

/-- Every field at its greatest value, with sixteen books. -/
theorem witness_FloorTypeZero : (255 < 2 ^ 8 ∧ 65535 < 2 ^ 16 ∧ 63 < 2 ^ 6) ∧
    (1 ≤ (List.replicate 16 255).length ∧ (List.replicate 16 255).length ≤ 2 ^ 4 ∧ ∀ b ∈ List.replicate 16 255, b < 2 ^ 8) ∧
    (packet (List.replicate 24 255)).Holds (fieldBits 8 255 ++ (fieldBits 16 65535 ++ (fieldBits 16 65535 ++ (fieldBits 6 63
      ++ (fieldBits 8 255 ++ (fieldBits 4 ((List.replicate 16 255).length - 1) ++ ((List.replicate 16 255).flatMap (fieldBits 8)
      ++ List.replicate 6 true))))))) :=
  ⟨by decide, by decide +kernel, holds_of (by decide +kernel)⟩

/-- The floor of V-SU11: one class of dimension 3 with one book. -/
def floorFields : FloorFields := ⟨[0], [⟨2, 0, 0, [1]⟩], 3, 7, [64, 32, 96]⟩

/-- A residue whose class has a book in passes 0 and 7. -/
def residueFields : ResidueFields :=
  ⟨0, 2 ^ 24 - 1, 3, 0, 0, [⟨1, some 16⟩], [[some 0, none, none, none, none, none, none, some 0]]⟩

/-- A mapping of two submaps and one coupling step over two channels. -/
def mappingFields : MappingFields := ⟨some 1, some [(1, 0)], [1, 0], [(0, 0, 0), (255, 0, 0)]⟩

theorem witness_TableElements :
    (floorFields.Legal tables48.codebooks.length ∧
      (packet (bitBytes floorFields.encode)).Holds (floorFields.encode ++ List.replicate 7 false)) ∧
    (residueFields.Legal tables48.codebooks.length ∧
      (packet (bitBytes residueFields.encode)).Holds (residueFields.encode ++ List.replicate 1 false)) ∧
    mappingFields.Legal { tables48 with channels := 2 } ∧
      (packet (bitBytes (mappingFields.encode 2))).Holds (mappingFields.encode 2 ++ List.replicate 6 false) := by
  refine ⟨⟨⟨by decide, by decide, by decide, fun c hc => ?_, by decide, by decide, by decide, by decide⟩,
    holds_of (by decide +kernel)⟩, ⟨⟨by decide, by decide, by decide, by decide, fun c hc => ?_, by decide, by decide +kernel,
      fun bs hbs b hb => ?_⟩, holds_of (by decide +kernel)⟩, ⟨fun v hv => ?_, fun l hl => ?_, by decide, by decide, by decide, by decide,
        by decide, by decide⟩, holds_of (by decide +kernel)⟩
  · obtain rfl := List.mem_singleton.mp hc
    exact ⟨by decide, by decide, by decide, by decide⟩
  · obtain rfl := List.mem_singleton.mp hc
    exact ⟨by decide, fun h e => by cases e; decide⟩
  · obtain rfl := List.mem_singleton.mp hbs
    simp at hb
    simp [hb, tables48]
  · cases hv; decide
  · cases hl; decide

theorem witness_FloorTables : distinctXs [0, 128, 64, 32, 96] = true ∧
    ∀ j ∈ [2, 3, 4], 2 ≤ j ∧ j < 5 ∧ [0, 128, 64, 32, 96].getD 0 0 < [0, 128, 64, 32, 96].getD j 0 ∧
      [0, 128, 64, 32, 96].getD j 0 < [0, 128, 64, 32, 96].getD 1 0 := by decide

/-! ### Audio elements -/

/-- A short packet, a long packet, and a packet without bits, each after its type bit. -/
theorem witness_AudioPacketCompletes : tables1.modes.length ≤ 64 ∧
    (tables1.modes[0]? = some ⟨false, 0⟩ ∧ (tabled tables1 (packet [0x00])).Holds
      (fieldBits (ilog (tables1.modes.length - 1)) 0 ++ ([] ++ List.replicate 7 false))) ∧
    (tables1.modes[1]? = some ⟨true, 0⟩ ∧ (tabled tables1 (packet [0x03])).Holds
      (fieldBits (ilog (tables1.modes.length - 1)) 1 ++ ([true, false] ++ List.replicate 5 false))) ∧
    (tabled tables1 (packet [])).Holds [] :=
  ⟨by decide, ⟨by decide, holds_of (by decide +kernel)⟩, ⟨by decide, holds_of (by decide +kernel)⟩, holds_of (by decide +kernel)⟩

/-- Mode number 3 of three modes. -/
theorem witness_BadModeNumber :
    let t := { tables1 with modes := List.replicate 3 ⟨false, 0⟩ };
    t.modes.length ≤ 64 ∧ t.modes.length ≤ 3 ∧ 3 < 2 ^ ilog (t.modes.length - 1) ∧
      (phase .decoding .pull (tabled t (packet [0x03]))).Holds
        (fieldBits (ilog (t.modes.length - 1)) 3 ++ List.replicate 6 false) :=
  ⟨by decide, by decide, by decide, holds_of (by decide +kernel)⟩

theorem witness_BadPacketType : (phase .decoding .pull (packet [0xFF])).PacketHere ∧ (phase .decoding .push (packet [])).PacketHere :=
  ⟨here_of (by decide +kernel), here_of (by decide +kernel)⟩

theorem short_lengths {ls : List (Option Nat)} (h : ls.all (fun x => x.elim true fun l => decide (1 ≤ l ∧ l ≤ 31)) = true) :
    ∀ l, some l ∈ ls → 1 ≤ l ∧ l ≤ 31 := fun l hl => by
  simpa using List.all_eq_true.mp h (some l) hl

/-- The second entry of the book of V-CB6, and the sixth of that of V-CB5, into two samples. -/
theorem witness_VectorDecode :
    (let s := { packet [1] with tab := { Tables.absent with codebooks := [book2] }, work := buffers 1 2 };
      0 < s.tab.codebooks.length ∧ s.tab.codebook 0 = book2 ∧ (∀ l, some l ∈ book2.lengths → 1 ≤ l ∧ l ≤ 31) ∧
      computeCodewords book2.lengths = some book2.codewords ∧ book2.lengths[1]? = some (some 1) ∧ book2.codewords[1]? = some 1 ∧
      ([some (0, 0), some (0, 1)].filterMap id).Nodup ∧ s.Holds (codewordBits 1 1 ++ List.replicate 7 false) ∧
      1 < (s.work.channelBuffer.getD 0 []).length) ∧
    (let s := { packet [5] with tab := { Tables.absent with codebooks := [book3] }, work := buffers 1 2 };
      (∀ l, some l ∈ book3.lengths → 1 ≤ l ∧ l ≤ 31) ∧ computeCodewords book3.lengths = some book3.codewords ∧
      book3.lengths[5]? = some (some 3) ∧ book3.codewords[5]? = some 5 ∧
      s.Holds (codewordBits 3 5 ++ List.replicate 5 false)) :=
  ⟨⟨by decide, rfl, short_lengths (by decide), by decide +kernel, rfl, rfl, by decide, holds_of (by decide +kernel), by decide⟩,
    short_lengths (by decide), by decide +kernel, rfl, rfl, holds_of (by decide +kernel)⟩

/-- An unused floor; and a floor of two points with the greatest values. -/
theorem witness_FloorDecode :
    let s := fun bytes => { tabled tables48 (packet bytes) with work := buffers 1 32 };
    (0 < (s []).tab.channels ∧ 0 < (s []).tab.floors.length ∧ (s []).PacketHere) ∧
    (s [0xFE]).Holds ([false] ++ List.replicate 7 true) ∧
    (((s []).tab.floor 0).multiplier, 256, 8) ∈ [(1, 256, 8), (2, 128, 7), (3, 86, 7), (4, 64, 6)] ∧
    ((s []).tab.floor 0).partitionClass = [] ∧ ((s []).tab.floor 0).xs.length = 2 ∧ 255 < 2 ^ 8 ∧
    (s [0xFF, 0xFF, 0xFF]).Holds ([true] ++ (fieldBits 8 255 ++ (fieldBits 8 255 ++ List.replicate 7 true))) :=
  ⟨⟨by decide, by decide, here_of (by decide +kernel)⟩, holds_of (by decide +kernel), by decide, by decide, by decide, by decide,
    holds_of (by decide +kernel)⟩

/-- Two channels of which one is decoded, a submap without a decoded channel, and partitions of 4 and 3 values in vectors of 2,
alone and interleaved. -/
theorem witness_ResidueDecodeCompletes :
    (let s := { tabled (tables4 .type2 2) (packet [4]) with work := { buffers 2 4 with zeroChannel := [true, false] } };
      0 < s.tab.mappings.length ∧ 0 < (s.tab.mapping 0).submaps ∧ s.tab.blocksize false / 2 = 4 ∧
      (List.range s.tab.channels).filter (fun ch => (s.tab.mapping 0).mux.getD ch 0 == 0) = [0, 1] ∧ s.PacketHere ∧
      ∀ ch ∈ [0, 1], ({ s with work.zeroChannel := [true, true] } : State).work.zeroChannel.getD ch true = true) ∧
    ([((0 : Nat), true), (1, false)].map Prod.fst).Nodup ∧ ([((0 : Nat), true), (1, false)] : List (Nat × Bool))[1]? = some (1, false) ∧
    (let s := { packet [1] with tab := { Tables.absent with codebooks := [book2] }, work := buffers 2 2 };
      0 < s.tab.codebooks.length ∧ s.tab.codebook 0 = book2 ∧ book2.lookupType ≠ .none ∧ book2.dimensions = 2 ∧
      (∀ l, some l ∈ book2.lengths → 1 ≤ l ∧ l ≤ 31) ∧ computeCodewords book2.lengths = some book2.codewords ∧
      (∀ e ∈ [1, 0], ∃ len, book2.lengths[e]? = some (some len) ∧ e < book2.codewords.length) ∧
      s.Holds ([1, 0].flatMap (fun e => codewordBits (((book2.lengths[e]?).getD none).getD 0) (book2.codewords.getD e 0))
        ++ List.replicate 6 false) ∧
      [1, 0].length = 4 / 2 ∧ (3 ≤ [1, 0].length * 2 ∧ [1, 0].length * 2 < 3 + 2) ∧
      1 < (s.work.channelBuffer.getD 0 []).length) :=
  ⟨⟨by decide, by decide, by decide, by decide, here_of (by decide +kernel), by decide⟩, by decide, rfl,
    by decide, rfl, by decide, rfl, short_lengths (by decide), by decide +kernel,
    fun e he => by simp only [List.mem_cons, List.not_mem_nil, or_false] at he; rcases he with rfl | rfl <;> exact ⟨1, rfl, by decide⟩,
    holds_of (by decide +kernel), by decide, by decide, by decide⟩

/-! ### The datapath -/

theorem witness_ByteSource : (source []).src.len ≤ (source []).src.pos ∧ (source [1]).src.pos < (source [1]).src.len ∧
    (source [1]).src.len ≤ 1 ∧ (0 : Word) < (source [1]).src.len := by decide

/-- All 32 bits, and none. -/
theorem witness_BitOrder : (packet [1, 2, 3, 4]).Holds ([1, 2, 3, 4].flatMap byteBits) ∧
    32 ≤ ([1, 2, 3, (4 : Byte)].flatMap byteBits).length := ⟨holds_of (by decide +kernel), by decide +kernel⟩

/-- One bit more than the packet holds; 32 bits where 24 are left, and where 16 are; and a reader that ran out. -/
theorem witness_BitsExhausted : (packet [0xFF]).Holds (byteBits 0xFF) ∧ (9 ≤ 32 ∧ (byteBits 0xFF).length < 9) ∧
    (packet [1, 2, 3]).Holds ([1, 2, 3].flatMap byteBits) ∧
    (24 < 32 ∧ ([1, 2, (3 : Byte)].flatMap byteBits).length = 24 ∧ ([1, (2 : Byte)].flatMap byteBits).length = 16) ∧
    ({ packet [] with rd.validBits := -1 } : State).rd.validBits < 0 :=
  ⟨holds_of (by decide +kernel), by decide, holds_of (by decide +kernel), by decide +kernel, by decide⟩

theorem witness_LookupRoot : 2 ^ 24 - 1 < 2 ^ 24 ∧ lookup1Values (2 ^ 24 - 1) 2 = 4095 ∧ lookup1Values (2 ^ 24 - 1) 24 = 1 := by
  decide +kernel

theorem witness_CanonicalCode :
    let s := { packet [0x1D] with tab := { Tables.absent with codebooks := [book3] } };
    (∀ l, some l ∈ (s.tab.codebook 0).lengths → 1 ≤ l ∧ l ≤ 31) ∧
    computeCodewords (s.tab.codebook 0).lengths = some (s.tab.codebook 0).codewords ∧
    (s.tab.codebook 0).lengths[7]? = some (some 3) ∧ (s.tab.codebook 0).codewords[7]? = some 7 ∧
    ({ packet [0x07] with tab := s.tab } : State).Holds (codewordBits 3 7 ++ List.replicate 5 false) :=
  ⟨short_lengths (by decide), by decide +kernel, rfl, rfl, holds_of (by decide +kernel)⟩

theorem witness_FloorPointOneToOne : (0 ≤ (0 : Int) ∧ (0 : Int) < 256) ∧ (0 ≤ (255 : Int) ∧ (255 : Int) < 256) := by decide

theorem witness_InverseCoupling : (0 : Nat) ≠ 1 ∧ 0 < (buffers 2 4).channelBuffer.length ∧ 1 < (buffers 2 4).channelBuffer.length ∧
    4 ≤ ((buffers 2 4).channelBuffer.getD 0 []).length ∧ 4 ≤ ((buffers 2 4).channelBuffer.getD 1 []).length := by decide

/-- A priming frame, a lapped one, one whose lap has no window, and one trimmed to 17 samples before its right boundary. -/
theorem witness_FinishFrame :
    let s := fun n => { opened48 with ctl.previousLength := n };
    (∀ n ∈ [0, 16, 32], ∀ b ∈ (s n).work.channelBuffer, 0 + (s n).ctl.previousLength ≤ b.length ∧ 64 ≤ b.length ∧ 17 ≤ b.length) ∧
    (∀ b ∈ opened48.work.previousWindow, 64 - 32 ≤ b.length ∧ 17 - 32 ≤ b.length) ∧ 17 ≤ 32 ∧
    opened48.work.previousWindow.length = opened48.work.channelBuffer.length ∧
    getWindow opened48.tab 16 = none ∧ (getWindow opened48.tab 32).isSome = true := by decide +kernel

/-- A long block whose packet ends where the page says 1024; a last page that ends before the frame does, and before it begins; the
priming frame; a packet whose end is not known; and discards of all and of a part of a frame. -/
theorem witness_KnownLocation :
    let cur := { PageCursor.reset with lastSegWhich := 0, endSegWithKnownLoc := 0, knownLocForPacket := 1024 };
    let c := { Control.reset with firstDecode := false };
    let g := geometry 2048 256 true true true;
    (discardStart c 2048 g = (c, 0) ∧ cur.lastSegWhich = cur.endSegWithKnownLoc ∧
      ¬(c.currentLocValid = true ∧ pageLast cur.pageFlag = true ∧
        cur.knownLocForPacket < c.currentLoc + BitVec.ofNat 32 (g.rightEnd - 0))) ∧
    (pageLast 4 = true ∧ (1024 : Word) < 0 + BitVec.ofNat 32 (g.rightEnd - 0) ∧
      (1024 : Word) < 2000 + BitVec.ofNat 32 (g.rightEnd - 0)) ∧
    Control.reset.firstDecode = true ∧ PageCursor.reset.lastSegWhich ≠ PageCursor.reset.endSegWithKnownLoc ∧
    g.leftStart ≤ g.rightStart ∧
    ([448, 1500].map fun d => (discardStart { c with discardSamplesDeferred := d } 2048 g).2) = [448, 1024] := by decide +kernel

/-! ### The whole machine -/

theorem witness_HostMemoryWrite : (awaiting [.memWrite 0xFFFFFFFF 7] opened48).pending = .memWrite 0xFFFFFFFF 7 :: [] ∧
    Memory.wf opened48.mem = true := ⟨rfl, by decide +kernel⟩

theorem witness_CommandFrame : ∃ t, exec .streamLength opened48 = .next t := ⟨_, rfl⟩

theorem witness_StateTransitions : contextOf .close = .cmd ∧ ∃ t, exec .close opened48 = .next t := ⟨by decide, _, rfl⟩

theorem inv48 : opened48.Inv where
  mem := by decide +kernel
  cur := ⟨by decide +kernel, by decide, by decide, by decide, by decide, by decide⟩
  src := by decide
  api := ⟨by decide, by decide, by decide, by decide⟩
  info := fun _ => ⟨by decide, by decide, by decide⟩

theorem witness_StepKeepsInv : (awaiting [.regWrite 0x000 4 4] opened48).Inv ∧
    ∃ t, step (awaiting [.regWrite 0x000 4 4] opened48) = .next t :=
  ⟨⟨inv48.mem, inv48.cur, inv48.src, inv48.api, inv48.info⟩, _, rfl⟩

end Sys2Proof.Tests
end

section
/-! SUPPORT. SEEK (48_frame_control.md R548, R549): what the length scan can change, how the command branches on the length, and
what each end of a seek leaves. -/

namespace Sys2Proof.Proofs

open Sys2Proof Sys2Proof.Machine

/-! ### The length scan -/

/-- What `stream_length()` can change: the position with its end flag, the pending code and the cached length with the last page it
rests on (48_frame_control.md R552). -/
theorem streamLength_frame {s u : State} {length : Word} (h : streamLength s = .ok length u) : u = { s with
    src.pos := u.src.pos, src.eof := u.src.eof, ctl.error := u.ctl.error, ctl.totalSamples := u.ctl.totalSamples
    ctl.totalSamplesKnown := u.ctl.totalSamplesKnown, ctl.pLast := u.ctl.pLast } := by
  have hv : lengthView u = lengthView s := streamLength_view.ok h
  exact congrArg (fun v : State => { v with
    src.pos := u.src.pos, src.eof := u.src.eof, ctl.error := u.ctl.error, ctl.totalSamples := u.ctl.totalSamples
    ctl.totalSamplesKnown := u.ctl.totalSamplesKnown, ctl.pLast := u.ctl.pLast }) hv

/-! ### The command -/

theorem takeError_seekWithoutLength (s : State) :
    takeError .seekWithoutLength s = { s with ctl.error := 7, regs.result := .error } := rfl

theorem takeError_seekInvalid (s : State) : takeError .seekInvalid s = { s with ctl.error := 11, regs.result := .error } := rfl

theorem takeError_seekFailed (s : State) : takeError .seekFailed s = { s with ctl.error := 37, regs.result := .error } := rfl

/-- A command that its state and its api allow runs its body (60_exceptions.md R610). -/
theorem runCommand_body {i : Instr} {body : State → State} {s : State} (ha : commandAllowed i s.ctl.state = true)
    (hapi : commandApi i = some s.ctl.api) : runCommand i body s = body s := by
  simp [runCommand, ha, hapi]

/-- SEEK where it is legal, once the length is known (48_frame_control.md R548). -/
theorem exec_seek {s u : State} {length : Word} (hs : s.ctl.state = .decoding ∨ s.ctl.state = .eof) (ha : s.ctl.api = .pull)
    (he : s.ctl.setupEndsPage = true) (hl : streamLength s = .ok length u) :
    exec .seek s = .next (if length = 0 then takeError .seekWithoutLength u
      else if length < s.regs.arg0 then takeError .seekInvalid u else seekTo s.regs.arg0 length u) := by
  have allowed : commandAllowed .seek s.ctl.state = true := by
    rcases hs with hs | hs <;> rw [hs] <;> rfl
  have api : commandApi .seek = some s.ctl.api := by rw [ha]; rfl
  have hb : exec .seek s = .next (seekBody s) := congrArg Host.Outcome.next (runCommand_body allowed api)
  rw [hb]
  simp [seekBody, he, hl]

/-! ### The end of a seek -/

/-- A seek answers OK just where it landed (48_frame_control.md R548). -/
theorem landing_of_seekEnd_ok {policy : Option DecodePoint} {target : Word} {s : State}
    (h : (seekEnd policy target s).regs.result = .ok) :
    ∃ p, (endState rewind s).landsAt target p = true ∧ seekEnd policy target s = (endState rewind s).landed p := by
  obtain ⟨p, -, hp, he⟩ | ⟨-, he⟩ := seekEnd_cases policy target s
  · exact ⟨p, hp, he⟩
  · rw [he, takeError_seekFailed] at h
    cases h

/-- A seek that does not answer OK leaves the stream rewound with `seek_failed` (48_frame_control.md R548). -/
theorem seekEnd_failed {policy : Option DecodePoint} {target : Word} {s : State}
    (h : (seekEnd policy target s).regs.result ≠ .ok) :
    seekEnd policy target s = { endState rewind s with ctl.error := 37, regs.result := .error } := by
  obtain ⟨p, -, -, he⟩ | ⟨-, he⟩ := seekEnd_cases policy target s
  · exact absurd (by rw [he]; rfl) h
  · rw [he, takeError_seekFailed]

theorem seekEnd_none (target : Word) (s : State) : (seekEnd none target s).regs.result = .error := by
  obtain ⟨p, hp, -⟩ | ⟨-, he⟩ := seekEnd_cases none target s
  · cases hp
  · rw [he, takeError_seekFailed]

/-- A policy's answer that meets the postcondition is taken (48_frame_control.md R548). -/
theorem seekEnd_some {p : DecodePoint} {target : Word} {s : State} (h : (endState rewind s).landsAt target p = true) :
    seekEnd (some p) target s = (endState rewind s).landed p := by
  obtain ⟨q, hq, -, he⟩ | ⟨hn, -⟩ := seekEnd_cases (some p) target s
  · cases hq
    exact he
  · exact absurd h (by simp [hn p rfl])

/-- What every seek leaves, landed or failed: the decode in DECODING with no output, on the same stream and tables. -/
theorem seekEnd_frame (policy : Option DecodePoint) (target : Word) (s : State) :
    let t := seekEnd policy target s
    t.ctl.state = .decoding ∧ t.ctl.outLen = 0 ∧ t.tab = s.tab ∧ t.mem = s.mem ∧ t.src.len = s.src.len ∧
      t.regs = { s.regs with result := t.regs.result } := by
  obtain ⟨p, -, -, he⟩ | ⟨-, he⟩ := seekEnd_cases policy target s <;> rw [he, rewind_end] <;>
    exact ⟨rfl, rfl, rfl, rfl, rfl, rfl⟩

/-- What an accepted landing is, said of the machine before the rewind, which moves only the position
(48_frame_control.md R548, R549). -/
theorem landsAt_rewind_iff {s : State} {target : Word} {p : DecodePoint} : (endState rewind s).landsAt target p = true ↔
    p.currentLoc ≤ target ∧
      (p.rd.inRange = true ∧ p.cur.InRange ∧ p.pos ≤ s.src.len ∧ (p.eof = true → p.pos = s.src.len) ∧
        p.discardSamplesDeferred ≤ s.tab.blocksize true ∧ p.previousLength ≤ s.tab.blocksize true / 2 ∧
        p.previousWindow.map List.length = s.work.previousWindow.map List.length) ∧
      (p.error = s.ctl.error ∨ p.error ∈ ([10, 21, 30, 31, 32, 36] : List Byte)) ∧
      ((endState rewind s).landed p).remaining = (endState rewind s).remaining.drop p.currentLoc.toNat := by
  have hlen : (endState rewind s).src.len = s.src.len := by rw [rewind_end]
  have htab : (endState rewind s).tab = s.tab := by rw [rewind_end]
  have hwork : (endState rewind s).work = s.work := by rw [rewind_end]
  have herror : (endState rewind s).ctl.error = s.ctl.error := by rw [rewind_end]
  rw [landsAt_iff, holdsPoint_iff, leavesCode_iff, hlen, htab, hwork, herror]

/-! ### The statement -/

/-- Settles O18: the scan's frame carries `s` to the machine the policy sees, and each end of the seek is one of the two that
`seekEnd_cases` gives. -/
theorem seekOutcome : Obligations.SeekOutcome := by
  intro s hs ha he
  obtain ⟨length, u, hl⟩ := returns_of_never streamLength_raises s
  have hframe := streamLength_frame hl
  have hstate : u.ctl.state = s.ctl.state := by rw [hframe]
  have hregs : u.regs = s.regs := by rw [hframe]
  have htab : u.tab = s.tab := by rw [hframe]
  have hmem : u.mem = s.mem := by rw [hframe]
  have hwork : u.work = s.work := by rw [hframe]
  have hlen : u.src.len = s.src.len := by rw [hframe]
  have hfirst : u.src.firstAudioPageOffset = s.src.firstAudioPageOffset := by rw [hframe]
  have hexec := exec_seek hs ha he hl
  refine ⟨length, u, endState rewind u, hl, hstate, hregs, ?_, ?_, ?_, ?_, ?_⟩
  · intro h0
    rw [hexec, if_pos h0, takeError_seekWithoutLength]
  · intro h0 hpast
    rw [hexec, if_neg h0, if_pos hpast, takeError_seekInvalid]
  · rw [← hlen, ← hfirst]
    exact rewind_end u
  · intro h0 hin
    rw [hexec, if_neg h0, if_neg (BitVec.not_lt.2 hin), seekTo]
  rintro answer t rfl
  obtain ⟨hdecoding, hout, htab', hmem', hlen', hregs'⟩ := seekEnd_frame answer s.regs.arg0 u
  refine ⟨hdecoding, hout, htab'.trans htab, hmem'.trans hmem, hlen'.trans hlen, hregs ▸ hregs', ?_, seekEnd_failed, ?_, ?_⟩
  · intro hok
    obtain ⟨p, hp, hend⟩ := landing_of_seekEnd_ok hok
    obtain ⟨hloc, ⟨-, -, -, -, hdiscard, hprevious, -⟩, hcode, hsame⟩ := landsAt_rewind_iff.1 hp
    rw [hend, ← htab]
    exact ⟨rfl, hloc, hdiscard, hprevious, hcode, hsame⟩
  · rintro rfl
    exact seekEnd_none _ u
  · rintro p rfl hloc hrd hcur hpos heof hdiscard hprevious hcode hwindow hsame
    rw [← hlen] at hpos heof
    rw [← htab] at hdiscard hprevious
    rw [← hwork] at hwindow
    rw [seekEnd_some (landsAt_rewind_iff.2 ⟨hloc, ⟨hrd, hcur, hpos, heof, hdiscard, hprevious, hwindow⟩, hcode, hsame⟩)]
    exact ⟨rfl, rfl⟩

end Sys2Proof.Proofs
end

section
/-! SUPPORT. Every step keeps the safe states: the selector read at a point, each instruction, and each event. -/

namespace Sys2Proof.Proofs

open Sys2Proof Sys2Proof.Machine

/-! ### Selectors -/

/-- Reading a selector changes no more than reading setup fields does. -/
theorem fetchSelector_keeps {R : State → State → Prop} (F : Setting R) (p : StreamPoint) : Keeps R (fetchSelector p) := by
  have C := F.toComposes
  match p with
  | .page =>
    exact keeps_bind C (markPageStart_keeps F.toReading) fun _ => keeps_bind C (get32_keeps F.toBytes) fun _ => keeps_pure C _
  | .header _ => exact keeps_bind C (get8Packet_keeps F.toReading) fun _ => keeps_pure C _
  | .audio => exact getBits_keeps F.toReading 1
  | .lookup .setup => exact setupBits_keeps F 4
  | .lookup (.vector _ _) => exact keeps_bind C (keeps_get C) fun _ => keeps_pure C _
  | .floor .setup => exact setupBits_keeps F 16
  | .floor (.decode _ _) => exact keeps_pure C _
  | .residue .setup => exact setupBits_keeps F 16
  | .residue (.decode _ _ _) => exact keeps_bind C (keeps_get C) fun _ => keeps_pure C _
  | .mapping => exact setupBits_keeps F 16

/-! ### Instructions -/

theorem runLookup_inv (lt : LookupType) (site : LookupSite) {s t : State} (h : s.Inv) (he : runLookup lt site s = .next t) :
    t.Inv := by
  have C := inv_setting.toComposes
  cases site with
  | setup => exact runElement_inv (lookupSetup_keeps inv_setting lt) h he
  | vector book slots =>
    exact runOnEntry_inv (keeps_bind C (decodeVqAs_keeps inv_setting.toDecoding lt book slots) fun _ => keeps_pure C _) h he

theorem runResidue_inv (ty : ResidueType) (site : ResidueSite) {s t : State} (h : s.Inv) (he : runResidue ty site s = .next t) :
    t.Inv := by
  have C := inv_setting.toComposes
  cases site with
  | setup => exact runElement_inv (residueSetupAs_keeps inv_setting ty) h he
  | decode long mapping submap =>
    exact runOnEntry_inv (keeps_bind C (residueDecodeAs_keeps inv_setting.toDecoding ty _ submap _) fun _ => keeps_pure C _) h he

theorem execFloorType1_inv (site : FloorSite) {s t : State} (h : s.Inv) (he : execFloorType1 site s = .next t) : t.Inv := by
  cases site with
  | setup => exact runElement_inv (floor1Setup_keeps inv_setting) h he
  | decode channel floor => exact runOnEntry_inv (floor1Decode_keeps inv_setting.toDecoding channel _) h he

theorem execAudioPacket_inv {s t : State} (h : s.Inv) (he : execAudioPacket s = .next t) : t.Inv := by
  unfold execAudioPacket at he
  split at he
  · next f u hr =>
    cases he
    exact deliverFrame_inv f ((audioBody_keeps inv_booking).ok hr h)
  · next e u hr =>
    cases he
    exact failFrame_inv e ((audioBody_keeps inv_booking).error hr h)

theorem decoding_or_eof {i : Instr} {st : TopState} (h : commandAllowed i st = true)
    (hi : i = .decodeFrame ∨ i = .seek ∨ i = .seekStart) : st = .decoding ∨ st = .eof := by
  rcases hi with rfl | rfl | rfl <;> simpa [commandAllowed] using h

theorem exec_inv {i : Instr} {s t : State} (h : s.Inv) (he : exec i s = .next t) : t.Inv := by
  have R := inv_setting.toReading
  cases i with
  | openPull => exact Host.Outcome.next.inj he ▸ runCommand_inv _ h fun _ _ => openPullBody_inv h
  | openPush =>
    exact Host.Outcome.next.inj he ▸ runCommand_inv _ h fun hs _ => openPushBody_inv h (by simpa [commandAllowed] using hs)
  | pushDecode => exact Host.Outcome.next.inj he ▸ runCommand_inv _ h fun _ _ => pushDecodeBody_inv h
  | decodeFrame =>
    exact Host.Outcome.next.inj he ▸ runCommand_inv _ h fun hs ha => decodeFrameBody_inv h (ha _ rfl) (decoding_or_eof hs (by simp))
  | getInfo =>
    exact Host.Outcome.next.inj he ▸ runCommand_inv _ h fun _ _ => h.of_core ⟨h.mem, h.cur, h.src⟩ rfl rfl rfl rfl
  | seek =>
    exact Host.Outcome.next.inj he ▸ runCommand_inv _ h fun hs ha => seekBody_inv h (ha _ rfl) (decoding_or_eof hs (by simp))
  | seekStart =>
    exact Host.Outcome.next.inj he ▸ runCommand_inv _ h fun hs ha => seekStartBody_inv h (ha _ rfl) (decoding_or_eof hs (by simp))
  | streamLength => exact Host.Outcome.next.inj he ▸ runCommand_inv _ h fun _ _ => streamLengthBody_inv h
  | getError =>
    exact Host.Outcome.next.inj he ▸ runCommand_inv _ h fun _ _ => h.of_core ⟨h.mem, h.cur, h.src⟩ rfl rfl rfl rfl
  | close => exact Host.Outcome.next.inj he ▸ runCommand_inv _ h fun _ _ => closeBody_inv h
  | illegalCommand word => exact Host.Outcome.next.inj he ▸ takeError_inv _ h
  | oggPage => exact runElement_inv (startPageNoCapture_keeps R) h he
  | hdrIdentification => exact runElement_inv (identificationBody_keeps inv_setting) h he
  | hdrComment => exact runElement_inv (commentBody_keeps inv_setting) h he
  | hdrSetup => exact runElement_inv (setupBody_keeps inv_setting) h he
  | audioPacket => exact execAudioPacket_inv h he
  | badPacketType => exact runElement_inv (keeps_ite (fun _ => drainPacket_keeps R) fun _ => flushPacket_keeps R) h he
  | lookupNone site => exact runLookup_inv _ site h he
  | lookupLattice site => exact runLookup_inv _ site h he
  | lookupDirect site => exact runLookup_inv _ site h he
  | floorType0 => exact runElement_inv (floor0Setup_keeps inv_setting) h he
  | floorType1 site => exact execFloorType1_inv site h he
  | residueType0 site => exact runResidue_inv _ site h he
  | residueType1 site => exact runResidue_inv _ site h he
  | residueType2 site => exact runResidue_inv _ site h he
  | mappingType0 => exact runElement_inv (mapping0Setup_keeps inv_setting) h he

/-! ### Events -/

theorem runPoint_inv (p : StreamPoint) {s t : State} (h : s.Inv) (he : runPoint p s = .next t) : t.Inv := by
  unfold runPoint at he
  split at he
  · next e u hr =>
    cases he
    exact failFrame_inv e ((fetchSelector_keeps inv_setting p).error hr h)
  · next v u hr =>
    have hu := (fetchSelector_keeps inv_setting p).ok hr h
    split at he
    · exact exec_inv hu he
    · cases he
      exact failFrame_inv _ hu

theorem writeReg_inv (offset : Nat) (v : Word) {s : State} (h : s.Inv) : (s.writeReg offset v).Inv := by
  unfold State.writeReg
  split
  · exact h.of_core ⟨h.mem, h.cur, h.src⟩ rfl rfl rfl rfl
  split
  · exact h.of_core ⟨h.mem, h.cur, h.src⟩ rfl rfl rfl rfl
  · exact h

theorem pending_inv (rest : List Event) {s : State} (h : s.Inv) : ({ s with pending := rest } : State).Inv :=
  h.of_core ⟨h.mem, h.cur, h.src⟩ rfl rfl rfl rfl

/-- Serving an event that goes on keeps the safe states. -/
theorem serve_inv {e : Event} {s t : State} (h : s.Inv) (he : serve e s = .next t) : t.Inv := by
  cases e with
  | regWrite offset bytes v =>
    simp only [serve] at he
    split at he
    · cases he
    split at he
    · cases he
    split at he
    · exact exec_inv h he
    · cases he
      exact writeReg_inv offset v h
  | regRead offset bytes =>
    simp only [serve] at he
    split at he
    · cases he
    split at he
    · cases he
    cases he
    exact h.of_core ⟨h.mem, h.cur, h.src⟩ rfl rfl rfl rfl
  | memWrite a v =>
    cases he
    exact h.of_core ⟨Memory.write_wf h.mem, h.cur, h.src⟩ rfl rfl rfl rfl
  | hardReset =>
    cases he
    exact hardReset_inv h.mem
  | element p => exact runPoint_inv p h he

/-- Settles O59: taking the served event from the list changes no part of the invariant, and serving it keeps them all. -/
theorem stepKeepsInv : Obligations.StepKeepsInv := by
  intro s t h hs
  unfold step at hs
  split at hs
  · cases hs
    exact h
  · exact serve_inv (pending_inv _ h) hs

end Sys2Proof.Proofs
end

section
/-! SUPPORT. What no instruction changes: host memory, the parameters, the arguments, the pending accesses and the read latch; each
result register but for the instructions that name it; and the tables under the commands that only read them. -/

namespace Sys2Proof.Proofs

open Sys2Proof Sys2Proof.Machine

/-! ### The frame of an instruction -/

/-- The instructions that write RET2 (10_state.md R68). -/
def ret2Writers : List Instr := [Instr.getInfo, .pushDecode, .close]

/-- The instructions that write RET1 (10_state.md R68). -/
def ret1Writers : List Instr := [Instr.getInfo, .pushDecode, .decodeFrame, .close]

/-- The instructions that write RET0 (10_state.md R68). -/
def ret0Writers : List Instr := [Instr.getInfo, .pushDecode, .decodeFrame, .openPush, .streamLength, .getError, .close]

/-- The commands that only read the configuration tables (10_state.md R52). -/
def tableReaders : List Instr := [Instr.pushDecode, .decodeFrame, .getInfo, .seek, .seekStart, .streamLength, .getError]

/-- The machine with everything taken out that `i` may write. -/
def frameView (i : Instr) (s : State) : State :=
  { State.reset with
    mem := s.mem, params := s.params, pending := s.pending, readData := s.readData
    tab := if i ∈ tableReaders then s.tab else Tables.absent
    regs :=
      { arg0 := s.regs.arg0, arg1 := s.regs.arg1, result := .none
        ret0 := if i ∈ ret0Writers then 0 else s.regs.ret0
        ret1 := if i ∈ ret1Writers then 0 else s.regs.ret1
        ret2 := if i ∈ ret2Writers then 0 else s.regs.ret2 } }

/-- The machine with everything taken out that reading and decoding packets can change; the top-level state stays. -/
def insideView (s : State) : State :=
  { s with
    rd := BitReader.reset, cur := PageCursor.reset, src := Source.reset, work := Work.reset
    ctl := { Control.reset with state := s.ctl.state } }

/-- The two states agree on all that `i` may not write. -/
abbrev Leaves (i : Instr) : State → State → Prop := Same (frameView i)

/-- Two states that agree on a view agree on every coarser one. -/
theorem same_coarser {β : Type} {view : State → State} {coarse : State → β} {s t : State} (h : Same view s t)
    (hc : ∀ s, coarse (view s) = coarse s) : Same coarse s t :=
  (hc t).symm.trans ((congrArg coarse h).trans (hc s))

theorem keeps_coarser {α β : Type} {view : State → State} {coarse : State → β} {m : M α} (h : Keeps (Same view) m)
    (hc : ∀ s, coarse (view s) = coarse s) : Keeps (Same coarse) m := fun s => same_coarser (h s) hc

variable {i : Instr} {s t u : State}

theorem Leaves.trans (h : Leaves i s t) (k : Leaves i t u) : Leaves i s u := (same_composes _).trans h k

theorem Leaves.ret2 (h : Leaves i s t) (hi : i ∉ ret2Writers) : t.regs.ret2 = s.regs.ret2 := by
  have h2 := congrArg (fun v : State => v.regs.ret2) h
  simpa only [frameView, if_neg hi] using h2

theorem Leaves.ret1 (h : Leaves i s t) (hi : i ∉ ret1Writers) : t.regs.ret1 = s.regs.ret1 := by
  have h1 := congrArg (fun v : State => v.regs.ret1) h
  simpa only [frameView, if_neg hi] using h1

theorem Leaves.ret0 (h : Leaves i s t) (hi : i ∉ ret0Writers) : t.regs.ret0 = s.regs.ret0 := by
  have h0 := congrArg (fun v : State => v.regs.ret0) h
  simpa only [frameView, if_neg hi] using h0

theorem Leaves.tab (h : Leaves i s t) (hi : i ∈ tableReaders) : t.tab = s.tab := by
  have ht := congrArg State.tab h
  simpa only [frameView, if_pos hi] using ht

/-! ### Datapath steps -/

/-- Parsing the headers writes the tables, and nothing else that the frame of an instruction speaks of. -/
theorem frameView_setupView (hi : i ∉ tableReaders) (s : State) : frameView i (setupView s) = frameView i s := by
  simp only [frameView, setupView, if_neg hi]

theorem insideView_moving : Moving (Same insideView) where
  toComposes := same_composes insideView
  hitEnd _ _ := rfl
  advance _ _ := rfl
  mark _ := rfl
  reader _ _ := rfl
  take _ := rfl
  which _ := rfl
  ended _ := rfl
  opened _ := rfl
  byteTaken _ := rfl
  latch _ _ _ _ _ := rfl
  latchPart _ _ _ _ _ := rfl
  noted _ _ := rfl
  moveEnd _ := rfl
  move _ _ _ := rfl

theorem leaves_of_inside (h : Same insideView s t) : Leaves i s t := same_coarser h fun _ => rfl

theorem inHeaders_of_inside (h : Same insideView s t) : t.inHeaders = s.inHeaders :=
  same_coarser (coarse := State.inHeaders) h fun _ => rfl

theorem skipTail_inside : Keeps (Same insideView) skipTail :=
  keeps_bind insideView_moving.toComposes insideView_moving.opened fun _ => flushPacket_keeps insideView_moving.toReading

theorem rescan_inside : Keeps (Same insideView) rescan := by
  have C := insideView_moving.toComposes
  refine keeps_bind C (keeps_get C) fun s => keeps_bind C (setPos_keeps insideView_moving.toScanning _) fun _ => ?_
  exact keeps_bind C (findPage_keeps insideView_moving.toScanning) fun _ => keeps_bind C (fun _ => rfl) fun _ => fun _ => rfl

theorem recover_inside (e : ErrCode) : Keeps (Same insideView) (recover e) := by
  unfold recover
  split
  · exact rescan_inside
  · exact rescan_inside
  · exact skipTail_inside
  · exact keeps_pure insideView_moving.toComposes _

theorem audioBody_inside : Keeps (Same insideView) audioBody :=
  keeps_coarser (audioBody_keeps audioView_booking) fun _ => rfl

theorem decodePacket_inside : Keeps (Same insideView) decodePacket :=
  keeps_coarser (decodePacket_keeps audioView_booking) fun _ => rfl

theorem skipPushed_inside (e : ErrCode) : Keeps (Same insideView) (skipPushed e) := by
  have D := drainPacket_keeps insideView_moving.toReading
  exact keeps_ite (fun _ => keeps_bind insideView_moving.toComposes insideView_moving.opened fun _ => D) fun _ => D

theorem deliverFrame_leaves (f : Frame) (s : State) : Leaves i s (deliverFrame f s).2 :=
  same_coarser (view := outputView) (deliverFrame_view f s) fun _ => rfl

/-! ### Errors -/

theorem signal_iff {e : ErrCode} {headers : Bool} : e.classIn headers = .signal ↔ e = .needMoreData := by
  cases e <;> cases headers <;> decide

/-- Taking an error writes RET0 only for the signal, and the tables only for a code that fails an open. -/
theorem takeError_leaves {e : ErrCode} (hsignal : e = .needMoreData → i ∈ ret0Writers)
    (hfatal : i ∈ tableReaders → e.classIn s.inHeaders ≠ .setup ∧ e.classIn s.inHeaders ≠ .resource) :
    Leaves i s (takeError e s) := by
  have discarded (hi : i ∉ tableReaders) : Leaves i s { s.discardTables with ctl.state := .error } := by
    simp only [Same, frameView, if_neg hi, State.discardTables]
  unfold takeError
  cases hc : e.classIn s.inHeaders with
  | setup => exact (discarded fun hi => (hfatal hi).1 hc).trans rfl
  | resource => exact (discarded fun hi => (hfatal hi).2 hc).trans rfl
  | stream =>
    simp only []
    split
    · rfl
    split
    · rfl
    · rfl
  | misuse => rfl
  | command => rfl
  | signal =>
    have hi : i ∈ ret0Writers := hsignal (signal_iff.1 hc)
    simp [Same, frameView, hi]

theorem openCode_not_signal {e : ErrCode} (h : OpenCode e) : e ≠ .needMoreData := by
  rintro rfl
  rcases h with h | h <;> cases h

theorem audio_open {e : ErrCode} (h : AudioCode e) : OpenCode e := by
  rcases h with h | rfl | rfl
  · exact framer_open h
  · exact .inl rfl
  · exact .inl rfl

/-- The failure of a step that reads headers or packets. -/
theorem takeError_open_leaves {e : ErrCode} (he : OpenCode e) (hi : i ∉ tableReaders) : Leaves i s (takeError e s) :=
  takeError_leaves (fun h => absurd h (openCode_not_signal he)) fun h => absurd h hi

/-- The failure of a packet once the headers are past (60_exceptions.md R601). -/
theorem takeError_audio_leaves {e : ErrCode} (he : AudioCode e) (hs : s.inHeaders = false) : Leaves i s (takeError e s) :=
  takeError_leaves (fun h => absurd h (openCode_not_signal (audio_open he))) fun _ => by simp [hs, audio_class he]

/-- Taking an error after the repositioning of pull mode, which the rest of the machine does not see. -/
theorem failFrame_leaves {e : ErrCode} (h : ∀ u, u.inHeaders = s.inHeaders → Leaves i u (takeError e u)) :
    Leaves i s (failFrame e s) := by
  unfold failFrame
  split
  · exact h s rfl
  split
  · next hr =>
    have hv := (recover_inside e).ok hr
    exact (leaves_of_inside hv).trans (h _ (inHeaders_of_inside hv))
  · next hr =>
    have hv := (recover_inside e).error hr
    exact (leaves_of_inside hv).trans (h _ (inHeaders_of_inside hv))

/-! ### Datapath steps run by themselves -/

theorem runElement_leaves {m : M Unit} (hm : Keeps (Same setupView) m) (hr : Raises OpenCode m) (hi : i ∉ tableReaders)
    (he : runElement m s = .next t) : Leaves i s t := by
  have hm : Keeps (Leaves i) m := keeps_coarser hm (frameView_setupView hi)
  unfold runElement at he
  split at he
  · next h =>
    cases he
    exact hm.ok h
  · next h =>
    cases he
    exact (hm.error h).trans (failFrame_leaves fun _ _ => takeError_open_leaves (hr _ _ _ h) hi)

theorem runOnEntry_leaves {b : Bool} {m : M Unit} (hm : Keeps (Same setupView) m) (hr : Raises OpenCode m)
    (hi : i ∉ tableReaders) (he : runOnEntry b m s = .next t) : Leaves i s t := by
  unfold runOnEntry at he
  split at he
  · exact runElement_leaves hm hr hi he
  · cases he

theorem execAudioPacket_leaves (hi : i ∉ tableReaders) (he : execAudioPacket s = .next t) : Leaves i s t := by
  unfold execAudioPacket at he
  split at he
  · next f u h =>
    cases he
    exact (leaves_of_inside (audioBody_inside.ok h)).trans (deliverFrame_leaves f u)
  · next e u h =>
    cases he
    exact (leaves_of_inside (audioBody_inside.error h)).trans
      (failFrame_leaves fun _ _ => takeError_open_leaves (audio_open (audioBody_raises _ _ _ h)) hi)

theorem runLookup_leaves (lt : LookupType) (site : LookupSite) (hi : i ∉ tableReaders) (he : runLookup lt site s = .next t) :
    Leaves i s t := by
  have F := setupView_setting
  cases site with
  | setup => exact runElement_leaves (lookupSetup_keeps F lt) (lookupSetup_raises lt) hi he
  | vector book slots =>
    have hk := decodeVqAs_keeps F.toDecoding lt book slots
    have hr := (decodeVqAs_raises lt book slots).mono fun _ => framer_open
    exact runOnEntry_leaves (keeps_bind F.toComposes hk fun _ => keeps_pure F.toComposes _)
      (raises_bind hr fun _ => raises_pure _) hi he

theorem runResidue_leaves (ty : ResidueType) (site : ResidueSite) (hi : i ∉ tableReaders)
    (he : runResidue ty site s = .next t) : Leaves i s t := by
  have F := setupView_setting
  cases site with
  | setup => exact runElement_leaves (residueSetupAs_keeps F ty) (residueSetupAs_raises ty) hi he
  | decode long mapping submap =>
    have hk := residueDecodeAs_keeps F.toDecoding ty (s.tab.mapping mapping) submap (s.tab.blocksize long / 2)
    have hr := (residueDecodeAs_raises ty (s.tab.mapping mapping) submap (s.tab.blocksize long / 2)).mono fun _ => framer_open
    exact runOnEntry_leaves (keeps_bind F.toComposes hk fun _ => keeps_pure F.toComposes _)
      (raises_bind hr fun _ => raises_pure _) hi he

theorem execFloorType1_leaves (site : FloorSite) (hi : i ∉ tableReaders) (he : execFloorType1 site s = .next t) :
    Leaves i s t := by
  have F := setupView_setting
  cases site with
  | setup => exact runElement_leaves (floor1Setup_keeps F) floor1Setup_raises hi he
  | decode channel floor =>
    exact runOnEntry_leaves (floor1Decode_keeps F.toDecoding channel _)
      ((floor1Decode_raises channel _).mono fun _ => framer_open) hi he

theorem execBadPacketType_leaves (hi : i ∉ tableReaders) (he : execBadPacketType s = .next t) : Leaves i s t := by
  have F := setupView_setting.toReading
  exact runElement_leaves (keeps_ite (fun _ => drainPacket_keeps F) fun _ => flushPacket_keeps F)
    (raises_ite (fun _ => drainPacket_raises.mono fun _ => framer_open) fun _ => flushPacket_raisesOpen) hi he

/-! ### Opening -/

theorem openTables_leaves (hi : i ∉ tableReaders) : Keeps (Leaves i) openTables :=
  keeps_coarser (openTables_keeps setupView_setting) (frameView_setupView hi)

theorem openPullSteps_leaves (hi : i ∉ tableReaders) : Keeps (Leaves i) openPullSteps := by
  have C := same_composes (frameView i)
  have F := insideView_moving.toScanning
  refine keeps_bind C (openTables_leaves hi) fun _ => keeps_bind C (keeps_modify fun _ => rfl) fun _ => ?_
  refine keeps_bind C (keeps_coarser (findPage_keeps F) fun _ => rfl) fun _ => keeps_bind C (keeps_get C) fun _ => ?_
  exact keeps_bind C (fun _ => rfl) fun _ =>
    keeps_bind C (keeps_coarser (setPos_keeps F _) fun _ => rfl) fun _ => keeps_pure C _

theorem openPullBody_leaves (s : State) : Leaves .openPull s (openPullBody s) := by
  have hi : Instr.openPull ∉ tableReaders := by decide
  have prologue : Leaves .openPull s { openPrologue .pull s with ctl.state := .awaitingHeaders } := rfl
  unfold openPullBody
  split
  · next t h => exact (prologue.trans ((openPullSteps_leaves hi).ok h)).trans rfl
  · next e t h =>
    exact (prologue.trans ((openPullSteps_leaves hi).error h)).trans
      (takeError_open_leaves (openTables_raises _ _ _ (openPullSteps_error h)) hi)

theorem openNeedsMore_leaves (s : State) : Leaves .openPush s (openNeedsMore s) := rfl

theorem openPushBody_leaves (s : State) : Leaves .openPush s (openPushBody s) := by
  have hi : Instr.openPush ∉ tableReaders := by decide
  have prologue : Leaves .openPush s (openPrologue .push s) := rfl
  unfold openPushBody
  split
  · next t h =>
    have parsed := prologue.trans ((openTables_leaves hi).ok h)
    split
    · exact parsed.trans (openNeedsMore_leaves t)
    · exact parsed.trans rfl
  · next e t h =>
    have parsed := prologue.trans ((openTables_leaves hi).error h)
    split
    · exact parsed.trans (openNeedsMore_leaves t)
    · exact parsed.trans (takeError_open_leaves (openTables_raises _ _ _ h) hi)

/-! ### Decoding -/

theorem inHeaders_false (h : s.ctl.state = .decoding ∨ s.ctl.state = .eof) : s.inHeaders = false := by
  rcases h with h | h <;> simp [State.inHeaders, h]

theorem decodeFrameBody_leaves (hs : s.inHeaders = false) : Leaves .decodeFrame s (decodeFrameBody s) := by
  have prologue : Leaves .decodeFrame s (framePrologue s) := rfl
  unfold decodeFrameBody
  split
  · rfl
  split
  · next f t h =>
    have decoded := prologue.trans (leaves_of_inside (decodePacket_inside.ok h))
    have delivered := decoded.trans (deliverFrame_leaves f t)
    exact delivered.trans rfl
  · next t h => exact (prologue.trans (leaves_of_inside (decodePacket_inside.ok h))).trans rfl
  · next e t h =>
    have hv := decodePacket_inside.error h
    have past : t.inHeaders = false := (inHeaders_of_inside hv).trans hs
    exact (prologue.trans (leaves_of_inside hv)).trans
      (failFrame_leaves fun u hu => takeError_audio_leaves (decodePacket_raises _ _ _ h) (hu.trans past))

theorem resyncScan_leaves (s : State) : Leaves .pushDecode s (resyncScan s) := by
  unfold resyncScan
  simp only []
  split
  · rfl
  · rfl

theorem pushFails_leaves {e : ErrCode} (he : AudioCode e) (hs : s.inHeaders = false) : Leaves .pushDecode s (pushFails e s) :=
  (takeError_audio_leaves he hs).trans rfl

theorem skipPushed_raises (e : ErrCode) : Raises FramerCode (skipPushed e) :=
  raises_ite (fun _ => raises_bind (raises_modify _) fun _ => drainPacket_raises) fun _ => drainPacket_raises

theorem pushPacket_leaves (hs : s.inHeaders = false) : Leaves .pushDecode s (pushPacket s) := by
  unfold pushPacket
  split
  · next f t h =>
    have delivered : Leaves .pushDecode s (deliverFrame f t).2 :=
      (leaves_of_inside (decodePacket_inside.ok h)).trans (deliverFrame_leaves f t)
    exact delivered.trans rfl
  · next t h => exact (leaves_of_inside (decodePacket_inside.ok h)).trans rfl
  · next e t h =>
    have hv := decodePacket_inside.error h
    have past : t.inHeaders = false := (inHeaders_of_inside hv).trans hs
    refine (leaves_of_inside hv).trans ?_
    split
    · split
      · next u hk => exact (leaves_of_inside ((skipPushed_inside e).ok hk)).trans rfl
      · next e' u hk =>
        have hu := (skipPushed_inside e).error hk
        exact (leaves_of_inside hu).trans
          (pushFails_leaves (framer_audio (skipPushed_raises e _ _ _ hk)) ((inHeaders_of_inside hu).trans past))
    · exact pushFails_leaves (decodePacket_raises _ _ _ h) past

theorem pushDecodeBody_leaves (hs : s.inHeaders = false) : Leaves .pushDecode s (pushDecodeBody s) := by
  have prologue : Leaves .pushDecode s
      { s.takeChunk with ctl.outLen := 0, regs.ret1 := 0, regs.ret2 := BitVec.ofNat 32 s.tab.channels } := rfl
  have refused : Leaves .pushDecode s { s.takeChunk with
      ctl.outLen := 0, regs.ret0 := 0, regs.ret1 := 0, regs.ret2 := BitVec.ofNat 32 s.tab.channels } := rfl
  unfold pushDecodeBody
  simp only []
  split
  · exact prologue.trans (resyncScan_leaves _)
  split
  · exact prologue.trans rfl
  · exact refused.trans (takeError_audio_leaves (.inr (.inl rfl)) hs)
  · exact prologue.trans (pushPacket_leaves hs)

/-! ### Length and seeking -/

theorem streamLength_leaves : Keeps (Leaves i) streamLength := keeps_coarser streamLength_view fun _ => rfl

theorem streamLengthBody_leaves (s : State) : Leaves .streamLength s (streamLengthBody s) := by
  obtain ⟨length, t, h⟩ := returns_of_never streamLength_raises s
  simp only [streamLengthBody, h]
  exact (streamLength_leaves.ok h).trans rfl

theorem rewind_leaves (s : State) : Leaves i s (endState rewind s) := by
  rw [rewind_end]
  rfl

theorem seekStartBody_leaves (s : State) : Leaves .seekStart s (seekStartBody s) := by
  unfold seekStartBody
  split
  · rfl
  · rw [runState_endState rewind_raises]
    exact (rewind_leaves s).trans rfl

theorem seekEnd_leaves (policy : Option DecodePoint) (target : Word) (s : State) : Leaves i s (seekEnd policy target s) := by
  obtain ⟨p, -, -, he⟩ | ⟨-, he⟩ := seekEnd_cases policy target s <;> rw [he] <;> exact (rewind_leaves s).trans rfl

theorem seekBody_leaves (s : State) : Leaves .seek s (seekBody s) := by
  obtain ⟨length, t, h⟩ := returns_of_never streamLength_raises s
  have scanned : Leaves .seek s t := streamLength_leaves.ok h
  simp only [seekBody, h]
  split
  · rfl
  split
  · exact scanned.trans rfl
  split
  · exact scanned.trans rfl
  · exact scanned.trans (seekEnd_leaves _ _ t)

/-! ### Every instruction -/

/-- A command runs its body, or is rejected for its state or its api (60_exceptions.md R610). -/
theorem runCommand_cases (i : Instr) (body : State → State) (s : State) :
    commandAllowed i s.ctl.state = true ∧ runCommand i body s = body s ∨
      runCommand i body s = takeError .illegalCommand s ∨ runCommand i body s = takeError .invalidApiMixing s := by
  unfold runCommand
  cases ha : commandAllowed i s.ctl.state with
  | false => exact .inr (.inl rfl)
  | true =>
    cases hapi : commandApi i with
    | none => exact .inl ⟨rfl, rfl⟩
    | some api =>
      by_cases h : s.ctl.api = api
      · exact .inl ⟨rfl, if_pos h⟩
      · exact .inr (.inr (if_neg h))

theorem runCommand_leaves {body : State → State} (hb : commandAllowed i s.ctl.state = true → Leaves i s (body s))
    (he : Host.Outcome.next (runCommand i body s) = (.next t : Host.Outcome State Fault Refusal)) : Leaves i s t := by
  cases he
  obtain ⟨ha, hr⟩ | hr | hr := runCommand_cases i body s <;> rw [hr]
  · exact hb ha
  · rfl
  · rfl

theorem exec_leaves (he : exec i s = .next t) : Leaves i s t := by
  have F := setupView_setting
  cases i with
  | openPull => exact runCommand_leaves (fun _ => openPullBody_leaves s) he
  | openPush => exact runCommand_leaves (fun _ => openPushBody_leaves s) he
  | pushDecode =>
    exact runCommand_leaves (fun hs => pushDecodeBody_leaves (inHeaders_false (.inl (by simpa [commandAllowed] using hs)))) he
  | decodeFrame =>
    exact runCommand_leaves (fun hs => decodeFrameBody_leaves (inHeaders_false (decoding_or_eof hs (.inl rfl)))) he
  | getInfo => exact runCommand_leaves (body := getInfoBody) (fun _ => rfl) he
  | seek => exact runCommand_leaves (fun _ => seekBody_leaves s) he
  | seekStart => exact runCommand_leaves (fun _ => seekStartBody_leaves s) he
  | streamLength => exact runCommand_leaves (fun _ => streamLengthBody_leaves s) he
  | getError => exact runCommand_leaves (body := getErrorBody) (fun _ => rfl) he
  | close => exact runCommand_leaves (body := closeBody) (fun _ => rfl) he
  | illegalCommand word =>
    cases he
    rfl
  | oggPage =>
    exact runElement_leaves (startPageNoCapture_keeps F.toReading) (startPageNoCapture_raises.mono fun _ => framer_open)
      (by decide) he
  | hdrIdentification => exact runElement_leaves (identificationBody_keeps F) identificationBody_raises (by decide) he
  | hdrComment => exact runElement_leaves (commentBody_keeps F) commentBody_raises (by decide) he
  | hdrSetup => exact runElement_leaves (setupBody_keeps F) setupBody_raises (by decide) he
  | audioPacket => exact execAudioPacket_leaves (by decide) he
  | badPacketType => exact execBadPacketType_leaves (by decide) he
  | lookupNone site => exact runLookup_leaves _ site (by simp [tableReaders]) he
  | lookupLattice site => exact runLookup_leaves _ site (by simp [tableReaders]) he
  | lookupDirect site => exact runLookup_leaves _ site (by simp [tableReaders]) he
  | floorType0 => exact runElement_leaves (floor0Setup_keeps F) floor0Setup_raises (by decide) he
  | floorType1 site => exact execFloorType1_leaves site (by simp [tableReaders]) he
  | residueType0 site => exact runResidue_leaves _ site (by simp [tableReaders]) he
  | residueType1 site => exact runResidue_leaves _ site (by simp [tableReaders]) he
  | residueType2 site => exact runResidue_leaves _ site (by simp [tableReaders]) he
  | mappingType0 => exact runElement_leaves (mapping0Setup_keeps F) mapping0Setup_raises (by decide) he

/-- Settles O56: the view of the machine that `exec_leaves` keeps shows each of these fields. -/
theorem commandFrame : Obligations.CommandFrame := by
  intro i s t he
  have h : Leaves i s t := exec_leaves he
  exact ⟨(congrArg State.mem h :), (congrArg State.params h :), (congrArg (fun v : State => v.regs.arg0) h :),
    (congrArg (fun v : State => v.regs.arg1) h :), (congrArg State.pending h :), (congrArg State.readData h :),
    h.ret2, h.ret1, h.ret0, h.tab⟩

end Sys2Proof.Proofs
end

section
/-! SUPPORT. The host's register accesses: what a step that serves one does, and what each register of the map reads as. -/

namespace Sys2Proof.Proofs

open Sys2Proof Sys2Proof.Machine

variable {s : State} {offset : Nat} {v : Word} {rest : List Event}

/-! ### Serving an access -/

theorem offsetMapped_iff : s.offsetMapped offset = true ↔
    offset < 0x200000 ∨ offset < 0x100000 + s.params.maxChannels * 0x8000 := by
  unfold State.offsetMapped State.pcmEnd
  rw [Bool.or_eq_true, decide_eq_true_iff, decide_eq_true_iff]

/-- An aligned read latches what the register map gives (20_memory.md R90, R99, R100). -/
theorem step_regRead (hp : s.pending = .regRead offset 4 :: rest) (ha : offset % 4 = 0) (hm : s.offsetMapped offset = true) :
    step s = .next { s with pending := rest, readData := s.readReg offset } := by
  have hm' : ({ s with pending := rest } : State).offsetMapped offset = true := hm
  simp only [step, hp, serve, accessAligned, ha, hm']
  rfl

/-- An aligned write past CMD goes to its register (20_memory.md R90, R99). -/
theorem step_regWrite (hp : s.pending = .regWrite offset 4 v :: rest) (ha : offset % 4 = 0)
    (hm : s.offsetMapped offset = true) (h0 : offset ≠ 0) :
    step s = .next (State.writeReg offset v { s with pending := rest }) := by
  have hm' : ({ s with pending := rest } : State).offsetMapped offset = true := hm
  simp only [step, hp, serve, accessAligned, ha, hm', if_neg h0]
  rfl

/-- Only CMD, ARG0 and ARG1 take a write (10_state.md R65 to R77). -/
theorem step_regWrite_ignored (hp : s.pending = .regWrite offset 4 v :: rest) (ha : offset % 4 = 0)
    (hm : s.offsetMapped offset = true) (h0 : offset ≠ 0x000) (hC : offset ≠ 0x00C) (h10 : offset ≠ 0x010) :
    step s = .next { s with pending := rest } := by
  rw [step_regWrite hp ha hm h0, State.writeReg, if_neg hC, if_neg h10]

/-! ### The register map -/

theorem readReg_past (h : s.pcmEnd ≤ offset) : s.readReg offset = 0 := if_pos h

theorem readReg_window (h0 : 0x100000 ≤ offset) (h1 : offset < s.pcmEnd) :
    s.readReg offset = s.pcmWord ((offset - 0x100000) / 0x8000) ((offset - 0x100000) % 0x8000 / 4) := by
  unfold State.readReg
  rw [if_neg (Nat.not_le.2 h1), if_pos h0]

/-- The PCM window begins at 0x100000 (10_state.md R77). -/
theorem not_pcmEnd_le (s : State) (h : offset < 0x100000) : ¬ s.pcmEnd ≤ offset := by
  unfold State.pcmEnd
  omega

@[simp] theorem readReg_cmd (s : State) : s.readReg 0x000 = 0 := by simp [State.readReg]
@[simp] theorem readReg_status (s : State) : s.readReg 0x004 = s.status := by simp [State.readReg, not_pcmEnd_le]
@[simp] theorem readReg_error (s : State) : s.readReg 0x008 = s.errorReg := by simp [State.readReg, not_pcmEnd_le]
@[simp] theorem readReg_arg0 (s : State) : s.readReg 0x00C = s.regs.arg0 := by simp [State.readReg, not_pcmEnd_le]
@[simp] theorem readReg_arg1 (s : State) : s.readReg 0x010 = s.regs.arg1 := by simp [State.readReg, not_pcmEnd_le]
@[simp] theorem readReg_ret0 (s : State) : s.readReg 0x014 = s.regs.ret0 := by simp [State.readReg, not_pcmEnd_le]
@[simp] theorem readReg_ret1 (s : State) : s.readReg 0x018 = s.regs.ret1 := by simp [State.readReg, not_pcmEnd_le]
@[simp] theorem readReg_ret2 (s : State) : s.readReg 0x01C = s.regs.ret2 := by simp [State.readReg, not_pcmEnd_le]
@[simp] theorem readReg_infoChannels (s : State) : s.readReg 0x020 = s.infoChannels := by simp [State.readReg, not_pcmEnd_le]
@[simp] theorem readReg_infoSampleRate (s : State) : s.readReg 0x024 = s.infoSampleRate := by simp [State.readReg, not_pcmEnd_le]
@[simp] theorem readReg_infoBlocksize (s : State) : s.readReg 0x028 = s.infoBlocksize := by simp [State.readReg, not_pcmEnd_le]
@[simp] theorem readReg_infoMaxFrame (s : State) : s.readReg 0x02C = s.infoMaxFrame := by simp [State.readReg, not_pcmEnd_le]
@[simp] theorem readReg_currentLoc (s : State) : s.readReg 0x030 = s.ctl.currentLoc := by simp [State.readReg, not_pcmEnd_le]
@[simp] theorem readReg_streamLength (s : State) : s.readReg 0x034 = s.streamLengthReg := by simp [State.readReg, not_pcmEnd_le]

/-- The reserved offsets between the registers and the window (10_state.md R75). -/
theorem readReg_reserved (s : State) (h0 : 0x038 ≤ offset) (h1 : offset < 0x100000) : s.readReg offset = 0 := by
  unfold State.readReg
  rw [if_neg (not_pcmEnd_le s h1), if_neg (Nat.not_le.2 h1)]
  split <;> try omega
  rfl

/-! ### The information registers -/

theorem infoValid_iff : s.infoValid = true ↔ s.ctl.state = .decoding ∨ s.ctl.state = .eof := by
  simp [State.infoValid]

/-- The INFO registers while a stream is open (10_state.md R69 to R72). -/
theorem info_open (h : s.ctl.state = .decoding ∨ s.ctl.state = .eof) :
    s.readReg 0x020 = BitVec.ofNat 32 s.tab.channels ∧ s.readReg 0x024 = s.tab.sampleRate ∧
      (s.tab.logBlocksize0 < 16 → s.tab.logBlocksize1 < 16 →
        s.readReg 0x028 = BitVec.ofNat 32 (s.tab.logBlocksize0 + 16 * s.tab.logBlocksize1)) ∧
      s.readReg 0x02C = BitVec.ofNat 32 (2 ^ s.tab.logBlocksize1 / 2) := by
  have hv : s.infoValid = true := infoValid_iff.2 h
  rw [readReg_infoChannels, readReg_infoSampleRate, readReg_infoBlocksize, readReg_infoMaxFrame]
  refine ⟨if_pos hv, if_pos hv, fun h0 h1 => ?_, if_pos hv⟩
  rw [State.infoBlocksize, if_pos hv, Nat.mod_eq_of_lt h0, Nat.mod_eq_of_lt h1]

/-- The INFO registers while no stream is open (10_state.md R69). -/
theorem info_closed (hd : s.ctl.state ≠ .decoding) (he : s.ctl.state ≠ .eof) :
    ∀ offset ∈ [0x020, 0x024, 0x028, 0x02C], s.readReg offset = 0 := by
  have hv : ¬ s.infoValid = true := fun h => (infoValid_iff.1 h).elim hd he
  simp only [List.forall_mem_cons, List.not_mem_nil, false_imp_iff, implies_true, and_true]
  rw [readReg_infoChannels, readReg_infoSampleRate, readReg_infoBlocksize, readReg_infoMaxFrame]
  exact ⟨if_neg hv, if_neg hv, if_neg hv, if_neg hv⟩

/-! ### STATUS -/

/-- Each bit of STATUS (10_state.md R65). -/
theorem status_getLsbD (s : State) (k : Nat) : s.status.getLsbD k =
    if k < 3 then s.ctl.state.code.getLsbD k
    else if k < 5 then s.ctl.api.code.getLsbD (k - 3)
    else if k < 8 then s.regs.result.code.getLsbD (k - 5)
    else decide (k = 8) && s.ctl.currentLocValid := by
  simp only [State.status, BitVec.zeroExtend, BitVec.getLsbD_setWidth, BitVec.getLsbD_append, BitVec.getLsbD_ofBool,
    Nat.sub_sub]
  grind

/-- The fields of STATUS stand where they were put together (10_state.md R65). -/
theorem status_fields (s : State) : s.status.extractLsb' 0 3 = s.ctl.state.code ∧ s.status.extractLsb' 3 2 = s.ctl.api.code ∧
    s.status.extractLsb' 5 3 = s.regs.result.code ∧ s.status.getLsbD 8 = s.ctl.currentLocValid ∧
    s.status.extractLsb' 9 23 = 0 := by
  refine ⟨BitVec.eq_of_getLsbD_eq fun k hk => ?_, BitVec.eq_of_getLsbD_eq fun k hk => ?_,
    BitVec.eq_of_getLsbD_eq fun k hk => ?_, (status_getLsbD s 8).trans (by simp), BitVec.eq_of_getLsbD_eq fun k hk => ?_⟩ <;>
    rw [BitVec.getLsbD_extractLsb', status_getLsbD]
  · simp [hk]
  · simp [hk, show 3 + k < 5 by omega]
  · simp [hk, show ¬ 5 + k < 3 by omega, show 5 + k < 8 by omega]
  · simp [show ¬ 9 + k < 3 by omega, show ¬ 9 + k < 5 by omega, show ¬ 9 + k < 8 by omega, show ¬ 9 + k = 8 by omega]

/-! ### The statements -/

/-- Settles O7: inside the window the channel and the sample are the quotient and the remainder of the offset. -/
theorem pcmWindow : Obligations.PcmWindow := by
  refine ⟨fun s c j rest hc hj hp => ?_, fun s offset v rest h0 h1 ha hp => ?_⟩
  · have hend : 0x100000 + c * 0x8000 + 4 * j < s.pcmEnd := by unfold State.pcmEnd; omega
    rw [step_regRead hp (by omega) (offsetMapped_iff.2 (.inr hend)), readReg_window (by omega) hend]
    have hch : (0x100000 + c * 0x8000 + 4 * j - 0x100000) / 0x8000 = c := by omega
    have hsample : (0x100000 + c * 0x8000 + 4 * j - 0x100000) % 0x8000 / 4 = j := by omega
    rw [hch, hsample]
    rfl
  · exact step_regWrite_ignored hp ha (offsetMapped_iff.2 (.inr h1)) (by omega) (by omega) (by omega)

/-- Settles O4: an aligned access of the space is served, and each register reads as the map has it. -/
theorem registerReads : Obligations.RegisterReads := by
  refine ⟨fun s offset rest hp ha hm => step_regRead hp ha (offsetMapped_iff.2 hm), fun s offset h => readReg_past h,
    fun s offset v rest hp ha h0 h1 => ?_, fun s => ?_⟩
  · exact step_regWrite_ignored hp ha (offsetMapped_iff.2 (.inl h1)) (by omega) (by omega) (by omega)
  · exact ⟨readReg_cmd s, readReg_error s, readReg_ret0 s, readReg_ret1 s, readReg_ret2 s, readReg_currentLoc s,
      fun h => (readReg_streamLength s).trans (if_pos h), fun h => (readReg_streamLength s).trans (if_neg h), info_open, info_closed⟩

/-- Settles O5: each field of STATUS is the code of its element. -/
theorem statusRegister : Obligations.StatusRegister := by
  refine ⟨fun s => ?_, fun s v rest hp => ?_, readReg_status _⟩
  · obtain ⟨hstate, hapi, hresult, hvalid, hrest⟩ := status_fields s
    rw [readReg_status, hstate, hapi, hresult]
    refine ⟨?_, ?_, ?_, hvalid, hrest⟩
    · cases s.ctl.state <;> rfl
    · cases s.ctl.api <;> rfl
    · cases s.regs.result <;> rfl
  · exact step_regWrite_ignored hp rfl (offsetMapped_iff.2 (.inl (by decide))) (by decide) (by decide) (by decide)

/-- Settles O6: ARG0 and ARG1 are read from where they were written; every other offset past CMD ignores a write. -/
theorem registerWrites : Obligations.RegisterWrites := by
  refine ⟨fun s v rest => ⟨fun hp => ?_, fun hp => ?_⟩, readReg_arg0 _, readReg_arg1 _,
    fun s offset h0 h1 => readReg_reserved s h0 h1, fun s offset v rest hp ha h => ?_⟩
  · exact ⟨_, step_regWrite hp rfl (offsetMapped_iff.2 (.inl (by decide))) (by decide), readReg_arg0 _, rfl⟩
  · exact ⟨_, step_regWrite hp rfl (offsetMapped_iff.2 (.inl (by decide))) (by decide), readReg_arg1 _, rfl⟩
  · have hread : 0x000 < offset ∧ offset < 0x100000 ∧ offset ≠ 0x00C ∧ offset ≠ 0x010 := by
      simp only [List.mem_cons, List.not_mem_nil, or_false] at h
      omega
    obtain ⟨h0, h1, hC, h10⟩ := hread
    exact step_regWrite_ignored hp ha (offsetMapped_iff.2 (.inl (by omega))) (by omega) hC h10

end Sys2Proof.Proofs
end

section
/-! SUPPORT. Memory and its accesses (20_memory.md): the event a step serves, the byte source, host memory and the bits of a packet. -/

namespace Sys2Proof.Proofs

open Sys2Proof Sys2Proof.Machine

/-! ### Serving an event -/

/-- A step serves the next pending event and takes it from the list (20_memory.md R103). -/
theorem step_serve {s : State} {e : Event} {rest : List Event} (hp : s.pending = e :: rest) :
    step s = serve e { s with pending := rest } := by
  unfold step
  rw [hp]

theorem accessAligned_eq_false {offset bytes : Nat} (h : bytes ≠ 4 ∨ offset % 4 ≠ 0) : accessAligned offset bytes = false := by
  rcases h with h | h <;> simp [accessAligned, h]

/-- A write of a word to CMD runs its command (30_encoding.md R120). -/
theorem serve_cmd (w : Word) (s : State) : serve (.regWrite 0x000 4 w) s = exec (decodeCmd w) s := by
  have hm : s.offsetMapped 0x000 = true := offsetMapped_iff.2 (.inl (by decide))
  simp [serve, accessAligned, hm]

theorem decode_cmd (w : Word) : decode .cmd w.toNat = .ok (decodeCmd w) := by
  rw [decode, BitVec.ofNat_toNat, BitVec.setWidth_eq]

/-- A selector that decodes runs its instruction where its reading ended. -/
theorem runPoint_decoded {p : StreamPoint} {s t : State} {v : Nat} {i : Instr} (hf : fetchSelector p s = .ok v t)
    (hd : decode (.stream p) v = .ok i) : runPoint p s = exec i t := by
  simp only [runPoint, hf, hd]

/-! ### The byte source -/

/-- `InByte` past the end (20_memory.md R93). -/
theorem inByte_past {s : State} (h : s.src.len ≤ s.src.pos) : inByte s = .ok 0 { s with src.eof := true } := by
  unfold inByte
  rw [get_bind, if_pos h]
  rfl

/-- `InByte` inside the source (20_memory.md R93). -/
theorem inByte_inside {s : State} (h : s.src.pos < s.src.len) :
    inByte s = .ok (s.srcByte s.src.pos) { s with src.pos := s.src.pos + 1 } := by
  unfold inByte
  rw [get_bind, if_neg (BitVec.not_le.2 h)]
  rfl

/-- `SetPos` past the end (20_memory.md R94). -/
theorem setPos_past {s : State} {p : Word} (h : s.src.len ≤ p) :
    setPos p s = .ok false { s with src.pos := s.src.len, src.eof := true } := by
  unfold setPos
  rw [get_bind, if_pos h]
  rfl

/-- `SetPos` inside the source (20_memory.md R94). -/
theorem setPos_inside {s : State} {p : Word} (h : p < s.src.len) :
    setPos p s = .ok true { s with src.pos := p, src.eof := false } := by
  unfold setPos
  rw [get_bind, if_neg (BitVec.not_le.2 h)]
  rfl

/-! ### Host memory -/

/-- The byte an address names takes the value and every other one is left. -/
theorem read_write {m : List Host.Cell} (hm : Memory.wf m = true) (a b : Word) (v : Byte) :
    Memory.read (Memory.write m a.toNat v) b.toNat = if b = a then v else Memory.read m b.toNat := by
  split
  · next h => rw [h, Memory.read_write_same hm]
  · next h => exact Memory.read_write_other hm fun hn => h (BitVec.eq_of_toNat_eq hn)

/-! ### Bits -/

/-- Bit `i` of the value is the `i`-th bit read (20_memory.md R97). -/
theorem testBit_bitsValue : ∀ (bits : List Bool) (i : Nat), (bitsValue bits).testBit i = bits.getD i false
  | [], i => by simp [bitsValue]
  | b :: bs, 0 => by cases b <;> simp [bitsValue, Nat.testBit_zero, Nat.add_mod]
  | b :: bs, i + 1 => by
    have hhalf : (b.toNat + 2 * bitsValue bs) / 2 = bitsValue bs := by
      have := Bool.toNat_lt b
      omega
    rw [bitsValue, Nat.testBit_succ, hhalf, testBit_bitsValue bs i, List.getD_cons_succ]

/-! ### The statements -/

/-- Settles O47: `getBits_holds` gives the value of the first bits, whose bits are those of the list. -/
theorem bitOrder : Obligations.BitOrder := by
  intro s bits n h hm hn
  obtain ⟨t, ht, hrest, hfrom⟩ := getBits_holds h hn hm
  refine ⟨t, ht, hrest, hfrom, fun i hi => ?_⟩
  rw [testBit_bitsValue, List.getD_eq_getElem?_getD, List.getD_eq_getElem?_getD, List.getElem?_take_of_lt hi]

/-- Settles O55: serving the write is one `Memory.write`, which keeps the canonical form and every other byte. -/
theorem hostMemoryWrite : Obligations.HostMemoryWrite := by
  intro s a v rest hp
  exact ⟨_, step_serve hp, rfl, fun hm => ⟨Memory.write_wf hm, fun b => read_write hm a b v⟩⟩

/-- Settles O3: a word written to CMD and a selector read from the stream both run what they decode to. -/
theorem stepRunsDecoded : Obligations.StepRunsDecoded := by
  refine ⟨fun s w rest i hp hd => ?_, fun s t p v rest i hp hf hd => ?_⟩
  · have hi : decodeCmd w = i := Except.ok.inj ((decode_cmd w).symm.trans hd)
    rw [step_serve hp, serve_cmd, hi]
  · exact (step_serve hp).trans (runPoint_decoded hf hd)

/-- Settles O8: a read and a write both test the width and the alignment first. -/
theorem accessWidth : Obligations.AccessWidth := by
  intro s offset bytes v rest h hp
  have ha := accessAligned_eq_false h
  rcases hp with hp | hp
  · simp [step_serve hp, serve, ha]
  · simp [step_serve hp, serve, ha]

/-- Settles O46: `InByte` and `SetPos` on each side of the end. -/
theorem byteSource : Obligations.ByteSource :=
  ⟨fun _ => inByte_past, fun _ => inByte_inside, fun _ _ => setPos_past, fun _ _ => setPos_inside⟩

end Sys2Proof.Proofs
end

section
/-! SUPPORT. Decoding and encoding (30_encoding.md): what each decoder accepts, and that an encoded instruction decodes to itself. -/

namespace Sys2Proof.Proofs

open Sys2Proof Sys2Proof.Machine

/-! ### The bits of an instruction -/

theorem encode_lt : ∀ i : Instr, Laws.Width.Statement i
  | .openPull => Laws.Width.openPull
  | .openPush => Laws.Width.openPush
  | .pushDecode => Laws.Width.pushDecode
  | .decodeFrame => Laws.Width.decodeFrame
  | .getInfo => Laws.Width.getInfo
  | .seek => Laws.Width.seek
  | .seekStart => Laws.Width.seekStart
  | .streamLength => Laws.Width.streamLength
  | .getError => Laws.Width.getError
  | .close => Laws.Width.close
  | .illegalCommand word => Laws.Width.illegalCommand word
  | .oggPage => Laws.Width.oggPage
  | .hdrIdentification => Laws.Width.hdrIdentification
  | .hdrComment => Laws.Width.hdrComment
  | .hdrSetup => Laws.Width.hdrSetup
  | .audioPacket => Laws.Width.audioPacket
  | .badPacketType => Laws.Width.badPacketType
  | .lookupNone site => Laws.Width.lookupNone site
  | .lookupLattice site => Laws.Width.lookupLattice site
  | .lookupDirect site => Laws.Width.lookupDirect site
  | .floorType0 => Laws.Width.floorType0
  | .floorType1 site => Laws.Width.floorType1 site
  | .residueType0 site => Laws.Width.residueType0 site
  | .residueType1 site => Laws.Width.residueType1 site
  | .residueType2 site => Laws.Width.residueType2 site
  | .mappingType0 => Laws.Width.mappingType0

/-- The decoder looks only at the bits of the point's width. -/
theorem decode_mod (c : Context) (v : Nat) : decode c (v % 2 ^ c.width) = decode c v := by
  cases c with
  | cmd =>
    have hw : BitVec.ofNat 32 (v % 2 ^ 32) = BitVec.ofNat 32 v := BitVec.eq_of_toNat_eq (by simp)
    exact congrArg (fun w => Except.ok (decodeCmd w)) hw
  | stream p => simp only [decode, Context.width, Nat.mod_mod]

/-! ### Instructions to bits and back -/

/-- A reserved word selects no command (30_encoding.md R122). -/
theorem decodeCmd_reserved {w : Word} (h : reservedWord w = true) : decodeCmd w = .illegalCommand w := by
  have hw : w.toNat = 0 ∨ 10 < w.toNat := by simpa [reservedWord] using h
  unfold decodeCmd
  split <;> try omega
  rfl

theorem decode_encode {i : Instr} (h : WellFormed i) : decode (contextOf i) (encode i) = .ok i := by
  cases i with
  | illegalCommand w => exact (decode_cmd w).trans (congrArg Except.ok (decodeCmd_reserved h))
  | _ => rfl

/-- Bits above the instruction's own change nothing. -/
theorem decode_encode_above {i : Instr} (h : WellFormed i) (above : Nat) :
    decode (contextOf i) (encode i + above * 2 ^ (contextOf i).width) = .ok i := by
  rw [← decode_mod, Nat.add_mul_mod_self_right, Nat.mod_eq_of_lt (encode_lt i h), decode_encode h]

/-! ### Bits to instructions and back -/

/-- The instruction stands at the point and has the bits given. -/
def EncodesAt (c : Context) (v : Nat) (i : Instr) : Prop := contextOf i = c ∧ encode i = v

theorem decodeCmd_encodes (w : Word) : EncodesAt .cmd w.toNat (decodeCmd w) := by
  unfold decodeCmd
  split <;> exact ⟨rfl, by simp [encode, *]⟩

theorem decodeLookup_encodes {site : LookupSite} {v : Nat} {i : Instr} (h : decodeLookup site v = .ok i) :
    EncodesAt (.stream (.lookup site)) v i := by
  unfold decodeLookup at h
  split at h <;> cases h <;> exact ⟨rfl, rfl⟩

theorem decodeFloor_encodes {site : FloorSite} {v : Nat} {i : Instr} (h : decodeFloor site v = .ok i) :
    EncodesAt (.stream (.floor site)) v i := by
  unfold decodeFloor at h
  split at h <;> cases h <;> exact ⟨rfl, rfl⟩

theorem decodeResidue_encodes {site : ResidueSite} {v : Nat} {i : Instr} (h : decodeResidue site v = .ok i) :
    EncodesAt (.stream (.residue site)) v i := by
  unfold decodeResidue at h
  split at h <;> cases h <;> exact ⟨rfl, rfl⟩

theorem headerInstr_encodes (k : HeaderKind) : EncodesAt (.stream (.header k)) k.typeByte k.instr := by
  cases k <;> exact ⟨rfl, rfl⟩

/-- What a point of the bitstream accepts is the encoding of the instruction it answers. -/
theorem decodePoint_encodes {p : StreamPoint} {v : Nat} {i : Instr} (hv : v < 2 ^ p.width) (h : decodePoint p v = .ok i) :
    EncodesAt (.stream p) v i := by
  cases p with
  | page =>
    simp only [decodePoint] at h
    split at h <;> cases h
    next hw => exact ⟨rfl, hw.symm⟩
  | header k =>
    simp only [decodePoint] at h
    split at h <;> cases h
    next hk => exact hk ▸ headerInstr_encodes k
  | audio =>
    have hbit : v < 2 := hv
    simp only [decodePoint] at h
    split at h <;> cases h
    next h0 => exact ⟨rfl, h0.symm⟩
    next h1 => exact ⟨rfl, show 1 = v by omega⟩
  | lookup site => exact decodeLookup_encodes h
  | floor site => exact decodeFloor_encodes h
  | residue site => exact decodeResidue_encodes h
  | mapping =>
    simp only [decodePoint] at h
    split at h <;> cases h
    next h0 => exact ⟨rfl, h0.symm⟩

theorem decode_encodes {c : Context} {v : Nat} {i : Instr} (h : decode c v = .ok i) : EncodesAt c (v % 2 ^ c.width) i := by
  cases c with
  | cmd =>
    cases h
    have hw := decodeCmd_encodes (BitVec.ofNat 32 v)
    rwa [BitVec.toNat_ofNat] at hw
  | stream p => exact decodePoint_encodes (Nat.mod_lt _ (Nat.two_pow_pos _)) h

/-! ### The statements -/

/-- Settles O1: both directions hold of the bits inside the point's width, which are all that the decoder looks at. -/
theorem decodeEncode : Obligations.DecodeEncode :=
  ⟨fun _ above h => decode_encode_above h above, fun _ _ _ => decode_encodes⟩

/-- Settles O2: each word is the encoding of the instruction named. -/
theorem encodedWords : Obligations.EncodedWords :=
  ⟨rfl, rfl, rfl, decode_encode (i := .oggPage) rfl, decode_encode (i := .hdrComment) rfl,
    decode_encode (i := .audioPacket) rfl, decode_encode (i := .badPacketType) rfl,
    decode_encode (i := .lookupLattice .setup) rfl, decode_encode (i := .floorType1 .setup) rfl,
    decode_encode (i := .residueType2 .setup) rfl, decode_encode (i := .mappingType0) rfl⟩

end Sys2Proof.Proofs
end

section
/-! SUPPORT. The selectors of the headers (30_encoding.md R163 to R194): what each setup element adds to the tables, and what fails the
open or discards the packet. -/

namespace Sys2Proof.Proofs

open Sys2Proof Sys2Proof.Machine

variable {α β : Type} {s t : State} {e : ErrCode}

/-! ### Running a datapath step -/

theorem runElement_ok {m : M Unit} (h : m s = .ok () t) : runElement m s = .next t := by
  simp only [runElement, h]

theorem runElement_error {m : M Unit} (h : m s = .error e t) : runElement m s = .next (failFrame e t) := by
  simp only [runElement, h]

/-- A selector that selects nothing raises its code where its reading ended (30_encoding.md R190 to R192). -/
theorem runPoint_rejected {p : StreamPoint} {v : Nat} {r : Reject} (hf : fetchSelector p s = .ok v t)
    (hd : decode (.stream p) v = .error r) : runPoint p s = .next (failFrame (rejectError r) t) := by
  simp only [runPoint, hf, hd]

/-- A setup element on the bits it parses. -/
theorem runElement_parses {m : M Unit} {tab : Tables} {bits rest : List Bool} (hm : Parses m s.tab tab bits ())
    (h : s.Holds (bits ++ rest)) : ∃ t, runElement m s = .next t ∧ t.Holds rest ∧ ParsedFrom s t tab := by
  obtain ⟨t, ht, hrest, hfrom⟩ := hm s rest rfl h
  exact ⟨t, runElement_ok ht, hrest, hfrom⟩

/-! ### Failing -/

/-- Only the framer's codes depend on whether headers are being read (60_exceptions.md R601). -/
theorem classIn_setup (he : e.classIn false = .setup) (headers : Bool) : e.classIn headers = .setup := by
  cases headers with
  | false => exact he
  | true => cases e <;> cases he <;> rfl

theorem recover_setup (he : e.classIn false = .setup) : recover e = pure () := by
  cases e <;> cases he <;> rfl

theorem takeError_setup (he : e.classIn false = .setup) (s : State) : takeError e s =
    { s with ctl.error := e.code, ctl.state := .error, regs.result := .error, tab := Tables.absent } := by
  unfold takeError
  rw [classIn_setup he]
  rfl

/-- A code of class (a) fails the open whatever the state, and nothing is repositioned (60_exceptions.md R602). -/
theorem failFrame_setup (he : e.classIn false = .setup) (s : State) : failFrame e s =
    { s with ctl.error := e.code, ctl.state := .error, regs.result := .error, tab := Tables.absent } := by
  have htake := takeError_setup he s
  unfold failFrame
  split
  · exact htake
  · rw [recover_setup he]
    exact htake

/-- `invalid_stream` is taken where it was raised (60_exceptions.md R604). -/
theorem failFrame_invalidStream (s : State) : failFrame .invalidStream s = takeError .invalidStream s := by
  unfold failFrame
  split <;> rfl

/-- `invalid_stream` in pull mode past the headers (60_exceptions.md R604). -/
theorem takeError_invalidStream_pull (hs : s.ctl.state = .decoding) (ha : s.ctl.api = .pull) :
    takeError .invalidStream s = { s with ctl.error := 21, regs.result := .error } := by
  simp [takeError, ErrCode.classIn, State.inHeaders, hs, ha, State.setError, State.setResult, ErrCode.code]

/-- From tables `tab`, the step reads exactly `bits` and raises `e`. -/
def FailsAfter (m : M α) (tab : Tables) (bits : List Bool) (e : ErrCode) : Prop :=
  ∀ s rest, s.tab = tab → s.Holds (bits ++ rest) → ∃ u, m s = .error e u ∧ u.Holds rest ∧ ReadFrom s u

theorem readFrom_of_parsed (h : ParsedFrom s t s.tab) : ReadFrom s t := ⟨h.within, h.frame⟩

theorem fails_raise {tab : Tables} (e : ErrCode) : FailsAfter (raise e : M α) tab [] e :=
  fun s _ _ h => ⟨s, rfl, h, readFrom_refl s⟩

theorem fails_bind {m : M α} {k : α → M β} {tab : Tables} {b1 b2 : List Bool} {a : α} (hm : Parses m tab tab b1 a)
    (hk : FailsAfter (k a) tab b2 e) : FailsAfter (m >>= k) tab (b1 ++ b2) e := by
  intro s rest ht h
  rw [List.append_assoc] at h
  obtain ⟨u, hu, h1, h2⟩ := hm s _ ht h
  obtain ⟨v, hv, h3, h4⟩ := hk u rest (parsedFrom_tab h2) h1
  exact ⟨v, by rw [bind_ok hu, hv], h3, readFrom_trans (readFrom_of_parsed (ht ▸ h2)) h4⟩

/-! ### Type fields -/

theorem decodeLookup_reserved (site : LookupSite) {v : Nat} (h : 3 ≤ v) :
    decodeLookup site v = .error .reservedLookupType := by
  unfold decodeLookup
  split <;> try omega
  rfl

theorem decodeFloor_reserved (site : FloorSite) {v : Nat} (h : 2 ≤ v) : decodeFloor site v = .error .reservedFloorType := by
  unfold decodeFloor
  split <;> try omega
  rfl

theorem decodeResidue_reserved (site : ResidueSite) {v : Nat} (h : 3 ≤ v) :
    decodeResidue site v = .error .reservedResidueType := by
  unfold decodeResidue
  split <;> try omega
  rfl

theorem decodeMapping_reserved {v : Nat} (h : 1 ≤ v) : decodePoint .mapping v = .error .reservedMappingType :=
  if_neg (by omega)

/-- A type field of the setup body that holds a reserved value (30_encoding.md R192). -/
structure ReservedField (p : StreamPoint) (v : Nat) : Prop where
  field : fetchSelector p = setupBits p.width
  narrow : p.width ≤ 32
  fits : v < 2 ^ p.width
  rejected : ∃ r, decodePoint p v = .error r ∧ rejectError r = .invalidSetup

theorem reservedField_lookup {v : Nat} (h : 3 ≤ v) (hv : v < 2 ^ 4) : ReservedField (.lookup .setup) v :=
  ⟨rfl, by decide, hv, _, decodeLookup_reserved _ h, rfl⟩

theorem reservedField_floor {v : Nat} (h : 2 ≤ v) (hv : v < 2 ^ 16) : ReservedField (.floor .setup) v :=
  ⟨rfl, by decide, hv, _, decodeFloor_reserved _ h, rfl⟩

theorem reservedField_residue {v : Nat} (h : 3 ≤ v) (hv : v < 2 ^ 16) : ReservedField (.residue .setup) v :=
  ⟨rfl, by decide, hv, _, decodeResidue_reserved _ h, rfl⟩

theorem reservedField_mapping {v : Nat} (h : 1 ≤ v) (hv : v < 2 ^ 16) : ReservedField .mapping v :=
  ⟨rfl, by decide, hv, _, decodeMapping_reserved h, rfl⟩

/-- Reading a reserved type field consumes its bits and raises `invalid_setup` (30_encoding.md R192). -/
theorem runPoint_reserved {p : StreamPoint} {v : Nat} {rest : List Bool} (hp : ReservedField p v)
    (h : s.Holds (fieldBits p.width v ++ rest)) :
    ∃ t, ReadFrom s t ∧ t.Holds rest ∧ runPoint p s = .next (failFrame .invalidSetup t) := by
  obtain ⟨t, ht, hrest, hfrom⟩ := parses_setupBits hp.fits hp.narrow s rest rfl h
  obtain ⟨r, hd, hr⟩ := hp.rejected
  have hdecode : decode (.stream p) v = .error r := by rw [decode, Nat.mod_eq_of_lt hp.fits, hd]
  refine ⟨t, readFrom_of_parsed hfrom, hrest, ?_⟩
  rw [← hr]
  exact runPoint_rejected (hp.field ▸ ht) hdecode

/-! ### Header beginnings -/

/-- A packet byte inside the page, EOP at the packet's end (40_bitreader.md R206, R207). -/
theorem get8Packet_here (h : s.PacketHere) :
    ∃ t, get8Packet s = .ok s.packetBytes.head? t ∧ t.PacketHere ∧ t.packetBytes = s.packetBytes.tail := by
  cases hb : s.packetBytes with
  | cons b bs =>
    obtain ⟨t, ht, hhere, hrest, -⟩ := takes_get8Packet b s bs rfl rfl h hb
    exact ⟨t, ht, hhere, hrest⟩
  | nil =>
    have h0 : s.packetSize = 0 := by rw [← packetBytes_length, hb]; rfl
    obtain ⟨c, hget, hc, -⟩ := get8PacketRaw_end h h0
    obtain ⟨hhere, hsize⟩ := end_here h h0 hc
    refine ⟨{ s with cur := c, rd.validBits := 0 }, ?_, ⟨hhere.latched, hhere.fits, hhere.live⟩, packetBytes_nil hsize⟩
    unfold get8Packet
    rw [bind_ok hget]
    rfl

/-- Reading as many packet bytes as `expected` has gives those bytes only if the packet begins with them. -/
theorem readMany_get8Packet : ∀ (expected : List Byte) {s : State}, s.PacketHere →
    ∃ r t, readMany get8Packet expected.length s = .ok r t ∧
      (r = expected.map some → s.packetBytes.take expected.length = expected)
  | [], s, _ => ⟨[], s, rfl, fun _ => rfl⟩
  | b :: bs, s, h => by
    obtain ⟨t, ht, hhere, htail⟩ := get8Packet_here h
    obtain ⟨r, u, hu, hr⟩ := readMany_get8Packet bs hhere
    refine ⟨s.packetBytes.head? :: r, u, by rw [List.length_cons, readMany, bind_ok ht, bind_ok hu]; rfl, fun he => ?_⟩
    obtain ⟨hhead, hrest⟩ := List.cons.inj he
    obtain ⟨l, hl⟩ := List.head?_eq_some_iff.1 hhead
    rw [htail, hl] at hr
    rw [hl, List.length_cons, List.take_succ_cons]
    exact congrArg (b :: ·) (hr hrest)

/-- A packet that does not go on with "vorbis" (42_setup.md R282, R286, R288). -/
theorem vorbisString_fails (e : ErrCode) (h : s.PacketHere) (hv : s.packetBytes.take 6 ≠ vorbisBytes) :
    ∃ t, vorbisString e s = .error e t := by
  obtain ⟨r, t, ht, hr⟩ := readMany_get8Packet vorbisBytes h
  have hne : (r == vorbisBytes.map some) = false := beq_eq_false_iff_ne.2 fun he => hv (hr he)
  refine ⟨t, ?_⟩
  unfold vorbisString
  rw [show 6 = vorbisBytes.length from rfl, bind_ok ht, hne, check_false]

/-- A header instruction fails with its packet's code when "vorbis" does not follow (30_encoding.md R191). -/
theorem exec_header_fails (k : HeaderKind) (h : s.PacketHere) (hv : s.packetBytes.take 6 ≠ vorbisBytes) :
    ∃ t, exec k.instr s = .next (failFrame (headerError k) t) := by
  obtain ⟨t, ht⟩ := vorbisString_fails (headerError k) h hv
  refine ⟨t, ?_⟩
  cases k with
  | identification => exact runElement_error (m := identificationBody) (bind_error ht)
  | comment => exact runElement_error (m := commentBody) (bind_error ht)
  | setup => exact runElement_error (m := setupBody) (bind_error ht)

theorem typeByte_lt (k : HeaderKind) : k.typeByte < 255 := by cases k <;> decide

/-- The selector byte of a header is its type byte only where the packet begins with it; EOP reads as 0xFF. -/
theorem head_of_typeByte {k : HeaderKind} {x : Option Byte} (h : (eopByte x).toNat = k.typeByte) :
    x = some (BitVec.ofNat 8 k.typeByte) := by
  cases x with
  | none => exact absurd h (typeByte_lt k).ne'
  | some b => rw [← h, eopByte, BitVec.ofNat_toNat, BitVec.setWidth_eq]

theorem decode_header (k : HeaderKind) (b : Byte) : decode (.stream (.header k)) b.toNat =
    if b.toNat = k.typeByte then .ok k.instr else .error (.wrongHeaderType k) := by
  have hb : b.toNat % 2 ^ (StreamPoint.header k).width = b.toNat := Nat.mod_eq_of_lt b.isLt
  rw [decode, hb, decodePoint]

/-- The header's selector and its string are the only places where a wrong beginning shows (30_encoding.md R191). -/
theorem runPoint_header_fails (k : HeaderKind) (h : s.PacketHere)
    (hp : s.packetBytes.take 7 ≠ BitVec.ofNat 8 k.typeByte :: vorbisBytes) :
    ∃ t, runPoint (.header k) s = .next (failFrame (headerError k) t) := by
  obtain ⟨t, ht, hhere, htail⟩ := get8Packet_here h
  have hfetch : fetchSelector (.header k) s = .ok (eopByte s.packetBytes.head?).toNat t := by
    rw [fetchSelector, bind_ok ht, pure_run]
  have hd := decode_header k (eopByte s.packetBytes.head?)
  split at hd
  · next htype =>
    obtain ⟨l, hl⟩ := List.head?_eq_some_iff.1 (head_of_typeByte htype)
    rw [hl, List.tail_cons] at htail
    rw [hl, List.take_succ_cons] at hp
    have hv : t.packetBytes.take 6 ≠ vorbisBytes := fun hv => hp (by rw [← hv, htail])
    rw [runPoint_decoded hfetch hd]
    exact exec_header_fails k hhere hv
  · exact ⟨t, runPoint_rejected hfetch hd⟩

theorem headerError_class (k : HeaderKind) : (headerError k).classIn false = .setup := by cases k <;> rfl

theorem headerError_code (k : HeaderKind) :
    (headerError k).code = match k with | .identification => 34 | .comment => 20 | .setup => 20 := by
  cases k <;> rfl

/-! ### Lookup types -/

theorem lookupCount_lattice (cb : Codebook) : lookupCount .lattice cb = lookup1Values cb.entries cb.dimensions :=
  if_neg (by decide)

theorem lookupCount_direct (cb : Codebook) : lookupCount .direct cb = cb.entries * cb.dimensions := if_pos rfl

/-! ### Floor type 0 -/

/-- All fields of a floor of type 0 are read before it is reported (42_setup.md R311). -/
theorem fails_floor0Setup {tab : Tables} {order rate barkMapSize amplitudeBits amplitudeOffset : Nat} {books : List Nat}
    (horder : order < 2 ^ 8) (hrate : rate < 2 ^ 16) (hbark : barkMapSize < 2 ^ 16) (hbits : amplitudeBits < 2 ^ 6)
    (hoffset : amplitudeOffset < 2 ^ 8) (hcount : CountOk 4 books.length) (hbooks : ∀ b ∈ books, b < 2 ^ 8) :
    FailsAfter floor0Setup tab (fieldBits 8 order ++ (fieldBits 16 rate ++ (fieldBits 16 barkMapSize
      ++ (fieldBits 6 amplitudeBits ++ (fieldBits 8 amplitudeOffset ++ (fieldBits 4 (books.length - 1)
        ++ (books.flatMap (fieldBits 8) ++ []))))))) .featureNotSupported := by
  refine fails_bind (parses_setupBits horder (by decide)) (fails_bind (parses_setupBits hrate (by decide)) ?_)
  refine fails_bind (parses_setupBits hbark (by decide)) (fails_bind (parses_setupBits hbits (by decide)) ?_)
  refine fails_bind (parses_setupBits hoffset (by decide)) ?_
  obtain ⟨hone, hmax⟩ := hcount
  refine fails_bind (parses_setupBits (v := books.length - 1) (by omega) (by decide)) ?_
  rw [Nat.sub_add_cancel hone]
  exact fails_bind (parses_fields (by decide) books hbooks) (fails_raise _)

/-! ### Audio packets -/

/-- A mode number outside the table flushes the packet (30_encoding.md R194). -/
theorem audioBody_badMode {m : Nat} {rest : List Bool} (hn : s.tab.modes.length ≤ 64) (hm : s.tab.modes.length ≤ m)
    (hw : m < 2 ^ ilog (s.tab.modes.length - 1)) (h : s.Holds (fieldBits (ilog (s.tab.modes.length - 1)) m ++ rest)) :
    ∃ t, audioBody s = .error .invalidStream t ∧ t.PacketDone ∧ ReadFrom s t := by
  have hwidth : ilog (s.tab.modes.length - 1) ≤ 32 := (ilog_le (n := 6) (by omega)).trans (by decide)
  obtain ⟨u, hu, hrest, hread⟩ := getBits_field h hw hwidth
  obtain ⟨t, ht, hdone, hflush⟩ := flushPacket_here hrest.here
  refine ⟨t, ?_, hdone, readFrom_trans hread hflush⟩
  unfold audioBody
  rw [get_bind, bind_ok hu, List.getElem?_eq_none hm]
  exact (bind_ok ht).trans (raise_run _ t)

/-! ### The statements -/

/-- Settles O38: each element is a setup parser on the bits its fields encode to. -/
theorem tableElements : Obligations.TableElements := by
  refine ⟨fun s f rest hf => runElement_parses (parses_floor1Setup hf), fun s ty i f rest hi hf h => ?_,
    fun s f rest hc hf => runElement_parses (parses_mapping0Setup (by omega) hf)⟩
  have hexec : exec i s = runElement (residueSetupAs ty) s := by
    simp only [List.mem_cons, Prod.mk.injEq, List.not_mem_nil, or_false] at hi
    obtain ⟨rfl, rfl⟩ | ⟨rfl, rfl⟩ | ⟨rfl, rfl⟩ := hi <;> rfl
  rw [hexec]
  exact runElement_parses (parses_residueSetup ty hf) h

/-- Settles O36: both lookup types with VQ fields run the same setup parser. -/
protected theorem lookupSetup : Obligations.LookupSetup := by
  intro s lt i f pre cb cws rest hi htab hf hcws h
  simp only [List.mem_cons, Prod.mk.injEq, List.not_mem_nil, or_false] at hi
  obtain ⟨rfl, rfl⟩ | ⟨rfl, rfl⟩ := hi
  · have hparse := parses_lookupSetup (by decide) htab hf hcws
    rw [LookupFields.apply, lookupCount_lattice] at hparse
    exact runElement_parses hparse h
  · have hparse := parses_lookupSetup (by decide) htab hf hcws
    rw [LookupFields.apply, lookupCount_direct] at hparse
    exact runElement_parses hparse h

/-- Settles O37: the parser reads every field and then raises. -/
theorem floorTypeZero : Obligations.FloorTypeZero := by
  intro s order rate barkMapSize amplitudeBits amplitudeOffset books rest ho hr hb ha hoff h1 h16 hbooks h
  have hfails := fails_floor0Setup (tab := s.tab) ho hr hb ha hoff ⟨h1, h16⟩ hbooks
  obtain ⟨t, ht, hrest, hread⟩ := hfails s rest rfl (by simpa only [List.append_assoc, List.nil_append] using h)
  exact ⟨t, hread, hrest, (runElement_error ht).trans (congrArg Host.Outcome.next (failFrame_setup rfl t))⟩

/-- Settles O34: the four type fields are each read as a setup field, and a reserved value decodes to nothing. -/
theorem reservedTypeFields : Obligations.ReservedTypeFields := by
  intro s p v rest bits hpending hp h
  have hfield : ReservedField p v := by
    obtain ⟨rfl, hmin, hv⟩ | ⟨rfl, hmin, hv⟩ | ⟨rfl, hmin, hv⟩ | ⟨rfl, hmin, hv⟩ := hp
    · exact reservedField_lookup hmin hv
    · exact reservedField_floor hmin hv
    · exact reservedField_residue hmin hv
    · exact reservedField_mapping hmin hv
  have h' : ({ s with pending := rest } : State).Holds (fieldBits p.width v ++ bits) :=
    ⟨⟨h.here.latched, h.here.fits, h.here.live⟩, h.reader, h.valid, h.bits⟩
  obtain ⟨t, hread, hrest, hrun⟩ := runPoint_reserved hfield h'
  refine ⟨t, hread, hrest, ?_⟩
  rw [failFrame_setup rfl] at hrun
  exact (step_serve hpending).trans hrun

/-- Settles O33: the wrong beginning is met in the type byte or in the string, with the same code. -/
theorem headerPrefix : Obligations.HeaderPrefix := by
  intro s k rest hpending h hp
  have h' : ({ s with pending := rest } : State).PacketHere := ⟨h.latched, h.fits, h.live⟩
  obtain ⟨t, ht⟩ := runPoint_header_fails k h' hp
  rw [failFrame_setup (headerError_class k)] at ht
  exact ⟨_, (step_serve hpending).trans ht, headerError_code k, rfl, rfl, rfl⟩

/-- Settles O41: the flushed packet's error is taken as it stands, which in pull mode only records it. -/
theorem badModeNumber : Obligations.BadModeNumber := by
  intro s m rest hn hm hw h
  obtain ⟨t, ht, hdone, hread⟩ := audioBody_badMode hn hm hw h
  have hexec : exec .audioPacket s = .next (failFrame .invalidStream t) := by
    show execAudioPacket s = _
    simp only [execAudioPacket, ht]
  rw [failFrame_invalidStream] at hexec
  have hctl : t.ctl = s.ctl := by rw [hread.frame]
  exact ⟨t, hdone, hread, hexec, fun hs ha => takeError_invalidStream_pull (hctl ▸ hs) (hctl ▸ ha)⟩

end Sys2Proof.Proofs
end

section
/-! SUPPORT. Reading bits past the end of a packet (40_bitreader.md R209): the refill meets the end, the reader becomes invalid, and an
invalid reader gives 0. -/

namespace Sys2Proof.Proofs

open Sys2Proof Sys2Proof.Machine

variable {s : State} {bits : List Bool} {n : Nat}

/-! ### Two reads for one field -/

/-- A field of more than 24 bits that are not all held is its first 24 bits and the rest above them. -/
theorem getBits_split {t u : State} {lo hi : Nat} (hv : s.rd.validBits < n) (hn : 24 < n) (hlo : getBitsShort 24 s = .ok lo t)
    (hhi : getBitsShort (n - 24) t = .ok hi u) : getBits n s = .ok ((lo + hi * 2 ^ 24) % 2 ^ 32) u := by
  unfold getBits
  rw [get_bind, if_pos ⟨hv, hn⟩, bind_ok hlo, bind_ok hhi, pure_run]

/-- A field of at most 24 bits is one read. -/
theorem getBits_eq_getBitsShort (hn : n ≤ 24) : getBits n s = getBitsShort n s := by
  unfold getBits
  rw [get_bind, if_neg (by omega)]

/-! ### An invalid reader -/

theorem getBitsShort_invalid (h : s.rd.validBits < 0) (n : Nat) : getBitsShort n s = .ok 0 s := by
  unfold getBitsShort
  rw [get_bind, if_pos h, pure_run]

/-- The invalid state is sticky: each of the two reads of a long field gives 0 too. -/
theorem getBits_invalid (h : s.rd.validBits < 0) (n : Nat) : getBits n s = .ok 0 s := by
  by_cases hn : n ≤ 24
  · rw [getBits_eq_getBitsShort hn, getBitsShort_invalid h]
  · exact getBits_split (by omega) (by omega) (getBitsShort_invalid h 24) (getBitsShort_invalid h (n - 24))

/-! ### The end of the packet -/

theorem validBits_lt_of_length_lt (h : s.Holds bits) (hlt : bits.length < n) : s.rd.validBits < n := by
  have hlen := holds_length h
  have hvalid := h.valid
  omega

/-- A refill for more bits than are unread meets the end of the packet. -/
theorem refill_past {fuel : Nat} (h : s.Holds bits) (hn : n ≤ 32) (hlt : bits.length < n) (hfuel : n ≤ 8 * fuel) :
    ∃ t, refill n fuel s = .ok false t ∧ ReadFrom s t ∧ t.packetSize = 0 := by
  obtain ⟨ok, t, ht, hholds, hread, hheld, hend⟩ := refill_holds hn (fuel := fuel) h
  have hok : ok = false := by
    by_contra htrue
    have henough := hheld (by simpa using htrue) (by have := h.valid; omega)
    exact absurd (validBits_lt_of_length_lt hholds hlt) (not_lt.2 henough)
  subst hok
  exact ⟨t, ht, hread, (hend rfl).1⟩

/-- One read past the end gives 0, takes the rest of the packet and leaves the reader invalid. -/
theorem getBitsShort_past (h : s.Holds bits) (hn : n ≤ 32) (hlt : bits.length < n) :
    ∃ t, getBitsShort n s = .ok 0 t ∧ t.rd.validBits = -1 ∧ ReadFrom s t ∧ t.packetSize = 0 := by
  obtain ⟨t, ht, hread, hsize⟩ := refill_past (fuel := 5) (clearEmpty_holds n h).1 hn hlt (by omega)
  refine ⟨{ t with rd := { t.rd with validBits := -1 } }, ?_, rfl,
    readFrom_trans (readFrom_trans (readFrom_reader s _) hread) (readFrom_reader t _), hsize⟩
  unfold getBitsShort
  rw [get_bind, if_neg (not_lt.2 h.valid), bind_ok (setReader_run _ s), bind_ok ht]
  rfl

/-- A long field whose first 24 bits are there: the second read meets the end and adds nothing. -/
theorem getBits_past_rest (h : s.Holds bits) (hn : n ≤ 32) (hlt : bits.length < n) (hfirst : 24 ≤ bits.length) :
    ∃ t, getBits n s = .ok (bitsValue (bits.take 24)) t ∧ t.rd.validBits = -1 ∧ ReadFrom s t ∧ t.packetSize = 0 := by
  obtain ⟨t, ht, hrest, hread⟩ := getBitsShort_holds h hfirst (Or.inl le_rfl)
  have hlong : 24 < n := by omega
  have hshort : (bits.drop 24).length < n - 24 := by
    rw [List.length_drop]
    omega
  obtain ⟨u, hu, hinvalid, hread', hsize⟩ := getBitsShort_past hrest (by omega) hshort
  have hvalue : bitsValue (bits.take 24) < 2 ^ 24 := by
    simpa [hfirst] using bitsValue_lt (bits.take 24)
  refine ⟨u, ?_, hinvalid, readFrom_trans hread hread', hsize⟩
  rw [getBits_split (validBits_lt_of_length_lt h hlt) hlong ht hu, Nat.zero_mul, Nat.add_zero, Nat.mod_eq_of_lt (by omega)]

/-- Any other field past the end: its first read meets the end, and where there is a second one the reader is invalid by then. -/
theorem getBits_past_first (h : s.Holds bits) (hn : n ≤ 32) (hlt : bits.length < n) (hfirst : n ≤ 24 ∨ bits.length < 24) :
    ∃ t, getBits n s = .ok 0 t ∧ t.rd.validBits = -1 ∧ ReadFrom s t ∧ t.packetSize = 0 := by
  by_cases hn24 : n ≤ 24
  · rw [getBits_eq_getBitsShort hn24]
    exact getBitsShort_past h hn hlt
  · obtain ⟨t, ht, hinvalid, hread, hsize⟩ := getBitsShort_past (n := 24) h (by omega) (by omega)
    have hrest := getBitsShort_invalid (show t.rd.validBits < 0 by omega) (n - 24)
    exact ⟨t, getBits_split (validBits_lt_of_length_lt h hlt) (by omega) ht hrest, hinvalid, hread, hsize⟩

/-! ### The statements -/

/-- Settles O48: the end is met in the second read of a long field whose first 24 bits are there, and in the first read otherwise. -/
theorem bitsExhausted : Obligations.BitsExhausted := by
  refine ⟨fun s bits n h hn hlt => ?_, fun _ n h => getBits_invalid h n⟩
  split
  · next hsecond => exact getBits_past_rest h hn hlt hsecond.2
  · next hfirst => exact getBits_past_first h hn hlt (by omega)

end Sys2Proof.Proofs
end

section
/-! SUPPORT. Page headers and packet starts (41_ogg_framer.md R233 to R242): the segment with a known end, the machine after OGG_PAGE,
and where the next packet begins. -/

namespace Sys2Proof.Proofs

open Sys2Proof Sys2Proof.Machine

variable {s : State} {segs : List Byte}

/-! ### The segment with a known end -/

theorem byte_lt_255_iff (b : Byte) : b < 255 ↔ b ≠ 255 := by
  constructor <;> intro h <;> bv_omega

/-- One segment more: it is the last one that ends a packet, if it ends one. -/
theorem lastEndingSegment_concat (segs : List Byte) (b : Byte) :
    lastEndingSegment (segs ++ [b]) = if b < 255 then (segs.length : Int) else lastEndingSegment segs := by
  simp [lastEndingSegment, List.zipIdx_append]

theorem lastEndingSegment_full (h : ∀ b ∈ segs, b = 255) : lastEndingSegment segs = -1 := by
  induction segs using List.reverseRecOn with
  | nil => rfl
  | append_singleton segs b ih =>
    have hb : b = 255 := h b (by simp)
    rw [lastEndingSegment_concat, if_neg (by simp [hb]), ih fun x hx => h x (by simp [hx])]

theorem lastEndingSegment_eq {i : Nat} (hi : i < segs.length) (hend : segs.getD i 0 < 255)
    (hfull : ∀ j, i < j → j < segs.length → segs.getD j 0 = 255) : lastEndingSegment segs = i := by
  induction segs using List.reverseRecOn with
  | nil => cases hi
  | append_singleton segs b ih =>
    have hlast : (segs ++ [b]).getD segs.length 0 = b := by simp
    have hbefore : ∀ j < segs.length, (segs ++ [b]).getD j 0 = segs.getD j 0 := fun j hj => List.getD_append _ _ _ _ hj
    rw [List.length_append, List.length_singleton] at hi
    rw [lastEndingSegment_concat]
    rcases Nat.lt_or_eq_of_le (Nat.le_of_lt_succ hi) with hlt | rfl
    · have hb : b = 255 := hlast ▸ hfull segs.length hlt (by simp)
      rw [if_neg (by simp [hb])]
      refine ih hlt (hbefore i hlt ▸ hend) fun j hij hj => ?_
      rw [← hbefore j hj]
      exact hfull j hij (by rw [List.length_append]; omega)
    · rw [if_pos (hlast ▸ hend)]

/-- Settles O29: the last segment below 255 is the one `lastEndingSegment` finds, and there is one just when its index is not
negative. -/
theorem knownGranule : Obligations.KnownGranule := by
  refine fun flag granule segments c => ⟨fun hnone => ?_, fun i hi hgranule hend hfull => ?_⟩
  · have hunknown : ¬ (granule ≠ BitVec.allOnes 64 ∧ 0 ≤ lastEndingSegment segments) := by
      rintro ⟨hgranule, hending⟩
      rcases hnone with hg | hfull
      · exact hgranule hg
      · rw [lastEndingSegment_full hfull] at hending
        omega
    exact if_neg hunknown
  · have hlast := lastEndingSegment_eq hi hend hfull
    have hknown : granule ≠ BitVec.allOnes 64 ∧ 0 ≤ lastEndingSegment segments := ⟨hgranule, by omega⟩
    exact ⟨(if_pos hknown).trans hlast, if_pos hknown⟩

/-! ### OGG_PAGE -/

/-- Settles O28: `State.pageRead` is the machine that reading the header leaves. -/
theorem pageHeader : Obligations.PageHeader := by
  intro s f rest hsegments hahead
  have hread : exec .oggPage s = .next (s.pageRead f) := runElement_ok (startPageNoCapture_ahead hsegments hahead)
  exact ⟨_, hread, rfl, rfl, rfl, List.take_left, rfl, rfl⟩

/-! ### The next packet -/

/-- `start_packet()` where a segment is latched opens the packet there (41_ogg_framer.md R241). -/
theorem startPacket_latched (h : s.cur.nextSeg ≠ -1) : startPacket s = .ok () s.opened := by
  have hpages : startPacketPages (s.src.len.toNat + 1) s = .ok () s := by
    rw [startPacketPages, get_bind, if_neg h, pure_run]
  unfold startPacket
  rw [get_bind, bind_ok hpages, openPacket_run]

theorem maybeStartPacket_latched (h : s.cur.nextSeg ≠ -1) : maybeStartPacket s = .ok true s.opened := by
  unfold maybeStartPacket
  rw [get_bind, if_neg h, bind_ok (startPacket_latched h), pure_run]

/-- The machine with the place recorded at which a page is looked for (notes/assumptions/16.md). -/
def marked (s : State) : State := { s with src.pageStart := s.src.pos }

theorem markPageStart_marked (s : State) : markPageStart s = .ok () (marked s) := rfl

theorem marked_ahead {bytes : List Byte} (h : s.Ahead bytes) : (marked s).Ahead bytes := ⟨h.fits, h.same, h.live⟩

/-- A packet start at the end of the source is the end of the stream (41_ogg_framer.md R242). -/
theorem maybeStartPacket_end (h : s.cur.nextSeg = -1) (hend : s.src.len ≤ s.src.pos) :
    maybeStartPacket s = .ok false { s with src.eof := true, src.pageStart := s.src.pos } := by
  have hread : get8 (marked s) = .ok 0 { marked s with src.eof := true } := inByte_past hend
  unfold maybeStartPacket
  rw [get_bind, if_pos h, bind_ok (markPageStart_marked s), bind_ok hread, get_bind]
  rfl

/-- The capture test reads the bytes it is given (41_ogg_framer.md R242). -/
theorem gets_captureRest : ∀ bs : List Byte, Gets (captureRest bs) bs true
  | [] => gets_pure true
  | b :: bs => gets_bind (gets_get8 b) (by
    rw [if_pos rfl]
    exact gets_captureRest bs)

/-- A packet start at a page just ahead (41_ogg_framer.md R242). -/
theorem maybeStartPacket_page {f : PageFields} {rest : List Byte} (h : s.cur.nextSeg = -1) (hcontinued : pageContinued f.flag = false)
    (hne : f.segments ≠ []) (hsegments : f.segments.length ≤ 255) (hahead : s.Ahead (captureBytes ++ (f.encode ++ rest))) :
    maybeStartPacket s = .ok true (s.captured.pageRead f).opened := by
  have hmarked : (marked s).Ahead ([0x4F] ++ ([0x67, 0x67, 0x53] ++ (f.encode ++ rest))) := marked_ahead hahead
  have hfirst : get8 (marked s) = .ok 0x4F ((marked s).moved 1) := gets_get8 0x4F _ _ hmarked
  have hrest : captureRest [0x67, 0x67, 0x53] ((marked s).moved 1) = .ok true s.captured :=
    (gets_captureRest _ _ _ (ahead_moved hmarked)).trans (congrArg (EStateM.Result.ok true) (moved_moved (marked s) 1 3))
  have hread := startPageNoCapture_ahead hsegments (captured_ahead hahead)
  have hlive : ¬ ((marked s).moved 1).src.eof = true := by
    rw [show ((marked s).moved 1).src.eof = false from hahead.live]
    decide
  have hflag : ¬ pageContinued (s.captured.pageRead f).cur.pageFlag = true := by
    rw [show (s.captured.pageRead f).cur.pageFlag = f.flag from rfl, hcontinued]
    decide
  have hseg : (s.captured.pageRead f).cur.nextSeg ≠ -1 := by
    rw [show (s.captured.pageRead f).cur.nextSeg = 0 from if_neg (by simpa using hne)]
    decide
  unfold maybeStartPacket
  rw [get_bind, if_pos h, bind_ok (markPageStart_marked s), bind_ok hfirst, get_bind, if_neg hlive, if_neg (by simp),
    bind_ok hrest, if_neg (by simp), bind_ok hread, get_bind, if_neg hflag, startPacketOrEnd_ok (startPacket_latched hseg)]

/-- Settles O20: each clause is one of the packet start's three ways. -/
theorem packetStart : Obligations.PacketStart :=
  ⟨fun _ => maybeStartPacket_latched, fun _ _ _ => maybeStartPacket_page, fun _ => maybeStartPacket_end⟩

end Sys2Proof.Proofs
end

section
/-! SUPPORT. The page checksum (41_ogg_framer.md R250 to R252): the table's update is eight shifts of the polynomial, because a shift
is linear and drops no set bit of the low 24. -/

namespace Sys2Proof.Proofs

open Sys2Proof Sys2Proof.Machine

/-! ### Shifts of the polynomial -/

theorem crcShift_xor (a b : Word) : crcShift (a ^^^ b) = crcShift a ^^^ crcShift b := by
  unfold crcShift
  rw [BitVec.getLsbD_xor, BitVec.shiftLeft_xor_distrib]
  generalize a <<< 1 = x, b <<< 1 = y, (0x04C11DB7 : Word) = p
  cases a.getLsbD 31 <;> cases b.getLsbD 31
  · rfl
  · exact BitVec.xor_assoc x y p
  · show x ^^^ y ^^^ p = x ^^^ p ^^^ y
    ac_rfl
  · show x ^^^ y = x ^^^ p ^^^ (y ^^^ p)
    rw [show x ^^^ p ^^^ (y ^^^ p) = x ^^^ y ^^^ (p ^^^ p) by ac_rfl, BitVec.xor_self, BitVec.xor_zero]

theorem crcShift_repeat_xor (n : Nat) (a b : Word) :
    Nat.repeat crcShift n (a ^^^ b) = Nat.repeat crcShift n a ^^^ Nat.repeat crcShift n b := by
  induction n with
  | zero => rfl
  | succ n ih => exact (congrArg crcShift ih).trans (crcShift_xor _ _)

/-- Shifts that push no set bit out meet no carry. -/
theorem crcShift_repeat_low {n : Nat} {x : Word} (hn : n ≤ 32) (hx : x.toNat < 2 ^ (32 - n)) :
    Nat.repeat crcShift n x = x <<< n := by
  induction n with
  | zero => exact (BitVec.shiftLeft_zero x).symm
  | succ n ih =>
    have hsmaller : x.toNat < 2 ^ (32 - n) := lt_of_lt_of_le hx (Nat.pow_le_pow_right (by omega) (by omega))
    have hbit : x.getLsbD (31 - n) = false := Nat.testBit_lt_two_pow (by rwa [show 31 - n = 32 - (n + 1) by omega])
    have hcarry : (x <<< n).getLsbD 31 = false := by rw [BitVec.getLsbD_shiftLeft, hbit, Bool.and_false]
    show crcShift (Nat.repeat crcShift n x) = _
    rw [ih (by omega) hsmaller, crcShift, hcarry, if_neg (by decide), BitVec.shiftLeft_add]

/-! ### The table's update -/

/-- The low 24 bits of a checksum, which one update only shifts. -/
def crcLow (crc : Word) : Word := (crc.setWidth 24).setWidth 32

theorem crcLow_lt (crc : Word) : (crcLow crc).toNat < 2 ^ (32 - 8) := by
  rw [crcLow, BitVec.toNat_setWidth_of_le (by decide)]
  exact (crc.setWidth 24).isLt

theorem crcLow_shift (crc : Word) : crcLow crc <<< 8 = crc <<< 8 := by
  refine BitVec.eq_of_getLsbD_eq fun i hi => ?_
  simp only [crcLow, BitVec.getLsbD_shiftLeft, BitVec.getLsbD_setWidth]
  rw [decide_eq_true (show i - 8 < 24 by omega), decide_eq_true (show i - 8 < 32 by omega), Bool.true_and, Bool.true_and]

/-- The byte of the message meets the checksum's top byte, and the low bits stay. -/
theorem crc_xor_byte (crc : Word) (b : Byte) :
    crc ^^^ (b.setWidth 32 <<< 24) = ((b ^^^ crc.extractLsb' 24 8).setWidth 32 <<< 24) ^^^ crcLow crc := by
  refine BitVec.eq_of_getLsbD_eq fun i hi => ?_
  simp only [crcLow, BitVec.getLsbD_xor, BitVec.getLsbD_shiftLeft, BitVec.getLsbD_setWidth, BitVec.getLsbD_extractLsb']
  by_cases h : i < 24
  · simp only [h, hi, decide_true, Bool.not_true, Bool.and_false, Bool.false_and, Bool.true_and, Bool.xor_false, Bool.false_xor]
  · have h8 : i - 24 < 8 := by omega
    have h32 : i - 24 < 32 := by omega
    have htop : 24 + (i - 24) = i := by omega
    simp only [h, hi, h8, h32, htop, decide_true, decide_false, Bool.not_false, Bool.false_and, Bool.and_false, Bool.true_and,
      Bool.xor_false]
    exact Bool.xor_comm _ _

/-- One update by the table is eight shifts (41_ogg_framer.md R250, R251). -/
theorem crcTable_update (crc : Word) (b : Byte) : (crc <<< 8) ^^^ crcTable (b ^^^ crc.extractLsb' 24 8) =
    Nat.repeat crcShift 8 (crc ^^^ (b.setWidth 32 <<< 24)) := by
  rw [crc_xor_byte, crcShift_repeat_xor, crcShift_repeat_low (by decide) (crcLow_lt crc), crcLow_shift, BitVec.xor_comm]
  rfl

theorem crc32Update_eq (crc : Word) (b : Byte) :
    crc32Update crc b = (crc <<< 8) ^^^ crcTable (b ^^^ crc.extractLsb' 24 8) := by
  have hbyte : (crc >>> 24).setWidth 8 = crc.extractLsb' 24 8 := by
    ext i hi
    simp
  rw [crc32Update, hbyte]

/-! ### The checksum of a page -/

theorem zeroCrcField_eq (bytes : List Byte) :
    zeroCrcField bytes = (bytes.take 22 ++ (List.replicate 4 0 ++ bytes.drop 26)).take bytes.length := by
  have hlen : (zeroCrcField bytes).length = bytes.length := by simp [zeroCrcField]
  refine List.ext_getElem (by simp [hlen]; omega) fun i hi _ => ?_
  rw [hlen] at hi
  simp only [zeroCrcField, List.getElem_map, List.getElem_zipIdx, List.getElem_take, List.getElem_append, List.getElem_replicate,
    List.getElem_drop, List.length_take, List.length_replicate, Nat.zero_add]
  split_ifs with hfield hbefore hinside hbefore hinside
  · omega
  · rfl
  · omega
  · rfl
  · omega
  · congr 1
    omega

theorem pageCrc_eq (bytes : List Byte) : pageCrc bytes =
    ((bytes.take 22 ++ (List.replicate 4 0 ++ bytes.drop 26)).take bytes.length).foldl
      (fun crc b => (crc <<< 8) ^^^ crcTable (b ^^^ crc.extractLsb' 24 8)) 0 := by
  have hupdate : crc32Update = fun (crc : Word) b => (crc <<< 8) ^^^ crcTable (b ^^^ crc.extractLsb' 24 8) :=
    funext fun crc => funext fun b => crc32Update_eq crc b
  rw [pageCrc, crcOf, zeroCrcField_eq, hupdate]

end Sys2Proof.Proofs
end

section
/-! SUPPORT. Resynchronisation of a push decode (41_ogg_framer.md R256, 48_frame_control.md R542): what a chunk holds at an offset, and
where the scan stops. -/

namespace Sys2Proof.Proofs

open Sys2Proof Sys2Proof.Machine

variable {s c : State} {i k n : Nat} {g : BitVec 64}

/-! ### What stands at an offset -/

theorem chunkByte_eq_byteAt (h : i < c.src.len.toNat) : c.chunkByte i = c.byteAt i := (if_pos h).symm

theorem chunkBytes_eq_bytesAt (h : i + n ≤ c.src.len.toNat) : c.chunkBytes i n = c.bytesAt i n := by
  refine List.map_congr_left fun k hk => chunkByte_eq_byteAt ?_
  have := List.mem_range.1 hk
  omega

/-- A page begins with its header and its segment table. -/
theorem pageSize_ge (c : State) (i : Nat) : 27 + (c.byteAt (i + 26)).toNat ≤ c.pageSize i := Nat.le_add_right _ _

/-- The answers of the test in the terms of the source's bytes: too short for a pattern, no pattern, a page that passes the chunk, and
a whole page with a checksum that holds or does not (41_ogg_framer.md R256). -/
theorem pageAt_eq (h : i < c.src.len.toNat) : pageAt c i =
    if c.src.len.toNat < i + 4 then
      if c.bytesAt i (c.src.len.toNat - i) = captureBytes.take (c.src.len.toNat - i) then .couldBegin else .none
    else if c.bytesAt i 4 ≠ captureBytes then .none
    else if c.src.len.toNat < i + 27 ∨ c.src.len.toNat < i + c.pageSize i then .couldBegin
    else if pageCrc (c.bytesAt i (c.pageSize i)) = crcField (c.bytesAt i (c.pageSize i)) then
      .whole (c.granuleAt (BitVec.ofNat 32 i))
    else .none := by
  have htable := pageSize_ge c i
  unfold pageAt
  dsimp only
  by_cases hshort : c.src.len.toNat < i + 4
  · rw [if_pos (by omega), if_pos hshort, chunkBytes_eq_bytesAt (by omega)]
  rw [if_neg (by omega), if_neg hshort, chunkBytes_eq_bytesAt (by omega)]
  by_cases hcapture : c.bytesAt i 4 = captureBytes
  case neg => rw [if_pos hcapture, if_pos hcapture]
  rw [if_neg (not_not.2 hcapture), if_neg (not_not.2 hcapture)]
  by_cases hheader : c.src.len.toNat < i + 27
  · rw [if_pos (by omega), if_pos (.inl hheader)]
  rw [if_neg (by omega), chunkByte_eq_byteAt (by omega)]
  by_cases hcut : c.src.len.toNat < i + 27 + (c.byteAt (i + 26)).toNat
  · rw [if_pos (by omega), if_pos (by omega)]
  have hsize : 27 + (c.byteAt (i + 26)).toNat + lacingSum (c.bytesAt (i + 27) (c.byteAt (i + 26)).toNat) = c.pageSize i := rfl
  rw [if_neg (by omega), chunkBytes_eq_bytesAt (i := i + 27) (by omega), hsize]
  by_cases hbody : c.src.len.toNat < i + c.pageSize i
  · rw [if_pos (by omega), if_pos (.inr hbody)]
  · rw [if_neg (show ¬ c.src.len.toNat - i < c.pageSize i by omega), if_neg (not_or.2 ⟨hheader, hbody⟩),
      chunkBytes_eq_bytesAt (by omega)]

/-- Which offsets hold a whole page (41_ogg_framer.md R256). -/
theorem pageAt_whole_iff (h : i < c.src.len.toNat) : pageAt c i = .whole g ↔
    i + 27 ≤ c.src.len.toNat ∧ i + c.pageSize i ≤ c.src.len.toNat ∧ c.bytesAt i 4 = captureBytes ∧
      pageCrc (c.bytesAt i (c.pageSize i)) = crcField (c.bytesAt i (c.pageSize i)) ∧ g = c.granuleAt (BitVec.ofNat 32 i) := by
  rw [pageAt_eq h]
  constructor
  · intro hwhole
    split_ifs at hwhole with hshort hprefix hcapture hcut hcrc
    exact ⟨by omega, by omega, not_not.1 hcapture, hcrc, (PageAt.whole.inj hwhole).symm⟩
  · rintro ⟨hheader, hheld, hcapture, hcrc, rfl⟩
    rw [if_neg (by omega), if_neg (not_not.2 hcapture), if_neg (by omega), if_pos hcrc]

/-- At which offsets a page could begin once more bytes arrive (41_ogg_framer.md R256). -/
theorem pageAt_couldBegin_iff (h : i < c.src.len.toNat) : pageAt c i = .couldBegin ↔
    c.src.len.toNat < i + 4 ∧ c.bytesAt i (c.src.len.toNat - i) = captureBytes.take (c.src.len.toNat - i) ∨
    i + 4 ≤ c.src.len.toNat ∧ c.bytesAt i 4 = captureBytes ∧
      (c.src.len.toNat < i + 27 ∨ c.src.len.toNat < i + c.pageSize i) := by
  rw [pageAt_eq h]
  constructor
  · intro hbegin
    split_ifs at hbegin with hshort hprefix hcapture hcut
    · exact .inl ⟨hshort, hprefix⟩
    · exact .inr ⟨by omega, not_not.1 hcapture, hcut⟩
  · rintro (⟨hshort, hprefix⟩ | ⟨hlong, hcapture, hcut⟩)
    · rw [if_pos hshort, if_pos hprefix]
    · rw [if_neg (by omega), if_neg (not_not.2 hcapture), if_pos hcut]

/-! ### Where the scan stops -/

theorem findWhole_succ (h : ∀ g, pageAt s i ≠ .whole g) : findWhole s (n + 1) i = findWhole s n (i + 1) := by
  rw [findWhole]
  split
  · next g hg => exact absurd hg (h g)
  · rfl

/-- The scan answers the least offset of a whole page. -/
theorem findWhole_least (hik : i ≤ k) (hk : k < i + n) (hwhole : pageAt s k = .whole g)
    (hbefore : ∀ j < k, ∀ g', pageAt s j ≠ .whole g') : findWhole s n i = some (k, g) := by
  induction n generalizing i with
  | zero => omega
  | succ n ih =>
    rcases Nat.eq_or_lt_of_le hik with rfl | hlt
    · rw [findWhole, hwhole]
    · rw [findWhole_succ (hbefore i hlt), ih hlt (by omega)]

theorem findWhole_none (h : ∀ j < i + n, ∀ g, pageAt s j ≠ .whole g) : findWhole s n i = none := by
  induction n generalizing i with
  | zero => rfl
  | succ n ih => rw [findWhole_succ (h i (by omega)), ih fun j hj => h j (by omega)]

theorem findBeginning_succ (h : pageAt s i ≠ .couldBegin) : findBeginning s (n + 1) i = findBeginning s n (i + 1) := by
  rw [findBeginning]
  split
  · next hbegin => exact absurd hbegin h
  · rfl

/-- The tail kept begins at the least offset where a page could begin, or is empty. -/
theorem findBeginning_least (hik : i ≤ k) (hk : k ≤ i + n) (hbefore : ∀ j < k, pageAt s j ≠ .couldBegin)
    (hbegin : k < i + n → pageAt s k = .couldBegin) : findBeginning s n i = k := by
  induction n generalizing i with
  | zero => exact Nat.le_antisymm hik hk
  | succ n ih =>
    rcases Nat.eq_or_lt_of_le hik with rfl | hlt
    · rw [findBeginning, hbegin (by omega)]
    · rw [findBeginning_succ (hbefore i hlt), ih hlt (by omega) fun h => hbegin (by omega)]

theorem takeError_needMoreData (s : State) :
    takeError .needMoreData s = { s with ctl.error := 1, regs.ret0 := 0, regs.result := .needMoreData } := rfl

theorem resyncScan_whole (h : findWhole s s.src.len.toNat 0 = some (i, g)) : resyncScan s = { s with
    ctl.resync := false, ctl.previousLength := 0, ctl.currentLoc := g.setWidth 32
    ctl.currentLocValid := decide (g ≠ BitVec.allOnes 64), cur.nextSeg := -1
    regs.ret0 := BitVec.ofNat 32 i, regs.result := .ok } := by
  simp only [resyncScan, h]

theorem resyncScan_none (h : findWhole s s.src.len.toNat 0 = none) : resyncScan s = { s with
    ctl.error := 1, regs.ret0 := BitVec.ofNat 32 (findBeginning s s.src.len.toNat 0), regs.result := .needMoreData } := by
  simp only [resyncScan, h, takeError_needMoreData]

/-- PUSH_DECODE while resynchronising scans the chunk (48_frame_control.md R542). -/
theorem exec_pushDecode_resync (hstate : s.ctl.state = .decoding) (hapi : s.ctl.api = .push) (hresync : s.ctl.resync = true)
    (hc : c = { s.takeChunk with ctl.outLen := 0, regs.ret1 := 0, regs.ret2 := BitVec.ofNat 32 s.tab.channels }) :
    exec .pushDecode s = .next (resyncScan c) := by
  have hallowed : commandAllowed .pushDecode s.ctl.state = true := by rw [hstate]; rfl
  have hcommand : commandApi .pushDecode = some s.ctl.api := by rw [hapi]; rfl
  have hexec : exec .pushDecode s = .next (pushDecodeBody s) := congrArg Host.Outcome.next (runCommand_body hallowed hcommand)
  have hbody : pushDecodeBody s = resyncScan c := hc ▸ if_pos hresync
  rw [hexec, hbody]

/-! ### The statement -/

/-- Settles O25: the scan stops at the least offset of its kind, `pageAt_eq` says which kinds there are, and the table's update is
eight shifts. -/
theorem pushResync : Obligations.PushResync := by
  refine ⟨fun s c hstate hapi hresync hc => ?_, fun c i h => ⟨fun g => pageAt_whole_iff h, pageAt_couldBegin_iff h⟩, pageCrc_eq,
    crcTable_update, by decide, by decide, by decide, by decide⟩
  have hexec : exec .pushDecode s = .next (resyncScan c) := exec_pushDecode_resync hstate hapi hresync hc
  have hlen : 0 + c.src.len.toNat = s.regs.arg1.toNat := by rw [hc, Nat.zero_add]
  refine ⟨fun i g hi hwhole hbefore => ?_, fun k hk hnone hbefore hbegin => ?_⟩
  · have hfound : findWhole c c.src.len.toNat 0 = some (i, g) := findWhole_least (Nat.zero_le i) (by omega) hwhole hbefore
    rw [hexec, resyncScan_whole hfound]
  · have hfound : findWhole c c.src.len.toNat 0 = none := findWhole_none fun j hj => hnone j (by omega)
    have htail : findBeginning c c.src.len.toNat 0 = k :=
      findBeginning_least (Nat.zero_le k) (by omega) hbefore fun h => hbegin (by omega)
    rw [hexec, resyncScan_none hfound, htail]

end Sys2Proof.Proofs
end

section
/-! SUPPORT. Recovery of DECODE_FRAME in pull mode (48_frame_control.md R523, R531): how the command ends after a page that does not
parse, and from where it goes on. -/

namespace Sys2Proof.Proofs

open Sys2Proof Sys2Proof.Machine

variable {s t u v w : State} {e : ErrCode} {found : Option FoundPage}

/-! ### What a failed decode leaves -/

/-- The fields that a frame which fails shows as its prologue set them. -/
structure FrameFailed (s t : State) : Prop where
  state : t.ctl.state = s.ctl.state
  api : t.ctl.api = s.ctl.api
  outLen : t.ctl.outLen = 0
  ret0 : t.regs.ret0 = 0
  tab : t.tab = s.tab
  len : t.src.len = s.src.len

theorem frameFailed_of_view (h : audioView t = audioView (framePrologue s)) : FrameFailed s t :=
  ⟨(congrArg (fun v : State => v.ctl.state) h :), (congrArg (fun v : State => v.ctl.api) h :),
    (congrArg (fun v : State => v.ctl.outLen) h :), (congrArg (fun v : State => v.regs.ret0) h :), (congrArg State.tab h :),
    (congrArg (fun v : State => v.src.len) h :)⟩

theorem decodePacket_failed (hd : decodePacket (framePrologue s) = .error e t) : FrameFailed s t :=
  frameFailed_of_view ((decodePacket_keeps audioView_booking).error hd)

/-- Moving the position keeps them. -/
theorem FrameFailed.moved (h : FrameFailed s t) (hw : Elsewhere t w) : FrameFailed s w := by
  unfold Elsewhere at hw
  rw [hw]
  exact ⟨h.state, h.api, h.outLen, h.ret0, h.tab, h.len⟩

theorem skipTail_view : Keeps (Same audioView) skipTail :=
  keeps_bind audioView_booking.toComposes audioView_booking.opened fun _ => flushPacket_keeps audioView_booking.toReading

/-- Consuming a packet's tail keeps them, whether it ends or raises. -/
theorem skipTail_failed (hd : decodePacket (framePrologue s) = .error e t) : FrameFailed s (endState skipTail t) := by
  have hdecoded : audioView t = audioView (framePrologue s) := (decodePacket_keeps audioView_booking).error hd
  exact frameFailed_of_view ((skipTail_view t).trans hdecoded)

/-! ### Taking the error -/

/-- A decoding error in pull mode is only recorded (60_exceptions.md R604). -/
theorem takeError_pull (hclass : e.classIn false = .stream) (he : e ≠ .unexpectedEof) (hstate : s.ctl.state = .decoding)
    (hapi : s.ctl.api = .pull) : takeError e s = { s with ctl.error := e.code, regs.result := .error } := by
  have hheaders : s.inHeaders = false := inHeaders_false (.inl hstate)
  have hpush : s.ctl.api ≠ .push := by simp [hapi]
  unfold takeError
  rw [hheaders, hclass]
  dsimp only
  rw [if_neg hpush, if_neg fun h => he h.1]
  rfl

/-- In pull mode the input is positioned to retry first (48_frame_control.md R523, R531). -/
theorem failFrame_pull (hstate : t.ctl.state = .decoding) (hapi : t.ctl.api = .pull) :
    failFrame e t = takeError e (endState (recover e) t) := by
  have hkept : ¬ (t.inHeaders = true ∨ t.ctl.api = .push) := by simp [inHeaders_false (.inl hstate), hapi]
  unfold failFrame endState
  rw [if_neg hkept]
  cases recover e t <;> rfl

/-- DECODE_FRAME whose packet raises: the error is reported where the recovery ends (48_frame_control.md R531, R543). -/
theorem exec_decodeFrame_error (hstate : s.ctl.state = .decoding) (hapi : s.ctl.api = .pull)
    (hd : decodePacket (framePrologue s) = .error e t) (hclass : e.classIn false = .stream) (he : e ≠ .unexpectedEof)
    (hr : endState (recover e) t = u) (hus : u.ctl.state = s.ctl.state) (hua : u.ctl.api = s.ctl.api) :
    exec .decodeFrame s = .next { u with ctl.error := e.code, regs.result := .error } := by
  have hallowed : commandAllowed .decodeFrame s.ctl.state = true := by rw [hstate]; rfl
  have hcommand : commandApi .decodeFrame = some s.ctl.api := by rw [hapi]; rfl
  have hexec : exec .decodeFrame s = .next (decodeFrameBody s) := congrArg Host.Outcome.next (runCommand_body hallowed hcommand)
  have hbody : decodeFrameBody s = failFrame e t := by simp [decodeFrameBody, hstate, hd]
  have hfailed := decodePacket_failed hd
  rw [hexec, hbody, failFrame_pull (hfailed.state.trans hstate) (hfailed.api.trans hapi), hr,
    takeError_pull hclass he (hus.trans hstate) (hua.trans hapi)]

/-! ### A page that does not parse -/

theorem findPage_eof (h : v.src.eof = true) : findPage v = .ok none v := by
  unfold findPage
  rw [get_bind, findPageFuel, get_bind, if_pos h, pure_run]

/-- The scan from the byte after the failed page's start (48_frame_control.md R531). -/
theorem rescan_run {b : Bool} (hset : setPos (offsetPlus t.src.pageStart 1) t = .ok b v) (hfind : findPage v = .ok found w) :
    rescan t = .ok () { w with cur.nextSeg := -1, ctl.previousLength := 0, ctl.currentLocValid := false } := by
  unfold rescan
  rw [get_bind, bind_ok hset, bind_ok hfind, bind_ok (setCursor_run _ w), setControl_run]

/-- Where no byte follows the failed start, the scan stands at the end and finds nothing (notes/assumptions/41.md). -/
theorem rescan_at_end {b : Bool} (hset : setPos (offsetPlus t.src.pageStart 1) t = .ok b v) (hfind : findPage v = .ok found w)
    (hend : t.src.len.toNat ≤ t.src.pageStart.toNat + 1) : found = none ∧ w.src.eof = true := by
  have hpast := setPos_past ((le_offsetPlus t.src.len t.src.pageStart 1).2 hend)
  obtain ⟨-, rfl⟩ := EStateM.Result.ok.inj (hset.symm.trans hpast)
  obtain ⟨rfl, rfl⟩ := EStateM.Result.ok.inj (hfind.symm.trans (findPage_eof rfl))
  exact ⟨rfl, rfl⟩

/-- DECODE_FRAME after a page that does not parse (48_frame_control.md R531). -/
theorem decodeFrame_badPage (hstate : s.ctl.state = .decoding) (hapi : s.ctl.api = .pull)
    (he : e = .missingCapturePattern ∨ e = .invalidStreamStructureVersion) (hd : decodePacket (framePrologue s) = .error e t) :
    ∃ b v found w, setPos (offsetPlus t.src.pageStart 1) t = .ok b v ∧ findPage v = .ok found w ∧
      (s.src.len.toNat ≤ t.src.pageStart.toNat + 1 → found = none ∧ w.src.eof = true) ∧
      (found = none → w.src.pos = s.src.len) ∧ (∀ page, found = some page → w.src.pos = page.start) ∧
      w.ctl.state = .decoding ∧ w.ctl.outLen = 0 ∧ w.regs.ret0 = 0 ∧ w.tab = s.tab ∧
      exec .decodeFrame s = .next { w with
        cur.nextSeg := -1, ctl.previousLength := 0, ctl.currentLocValid := false, ctl.error := e.code, regs.result := .error } := by
  obtain ⟨b, hset⟩ := setPos_end (offsetPlus t.src.pageStart 1) t
  obtain ⟨found, w, hfind, hscan⟩ := findPage_after hset
  have hfailed := decodePacket_failed hd
  have hv := hfailed.moved (setPos_elsewhere hset)
  have hw := hv.moved hscan.frame
  have hrecover : recover e = rescan := by rcases he with rfl | rfl <;> rfl
  have hclass : e.classIn false = .stream := by rcases he with rfl | rfl <;> rfl
  have hne : e ≠ .unexpectedEof := by rcases he with rfl | rfl <;> decide
  have hend := endState_ok (rescan_run hset hfind)
  rw [← hrecover] at hend
  refine ⟨b, _, found, w, hset, hfind, fun h => rescan_at_end hset hfind (hfailed.len ▸ h), fun h => (hscan.none h).trans hv.len,
    fun page h => ?_, hw.state.trans hstate, hw.outLen, hw.ret0, hw.tab,
    exec_decodeFrame_error hstate hapi hd hclass hne hend hw.state hw.api⟩
  obtain ⟨-, -, hpos, -, -⟩ := hscan.some page h
  exact hpos

/-! ### No page at a page boundary -/

/-- Four bytes or more cut no capture pattern. -/
theorem captureCut_false (h : s.src.pageStart.toNat + 4 ≤ s.src.len.toNat) : s.captureCut = false := by
  have hlong : ¬ (0 < s.src.len.toNat - s.src.pageStart.toNat ∧ s.src.len.toNat - s.src.pageStart.toNat < 4) := by omega
  unfold State.captureCut
  dsimp only
  rw [decide_eq_false hlong, Bool.false_and]

/-- A packet start where four bytes stand that are no capture pattern (41_ogg_framer.md R242). -/
theorem maybeStartPacket_noPage (hn : s.cur.nextSeg = -1) (heof : s.src.eof = false)
    (hfit : s.src.pos.toNat + 4 ≤ s.src.len.toNat) (hcapture : s.bytesAt s.src.pos.toNat 4 ≠ captureBytes) :
    ∃ t, maybeStartPacket s = .error .missingCapturePattern t ∧ t.src.pageStart = s.src.pos := by
  have hpos : (marked s).src.pos ≤ (marked s).src.len := by
    show s.src.pos.toNat ≤ s.src.len.toNat
    omega
  have hlive : ¬ ((marked s).readOn 1).src.eof = true := by
    show ¬ (s.src.eof || decide (s.src.len.toNat < s.src.pos.toNat + 1)) = true
    rw [heof, decide_eq_false (by omega)]
    decide
  unfold maybeStartPacket
  rw [get_bind, if_pos hn, bind_ok (markPageStart_marked s), bind_ok (get8_readOn hpos), get_bind, if_neg hlive]
  by_cases hfirst : (marked s).byteAt (marked s).src.pos.toNat = 0x4F
  · rw [if_neg (not_not.2 hfirst)]
    obtain ⟨b, k, hrest, -, hb⟩ := captureRest_readOn [0x67, 0x67, 0x53] (readOn_le (marked s) 1)
    rw [readOn_bytesAt, readOn_pos, bytesAt_clip] at hb
    have hdiffers : b = false := by
      by_contra htrue
      have htail := hb.1 (Bool.not_eq_false b ▸ htrue)
      exact hcapture ((bytesAt_succ s s.src.pos.toNat 3).trans (congrArg₂ List.cons hfirst htail))
    have hcut : (((marked s).readOn 1).readOn k).captureCut = false := captureCut_false hfit
    subst hdiffers
    rw [bind_ok hrest, if_pos (by rfl), captureFailed_run, hcut]
    exact ⟨_, rfl, rfl⟩
  · rw [if_pos hfirst]
    exact ⟨_, rfl, rfl⟩

theorem decodePacket_start_error (h : maybeStartPacket s = .error e t) : decodePacket s = .error e t := by
  have hfuel : 255 * (s.src.len.toNat + 2) = 255 * (s.src.len.toNat + 2) - 1 + 1 := by omega
  unfold decodePacket
  rw [get_bind, hfuel, decodePacketFuel, bind_error h]

/-! ### A continued packet's tail -/

theorem skipTail_here (h : ({ t with cur.lastSeg := false, cur.bytesInSeg := 0 } : State).PacketHere) :
    ∃ w, skipTail t = .ok () w ∧ w.PacketDone ∧ ReadFrom { t with cur.lastSeg := false, cur.bytesInSeg := 0 } w := by
  obtain ⟨w, hflush, hdone, hread⟩ := flushPacket_here h
  refine ⟨w, ?_, hdone, hread⟩
  unfold skipTail
  rw [bind_ok (setCursor_run _ t), hflush]

/-- DECODE_FRAME after a page whose first packet continues one not seen (48_frame_control.md R523). -/
theorem decodeFrame_continued (hstate : s.ctl.state = .decoding) (hapi : s.ctl.api = .pull)
    (hd : decodePacket (framePrologue s) = .error .continuedPacketFlagInvalid t) (hu : endState skipTail t = u) :
    exec .decodeFrame s = .next { u with ctl.error := 32, regs.result := .error } := by
  have hskipped : FrameFailed s u := hu ▸ skipTail_failed hd
  exact exec_decodeFrame_error hstate hapi hd rfl (by decide) hu hskipped.state hskipped.api

/-! ### The statement -/

/-- Settles O22: the recovery's position and the scan are those of `decodeFrame_badPage`, `maybeStartPacket_noPage`,
`decodeFrame_continued` and `findPage_scanned`. -/
theorem pageRecovery : Obligations.PageRecovery := by
  refine ⟨fun s t e => decodeFrame_badPage, fun s _ _ hn heof hfit hcapture => ?_, fun s t hstate hapi hd => ⟨?_, ?_⟩,
    fun s hpos heof => ?_⟩
  · obtain ⟨t, ht, hstart⟩ := maybeStartPacket_noPage (s := framePrologue s) hn heof hfit hcapture
    exact ⟨t, decodePacket_start_error ht, hstart⟩
  · have hskipped := skipTail_failed hd
    exact ⟨_, decodeFrame_continued hstate hapi hd rfl, rfl, rfl, hskipped.state.trans hstate, hskipped.outLen, hskipped.ret0,
      hskipped.tab⟩
  · rintro p rfl hhere
    obtain ⟨w, hskip, hdone, hread⟩ := skipTail_here hhere
    exact ⟨w, hdone, hread, decodeFrame_continued hstate hapi hd (endState_ok hskip)⟩
  · obtain ⟨found, t, hfind, hscan⟩ := findPage_scanned hpos heof
    exact ⟨found, t, hfind, hscan.frame, hscan.none, hscan.some⟩

end Sys2Proof.Proofs
end

section
/-! SUPPORT. The header packets as instructions (42_setup.md R282 to R324), and LOOKUP_NONE at both of its sites. -/

namespace Sys2Proof.Proofs

open Sys2Proof Sys2Proof.Machine

variable {s : State} {pre : List Codebook} {cb : Codebook}

/-! ### Header packets -/

/-- A header instruction on a packet that its parser takes and flushes. -/
theorem runElement_finishes {m : M Unit} {tab : Tables} {bytes rest : List Byte} (hm : Finishes s.params m s.tab tab bytes)
    (h : s.PacketHere) (hb : s.packetBytes = bytes ++ rest) :
    ∃ t, runElement m s = .next t ∧ t.PacketDone ∧ ParsedFrom s t tab := by
  obtain ⟨t, ht, hdone, hparsed⟩ := hm s rest rfl rfl h hb
  exact ⟨t, runElement_ok ht, hdone, hparsed⟩

/-! ### LOOKUP_NONE -/

/-- The codewords of the codebook being read, computed from its lengths (42_setup.md R300). -/
theorem finishCodebook_run {cws : List Word} (ht : s.tab.codebooks = pre ++ [cb]) (hc : computeCodewords cb.lengths = some cws) :
    finishCodebook s = .ok () { s with tab.codebooks := pre ++ [{ cb with codewords := cws }] } := by
  unfold finishCodebook
  rw [get_bind, codebook_last ht]
  simp only [hc]
  rw [setTables_run, ht, mapLast_concat]

/-- Lengths without a code (42_setup.md R302). -/
theorem finishCodebook_noCode (ht : s.tab.codebooks = pre ++ [cb]) (hc : computeCodewords cb.lengths = none) :
    finishCodebook s = .error .invalidSetup s := by
  unfold finishCodebook
  rw [get_bind, codebook_last ht]
  simp only [hc]
  exact raise_run _ s

theorem lookupSetup_none : lookupSetup .none = finishCodebook := if_pos rfl

/-- A book without vectors gives none (43_codebook.md R351). -/
theorem decodeVqAs_none (b : Nat) (slots : List (Option (Nat × Nat))) (s : State) :
    decodeVqAs .none b slots s = .ok .noMatch (s.setError .invalidStream) := rfl

theorem runOnEntry_ok {present : Bool} {m : M Unit} {t : State} (hp : present = true) (h : m s = .ok () t) :
    runOnEntry present m s = .next t := by
  rw [runOnEntry, if_pos hp, runElement_ok h]

/-! ### The statements -/

/-- Settles O32: `setupBody_here` with nothing yet in the tables but the stream identity. -/
theorem setupHeader : Obligations.SetupHeader := by
  intro s f pad hcodebooks hfloors hresidues hmappings hmodes hchannels hf h hvorbis hbits
  have hbare : s.tab.Bare := ⟨hcodebooks, hfloors, hresidues, hmappings, hmodes⟩
  obtain ⟨t, ht, hdone, hparsed⟩ := setupBody_here hbare (by omega) hf h hvorbis hbits
  exact ⟨t, runElement_ok ht, hdone, hparsed⟩

/-- Settles O30: the parser takes the fields and flushes the rest. -/
theorem identificationHeader : Obligations.IdentificationHeader :=
  fun _ _ _ hf => runElement_finishes (finishes_identification hf)

/-- Settles O31: the parser takes the string and flushes the rest. -/
theorem commentHeader : Obligations.CommentHeader := by
  intro s rest h hb
  obtain ⟨t, ht, hdone, hparsed⟩ := runElement_finishes finishes_comment h hb
  exact ⟨t, ht, hdone, readFrom_of_parsed hparsed⟩

/-- Settles O35: the setup site only finishes the codebook, and the vector site only notes its code. -/
theorem lookupNone : Obligations.LookupNone := by
  refine ⟨fun s pre cb cws ht hc => ?_, fun s pre cb ht hc => ?_, fun s b slots hb => ?_⟩
  · exact runElement_ok (lookupSetup_none ▸ finishCodebook_run ht hc)
  · have hrun := runElement_error (lookupSetup_none ▸ finishCodebook_noCode ht hc)
    rw [failFrame_setup rfl] at hrun
    exact hrun
  · exact runOnEntry_ok (decide_eq_true hb) (bind_ok (decodeVqAs_none b slots s))

end Sys2Proof.Proofs
end

section
/-! SUPPORT. Codebooks (42_setup.md R296, R300): the root search of `lookup1_values`, and the canonical codewords, of which
none begins another. -/

namespace Sys2Proof.Proofs

open Sys2Proof Sys2Proof.Machine

/-! ### The root search -/

/-- `r` is the greatest number whose power does not pass `entries`. -/
def GreatestRoot (entries dim r : Nat) : Prop := r ^ dim ≤ entries ∧ entries < (r + 1) ^ dim

theorem GreatestRoot.le {entries dim r x : Nat} (h : GreatestRoot entries dim r) (hx : x ^ dim ≤ entries) : x ≤ r := by
  obtain ⟨-, hnext⟩ := h
  by_contra hgt
  have hpow : (r + 1) ^ dim ≤ x ^ dim := Nat.pow_le_pow_left (by omega) dim
  omega

/-- Trying the bits below `n`, from the highest down, finds the root that lies in the `2 ^ n` numbers from `r` on. -/
theorem foldl_rootStep {entries dim : Nat} : ∀ n r, r ^ dim ≤ entries → entries < (r + 2 ^ n) ^ dim →
    GreatestRoot entries dim ((List.range n).reverse.foldl (rootStep entries dim) r)
  | 0, _, hlow, hhigh => ⟨hlow, hhigh⟩
  | n + 1, r, hlow, hhigh => by
    rw [List.range_succ, List.reverse_concat, List.foldl_cons, rootStep]
    split
    · next hbit =>
      refine foldl_rootStep n _ hbit ?_
      rwa [Nat.add_assoc, ← Nat.two_mul, ← Nat.pow_succ']
    · next hbit => exact foldl_rootStep n r hlow (by omega)

theorem lookup1Values_greatest {entries dim : Nat} (he : entries < 2 ^ 24) (hd : 1 ≤ dim) :
    GreatestRoot entries dim (lookup1Values entries dim) := by
  have hzero : 0 ^ dim ≤ entries := by rw [Nat.zero_pow hd]; exact Nat.zero_le _
  have hbound : entries < (0 + 2 ^ 25) ^ dim := calc
    entries < 2 ^ 25 := by omega
    _ ≤ (0 + 2 ^ 25) ^ dim := by rw [Nat.zero_add]; exact Nat.le_self_pow (by omega) _
  rw [lookup1Values, if_neg (by omega)]
  exact foldl_rootStep 25 0 hzero hbound

/-- A number known to be the greatest root is what the search finds. -/
theorem lookup1Values_eq {entries dim r : Nat} (he : entries < 2 ^ 24) (hd : 1 ≤ dim) (hr : GreatestRoot entries dim r) :
    lookup1Values entries dim = r := by
  have hfound := lookup1Values_greatest he hd
  exact Nat.le_antisymm (hr.le hfound.1) (hfound.le hr.1)

/-! ### Codewords that begin one another -/

/-- Of two codewords whose bits begin one another, each covers a number that the other covers. -/
theorem covers_of_codewordBits {l1 l2 : Nat} {c1 c2 : Word} (h2 : l2 ≤ 32) (f1 : c1.toNat < 2 ^ l1) (f2 : c2.toNat < 2 ^ l2)
    (h : codewordBits l1 c1 <+: codewordBits l2 c2) : ∃ x, Covers l1 c1 x ∧ Covers l2 c2 x := by
  have hlen : l1 ≤ l2 := by simpa using h.length_le
  refine covers_of_begins hlen h2 f1 f2 fun i hi => ?_
  obtain ⟨tail, htail⟩ := h
  rw [← codewordBits_get hi, ← codewordBits_get (by omega : i < l2), ← htail,
    List.getD_append _ _ _ _ (by rwa [codewordBits_length])]

theorem lengthsOk_of_bounds {ls : List (Option Nat)} (h : ∀ l, some l ∈ ls → 1 ≤ l ∧ l ≤ 31) : LengthsOk ls :=
  fun l hl => ⟨(h l hl).1, (h l hl).2.trans (by decide)⟩

/-! ### The statements -/

/-- Settles O50: two codewords that begin one another would cover a common number, which `computeCodewords_over` rules out; the
decode is `decodeScalar_codeword`. -/
theorem canonicalCode : Obligations.CanonicalCode := by
  refine ⟨fun lengths codewords hl hc => ?_, fun s b e len cw rest hl hc he hcw h => ?_⟩
  · have hok := lengthsOk_of_bounds hl
    have hover := computeCodewords_over hok hc
    refine ⟨hover.length, fun i j li lj ci cj hli hci hlj hcj hbegins => ?_⟩
    have hlj32 : lj ≤ 32 := (hok lj (List.mem_of_getElem? hlj)).2
    obtain ⟨x, hi, hj⟩ := covers_of_codewordBits hlj32 (hover.fits i li ci hli hci) (hover.fits j lj cj hlj hcj) hbegins
    exact hover.apart i j li lj ci cj x hli hci hlj hcj hi hj
  · exact decodeScalar_codeword rfl (lengthsOk_of_bounds hl) hc he hcw h

/-- Settles O49: the search finds the greatest root, and in each example the root is checked. -/
theorem lookupRoot : Obligations.LookupRoot := by
  refine ⟨fun entries dim he hd => ?_, fun entries => if_pos rfl, ?_, ?_, ?_, ?_, ?_⟩
  · have hroot := lookup1Values_greatest he hd
    exact ⟨hroot.1, fun r => hroot.le⟩
  all_goals exact lookup1Values_eq (by decide) (by decide) ⟨by decide, by decide⟩

end Sys2Proof.Proofs
end

section
/-! SUPPORT. The derived tables of a floor (42_setup.md R312): the X order is an insertion sort, and the neighbour search keeps the
nearest point met so far. -/

namespace Sys2Proof.Proofs

open Sys2Proof Sys2Proof.Machine

variable {xs : List Nat}

/-! ### The X order -/

/-- `distinctXs` decides that no X value comes twice. -/
theorem distinctXs_nodup (h : distinctXs xs = true) : xs.Nodup := by
  induction xs with
  | nil => exact List.nodup_nil
  | cons x rest ih =>
    simp only [distinctXs, Bool.and_eq_true, Bool.not_eq_true', List.contains_eq_mem, decide_eq_false_iff_not] at h
    exact List.nodup_cons.2 ⟨h.1, ih h.2⟩

/-- The point `i` stands no later than the point `j` in the X order. -/
abbrev ByX (xs : List Nat) (i j : Nat) : Prop := xs.getD i 0 ≤ xs.getD j 0

theorem insertByX_eq (xs : List Nat) (i : Nat) (l : List Nat) : insertByX xs i l = l.orderedInsert (ByX xs) i := by
  induction l with
  | nil => rfl
  | cons j rest ih => rw [insertByX, List.orderedInsert_cons, ih]

theorem sortByX_eq (xs : List Nat) : sortByX xs = (List.range xs.length).insertionSort (ByX xs) := by
  rw [sortByX, funext₂ (insertByX_eq xs)]
  rfl

theorem sortByX_perm (xs : List Nat) : (sortByX xs).Perm (List.range xs.length) := by
  rw [sortByX_eq]
  exact List.perm_insertionSort _ _

/-- The X values in the X order are the X values sorted. -/
theorem map_sortByX (xs : List Nat) : (sortByX xs).map (fun i => xs.getD i 0) = xs.insertionSort (· ≤ ·) := by
  have hall : (List.range xs.length).map (fun i => xs.getD i 0) = xs :=
    List.ext_getElem (by simp) fun i _ hi => by simp [hi]
  rw [sortByX_eq, List.map_insertionSort (ByX xs) (· ≤ ·) _ _ fun _ _ _ _ => Iff.rfl, hall]

theorem sortByX_rising (h : xs.Nodup) : ((sortByX xs).map fun i => xs.getD i 0).Pairwise (· < ·) := by
  rw [map_sortByX]
  have hnodup : (xs.insertionSort (· ≤ ·)).Nodup := (List.perm_insertionSort _ xs).nodup_iff.2 h
  exact ((List.pairwise_insertionSort (· ≤ ·) xs).and hnodup).imp fun hab => lt_of_le_of_ne hab.1 hab.2

/-! ### Neighbours -/

/-- `best` is the nearest to the point `j` of the points below `n` that stand on the side `before` of it, if there is one. -/
def Nearest (xs : List Nat) (before : Nat → Nat → Bool) (j n : Nat) : Option Nat → Prop
  | none => ∀ i < n, ¬ before (xs.getD i 0) (xs.getD j 0)
  | some k => (k < n ∧ before (xs.getD k 0) (xs.getD j 0)) ∧
      ∀ i < n, before (xs.getD i 0) (xs.getD j 0) → ¬ before (xs.getD k 0) (xs.getD i 0)

section

variable {before : Nat → Nat → Bool} {j n : Nat} {best : Option Nat} (hirrefl : ∀ a, ¬ before a a)
  (htrans : ∀ a b c, before a b → before b c → before a c)

include hirrefl htrans

/-- Looking at one more point (42_setup.md R312). -/
theorem nearest_betterNeighbor (h : Nearest xs before j n best) :
    Nearest xs before j (n + 1) (betterNeighbor xs before (fun a b => before b a) j best n) := by
  unfold betterNeighbor
  split
  · next hn =>
    cases best with
    | none => exact ⟨⟨n.lt_succ_self, hn⟩, Nat.forall_lt_succ_right.2 ⟨fun i hi hin => absurd hin (h i hi), fun _ => hirrefl _⟩⟩
    | some k =>
      obtain ⟨⟨hk, hside⟩, hnearest⟩ := h
      dsimp only
      split
      · next hcloser =>
        exact ⟨⟨n.lt_succ_self, hn⟩, Nat.forall_lt_succ_right.2
          ⟨fun i hi hin hlt => hnearest i hi hin (htrans _ _ _ hcloser hlt), fun _ => hirrefl _⟩⟩
      · next hcloser => exact ⟨⟨hk.trans n.lt_succ_self, hside⟩, Nat.forall_lt_succ_right.2 ⟨hnearest, fun _ => hcloser⟩⟩
  · next hn =>
    cases best with
    | none => exact Nat.forall_lt_succ_right.2 ⟨h, hn⟩
    | some k =>
      obtain ⟨⟨hk, hside⟩, hnearest⟩ := h
      exact ⟨⟨hk.trans n.lt_succ_self, hside⟩, Nat.forall_lt_succ_right.2 ⟨hnearest, fun hin => absurd hin hn⟩⟩

theorem nearest_foldl (xs : List Nat) (j n : Nat) :
    Nearest xs before j n ((List.range n).foldl (betterNeighbor xs before (fun a b => before b a) j) none) := by
  induction n with
  | zero => exact fun i hi => absurd hi i.not_lt_zero
  | succ n ih =>
    rw [List.range_succ, List.foldl_concat]
    exact nearest_betterNeighbor hirrefl htrans ih

/-- Where some earlier point stands on the wanted side, the search answers the nearest one. -/
theorem nearest_getD {k : Nat} (hk : k < j) (hside : before (xs.getD k 0) (xs.getD j 0)) :
    Nearest xs before j j (some
      (((List.range j).foldl (betterNeighbor xs before (fun a b => before b a) j) none).getD 0)) := by
  have h := nearest_foldl hirrefl htrans xs j j
  cases hbest : (List.range j).foldl (betterNeighbor xs before (fun a b => before b a) j) none with
  | none =>
    rw [hbest] at h
    exact absurd hside (h k hk)
  | some i => rwa [hbest] at h

end

/-- The low neighbour of a point that has one (42_setup.md R312). -/
theorem lowNeighborOf_nearest {j k : Nat} (hk : k < j) (hlow : xs.getD k 0 < xs.getD j 0) :
    Nearest xs (fun a b => decide (a < b)) j j (some (lowNeighborOf xs j)) :=
  nearest_getD (before := fun a b => decide (a < b)) (by simp) (by simpa using fun a b c => Nat.lt_trans) hk (by simpa using hlow)

/-- The high neighbour of a point that has one (42_setup.md R312). -/
theorem highNeighborOf_nearest {j k : Nat} (hk : k < j) (hhigh : xs.getD j 0 < xs.getD k 0) :
    Nearest xs (fun a b => decide (b < a)) j j (some (highNeighborOf xs j)) :=
  nearest_getD (before := fun a b => decide (b < a)) (by simp) (by simpa using fun a b c hba hcb => Nat.lt_trans hcb hba) hk
    (by simpa using hhigh)

/-! ### The statement -/

/-- Settles O39: the sort is `insertionSort`, and points 0 and 1 give every later point between them a neighbour on each side. -/
theorem floorTables : Obligations.FloorTables := by
  intro xs hdistinct
  refine ⟨sortByX_perm xs, sortByX_rising (distinctXs_nodup hdistinct), fun j hj _ hlow hhigh => ⟨?_, ?_⟩⟩
  · obtain ⟨⟨hlt, hside⟩, hnearest⟩ := lowNeighborOf_nearest (by omega) hlow
    simp only [decide_eq_true_eq, Nat.not_lt] at hside hnearest
    exact ⟨hlt, hside, hnearest⟩
  · obtain ⟨⟨hlt, hside⟩, hnearest⟩ := highNeighborOf_nearest (by omega) hhigh
    simp only [decide_eq_true_eq, Nat.not_lt] at hside hnearest
    exact ⟨hlt, hside, hnearest⟩

end Sys2Proof.Proofs
end

section
/-! SUPPORT. The codebook selectors and the stops: a vector decoded where an entry's codeword is next, and the datapath steps that
may not go on. -/

namespace Sys2Proof.Proofs

open Sys2Proof Sys2Proof.Machine

/-! ### Vectors -/

/-- Adding a vector changes the channel buffers only. -/
theorem addVector_work (cb : Codebook) (lt : LookupType) (e : Nat) (slots : List (Option (Nat × Nat))) (i : Nat) (prev : F32)
    (w : Work) : addVector cb lt e slots i prev w =
      { w with channelBuffer := (addVector cb lt e slots i prev w).channelBuffer } := by
  have named : ∀ ch idx, some (ch, idx) ∈ slots → ch ∈ (slots.filterMap id).map Prod.fst := fun ch idx h =>
    List.mem_map.2 ⟨(ch, idx), List.mem_filterMap.2 ⟨_, h, rfl⟩, rfl⟩
  exact (spectraOnly_addVector cb lt e slots i prev w named).1

/-- Settles O43: the entry's codeword is decoded, and `addVector` gives each slot its element and keeps every other sample. -/
theorem vectorDecode : Obligations.VectorDecode := by
  intro s lt i b e len cw cb slots rest hi hb hcb hl hc he hcw hnodup h
  have hentry : lt ≠ .none ∧ exec i s = runLookup lt (.vector b slots) s := by
    simp only [List.mem_cons, Prod.mk.injEq, List.not_mem_nil, or_false] at hi
    obtain ⟨rfl, rfl⟩ | ⟨rfl, rfl⟩ := hi <;> exact ⟨by decide, rfl⟩
  obtain ⟨hlt, hexec⟩ := hentry
  obtain ⟨t, hdecode, hrest, hfrom, -, hctl, hwork⟩ := decodeVqAs_codeword slots hlt hcb hl hc he hcw h
  have hrun : runLookup lt (.vector b slots) s = .next t := runOnEntry_ok (decide_eq_true hb) (bind_ok hdecode)
  have hsample : ∀ ch idx, t.sample ch idx = (addVector cb lt e slots 0 0 s.work).sample ch idx := fun ch idx => by
    rw [← hwork]
    rfl
  refine ⟨t, hexec.trans hrun, hrest, hfrom, hctl, ?_, fun j ch idx hj hidx => ?_, fun ch idx hnot => ?_⟩
  · rw [hwork]
    exact addVector_work cb lt e slots 0 0 s.work
  · have hvalue := addVector_value cb lt e slots 0 s.work j ch idx hnodup hj hidx
    rw [Nat.zero_add] at hvalue
    exact (hsample ch idx).trans hvalue
  · exact (hsample ch idx).trans (addVector_frame cb lt e slots 0 0 s.work ch idx hnot)

/-! ### Steps that go on, and the absent entries -/

theorem runElement_goes (m : M Unit) (s : State) : Goes (runElement m s) := by
  cases h : m s with
  | ok _ t => exact ⟨t, runElement_ok h⟩
  | error e t => exact ⟨failFrame e t, runElement_error h⟩

theorem execAudioPacket_goes (s : State) : Goes (execAudioPacket s) := by
  unfold execAudioPacket
  split
  · exact ⟨_, rfl⟩
  · exact ⟨_, rfl⟩

/-- A step on a table entry goes on unless the entry is absent, and then it faults by name (notes/assumptions/27.md). -/
theorem runOnEntry_goes_or_absent (present : Bool) (m : M Unit) (s : State) :
    Goes (runOnEntry present m s) ∨ runOnEntry present m s = .fault .operandOutsideTables ∧ present = false := by
  cases present with
  | true => exact .inl (runElement_goes m s)
  | false => exact .inr ⟨rfl, rfl⟩

theorem runLookup_goes_or_absent (lt : LookupType) (site : LookupSite) (s : State) : Goes (runLookup lt site s) ∨
    runLookup lt site s = .fault .operandOutsideTables ∧
      ∃ b slots, s.tab.codebooks.length ≤ b ∧ site = .vector b slots := by
  cases site with
  | setup => exact .inl (runElement_goes _ s)
  | vector b slots =>
    refine (runOnEntry_goes_or_absent _ _ s).imp_right fun ⟨hfault, habsent⟩ => ⟨hfault, b, slots, ?_, rfl⟩
    simpa using habsent

theorem execFloorType1_goes_or_absent (site : FloorSite) (s : State) : Goes (execFloorType1 site s) ∨
    execFloorType1 site s = .fault .operandOutsideTables ∧
      ∃ ch fl, (s.tab.channels ≤ ch ∨ s.tab.floors.length ≤ fl) ∧ site = .decode ch fl := by
  cases site with
  | setup => exact .inl (runElement_goes _ s)
  | decode ch fl =>
    refine (runOnEntry_goes_or_absent _ _ s).imp_right fun ⟨hfault, habsent⟩ => ⟨hfault, ch, fl, ?_, rfl⟩
    exact Or.symm (by simpa only [Bool.and_eq_false_iff, decide_eq_false_iff_not, Nat.not_lt] using habsent)

theorem runResidue_goes_or_absent (ty : ResidueType) (site : ResidueSite) (s : State) : Goes (runResidue ty site s) ∨
    runResidue ty site s = .fault .operandOutsideTables ∧ ∃ long mapping submap,
      (s.tab.mappings.length ≤ mapping ∨ (s.tab.mapping mapping).submaps ≤ submap) ∧ site = .decode long mapping submap := by
  cases site with
  | setup => exact .inl (runElement_goes _ s)
  | decode long mapping submap =>
    refine (runOnEntry_goes_or_absent _ _ s).imp_right fun ⟨hfault, habsent⟩ => ⟨hfault, long, mapping, submap, ?_, rfl⟩
    simpa only [Bool.and_eq_false_iff, decide_eq_false_iff_not, Nat.not_lt] using habsent

/-- Settles O58: every command answers a next state, and a datapath step stops only in `runOnEntry`, on an absent entry. -/
theorem onlyAbsentEntriesStop : Obligations.OnlyAbsentEntriesStop := by
  intro i s
  cases i with
  | openPull | openPush | pushDecode | decodeFrame | getInfo | seek | seekStart | streamLength | getError | close
  | illegalCommand _ => exact .inl ⟨_, rfl⟩
  | oggPage | hdrIdentification | hdrComment | hdrSetup | badPacketType | floorType0 | mappingType0 =>
    exact .inl (runElement_goes _ s)
  | audioPacket => exact .inl (execAudioPacket_goes s)
  | lookupNone site | lookupLattice site | lookupDirect site =>
    refine (runLookup_goes_or_absent _ site s).imp_right fun ⟨hfault, b, slots, habsent, hsite⟩ => ⟨hfault, .inl ?_⟩
    exact ⟨b, slots, habsent, by simp [hsite]⟩
  | floorType1 site =>
    refine (execFloorType1_goes_or_absent site s).imp_right fun ⟨hfault, ch, fl, habsent, hsite⟩ => ⟨hfault, .inr (.inl ?_)⟩
    exact ⟨ch, fl, habsent, by rw [hsite]⟩
  | residueType0 site | residueType1 site | residueType2 site =>
    refine (runResidue_goes_or_absent _ site s).imp_right fun ⟨hfault, long, mapping, submap, habsent, hsite⟩ =>
      ⟨hfault, .inr (.inr ?_)⟩
    exact ⟨long, mapping, submap, habsent, by simp [hsite]⟩

end Sys2Proof.Proofs
end

section
/-! SUPPORT. Floor type 1 (44_floor1.md): which residual a value comes from, and what decoding an unused floor and a floor of two points
leaves in the working buffers. -/

namespace Sys2Proof.Proofs

open Sys2Proof Sys2Proof.Machine

/-! ### Residuals and values -/

section

variable {range pred val y : Int}

/-- The residual that gives `y`: values less than the smaller room away from the prediction alternate around it, and those past that
lie on the side of the larger room, in order (44_floor1.md R385). -/
def floorResidual (range pred y : Int) : Int :=
  let room := min (range - pred) pred
  if pred + room ≤ y then y
  else if y < pred - room then range - 1 - y
  else if y < pred then 2 * (pred - y) - 1
  else 2 * (y - pred)

/-- Where a residual's value lies: above or below the prediction by turns, then on the side of the larger room. -/
theorem floorPoint_cases (hpred0 : 0 ≤ pred) (hpred : pred < range) (hval0 : 0 ≤ val) :
    let room := min (range - pred) pred
    val < 2 * room ∧ val % 2 = 0 ∧ floorPoint range pred val = pred + val / 2 ∨
    val < 2 * room ∧ val % 2 = 1 ∧ floorPoint range pred val = pred - (val + 1) / 2 ∨
    2 * room ≤ val ∧ pred < range - pred ∧ floorPoint range pred val = val ∨
    2 * room ≤ val ∧ range - pred ≤ pred ∧ floorPoint range pred val = range - 1 - val := by
  simp only [floorPoint]
  split_ifs <;> omega

theorem floorPoint_mem (hpred0 : 0 ≤ pred) (hpred : pred < range) (hval0 : 0 ≤ val) (hval : val < range) :
    0 ≤ floorPoint range pred val ∧ floorPoint range pred val < range := by
  obtain ⟨hnear, -, h⟩ | ⟨hnear, -, h⟩ | ⟨-, -, h⟩ | ⟨-, -, h⟩ := floorPoint_cases hpred0 hpred hval0 <;> omega

theorem floorResidual_mem (hy0 : 0 ≤ y) (hy : y < range) :
    0 ≤ floorResidual range pred y ∧ floorResidual range pred y < range := by
  simp only [floorResidual]
  split_ifs <;> omega

theorem floorPoint_floorResidual (hpred0 : 0 ≤ pred) (hpred : pred < range) (hy0 : 0 ≤ y) (hy : y < range) :
    floorPoint range pred (floorResidual range pred y) = y := by
  have hcases := floorPoint_cases hpred0 hpred (floorResidual_mem (pred := pred) hy0 hy).1
  simp only [floorResidual] at hcases ⊢
  split_ifs at hcases ⊢ <;> omega

theorem floorResidual_floorPoint (hpred0 : 0 ≤ pred) (hpred : pred < range) (hval0 : 0 ≤ val) :
    floorResidual range pred (floorPoint range pred val) = val := by
  have hcases := floorPoint_cases hpred0 hpred hval0
  generalize floorPoint range pred val = y at hcases ⊢
  simp only [floorResidual]
  split_ifs <;> omega

end

/-! ### Reading to known working buffers -/

/-- The step reads exactly `bits`, returns `a`, and keeps the control state while the working buffers change by `f`. -/
def Decodes {α : Type} (bits : List Bool) (f : Work → Work) (m : M α) (a : α) : Prop :=
  ∀ s rest, s.Holds (bits ++ rest) → ∃ t, m s = .ok a t ∧ t.Holds rest ∧ t.ctl = s.ctl ∧ t.work = f s.work

section

variable {α : Type} {m : M α} {a : α} {bits : List Bool} {f : Work → Work} {s t : State}

/-- What a run that is known to return leaves. -/
theorem Decodes.leaves {rest : List Bool} (hm : Decodes bits f m a) (h : s.Holds (bits ++ rest)) (hrun : m s = .ok a t) :
    t.Holds rest ∧ t.ctl = s.ctl ∧ t.work = f s.work := by
  obtain ⟨u, hu, hleaves⟩ := hm s rest h
  cases hrun.symm.trans hu
  exact hleaves

theorem Decodes.congr {g : Work → Work} (hm : Decodes bits f m a) (hfg : ∀ w, f w = g w) : Decodes bits g m a :=
  funext hfg ▸ hm

theorem decodes_setWork (f : Work → Work) : Decodes [] f (setWork f) () :=
  fun s _ h => ⟨{ s with work := f s.work }, rfl, ⟨⟨h.here.latched, h.here.fits, h.here.live⟩, h.reader, h.valid, h.bits⟩, rfl, rfl⟩

theorem decodes_setWork_bind {g : Work → Work} {k : Unit → M α} (hk : Decodes bits g (k ()) a) :
    Decodes bits (g ∘ f) (setWork f >>= k) a := by
  intro s rest h
  obtain ⟨t, ht, hrest, hctl, hwork⟩ := decodes_setWork f s _ h
  obtain ⟨u, hu, hrest', hctl', hwork'⟩ := hk t rest hrest
  exact ⟨u, (bind_ok ht).trans hu, hrest', hctl'.trans hctl, hwork'.trans (congrArg g hwork)⟩

theorem decodes_getBits_bind {n v : Nat} {k : Nat → M α} (hv : v < 2 ^ n) (hn : n ≤ 32) (hk : Decodes bits f (k v) a) :
    Decodes (fieldBits n v ++ bits) f (getBits n >>= k) a := by
  intro s rest h
  rw [List.append_assoc] at h
  obtain ⟨t, ht, hrest, hread⟩ := getBits_field h hv hn
  obtain ⟨u, hu, hrest', hctl, hwork⟩ := hk t rest hrest
  refine ⟨u, (bind_ok ht).trans hu, hrest', ?_, ?_⟩
  · rw [hctl, hread.frame]
  · rw [hwork, hread.frame]

theorem decodes_if_pos {c : Prop} [Decidable c] {n : M α} (hc : c) (hm : Decodes bits f m a) :
    Decodes bits f (if c then m else n) a := (if_pos hc).symm ▸ hm

theorem decodes_if_neg {c : Prop} [Decidable c] {n : M α} (hc : ¬ c) (hm : Decodes bits f m a) :
    Decodes bits f (if c then n else m) a := (if_neg hc).symm ▸ hm

/-- A step that may look at the reader, which is valid while it holds bits. -/
theorem decodes_get_bind {k : State → M α} (hk : ∀ s : State, 0 ≤ s.rd.validBits → Decodes bits f (k s) a) :
    Decodes bits f (get >>= k) a := fun s rest h => hk s h.valid s rest h

end

/-! ### Floors -/

section

variable {fl : Floor} {range rb y0 y1 : Nat}

/-- The range table and the width of the two first values (44_floor1.md R384). -/
theorem ilog_floorRange {multiplier : Nat}
    (h : (multiplier, range, rb) ∈ [(1, 256, 8), (2, 128, 7), (3, 86, 7), (4, 64, 6)]) :
    ilog (floorRange multiplier - 1) = rb ∧ rb ≤ 8 := by
  simp only [List.mem_cons, Prod.mk.injEq, List.not_mem_nil, or_false] at h
  obtain ⟨rfl, rfl, rfl⟩ | ⟨rfl, rfl, rfl⟩ | ⟨rfl, rfl, rfl⟩ | ⟨rfl, rfl, rfl⟩ := h <;> decide

theorem toI16_natCast {v : Nat} (h : v < 2 ^ 8) : toI16 v = BitVec.ofNat 16 v := by
  rw [toI16, if_pos (by omega)]
  rfl

/-- A floor of two points has only the two that are always used, so the amplitude synthesis changes nothing (44_floor1.md R385). -/
theorem floorStep2_two (hxs : fl.xs.length = 2) (ys : List I16) : floorStep2 fl ys = ys := by
  have hpoints : floorPoints fl = [] := by rw [floorPoints, Floor.values, hxs]; rfl
  have hused : ∀ j < 2, [true, true].getD j false ≠ false := by decide
  have hkept : ∀ p ∈ ys.zipIdx, (if p.2 < 2 ∧ [true, true].getD p.2 false = false then toI16 (-1) else p.1) = p.1 :=
    fun p _ => if_neg fun h => hused p.2 h.1 h.2
  rw [floorStep2, hpoints, Floor.values, hxs]
  exact (List.map_congr_left hkept).trans (List.zipIdx_map_fst 0 ys)

/-- An unused floor: one bit, and the channel is silent (44_floor1.md R383). -/
theorem floor1Decode_unused (ch : Nat) (fl : Floor) :
    Decodes [false] (fun w => { w with zeroChannel := w.zeroChannel.set ch true }) (floor1Decode ch fl) () :=
  decodes_getBits_bind (n := 1) (v := 0) (by decide) (by decide) (decodes_if_pos rfl (decodes_setWork _))

/-- A floor of two points has no partitions to read: the two values are stored and the channel sounds (44_floor1.md R383, R386). -/
theorem floor1Decode_two (ch : Nat) (hrb : ilog (floorRange fl.multiplier - 1) = rb) (hle : rb ≤ 8) (hpart : fl.partitionClass = [])
    (hxs : fl.xs.length = 2) (hy0 : y0 < 2 ^ rb) (hy1 : y1 < 2 ^ rb) :
    Decodes ([true] ++ (fieldBits rb y0 ++ fieldBits rb y1)) (fun w => { w with
      finalY := w.finalY.modify ch fun ys => (ys.set 0 (BitVec.ofNat 16 y0)).set 1 (BitVec.ofNat 16 y1)
      zeroChannel := w.zeroChannel.set ch false }) (floor1Decode ch fl) () := by
  have hpow : 2 ^ rb ≤ 2 ^ 8 := Nat.pow_le_pow_right (by decide) hle
  have hrb32 : rb ≤ 32 := by omega
  have hsynth : floorStep2 fl = id := funext (floorStep2_two hxs)
  rw [← List.append_nil (fieldBits rb y1)]
  simp only [floor1Decode, hrb, hpart, floorPartitions, pure_bind, true_and]
  refine Decodes.congr (decodes_getBits_bind (n := 1) (v := 1) (by decide) (by decide) <| decodes_if_neg one_ne_zero <|
    decodes_getBits_bind hy0 hrb32 <| decodes_setWork_bind <| decodes_getBits_bind hy1 hrb32 <| decodes_setWork_bind <|
    decodes_get_bind fun s hs => decodes_if_pos hs <| decodes_setWork_bind <| decodes_setWork _) fun w => ?_
  simp only [Function.comp_apply, toI16_natCast (hy0.trans_le hpow), toI16_natCast (hy1.trans_le hpow), hsynth]
  rw [List.modify_id, List.modify_modify_eq]
  rfl

end

/-! ### The statements -/

/-- Settles O51: `floorResidual` is the inverse of `floorPoint`. -/
theorem floorPointOneToOne : Obligations.FloorPointOneToOne := by
  intro range pred hpred0 hpred
  refine ⟨fun val hval0 hval => floorPoint_mem hpred0 hpred hval0 hval, fun y hy0 hy => ⟨floorResidual range pred y, ?_⟩⟩
  obtain ⟨hresidual0, hresidual⟩ := floorResidual_mem (pred := pred) hy0 hy
  refine ⟨hresidual0, hresidual, floorPoint_floorResidual hpred0 hpred hy0 hy, fun v hv0 _ hv => ?_⟩
  rw [← hv, floorResidual_floorPoint hpred0 hpred hv0]

/-- Settles O44: a floor's decode writes the channel's own state only, and on the bits of the two simple floors it does what
`floor1Decode_unused` and `floor1Decode_two` say. -/
theorem floorDecode : Obligations.FloorDecode := by
  intro s ch fl hch hfl h
  obtain ⟨⟨⟩, t, ht, hhere, hfrom, hframe, hothers⟩ := runs_floor1Decode (floorOnly_rel ch) (s.tab.floor fl) s h
  refine ⟨t, runOnEntry_ok (by simp [hch, hfl]) ht, hhere, hfrom, hframe, hothers, fun rest hbits => ?_, ?_⟩
  · exact (floor1Decode_unused ch _).leaves hbits ht
  · intro range rb y0 y1 rest hrow hpart hxs hy0 hy1 hbits
    obtain ⟨hrb, hle⟩ := ilog_floorRange hrow
    exact (floor1Decode_two ch hrb hle hpart hxs hy0 hy1).leaves (by simpa only [List.append_assoc] using hbits) ht

end Sys2Proof.Proofs
end

section
/-! SUPPORT. Residue decode (45_residue.md): the vectors of a partition whose bits are the codewords of entries, the samples they
land on, and a submap without a decoded channel. -/

namespace Sys2Proof.Proofs

open Sys2Proof Sys2Proof.Machine

/-! ### Entries whose codewords are read -/

/-- Book `b` of the tables is `cb`, whose vectors can be decoded from canonical codewords (43_codebook.md R342, R350). -/
structure VectorBook (tab : Tables) (b : Nat) (cb : Codebook) : Prop where
  found : tab.codebook b = cb
  lookup : cb.lookupType ≠ .none
  lengths : ∀ l, some l ∈ cb.lengths → 1 ≤ l ∧ l ≤ 31
  canonical : computeCodewords cb.lengths = some cb.codewords

/-- The entry is one of the book's used ones. -/
def HasCodeword (cb : Codebook) (e : Nat) : Prop := ∃ len, cb.lengths[e]? = some (some len) ∧ e < cb.codewords.length

/-- The bits of an entry's codeword. -/
def entryBits (cb : Codebook) (e : Nat) : List Bool :=
  codewordBits (((cb.lengths[e]?).getD none).getD 0) (cb.codewords.getD e 0)

theorem getElem?_eq_some_getD {α : Type} {l : List α} {k : Nat} (default : α) (h : k < l.length) :
    l[k]? = some (l.getD k default) := by
  rw [List.getD_eq_getElem _ _ h, List.getElem?_eq_getElem h]

/-- With the tables `tab` the step reads exactly `bits`, returns `a` and changes the working buffers by `f`, and beyond them only what
decoding a packet may. -/
def DecodesIn {α : Type} (tab : Tables) (bits : List Bool) (f : Work → Work) (m : M α) (a : α) : Prop :=
  ∀ s rest, s.tab = tab → s.Holds (bits ++ rest) → ∃ t, m s = .ok a t ∧ t.Holds rest ∧ DecodedFrom s t ∧ t.work = f s.work

section

variable {α β : Type} {tab : Tables} {b : Nat} {cb : Codebook}

theorem decodesIn_pure (a : α) : DecodesIn tab [] id (pure a) a := fun s _ _ h => ⟨s, rfl, h, decodedFrom_refl s, rfl⟩

theorem decodesIn_bind {m : M α} {k : α → M β} {bits1 bits2 : List Bool} {f g : Work → Work} {a : α} {c : β}
    (hm : DecodesIn tab bits1 f m a) (hk : DecodesIn tab bits2 g (k a) c) :
    DecodesIn tab (bits1 ++ bits2) (g ∘ f) (m >>= k) c := by
  intro s rest htab h
  rw [List.append_assoc] at h
  obtain ⟨t, ht, hrest, hfrom, hwork⟩ := hm s _ htab h
  have htab' : t.tab = tab := by rw [hfrom.frame]; exact htab
  obtain ⟨u, hu, hrest', hfrom', hwork'⟩ := hk t rest htab' hrest
  exact ⟨u, (bind_ok ht).trans hu, hrest', decodedFrom_trans hfrom hfrom', hwork'.trans (congrArg g hwork)⟩

/-- One vector (43_codebook.md R350). -/
theorem decodesIn_decodeVq (B : VectorBook tab b cb) {e : Nat} (he : HasCodeword cb e) (slots : List (Option (Nat × Nat))) :
    DecodesIn tab (entryBits cb e) (addVector cb cb.lookupType e slots 0 0) (decodeVq b slots) (.entry e) := by
  rintro s rest rfl h
  obtain ⟨len, hlen, hlt⟩ := he
  rw [entryBits, hlen] at h
  obtain ⟨t, ht, hrest, hfrom, -, -, hwork⟩ :=
    decodeVqAs_codeword slots B.lookup B.found B.lengths B.canonical hlen (getElem?_eq_some_getD 0 hlt) h
  refine ⟨t, ?_, hrest, hfrom, hwork⟩
  rw [decodeVq, get_bind, B.found]
  exact ht

/-! ### A partition's vectors, one after another -/

/-- Add the vectors of the entries, the first at the slots `place k`, the next at `place (k + 1)`. -/
def addVectors (cb : Codebook) (place : Nat → List (Option (Nat × Nat))) : List Nat → Nat → Work → Work
  | [], _ => id
  | e :: es, k => addVectors cb place es (k + 1) ∘ addVector cb cb.lookupType e (place k) 0 0

/-- A type 0 partition takes one vector a step (45_residue.md R430). -/
theorem decodesIn_partitionStrided (B : VectorBook tab b cb) (lane : Lane) (off step : Nat) : ∀ (entries : List Nat) (k : Nat),
    (∀ e ∈ entries, HasCodeword cb e) →
    DecodesIn tab (entries.flatMap (entryBits cb)) (addVectors cb (stridedSlots lane off step cb.dimensions) entries k)
      (partitionStrided b lane off step cb.dimensions entries.length k) true
  | [], _, _ => decodesIn_pure true
  | _ :: es, k, he =>
    have ⟨hcode, hcodes⟩ := List.forall_mem_cons.1 he
    decodesIn_bind (decodesIn_decodeVq B hcode _) (decodesIn_partitionStrided B lane off step es (k + 1) hcodes)

/-- A type 1 or 2 partition takes vectors until the first one that ends at or past its end (45_residue.md R431, R432); `k` counts the
vectors before these. -/
theorem decodesIn_partitionContiguous (B : VectorBook tab b cb) (lane : Lane) (off size : Nat) (hpos : 0 < cb.dimensions) :
    ∀ (entries : List Nat) (k fuel : Nat), (∀ e ∈ entries, HasCodeword cb e) →
    size ≤ (k + entries.length) * cb.dimensions → (k + entries.length) * cb.dimensions < size + cb.dimensions →
    entries.length ≤ fuel →
    DecodesIn tab (entries.flatMap (entryBits cb))
      (addVectors cb (fun k => contiguousSlots lane off size cb.dimensions (k * cb.dimensions)) entries k)
      (partitionContiguous b lane off size cb.dimensions fuel (k * cb.dimensions)) true
  | [], _, 0, _, _, _, _ => decodesIn_pure true
  | [], k, fuel + 1, _, hend, _, _ => by
    rw [partitionContiguous, if_pos (by simpa using hend)]
    exact decodesIn_pure true
  | e :: es, k, fuel + 1, he, hend, hlast, hfuel => by
    have hcount : k + (e :: es).length = k + 1 + es.length := by rw [List.length_cons]; omega
    rw [hcount] at hend hlast
    have hnext : (k + 1) * cb.dimensions = k * cb.dimensions + cb.dimensions := Nat.succ_mul ..
    have hmore : ¬ size ≤ k * cb.dimensions := by
      have hfull := Nat.mul_le_mul_right cb.dimensions (Nat.le_add_right (k + 1) es.length)
      omega
    have ⟨hcode, hcodes⟩ := List.forall_mem_cons.1 he
    have ih := decodesIn_partitionContiguous B lane off size hpos es (k + 1) fuel hcodes hend hlast (Nat.le_of_succ_le_succ hfuel)
    rw [hnext] at ih
    rw [partitionContiguous, if_neg hmore]
    exact decodesIn_bind (decodesIn_decodeVq B hcode _) ih

end

/-! ### The slots of a partition -/

section

variable {cb : Codebook} {lane : Lane} {off step size d n : Nat} {place : Nat → List (Option (Nat × Nat))}

/-- No slot is named twice by the first `n` vectors. -/
def PlacesApart (place : Nat → List (Option (Nat × Nat))) (n : Nat) : Prop :=
  ∀ (k j k' j' : Nat) (p : Nat × Nat), k < n → k' < n → (place k)[j]? = some (some p) → (place k')[j']? = some (some p) →
    k = k' ∧ j = j'

theorem PlacesApart.not_mem (hapart : PlacesApart place n) {k j k' : Nat} {p : Nat × Nat} (hk : k < n) (hk' : k' < n)
    (hj : (place k)[j]? = some (some p)) (hne : k ≠ k') : some p ∉ place k' := fun hmem => by
  obtain ⟨j', hj'⟩ := List.mem_iff_getElem?.1 hmem
  exact hne (hapart k j k' j' p hk hk' hj hj').1

theorem PlacesApart.nodup (hapart : PlacesApart place n) {k : Nat} (hk : k < n) : ((place k).filterMap id).Nodup := by
  refine List.pairwise_filterMap.2 (List.pairwise_iff_getElem.2 fun i j hi hj hlt p hp q hq heq => ?_)
  subst heq
  have hij := (hapart k i k j p hk hk (List.getElem?_eq_some_iff.2 ⟨hi, hp⟩) (List.getElem?_eq_some_iff.2 ⟨hj, hq⟩)).2
  omega

/-- A sample that no vector's slots name keeps its value. -/
theorem addVectors_frame {ch idx : Nat} : ∀ entries k (w : Work),
    (∀ i < entries.length, some (ch, idx) ∉ place (k + i)) → (addVectors cb place entries k w).sample ch idx = w.sample ch idx
  | [], _, _, _ => rfl
  | _ :: es, k, _, h => by
    have hlater : ∀ i < es.length, some (ch, idx) ∉ place (k + 1 + i) := fun i hi => by
      rw [Nat.add_assoc, Nat.add_comm 1 i]
      exact h (i + 1) (Nat.succ_lt_succ hi)
    exact (addVectors_frame es (k + 1) _ hlater).trans (addVector_frame _ _ _ _ _ _ _ _ _ (h 0 (Nat.succ_pos _)))

/-- Where the vectors' slots are apart, each element is added to its slot, once. -/
theorem addVectors_value (hapart : PlacesApart place n) {ch idx : Nat} : ∀ entries k (w : Work) i e j, k + entries.length ≤ n →
    entries[i]? = some e → (place (k + i))[j]? = some (some (ch, idx)) → idx < w.size ch →
    (addVectors cb place entries k w).sample ch idx = fadd (w.sample ch idx) (vectorValue cb cb.lookupType e j)
  | [], _, _, _, _, _, _, he, _, _ => by simp at he
  | e' :: es, k, w, 0, e, j, hn, he, hj, hidx => by
    rw [List.length_cons] at hn
    obtain rfl : e' = e := by simpa using he
    have hlater : ∀ i < es.length, some (ch, idx) ∉ place (k + 1 + i) := fun i hi =>
      hapart.not_mem (by omega) (by omega) hj (by omega)
    have hvalue := addVector_value cb cb.lookupType e' (place k) 0 w j ch idx (hapart.nodup (by omega)) hj hidx
    rw [Nat.zero_add] at hvalue
    exact (addVectors_frame es (k + 1) _ hlater).trans hvalue
  | e' :: es, k, w, i + 1, e, j, hn, he, hj, hidx => by
    rw [List.length_cons] at hn
    rw [List.getElem?_cons_succ] at he
    obtain ⟨hi, -⟩ := List.getElem?_eq_some_iff.1 he
    have hfirst : some (ch, idx) ∉ place k := hapart.not_mem (by omega) (by omega) hj (by omega)
    rw [← addVector_frame cb cb.lookupType e' (place k) 0 0 w ch idx hfirst]
    refine addVectors_value hapart es (k + 1) _ i e j (by omega) he ?_ ((addVector_size ..).symm ▸ hidx)
    rwa [Nat.add_assoc, Nat.add_comm 1 i]

theorem getElem?_map_range {f : Nat → Option (Nat × Nat)} {i : Nat} {p : Nat × Nat} :
    ((List.range n).map f)[i]? = some (some p) ↔ i < n ∧ f i = some p := by
  simp [List.getElem?_eq_some_iff]

theorem getElem?_stridedSlots {k i : Nat} {p : Nat × Nat} : (stridedSlots lane off step d k)[i]? = some (some p) ↔
    i < d ∧ lane.slot (off + k + i * step) = some p := getElem?_map_range

theorem getElem?_contiguousSlots {k i : Nat} {p : Nat × Nat} : (contiguousSlots lane off size d k)[i]? = some (some p) ↔
    i < d ∧ k + i < size ∧ lane.slot (off + k + i) = some p := by
  rw [contiguousSlots, getElem?_map_range, Nat.lt_min, Nat.lt_sub_iff_add_lt', and_assoc]

/-- A position in rows of `d` has one row and one column. -/
theorem row_column_eq {i j i' j' : Nat} (hi : i < d) (hi' : i' < d) (h : i + j * d = i' + j' * d) : j = j' ∧ i = i' := by
  have hd : 0 < d := by omega
  have hrow := congrArg (· / d) h
  have hcolumn := congrArg (· % d) h
  simp only [Nat.add_mul_div_right _ _ hd, Nat.div_eq_of_lt, hi, hi', Nat.zero_add] at hrow
  simp only [Nat.add_mul_mod_self_right, Nat.mod_eq_of_lt, hi, hi'] at hcolumn
  exact ⟨hrow, hcolumn⟩

theorem stridedSlots_apart (hlane : ∀ chans, lane = .interleaved chans → (chans.map Prod.fst).Nodup) :
    PlacesApart (stridedSlots lane off step d) step := by
  rintro k j k' j' ⟨ch, idx⟩ hk hk' hj hj'
  have hpos := slot_injective hlane (getElem?_stridedSlots.1 hj).2 (getElem?_stridedSlots.1 hj').2
  exact (row_column_eq hk hk' (by omega)).symm

theorem contiguousSlots_apart (hlane : ∀ chans, lane = .interleaved chans → (chans.map Prod.fst).Nodup) :
    PlacesApart (fun k => contiguousSlots lane off size d (k * d)) n := by
  rintro k j k' j' ⟨ch, idx⟩ - - hj hj'
  obtain ⟨hlt, -, hslot⟩ := getElem?_contiguousSlots.1 hj
  obtain ⟨hlt', -, hslot'⟩ := getElem?_contiguousSlots.1 hj'
  have hpos := slot_injective hlane hslot hslot'
  exact row_column_eq hlt hlt' (by omega)

/-- Positions go round the channels, and those of a channel that is not decoded have no slot (45_residue.md R432). -/
theorem interleaved_slot {chans : List (Nat × Bool)} {k ch : Nat} {kept : Bool} (x : Nat) (hk : k < chans.length)
    (hch : chans[k]? = some (ch, kept)) :
    (Lane.interleaved chans).slot (x * chans.length + k) = if kept then some (ch, x) else none := by
  have hpos : 0 < chans.length := by omega
  have hcolumn : (x * chans.length + k) % chans.length = k := by rw [Nat.mul_add_mod_self_right, Nat.mod_eq_of_lt hk]
  have hrow : (x * chans.length + k) / chans.length = x := by
    rw [Nat.add_comm, Nat.add_mul_div_right _ _ hpos, Nat.div_eq_of_lt hk, Nat.zero_add]
  rw [Lane.slot, hcolumn, hrow, hch]
  cases kept <;> rfl

end

/-! ### Partitions -/

section

variable {b off size : Nat} {cb : Codebook} {lane : Lane} {entries : List Nat} {rest : List Bool} {s : State}

/-- A type 0 partition adds its vectors at a stride and changes no other sample (45_residue.md R430). -/
theorem partitionVq_strided (B : VectorBook s.tab b cb) (hd : 0 < cb.dimensions) (he : ∀ e ∈ entries, HasCodeword cb e)
    (hlane : ∀ chans, lane = .interleaved chans → (chans.map Prod.fst).Nodup)
    (hbits : s.Holds (entries.flatMap (entryBits cb) ++ rest)) (hcount : entries.length = size / cb.dimensions) :
    ∃ t, partitionVq .type0 b lane off size s = .ok true t ∧ t.Holds rest ∧ DecodedFrom s t ∧
      (∀ k < size / cb.dimensions, ∀ i < cb.dimensions, ∀ ch idx,
        lane.slot (off + k + i * (size / cb.dimensions)) = some (ch, idx) → idx < s.work.size ch →
        t.sample ch idx = fadd (s.sample ch idx) (vectorValue cb cb.lookupType (entries.getD k 0) i)) ∧
      ∀ ch idx, (∀ k < size / cb.dimensions, ∀ i < cb.dimensions,
          lane.slot (off + k + i * (size / cb.dimensions)) ≠ some (ch, idx)) →
        t.sample ch idx = s.sample ch idx := by
  obtain ⟨t, ht, hrest, hfrom, hwork⟩ := decodesIn_partitionStrided B lane off (size / cb.dimensions) entries 0 he s rest rfl hbits
  have hsample : ∀ ch idx, t.sample ch idx = Work.sample _ ch idx := fun ch idx => congrArg (·.sample ch idx) hwork
  refine ⟨t, ?_, hrest, hfrom, fun k hk i hi ch idx hslot hidx => ?_, fun ch idx hnot => ?_⟩
  · rw [hcount] at ht
    simp only [partitionVq, get_bind, B.found, stridedSteps, if_neg hd.ne']
    exact ht
  · refine (hsample ch idx).trans (addVectors_value (stridedSlots_apart hlane) entries 0 s.work k _ i (by omega)
      (getElem?_eq_some_getD 0 (by omega)) ?_ hidx)
    rw [Nat.zero_add]
    exact getElem?_stridedSlots.2 ⟨hi, hslot⟩
  · refine (hsample ch idx).trans (addVectors_frame entries 0 s.work fun k hk hmem => ?_)
    obtain ⟨i, hi⟩ := List.mem_iff_getElem?.1 hmem
    obtain ⟨hid, hslot⟩ := getElem?_stridedSlots.1 hi
    rw [Nat.zero_add] at hslot
    exact hnot k (by omega) i hid hslot

/-- A type 1 or 2 partition adds its vectors one after another up to its end and changes no other sample (45_residue.md R431 to
R434). -/
theorem partitionVq_contiguous {ty : ResidueType} (hty : ty = .type1 ∨ ty = .type2) (B : VectorBook s.tab b cb)
    (hd : 0 < cb.dimensions) (he : ∀ e ∈ entries, HasCodeword cb e)
    (hlane : ∀ chans, lane = .interleaved chans → (chans.map Prod.fst).Nodup)
    (hbits : s.Holds (entries.flatMap (entryBits cb) ++ rest)) (hend : size ≤ entries.length * cb.dimensions)
    (hlast : entries.length * cb.dimensions < size + cb.dimensions) :
    ∃ t, partitionVq ty b lane off size s = .ok true t ∧ t.Holds rest ∧ DecodedFrom s t ∧
      (∀ x < size, ∀ ch idx, lane.slot (off + x) = some (ch, idx) → idx < s.work.size ch →
        t.sample ch idx = fadd (s.sample ch idx)
          (vectorValue cb cb.lookupType (entries.getD (x / cb.dimensions) 0) (x % cb.dimensions))) ∧
      ∀ ch idx, (∀ x < size, lane.slot (off + x) ≠ some (ch, idx)) → t.sample ch idx = s.sample ch idx := by
  have hfuel : entries.length ≤ size := by
    by_contra hmore
    have hprod := Nat.mul_le_mul_right cb.dimensions (Nat.lt_of_not_le hmore)
    have hsize := Nat.le_mul_of_pos_right size hd
    rw [Nat.succ_mul] at hprod
    omega
  obtain ⟨t, ht, hrest, hfrom, hwork⟩ := decodesIn_partitionContiguous B lane off size hd entries 0 size he
    (by rwa [Nat.zero_add]) (by rwa [Nat.zero_add]) hfuel s rest rfl hbits
  have hsample : ∀ ch idx, t.sample ch idx = Work.sample _ ch idx := fun ch idx => congrArg (·.sample ch idx) hwork
  refine ⟨t, ?_, hrest, hfrom, fun x hx ch idx hslot hidx => ?_, fun ch idx hnot => ?_⟩
  · rw [Nat.zero_mul] at ht
    obtain rfl | rfl := hty
    all_goals
      simp only [partitionVq, get_bind, B.found]
      exact ht
  · have hrow : x / cb.dimensions < entries.length := (Nat.div_lt_iff_lt_mul hd).2 (hx.trans_le hend)
    have hx' := Nat.div_add_mod' x cb.dimensions
    have hcolumn := Nat.mod_lt x hd
    refine (hsample ch idx).trans (addVectors_value (contiguousSlots_apart hlane) entries 0 s.work _ _ _ (Nat.le_refl _)
      (getElem?_eq_some_getD 0 hrow) ?_ hidx)
    rw [Nat.zero_add]
    exact getElem?_contiguousSlots.2 ⟨hcolumn, by rwa [hx'], by rwa [Nat.add_assoc, hx']⟩
  · refine (hsample ch idx).trans (addVectors_frame entries 0 s.work fun k _ hmem => ?_)
    obtain ⟨i, hi⟩ := List.mem_iff_getElem?.1 hmem
    obtain ⟨-, hlt, hslot⟩ := getElem?_contiguousSlots.1 hi
    rw [Nat.add_assoc] at hslot
    exact hnot _ hlt hslot

end

/-! ### A silent submap -/

theorem getD_cleared (n2 j : Nat) (buf : List F32) :
    (List.replicate (min n2 buf.length) 0 ++ buf.drop n2).getD j 0 = if j < n2 then 0 else buf.getD j 0 := by
  rw [List.getD_eq_getElem?_getD, List.getElem?_append, List.length_replicate]
  by_cases hbuf : n2 ≤ buf.length
  · rw [min_eq_left hbuf]
    by_cases hj : j < n2
    · simp [hj]
    · simp [hj, Nat.add_sub_cancel' (Nat.le_of_not_lt hj)]
  · rw [min_eq_right (by omega), List.drop_of_length_le (by omega)]
    by_cases hj : j < buf.length
    · simp [hj, show j < n2 by omega]
    · simp [hj]

theorem clearSpectrum_sample (n2 : Nat) (w : Work) (c ch j : Nat) : (clearSpectrum n2 w c).sample ch j =
    if ch = c ∧ j < n2 then 0 else w.sample ch j := by
  simp only [Work.sample, clearSpectrum, List.getD_eq_getElem?_getD, List.getElem?_modify]
  by_cases hch : c = ch
  · subst hch
    cases w.channelBuffer[c]? with
    | none => simp
    | some buf => simpa using getD_cleared n2 j buf
  · simp [hch, Ne.symm hch]

theorem clearSpectra_sample (n2 ch j : Nat) : ∀ (l : List Nat) (w : Work), (l.foldl (clearSpectrum n2) w).sample ch j =
    if ch ∈ l ∧ j < n2 then 0 else w.sample ch j
  | [], w => by simp
  | c :: l, w => by
    rw [List.foldl_cons, clearSpectra_sample n2 ch j l, clearSpectrum_sample]
    by_cases hj : j < n2
    · by_cases hc : ch = c
      · simp [hj, hc]
      · simp [hj, hc]
    · simp [hj]

/-- With no channel to decode there is no lane, for each type (45_residue.md R424, R425). -/
theorem residueLanes_silent (ty : ResidueType) {sc : List Nat} {zero : List Bool} (h : ∀ ch ∈ sc, zero.getD ch true = true) :
    residueLanes ty sc zero = [] := by
  have hfilter : sc.filter (fun ch => !(zero.getD ch true)) = [] := List.filter_eq_nil_iff.2 fun ch hch => by rw [h ch hch]; decide
  have hany : sc.any (fun ch => !(zero.getD ch true)) = false := List.any_eq_false.2 fun ch hch => by rw [h ch hch]; decide
  simp only [residueLanes, hfilter, hany, Bool.false_eq_true, if_false, List.map_nil, ite_self]

/-- A submap without a decoded channel is cleared, and no bit is read (45_residue.md R423, R426). -/
theorem residueDecodeAs_silent (ty : ResidueType) (map : Mapping) (submap n2 : Nat) {s : State}
    (h : ∀ ch ∈ submapChannels map s.tab.channels submap, s.work.zeroChannel.getD ch true = true) :
    residueDecodeAs ty map submap n2 s = .ok true { s with work := clearSubmap map s.tab.channels n2 s.work submap } := by
  simp only [residueDecodeAs, get_bind, residueLanes_silent ty h]
  rfl

/-! ### The statement -/

/-- Settles O45: `residueDecodeAs` touches the spectra of its submap only, a submap without lanes is only cleared, and the two kinds
of partition are `partitionVq_strided` and `partitionVq_contiguous`. -/
theorem residueDecodeCompletes : Obligations.ResidueDecodeCompletes := by
  refine ⟨?_, fun _ _ => rfl, fun chans x k ch kept hk hch => interleaved_slot x hk hch, ?_⟩
  · rintro s i long mapping submap n2 chans hi hmapping hsubmap rfl rfl h
    have hexec : ∃ ty, exec i s = runResidue ty (.decode long mapping submap) s := by
      simp only [List.mem_cons, List.not_mem_nil, or_false] at hi
      obtain rfl | rfl | rfl := hi <;> exact ⟨_, rfl⟩
    obtain ⟨ty, hexec⟩ := hexec
    obtain ⟨whole, t, ht, hhere, hfrom, hwork, hothers⟩ :=
      residueDecodeAs_runs s.tab.channels (spectraOnly_residue _) ty (s.tab.blocksize long / 2) rfl h
    refine ⟨t, hexec.trans (runOnEntry_ok (by simp [hmapping, hsubmap]) (bind_ok ht)), hhere, hfrom, hwork, hothers, fun hzero => ?_⟩
    cases ht.symm.trans (residueDecodeAs_silent ty _ submap _ hzero)
    exact ⟨rfl, fun ch hch j => (clearSpectra_sample _ ch j _ s.work).trans (if_congr (and_iff_right hch) rfl rfl)⟩
  · rintro s b off size d cb lane entries rest - hcb hlookup rfl hd hlengths hcanonical he hlane hbits
    have B : VectorBook s.tab b cb := ⟨hcb, hlookup, hlengths, hcanonical⟩
    exact ⟨fun hcount => partitionVq_strided B hd he hlane hbits hcount,
      fun ty hty hend hlast => partitionVq_contiguous hty B hd he hlane hbits hend hlast⟩

end Sys2Proof.Proofs
end

section
/-! SUPPORT. Inverse channel coupling (46_coupling.md): the samples of the two channels of a step, and the buffers it leaves. -/

namespace Sys2Proof.Proofs

open Sys2Proof Sys2Proof.Machine

/-! ### The pairs of a step -/

/-- The four-branch rule on the first `n2` elements of a magnitude and an angle buffer, the pairs `inverseCouple` writes back
(46_coupling.md R462). -/
def coupledPairs (n2 : Nat) (xs ys : List F32) : List (F32 × F32) := (xs.take n2).zipWith uncouple (ys.take n2)

/-- One half of the pairs, laid over the start of a buffer as `inverseCouple` lays it. -/
def overlaid (half : F32 × F32 → F32) (pairs : List (F32 × F32)) (buf : List F32) : List F32 :=
  pairs.map half ++ buf.drop pairs.length

theorem inverseCouple_channelBuffer (n2 : Nat) (w : Work) (m a : Nat) : (inverseCouple n2 w (m, a)).channelBuffer =
    let pairs := coupledPairs n2 (w.channelBuffer.getD m []) (w.channelBuffer.getD a [])
    (w.channelBuffer.set m (overlaid Prod.fst pairs (w.channelBuffer.getD m []))).set a
      (overlaid Prod.snd pairs (w.channelBuffer.getD a [])) := rfl

section

variable {n2 : Nat} {xs ys : List F32}

theorem coupledPairs_length (hx : n2 ≤ xs.length) (hy : n2 ≤ ys.length) : (coupledPairs n2 xs ys).length = n2 := by
  simp [coupledPairs, hx, hy]

theorem getElem?_coupledPairs {j : Nat} (hx : n2 ≤ xs.length) (hy : n2 ≤ ys.length) (hj : j < n2) :
    (coupledPairs n2 xs ys)[j]? = some (uncouple (xs.getD j 0) (ys.getD j 0)) := by
  simp [coupledPairs, hj, hj.trans_le hx, hj.trans_le hy]

/-- Below `n2` the buffer holds its half of the four-branch rule, from there on what it held. -/
theorem getD_overlaid (half : F32 × F32 → F32) (buf : List F32) (j : Nat) (hx : n2 ≤ xs.length) (hy : n2 ≤ ys.length) :
    (overlaid half (coupledPairs n2 xs ys) buf).getD j 0 =
      if j < n2 then half (uncouple (xs.getD j 0) (ys.getD j 0)) else buf.getD j 0 := by
  rw [overlaid, List.getD_eq_getElem?_getD, List.getElem?_append, List.length_map, coupledPairs_length hx hy]
  by_cases hj : j < n2
  · rw [if_pos hj, if_pos hj, List.getElem?_map, getElem?_coupledPairs hx hy hj]
    rfl
  · rw [if_neg hj, if_neg hj, List.getElem?_drop, Nat.add_sub_cancel' (Nat.le_of_not_lt hj), List.getD_eq_getElem?_getD]

end

/-! ### A step -/

/-- A step touches the buffers of its two channels only (46_coupling.md R460). -/
theorem inverseCouple_spectraOnly (n2 : Nat) (w : Work) (m a : Nat) : SpectraOnly [m, a] w (inverseCouple n2 w (m, a)) := by
  refine ⟨rfl, fun ch hch => ?_⟩
  simp only [List.mem_cons, List.not_mem_nil, or_false, not_or] at hch
  rw [inverseCouple_channelBuffer, getD_set_ne' _ _ _ hch.2, getD_set_ne' _ _ _ hch.1]

section

variable {n2 m a : Nat} {w : Work}

theorem inverseCouple_magnitude (hma : m ≠ a) (hm : m < w.channelBuffer.length) (hx : n2 ≤ w.size m) (hy : n2 ≤ w.size a)
    (j : Nat) : (inverseCouple n2 w (m, a)).sample m j =
      if j < n2 then (uncouple (w.sample m j) (w.sample a j)).1 else w.sample m j := by
  have hbuf : (inverseCouple n2 w (m, a)).channelBuffer.getD m [] = overlaid Prod.fst
      (coupledPairs n2 (w.channelBuffer.getD m []) (w.channelBuffer.getD a [])) (w.channelBuffer.getD m []) := by
    rw [inverseCouple_channelBuffer, getD_set_ne' _ _ _ hma, List.getD_eq_getElem?_getD, List.getElem?_set_self hm,
      Option.getD_some]
  rw [Work.sample, hbuf]
  exact getD_overlaid _ _ j hx hy

theorem inverseCouple_angle (ha : a < w.channelBuffer.length) (hx : n2 ≤ w.size m) (hy : n2 ≤ w.size a) (j : Nat) :
    (inverseCouple n2 w (m, a)).sample a j =
      if j < n2 then (uncouple (w.sample m j) (w.sample a j)).2 else w.sample a j := by
  have hbuf : (inverseCouple n2 w (m, a)).channelBuffer.getD a [] = overlaid Prod.snd
      (coupledPairs n2 (w.channelBuffer.getD m []) (w.channelBuffer.getD a [])) (w.channelBuffer.getD a []) := by
    rw [inverseCouple_channelBuffer, List.getD_eq_getElem?_getD, List.getElem?_set_self (by rwa [List.length_set]),
      Option.getD_some]
  rw [Work.sample, hbuf]
  exact getD_overlaid _ _ j hx hy

end

/-! ### The statement -/

/-- Settles O52: `inverseCouple_spectraOnly` is the frame, and the samples of the two channels are `inverseCouple_magnitude` and
`inverseCouple_angle`. -/
theorem inverseCoupling : Obligations.InverseCoupling := by
  intro w n2 m a hma hm ha hx hy
  have hmag := inverseCouple_magnitude hma hm hx hy
  have hang := inverseCouple_angle ha hx hy
  obtain ⟨hwork, hothers⟩ := inverseCouple_spectraOnly n2 w m a
  refine ⟨hwork, fun ch hchm hcha => hothers ch (by simp [hchm, hcha]), fun j => ⟨fun hj => ?_, ?_⟩⟩
  · have hj' : ¬ j < n2 := Nat.not_lt.2 hj
    exact ⟨(hmag j).trans (if_neg hj'), (hang j).trans (if_neg hj')⟩
  · rintro x y hj rfl rfl
    have hpair : ((inverseCouple n2 w (m, a)).sample m j, (inverseCouple n2 w (m, a)).sample a j) =
        uncouple (w.sample m j) (w.sample a j) := Prod.ext ((hmag j).trans (if_pos hj)) ((hang j).trans (if_pos hj))
    refine hpair.trans ?_
    unfold uncouple Work.sample
    cases fpos ((w.channelBuffer.getD m []).getD j 0) with
    | true => cases fpos ((w.channelBuffer.getD a []).getD j 0) with
      | true => rfl
      | false => rfl
    | false => cases fpos ((w.channelBuffer.getD a []).getD j 0) with
      | true => rfl
      | false => rfl

end Sys2Proof.Proofs
end

section
/-! SUPPORT. Opening (48_frame_control.md R540, R541): an open of headers that pass every check, one that asks for more of its chunk,
and one that fails. -/

namespace Sys2Proof.Proofs

open Sys2Proof Sys2Proof.Machine

variable {s t u : State} {e : ErrCode} {f : SetupFields} {h : HeaderStream} {rest : List Byte}

/-! ### The command -/

/-- A command for which no api is named runs its body where its state allows it (48_frame_control.md R562). -/
theorem runCommand_anyApi {i : Instr} {body : State → State} (ha : commandAllowed i s.ctl.state = true)
    (hapi : commandApi i = none) : runCommand i body s = body s := by
  simp [runCommand, ha, hapi]

theorem exec_openPull (hs : s.ctl.state = .closed) : exec .openPull s = .next (openPullBody s) :=
  congrArg Host.Outcome.next (runCommand_anyApi (by rw [hs]; rfl) rfl)

theorem exec_openPush (hs : s.ctl.state = .closed ∨ s.ctl.state = .awaitingHeaders) :
    exec .openPush s = .next (openPushBody s) := by
  have hallowed : commandAllowed .openPush s.ctl.state = true := by rcases hs with hs | hs <;> rw [hs] <;> rfl
  exact congrArg Host.Outcome.next (runCommand_anyApi hallowed rfl)

/-- The machine from which OPEN_PULL parses (48_frame_control.md R540). -/
def pullStart (s : State) : State := { openPrologue .pull s with ctl.state := .awaitingHeaders }

/-! ### Headers that pass every check -/

/-- `SetPos` back to where the source was (20_memory.md R94). -/
theorem setPos_back {p : Word} (hp : p ≤ s.src.len) :
    ∃ b, setPos p s = .ok b { s with src := { s.src with pos := p, eof := decide (s.src.len ≤ p) } } := by
  obtain ⟨b, hset⟩ := setPos_end p s
  have hpos : (if s.src.len ≤ p then s.src.len else p) = p := by
    split
    · next h => exact BitVec.le_antisymm h hp
    · rfl
  rw [hpos] at hset
  exact ⟨b, hset⟩

/-- The probe of the first audio page writes `p_first` and leaves the position on that page (42_setup.md R332). -/
theorem probeFirstPage_back (hp : s.src.pos ≤ s.src.len) (hlive : s.src.eof = false)
    (hfirst : s.src.firstAudioPageOffset = s.src.pos) : ∃ p eof, probeFirstPage s = .ok () { s with
      src := { s.src with eof := eof }, ctl := { s.ctl with pFirst := p } } := by
  obtain ⟨found, w, hfind, hscan⟩ := findPage_scanned hp (by simp [hlive])
  have hw : Elsewhere s w := hscan.frame
  unfold Elsewhere at hw
  have hlen : w.src.len = s.src.len := by rw [hw]
  have hback : w.src.firstAudioPageOffset = s.src.pos := by rw [hw]; exact hfirst
  obtain ⟨b, hset⟩ := setPos_back (s := { w with ctl := { w.ctl with pFirst := w.probedFirst found } }) (p := s.src.pos)
    (hlen ▸ hp)
  refine ⟨w.probedFirst found, decide (s.src.len ≤ s.src.pos), ?_⟩
  unfold probeFirstPage
  rw [bind_ok hfind, get_bind, bind_ok (setControl_run _ w), hback, bind_ok hset, pure_run, hw]

/-- What an open leaves of headers that pass every check, before its runtime state: the tables, and the place after the headers. -/
structure HeadersParsed (s : State) (h : HeaderStream) (f : SetupFields) (u : State) : Prop where
  frame : u = { s with
    rd := u.rd, cur := u.cur, src := { s.src with pos := u.src.pos, pageStart := u.src.pageStart }, tab := h.tables f
    work := reserveBuffers (h.tables f).channels ((h.tables f).blocksize true) }
  place : u.src.pos = BitVec.ofNat 32 h.bytes.length
  inside : u.src.pos ≤ u.src.len
  live : u.src.eof = false
  pageOver : u.cur.nextSeg = -1

section

variable (hp : HeadersParsed s h f u)

include hp

theorem HeadersParsed.tab : u.tab = h.tables f := by rw [hp.frame]

theorem HeadersParsed.regs : u.regs = s.regs := by rw [hp.frame]

theorem HeadersParsed.mem : u.mem = s.mem := by rw [hp.frame]

theorem HeadersParsed.window : u.src.base = s.src.base ∧ u.src.len = s.src.len := by
  rw [hp.frame]
  exact ⟨rfl, rfl⟩

/-- The runtime state of a successful open (42_setup.md R328, R330). -/
theorem HeadersParsed.control : (openRuntime u).ctl = { s.ctl with
    state := .decoding, firstDecode := true, previousLength := 0, discardSamplesDeferred := 0
    currentLoc := 0, currentLocValid := false, outLeft := 0, outLen := 0, totalSamplesKnown := .notComputed
    resync := false, setupEndsPage := true } := by
  have hctl : u.ctl = s.ctl := by rw [hp.frame]
  simp [openRuntime, hctl, hp.pageOver]

end

theorem openTables_parsed (hl : h.Legal f s.params) (hfit : fitsArena s.params (h.tables f) = true)
    (ht : s.tab = Tables.absent) (h0 : s.src.pos = 0) (ha : s.Ahead (h.bytes ++ rest)) :
    ∃ u, openTables s = .ok () u ∧ HeadersParsed s h f u := by
  obtain ⟨u, hu, hrest, hover, hpos, hframe⟩ := openTables_ahead hl ht hfit ha
  have hplace : (s.moved h.bytes.length).src.pos = BitVec.ofNat 32 h.bytes.length := by
    show s.src.pos + BitVec.ofNat 32 h.bytes.length = _
    simp [h0]
  exact ⟨u, hu, hframe, hpos.trans hplace, Nat.le_of_add_right_le hrest.fits, hrest.live, hover⟩

/-- OPEN_PULL on headers that pass every check (48_frame_control.md R540). -/
theorem openPullBody_parsed (hu : openTables (pullStart s) = .ok () u) (hp : HeadersParsed (pullStart s) h f u) :
    ∃ p eof, openPullBody s = { openRuntime u with
      src := { (openRuntime u).src with eof := eof }, ctl := { (openRuntime u).ctl with pFirst := p }
      regs := { u.regs with result := .ok } } := by
  obtain ⟨p, eof, hprobe⟩ := probeFirstPage_back (s := openRuntime u) hp.inside hp.live rfl
  have hsteps : openPullSteps (pullStart s) = probeFirstPage (openRuntime u) := by
    unfold openPullSteps
    rw [bind_ok hu, bind_ok (modify_run openRuntime u)]
  rw [hprobe] at hsteps
  refine ⟨p, eof, ?_⟩
  unfold openPullBody
  rw [← pullStart, hsteps]
  rfl

/-- OPEN_PUSH on a chunk that holds the headers (48_frame_control.md R541). -/
theorem openPushBody_parsed (hu : openTables (openPrologue .push s) = .ok () u) (hlive : u.src.eof = false) :
    openPushBody s = (openRuntime u).reportConsumed := by
  simp [openPushBody, hu, hlive]

/-! ### Opens that do not succeed -/

/-- OPEN_PUSH on a chunk that ends inside the headers asks for more, whatever the parse gave (48_frame_control.md R541). -/
theorem openPushBody_needsMore (hu : openTables (openPrologue .push s) = .ok () t ∨
    ∃ e, openTables (openPrologue .push s) = .error e t) (heof : t.src.eof = true) : openPushBody s = openNeedsMore t := by
  obtain hu | ⟨e, hu⟩ := hu <;> simp [openPushBody, hu, heof]

/-- An open's error fails it as a whole (60_exceptions.md R602, R603). -/
theorem takeError_failsOpen (he : OpenCode e) (hs : t.ctl.state = .closed ∨ t.ctl.state = .awaitingHeaders) : takeError e t =
    { t with ctl.error := e.code, ctl.state := .error, regs.result := .error, tab := Tables.absent } :=
  takeError_open he (by rcases hs with hs | hs <;> simp [State.inHeaders, hs])

/-- A page looked for at the end of the source is no page, and no cut capture pattern either (41_ogg_framer.md R231, R232). -/
theorem startPage_atEnd (hend : s.src.pos = s.src.len) : startPage s = .error .missingCapturePattern ((marked s).readOn 4) := by
  have hinside : (marked s).src.pos ≤ (marked s).src.len := BitVec.le_of_eq hend
  have hzero : (marked s).byteAt (marked s).src.pos.toNat = 0 := byteAt_end (Nat.le_of_eq (congrArg BitVec.toNat hend.symm))
  have hfound : ((marked s).bytesAt (marked s).src.pos.toNat 4 == captureBytes) = false := by
    rw [bytesAt_succ, hzero]
    rfl
  have hcapture : capturePattern s = .ok false ((marked s).readOn 4) := by
    unfold capturePattern
    rw [bind_ok (markPageStart_marked s), bind_ok (bytes_readOn 4 hinside), hfound, pure_run]
  have hleft : ((marked s).readOn 4).src.len.toNat - ((marked s).readOn 4).src.pageStart.toNat = 0 := by
    show s.src.len.toNat - s.src.pos.toNat = 0
    rw [hend, Nat.sub_self]
  have hcut : ((marked s).readOn 4).captureCut = false := by
    unfold State.captureCut
    rw [hleft]
    rfl
  have hfailed := captureFailed_run (α := Unit) ((marked s).readOn 4)
  rw [hcut] at hfailed
  exact (bind_ok hcapture).trans hfailed

/-- OPEN_PUSH on an empty chunk (48_frame_control.md R541). -/
theorem openPushBody_empty (hlen : s.regs.arg1 = 0) :
    openPushBody s = openNeedsMore ((marked (openPrologue .push s)).readOn 4) := by
  have hpage := startPage_atEnd (s := openPrologue .push s) hlen.symm
  have hparse : openTables (openPrologue .push s) = .error .missingCapturePattern ((marked (openPrologue .push s)).readOn 4) :=
    bind_error (bind_error hpage)
  refine openPushBody_needsMore (.inr ⟨_, hparse⟩) ?_
  show (false || decide (s.regs.arg1.toNat < 0 + 4)) = true
  rw [hlen]
  decide

/-! ### The statements -/

/-- Settles O26: both opens parse the headers from a machine that differs from `s` in no field the parse looks at, and the probe of
OPEN_PULL comes back to the first audio page. -/
theorem openCompletes : Obligations.OpenCompletes := by
  intro s h f rest hl hfit ha
  refine ⟨fun hs => ?_, fun hs => ?_⟩
  · obtain ⟨u, hu, hp⟩ := openTables_parsed (s := pullStart s) hl hfit rfl rfl ⟨ha.fits, ha.same, ha.live⟩
    obtain ⟨p, eof, hbody⟩ := openPullBody_parsed hu hp
    obtain ⟨hbase, hlen⟩ := hp.window
    exact ⟨_, (exec_openPull hs).trans (congrArg _ hbody), hp.tab, congrArg (fun r : HostRegs => { r with result := .ok }) hp.regs,
      hp.mem, hp.pageOver, hbase, hlen, hp.place, hp.place, congrArg (fun c : Control => { c with pFirst := p }) hp.control⟩
  · obtain ⟨u, hu, hp⟩ := openTables_parsed (s := openPrologue .push s) hl hfit rfl rfl ⟨ha.fits, ha.same, ha.live⟩
    have hregs : ({ u.regs with ret0 := u.src.pos, result := .ok } : HostRegs) =
        { s.regs with ret0 := BitVec.ofNat 32 h.bytes.length, result := .ok } := by
      rw [hp.place, hp.regs]
      rfl
    exact ⟨_, (exec_openPush hs).trans (congrArg _ (openPushBody_parsed hu hp.live)), hp.tab, hregs, hp.mem, hp.pageOver, hp.place,
      hp.live, hp.control⟩

/-- Settles O27: a chunk that ends inside the headers asks for more whatever the parse gave, an empty one ends inside the capture
pattern, and every other error fails the open while headers are read. -/
theorem failedOpenKeepsNoTable : Obligations.FailedOpenKeepsNoTable := by
  refine ⟨fun s t hs hu heof => ?_, fun s hs hlen => ?_, fun s t e => ⟨fun hs hu => ?_, fun hs hu hlive => ?_⟩⟩
  · rw [exec_openPush hs, openPushBody_needsMore hu heof]
    rfl
  · exact ⟨_, (exec_openPush hs).trans (congrArg _ (openPushBody_empty hlen)), rfl, rfl, rfl, rfl, rfl⟩
  · have hsteps : openPullSteps (pullStart s) = .error e t := bind_error hu
    have hbody : openPullBody s = takeError e t := by
      unfold openPullBody
      rw [← pullStart, hsteps]
    have hstate : t.ctl.state = .awaitingHeaders := (openTables_errorView hu).1
    rw [exec_openPull hs, hbody, takeError_failsOpen (openTables_raises _ _ _ hu) (.inr hstate)]
  · have hbody : openPushBody s = takeError e t := by simp [openPushBody, hu, hlive]
    have hstate : t.ctl.state = s.ctl.state := (openTables_errorView hu).1
    rw [exec_openPush hs, hbody, takeError_failsOpen (openTables_raises _ _ _ hu) (hstate ▸ hs)]

end Sys2Proof.Proofs
end

section
/-! SUPPORT. The end of the stream in pull mode (48_frame_control.md R530, R543): at a page boundary, inside a capture pattern, right after
a page without segments, and inside a packet. -/

namespace Sys2Proof.Proofs

open Sys2Proof Sys2Proof.Machine

variable {s t : State} {f : PageFields}

/-! ### DECODE_FRAME -/

theorem exec_decodeFrame (hs : s.ctl.state = .decoding ∨ s.ctl.state = .eof) (ha : s.ctl.api = .pull) :
    exec .decodeFrame s = .next (decodeFrameBody s) := by
  have hallowed : commandAllowed .decodeFrame s.ctl.state = true := by rcases hs with hs | hs <;> rw [hs] <;> rfl
  exact congrArg Host.Outcome.next (runCommand_body hallowed (by rw [ha]; rfl))

/-- In EOF nothing is read (48_frame_control.md R543). -/
theorem decodeFrameBody_eof (hs : s.ctl.state = .eof) : decodeFrameBody s = (framePrologue s).setResult .eof := by
  simp [decodeFrameBody, hs]

/-- A packet start at the end of the stream ends the decode (48_frame_control.md R520). -/
theorem decodePacket_end (h : maybeStartPacket s = .ok false t) : decodePacket s = .ok none t := by
  have hfuel : 255 * (s.src.len.toNat + 2) = 255 * (s.src.len.toNat + 2) - 1 + 1 := by omega
  unfold decodePacket
  rw [get_bind, hfuel, decodePacketFuel, bind_ok h]
  rfl

theorem decodeFrameBody_end (hs : s.ctl.state = .decoding) (hd : decodePacket (framePrologue s) = .ok none t) :
    decodeFrameBody s = { t.setResult .eof with ctl.state := .eof } := by
  simp [decodeFrameBody, hs, hd]

/-- Input that ends inside a packet or page ends the stream with its error (48_frame_control.md R530, 60_exceptions.md R612). -/
theorem exec_decodeFrame_unexpectedEof (hstate : s.ctl.state = .decoding) (hapi : s.ctl.api = .pull)
    (hd : decodePacket (framePrologue s) = .error .unexpectedEof t) :
    exec .decodeFrame s = .next { t with ctl.error := 10, ctl.state := .eof, regs.result := .error } := by
  have hfailed := decodePacket_failed hd
  have htstate : t.ctl.state = .decoding := hfailed.state.trans hstate
  have htapi : t.ctl.api = .pull := hfailed.api.trans hapi
  have hbody : decodeFrameBody s = failFrame .unexpectedEof t := by simp [decodeFrameBody, hstate, hd]
  have htake : takeError .unexpectedEof t = { t with ctl.error := 10, ctl.state := .eof, regs.result := .error } := by
    simp [takeError, ErrCode.classIn, State.inHeaders, htstate, htapi, State.setError, State.setResult, ErrCode.code]
  rw [exec_decodeFrame (.inl hstate) hapi, hbody, failFrame_pull htstate htapi]
  exact congrArg _ htake

/-! ### A cut capture pattern -/

/-- The source ends inside the capture pattern of the page last looked for (60_exceptions.md R612). -/
theorem captureCut_true {n : Nat} (h0 : 0 < n) (h4 : n < 4) (hlen : s.src.pageStart.toNat + n = s.src.len.toNat)
    (hbytes : ∀ i < n, s.srcByte (s.src.pageStart + BitVec.ofNat 32 i) = captureBytes.getD i 0) : s.captureCut = true := by
  have hleft : s.src.len.toNat - s.src.pageStart.toNat = n := by omega
  have hsame : (List.range n).map (fun i => s.srcByte (s.src.pageStart + BitVec.ofNat 32 i)) = captureBytes.take n := by
    refine List.ext_getElem (by simp [captureBytes]; omega) fun i hi _ => ?_
    have hin : i < n := by simpa using hi
    have hi4 : i < captureBytes.length := by simp [captureBytes]; omega
    rw [List.getElem_map, List.getElem_range, List.getElem_take, hbytes i hin, List.getD_eq_getElem _ _ hi4]
  unfold State.captureCut
  simp only []
  rw [hleft, hsame]
  simp [h0, h4]

/-- The capture test fails where the source ends before its last byte (41_ogg_framer.md R242). -/
theorem captureRest_cut (hpos : s.src.pos ≤ s.src.len) (hlen : s.src.len.toNat < s.src.pos.toNat + 3) :
    ∃ k, captureRest [0x67, 0x67, 0x53] s = .ok false (s.readOn k) := by
  obtain ⟨b, k, hrest, -, hb⟩ := captureRest_readOn [0x67, 0x67, 0x53] hpos
  have hfalse : b = false := by
    by_contra htrue
    have hall : s.bytesAt s.src.pos.toNat 3 = [0x67, 0x67, 0x53] := hb.1 (Bool.eq_true_of_not_eq_false htrue)
    have hlast := bytesAt_getD s (i := s.src.pos.toNat) (n := 3) (k := 2) (by decide)
    rw [byteAt_end (by omega), hall] at hlast
    exact absurd hlast (by decide)
  exact ⟨k, hfalse ▸ hrest⟩

/-- A packet start where the source ends inside a capture pattern (notes/assumptions/44.md). -/
theorem maybeStartPacket_cut {n : Nat} (hn : s.cur.nextSeg = -1) (h0 : 0 < n) (h4 : n < 4)
    (ha : s.Ahead (captureBytes.take n)) (hlen : s.src.pos.toNat + n = s.src.len.toNat) : ∃ t, maybeStartPacket s =
      .error (if Config.cutCaptureIsEof then .unexpectedEof else .missingCapturePattern) t ∧ t.src.pageStart = s.src.pos := by
  have hbytes : ∀ i < n, s.srcByte (s.src.pos + BitVec.ofNat 32 i) = captureBytes.getD i 0 := fun i hi => by
    rw [ha.same i (by simp [captureBytes]; omega)]
    simp [List.getD_eq_getElem?_getD, hi]
  have hsplit : captureBytes.take n = [0x4F] ++ [0x67, 0x67, 0x53].take (n - 1) := by
    rw [show n = n - 1 + 1 by omega]
    rfl
  have hfirst : get8 (marked s) = .ok 0x4F ((marked s).moved 1) := gets_get8 0x4F _ _ (hsplit ▸ marked_ahead ha)
  have hmoved : ((marked s).moved 1).src.pos.toNat = s.src.pos.toNat + 1 :=
    word_add_toNat (a := s.src.pos) (n := 1) (by have := s.src.len.isLt; omega)
  have hinside : ((marked s).moved 1).src.pos ≤ ((marked s).moved 1).src.len := by
    rw [BitVec.le_def, hmoved]
    show _ ≤ s.src.len.toNat
    omega
  obtain ⟨k, hrest⟩ := captureRest_cut hinside (by
    rw [hmoved]
    show s.src.len.toNat < _
    omega)
  have hcut : (((marked s).moved 1).readOn k).captureCut = true := captureCut_true h0 h4 hlen hbytes
  have hlive : ¬ ((marked s).moved 1).src.eof = true := by
    rw [show ((marked s).moved 1).src.eof = false from ha.live]
    decide
  unfold maybeStartPacket
  rw [get_bind, if_pos hn, bind_ok (markPageStart_marked s), bind_ok hfirst, get_bind, if_neg hlive, if_neg (by simp),
    bind_ok hrest, if_pos (by rfl), captureFailed_run, hcut]
  exact ⟨_, rfl, rfl⟩

/-! ### A page without segments -/

/-- A packet start at a page just ahead goes on from that page (41_ogg_framer.md R242). -/
theorem maybeStartPacket_pageRead {rest : List Byte} (hn : s.cur.nextSeg = -1) (hcontinued : pageContinued f.flag = false)
    (hsegments : f.segments.length ≤ 255) (ha : s.Ahead (captureBytes ++ (f.encode ++ rest))) :
    maybeStartPacket s = startPacketOrEnd (s.captured.pageRead f) := by
  have hmarked : (marked s).Ahead ([0x4F] ++ ([0x67, 0x67, 0x53] ++ (f.encode ++ rest))) := marked_ahead ha
  have hfirst : get8 (marked s) = .ok 0x4F ((marked s).moved 1) := gets_get8 0x4F _ _ hmarked
  have hrest : captureRest [0x67, 0x67, 0x53] ((marked s).moved 1) = .ok true s.captured :=
    (gets_captureRest _ _ _ (ahead_moved hmarked)).trans (congrArg (EStateM.Result.ok true) (moved_moved (marked s) 1 3))
  have hlive : ¬ ((marked s).moved 1).src.eof = true := by
    rw [show ((marked s).moved 1).src.eof = false from ha.live]
    decide
  have hflag : ¬ pageContinued (s.captured.pageRead f).cur.pageFlag = true := by
    rw [show (s.captured.pageRead f).cur.pageFlag = f.flag from rfl, hcontinued]
    decide
  unfold maybeStartPacket
  rw [get_bind, if_pos hn, bind_ok (markPageStart_marked s), bind_ok hfirst, get_bind, if_neg hlive, if_neg (by simp),
    bind_ok hrest, if_neg (by simp), bind_ok (startPageNoCapture_ahead hsegments (captured_ahead ha)), get_bind, if_neg hflag]

theorem readOn_atEnd {n : Nat} (hend : s.src.pos = s.src.len) (h0 : 0 < n) :
    (s.readOn n).src.pos = s.src.len ∧ (s.readOn n).src.eof = true := by
  have hpos : s.src.pos.toNat = s.src.len.toNat := congrArg BitVec.toNat hend
  refine ⟨BitVec.eq_of_toNat_eq ((readOn_pos s n).trans (by omega)), ?_⟩
  rw [State.readOn, decide_eq_true (by omega), Bool.or_true]

/-- Where the source ends right after a page without segments (notes/assumptions/45.md). -/
theorem startPacketOrEnd_atEnd (hn : s.cur.nextSeg = -1) (hend : s.src.pos = s.src.len) : startPacketOrEnd s =
    if Config.emptyPageIsEnd then .ok false ((marked s).readOn 4) else .error .missingCapturePattern ((marked s).readOn 4) := by
  have hpages : startPacketPages (s.src.len.toNat + 1) s = .error .missingCapturePattern ((marked s).readOn 4) := by
    rw [startPacketPages, get_bind, if_pos hn, bind_error (startPage_atEnd hend)]
  have hstart : startPacket s = .error .missingCapturePattern ((marked s).readOn 4) := by
    unfold startPacket
    rw [get_bind, bind_error hpages]
  have hpast : ((marked s).readOn 4).src.len ≤ ((marked s).readOn 4).src.pageStart := BitVec.le_of_eq hend.symm
  rw [startPacketOrEnd_error hstart]
  simp [hpast]

/-- DECODE_FRAME's packet right after a page without segments, at the end of the source (notes/assumptions/45.md). -/
theorem decodePacket_emptyPage (hn : s.cur.nextSeg = -1) (hcontinued : pageContinued f.flag = false) (hf : f.segments = [])
    (ha : s.Ahead (captureBytes ++ f.encode)) (hlen : s.src.pos.toNat + (captureBytes ++ f.encode).length = s.src.len.toNat) :
    ∃ t, decodePacket s = (if Config.emptyPageIsEnd then .ok none t else .error .missingCapturePattern t) ∧
      t.src.pos = s.src.len ∧ t.src.eof = true := by
  have hend : (s.captured.pageRead f).src.pos = s.src.len := by
    have hmoved : (s.captured.pageRead f).src.pos = s.src.pos + BitVec.ofNat 32 (captureBytes ++ f.encode).length := by
      rw [List.length_append, BitVec.ofNat_add, ← BitVec.add_assoc]
      rfl
    refine BitVec.eq_of_toNat_eq ?_
    rw [hmoved, word_add_toNat (hlen ▸ s.src.len.isLt), hlen]
  have hstart := maybeStartPacket_pageRead (rest := []) hn hcontinued (by simp [hf]) (by simpa using ha)
  rw [startPacketOrEnd_atEnd (if_pos (by simp [hf])) hend] at hstart
  refine ⟨_, ?_, readOn_atEnd (s := marked (s.captured.pageRead f)) hend (n := 4) (by decide)⟩
  cases hfree : Config.emptyPageIsEnd with
  | true =>
    rw [hfree, if_pos rfl] at hstart
    exact decodePacket_end hstart
  | false =>
    rw [hfree, if_neg (by decide)] at hstart
    exact decodePacket_start_error hstart

/-! ### The statement -/

/-- Settles O19: a packet start at the end is the end of the stream, EOF is answered from the state, and an `unexpected_eof` that
decoding raises is taken where it was raised; the two free outcomes are those of `maybeStartPacket_cut` and
`decodePacket_emptyPage`. -/
theorem endOfStream : Obligations.EndOfStream := by
  refine ⟨fun s hstate hapi hn hend => ?_, fun s hstate hapi => ?_, fun s t hstate hapi hd => ?_,
    fun s n hn h0 h4 ha hlen => ?_, fun s f hn hcontinued hf ha hlen => ?_⟩
  · have hpacket := decodePacket_end (maybeStartPacket_end (s := framePrologue s) hn hend)
    rw [exec_decodeFrame (.inl hstate) hapi, decodeFrameBody_end hstate hpacket]
    rfl
  · rw [exec_decodeFrame (.inr hstate) hapi, decodeFrameBody_eof hstate]
    rfl
  · have hfailed := decodePacket_failed hd
    have hview : audioView t = audioView (framePrologue s) := (decodePacket_keeps audioView_booking).error hd
    exact ⟨exec_decodeFrame_unexpectedEof hstate hapi hd, hfailed.outLen, hfailed.ret0,
      (congrArg (fun v : State => v.work.previousWindow) hview :)⟩
  · obtain ⟨t, ht, hstart⟩ := maybeStartPacket_cut (s := framePrologue s) hn h0 h4 ⟨ha.fits, ha.same, ha.live⟩ hlen
    exact ⟨t, decodePacket_start_error ht, hstart⟩
  · exact decodePacket_emptyPage (s := framePrologue s) hn hcontinued hf ⟨ha.fits, ha.same, ha.live⟩ hlen

end Sys2Proof.Proofs
end

section
/-! SUPPORT. The transitions of the top-level state (48_frame_control.md R511): where each command's body leaves it, and the two ways a
command is rejected. -/

namespace Sys2Proof.Proofs

open Sys2Proof Sys2Proof.Machine

variable {i : Instr} {s t : State} {e : ErrCode}

/-! ### What reading leaves -/

/-- The top-level state and the api, which nothing but the end of a command changes. -/
def modeView (s : State) : TopState × Api := (s.ctl.state, s.ctl.api)

theorem decodePacket_mode : Keeps (Same modeView) decodePacket := keeps_coarser (decodePacket_keeps audioView_booking) fun _ => rfl

theorem skipPushed_mode (e : ErrCode) : Keeps (Same modeView) (skipPushed e) := by
  have hdrain : Keeps (Same modeView) drainPacket := keeps_coarser (drainPacket_keeps readView_reading) fun _ => rfl
  exact keeps_ite (fun _ => keeps_bind (same_composes modeView) (fun _ => rfl) fun _ => hdrain) fun _ => hdrain

theorem probeFirstPage_mode : Keeps (Same modeView) probeFirstPage := by
  have C := same_composes modeView
  have F := readView_moving.toScanning
  refine keeps_bind C (keeps_coarser (findPage_keeps F) fun _ => rfl) fun _ => keeps_bind C (keeps_get C) fun s => ?_
  exact keeps_bind C (fun _ => rfl) fun _ => keeps_bind C (keeps_coarser (setPos_keeps F _) fun _ => rfl) fun _ => keeps_pure C _

theorem state_of_mode (h : Same modeView s t) : t.ctl.state = s.ctl.state := congrArg Prod.fst h

theorem api_of_mode (h : Same modeView s t) : t.ctl.api = s.ctl.api := congrArg Prod.snd h

/-! ### Opening -/

/-- An open that fails as a whole (60_exceptions.md R602, R603). -/
def OpenFailed (t : State) : Prop := t.ctl.state = .error ∧ t.regs.result = .error ∧ t.tab = Tables.absent

theorem takeError_openFailed (he : OpenCode e) (hs : t.ctl.state = .closed ∨ t.ctl.state = .awaitingHeaders) :
    OpenFailed (takeError e t) := by
  rw [takeError_failsOpen he hs]
  exact ⟨rfl, rfl, rfl⟩

theorem openPullBody_ends (s : State) :
    ((openPullBody s).ctl.state = .decoding ∧ (openPullBody s).ctl.api = .pull ∧ (openPullBody s).regs.result = .ok) ∨
      OpenFailed (openPullBody s) := by
  unfold openPullBody
  rw [← pullStart]
  split
  · next t h =>
    obtain ⟨_, u, hu, hprobe⟩ := bind_ok_iff.1 h
    rw [bind_ok (modify_run openRuntime u)] at hprobe
    have hmode := probeFirstPage_mode.ok hprobe
    exact .inl ⟨state_of_mode hmode, (api_of_mode hmode).trans (openTables_view () hu).2, rfl⟩
  · next e t h =>
    have hparse := openPullSteps_error h
    exact .inr (takeError_openFailed (openTables_raises _ _ _ hparse) (.inr (openTables_errorView hparse).1))

theorem openPushBody_ends (hs : s.ctl.state = .closed ∨ s.ctl.state = .awaitingHeaders) :
    ((openPushBody s).ctl.state = .decoding ∧ (openPushBody s).ctl.api = .push ∧ (openPushBody s).regs.result = .ok) ∨
      ((openPushBody s).ctl.state = .awaitingHeaders ∧ (openPushBody s).ctl.api = .push ∧
        (openPushBody s).regs.result = .needMoreData) ∨ OpenFailed (openPushBody s) := by
  unfold openPushBody
  split
  · next t h =>
    have hapi : t.ctl.api = .push := (openTables_view () h).2
    split
    · exact .inr (.inl ⟨rfl, hapi, rfl⟩)
    · exact .inl ⟨rfl, hapi, rfl⟩
  · next e t h =>
    obtain ⟨hstate, hapi⟩ := openTables_errorView h
    split
    · exact .inr (.inl ⟨rfl, hapi, rfl⟩)
    · exact .inr (.inr (takeError_openFailed (openTables_raises _ _ _ h) (hstate ▸ hs)))

/-! ### Decoding -/

/-- A decoding error in push mode resynchronises in DECODING (60_exceptions.md R604). -/
theorem takeError_push (hclass : e.classIn false = .stream) (hstate : s.ctl.state = .decoding) (hapi : s.ctl.api = .push) :
    takeError e s = ((s.setError e).setResult .error).enterResync := by
  unfold takeError
  rw [inHeaders_false (.inl hstate), hclass]
  exact if_pos hapi

theorem takeError_push_decoding (hclass : e.classIn false = .stream) (hstate : s.ctl.state = .decoding)
    (hapi : s.ctl.api = .push) : (takeError e s).ctl.state = .decoding := by
  rw [takeError_push hclass hstate hapi]
  exact hstate

theorem pushFails_decoding (he : AudioCode e) (hstate : s.ctl.state = .decoding) (hapi : s.ctl.api = .push) :
    (pushFails e s).ctl.state = .decoding := takeError_push_decoding (audio_class he) hstate hapi

theorem resyncScan_state (s : State) : (resyncScan s).ctl.state = s.ctl.state := by
  unfold resyncScan
  simp only []
  split
  · rfl
  · rfl

theorem pushPacket_decoding (hstate : s.ctl.state = .decoding) (hapi : s.ctl.api = .push) :
    (pushPacket s).ctl.state = .decoding := by
  unfold pushPacket
  split
  · next f t h =>
    have hdeliver : (deliverFrame f t).2.ctl.state = t.ctl.state :=
      (congrArg (fun v : State => v.ctl.state) (deliverFrame_view f t) :)
    exact hdeliver.trans ((state_of_mode (decodePacket_mode.ok h)).trans hstate)
  · next t h => exact (state_of_mode (decodePacket_mode.ok h)).trans hstate
  · next e t h =>
    have hmode := decodePacket_mode.error h
    have htstate := (state_of_mode hmode).trans hstate
    have htapi := (api_of_mode hmode).trans hapi
    split
    · split
      · next u hskip => exact (state_of_mode ((skipPushed_mode e).ok hskip)).trans htstate
      · next e' u hskip =>
        have hskipped := (skipPushed_mode e).error hskip
        exact pushFails_decoding (framer_audio (skipPushed_raises e _ _ _ hskip)) ((state_of_mode hskipped).trans htstate)
          ((api_of_mode hskipped).trans htapi)
    · exact pushFails_decoding (decodePacket_raises _ _ _ h) htstate htapi

theorem pushDecodeBody_decoding (hstate : s.ctl.state = .decoding) (hapi : s.ctl.api = .push) :
    (pushDecodeBody s).ctl.state = .decoding := by
  unfold pushDecodeBody
  simp only []
  split
  · exact (resyncScan_state _).trans hstate
  split
  · exact hstate
  · exact takeError_push_decoding rfl hstate hapi
  · exact pushPacket_decoding hstate hapi

/-- DECODE_FRAME whose packet raises stays in DECODING, but at the end of the input (48_frame_control.md R530, R531). -/
theorem decodeFrameBody_error (hstate : s.ctl.state = .decoding) (hapi : s.ctl.api = .pull)
    (hd : decodePacket (framePrologue s) = .error e t) : (decodeFrameBody s).ctl.state = .decoding ∨
      (decodeFrameBody s).ctl.state = .eof ∧ (decodeFrameBody s).ctl.error = 10 := by
  have hexec := exec_decodeFrame (.inl hstate) hapi
  have hfailed := decodePacket_failed hd
  have hkept : endState (recover e) t = t → e ≠ .unexpectedEof → e.classIn false = .stream →
      (decodeFrameBody s).ctl.state = .decoding := fun hr hne hclass => by
    rw [Host.Outcome.next.inj (hexec.symm.trans (exec_decodeFrame_error hstate hapi hd hclass hne hr hfailed.state hfailed.api))]
    exact hfailed.state.trans hstate
  obtain (hbad | hbad | rfl | rfl) | rfl | rfl := decodePacket_raises _ _ _ hd
  · obtain ⟨-, -, -, w, -, -, -, -, -, hw, -, -, -, hend⟩ := decodeFrame_badPage hstate hapi (.inl hbad) hd
    exact .inl (Host.Outcome.next.inj (hexec.symm.trans hend) ▸ hw)
  · obtain ⟨-, -, -, w, -, -, -, -, -, hw, -, -, -, hend⟩ := decodeFrame_badPage hstate hapi (.inr hbad) hd
    exact .inl (Host.Outcome.next.inj (hexec.symm.trans hend) ▸ hw)
  · rw [Host.Outcome.next.inj (hexec.symm.trans (decodeFrame_continued hstate hapi hd rfl))]
    exact .inl ((skipTail_failed hd).state.trans hstate)
  · rw [Host.Outcome.next.inj (hexec.symm.trans (exec_decodeFrame_unexpectedEof hstate hapi hd))]
    exact .inr ⟨rfl, rfl⟩
  · exact .inl (hkept rfl (by decide) rfl)
  · exact .inl (hkept rfl (by decide) rfl)

/-- DECODE_FRAME leaves its state but for the end of the stream (48_frame_control.md R543, R530). -/
theorem decodeFrameBody_ends (hs : s.ctl.state = .decoding ∨ s.ctl.state = .eof) (hapi : s.ctl.api = .pull) :
    (decodeFrameBody s).ctl.state = s.ctl.state ∨ s.ctl.state = .decoding ∧ (decodeFrameBody s).ctl.state = .eof ∧
      ((decodeFrameBody s).regs.result = .eof ∨ (decodeFrameBody s).ctl.error = 10) := by
  obtain hstate | hstate := hs
  · cases hd : decodePacket (framePrologue s) with
    | ok frame t =>
      cases frame with
      | some f =>
        have hbody : decodeFrameBody s = frameDelivered f t := by simp [decodeFrameBody, hstate, hd]
        have hdeliver : (frameDelivered f t).ctl.state = t.ctl.state :=
          (congrArg (fun v : State => v.ctl.state) (deliverFrame_view f t) :)
        exact .inl (hbody ▸ hdeliver.trans (state_of_mode (s := framePrologue s) (decodePacket_mode.ok hd)))
      | none =>
        rw [decodeFrameBody_end hstate hd]
        exact .inr ⟨hstate, rfl, .inl rfl⟩
    | error e t =>
      rw [hstate]
      exact (decodeFrameBody_error hstate hapi hd).imp_right fun ⟨heof, hcode⟩ => ⟨rfl, heof, .inr hcode⟩
  · rw [decodeFrameBody_eof hstate]
    exact .inl rfl

/-! ### Length and seeking -/

theorem streamLength_state {length : Word} (h : streamLength s = .ok length t) : t.ctl.state = s.ctl.state := by
  rw [streamLength_frame h]

theorem streamLengthBody_state (s : State) : (streamLengthBody s).ctl.state = s.ctl.state := by
  obtain ⟨length, t, h⟩ := returns_of_never streamLength_raises s
  simp only [streamLengthBody, h]
  exact streamLength_state h

/-- A seek that was not refused before it moved ends in DECODING, landed or failed (48_frame_control.md R548, R549). -/
def SeekEnded (t : State) : Prop := t.ctl.state = .decoding ∧ (t.regs.result = .ok ∨ t.ctl.error = 37)

theorem seekEnd_ends (policy : Option DecodePoint) (target : Word) (s : State) : SeekEnded (seekEnd policy target s) := by
  refine ⟨(seekEnd_frame policy target s).1, ?_⟩
  by_cases h : (seekEnd policy target s).regs.result = .ok
  · exact .inl h
  · rw [seekEnd_failed h]
    exact .inr rfl

theorem seekBody_ends (s : State) : (seekBody s).ctl.state = s.ctl.state ∨ SeekEnded (seekBody s) := by
  obtain ⟨length, t, h⟩ := returns_of_never streamLength_raises s
  have hstate := streamLength_state h
  simp only [seekBody, h]
  split
  · exact .inl rfl
  split
  · exact .inl hstate
  split
  · exact .inl hstate
  · exact .inr (seekEnd_ends _ _ t)

theorem seekStartBody_ends (s : State) : (seekStartBody s).ctl.state = s.ctl.state ∨ SeekEnded (seekStartBody s) := by
  unfold seekStartBody
  split
  · exact .inl rfl
  · rw [runState_endState rewind_raises]
    exact .inr ⟨(rewind_decoding s).1, .inl rfl⟩

/-! ### Every command -/

/-- What a command may do to the top-level state (48_frame_control.md R511). -/
def Transition (i : Instr) (s t : State) : Prop :=
  t.ctl.state = s.ctl.state ∨
  s.ctl.state = .closed ∧ i = .openPull ∧ t.ctl.state = .decoding ∧ t.ctl.api = .pull ∧ t.regs.result = .ok ∨
  (s.ctl.state = .closed ∨ s.ctl.state = .awaitingHeaders) ∧ i = .openPush ∧ t.ctl.state = .decoding ∧ t.ctl.api = .push ∧
    t.regs.result = .ok ∨
  s.ctl.state = .closed ∧ i = .openPush ∧ t.ctl.state = .awaitingHeaders ∧ t.ctl.api = .push ∧ t.regs.result = .needMoreData ∨
  (s.ctl.state = .closed ∧ i = .openPull ∨ (s.ctl.state = .closed ∨ s.ctl.state = .awaitingHeaders) ∧ i = .openPush) ∧
    OpenFailed t ∨
  s.ctl.state = .decoding ∧ i = .decodeFrame ∧ t.ctl.state = .eof ∧ (t.regs.result = .eof ∨ t.ctl.error = 10) ∨
  s.ctl.state = .eof ∧ (i = .seek ∨ i = .seekStart) ∧ SeekEnded t ∨
  (s.ctl.state = .decoding ∨ s.ctl.state = .eof) ∧ t.ctl.state = .error ∧ t.ctl.error = 2 ∨
  i = .close ∧ t.ctl.state = .closed

/-- Only commands on an open stream name an api (48_frame_control.md R562). -/
theorem apiCommand_open {st : TopState} {api : Api} (ha : commandAllowed i st = true) (hapi : commandApi i = some api) :
    st = .decoding ∨ st = .eof := by
  cases i with
  | pushDecode => exact .inl (eq_of_beq ha)
  | decodeFrame | seek | seekStart | streamLength => simpa [commandAllowed] using ha
  | _ => cases hapi

/-- A command that is rejected makes a transition; else its body does (60_exceptions.md R604, R607, R610). -/
theorem runCommand_transition {body : State → State} (hb : commandAllowed i s.ctl.state = true →
    (∀ api, commandApi i = some api → s.ctl.api = api) → Transition i s (body s)) : Transition i s (runCommand i body s) := by
  unfold runCommand
  split
  · exact .inl rfl
  have ha : commandAllowed i s.ctl.state = true := by simp_all
  split
  · next api hapi =>
    split
    · next h => exact hb ha fun api' h' => by rw [h, ← Option.some.inj (hapi.symm.trans h')]
    · exact .inr (.inr (.inr (.inr (.inr (.inr (.inr (.inl ⟨apiCommand_open ha hapi, rfl, rfl⟩)))))))
  · next hapi => exact hb ha fun api h => by rw [hapi] at h; cases h

/-- A seek moves from EOF to DECODING, or stays (48_frame_control.md R511). -/
theorem seekEnded_transition (hs : s.ctl.state = .decoding ∨ s.ctl.state = .eof) (hi : i = .seek ∨ i = .seekStart)
    (h : t.ctl.state = s.ctl.state ∨ SeekEnded t) : Transition i s t := by
  obtain hsame | hended := h
  · exact .inl hsame
  obtain hdecoding | heof := hs
  · exact .inl (hended.1.trans hdecoding.symm)
  · exact .inr (.inr (.inr (.inr (.inr (.inr (.inl ⟨heof, hi, hended⟩))))))

theorem exec_transition (hcmd : contextOf i = .cmd) (h : exec i s = .next t) : Transition i s t := by
  cases i with
  | openPull =>
    cases h
    refine runCommand_transition fun ha _ => ?_
    have hs : s.ctl.state = .closed := eq_of_beq ha
    obtain hok | hfail := openPullBody_ends s
    · exact .inr (.inl ⟨hs, rfl, hok⟩)
    · exact .inr (.inr (.inr (.inr (.inl ⟨.inl ⟨hs, rfl⟩, hfail⟩))))
  | openPush =>
    cases h
    refine runCommand_transition fun ha _ => ?_
    have hs : s.ctl.state = .closed ∨ s.ctl.state = .awaitingHeaders := by simpa [commandAllowed] using ha
    obtain hok | hmore | hfail := openPushBody_ends hs
    · exact .inr (.inr (.inl ⟨hs, rfl, hok⟩))
    · obtain hclosed | hwaiting := hs
      · exact .inr (.inr (.inr (.inl ⟨hclosed, rfl, hmore⟩)))
      · exact .inl (hmore.1.trans hwaiting.symm)
    · exact .inr (.inr (.inr (.inr (.inl ⟨.inr ⟨hs, rfl⟩, hfail⟩))))
  | pushDecode =>
    cases h
    refine runCommand_transition fun ha hapi => .inl ?_
    have hs : s.ctl.state = .decoding := eq_of_beq ha
    exact (pushDecodeBody_decoding hs (hapi .push rfl)).trans hs.symm
  | decodeFrame =>
    cases h
    refine runCommand_transition fun ha hapi => ?_
    obtain hsame | ⟨hs, heof⟩ := decodeFrameBody_ends (apiCommand_open ha rfl) (hapi .pull rfl)
    · exact .inl hsame
    · exact .inr (.inr (.inr (.inr (.inr (.inl ⟨hs, rfl, heof⟩)))))
  | getInfo | getError =>
    cases h
    exact runCommand_transition fun _ _ => .inl rfl
  | seek =>
    cases h
    exact runCommand_transition fun ha _ => seekEnded_transition (apiCommand_open ha rfl) (.inl rfl) (seekBody_ends s)
  | seekStart =>
    cases h
    exact runCommand_transition fun ha _ => seekEnded_transition (apiCommand_open ha rfl) (.inr rfl) (seekStartBody_ends s)
  | streamLength =>
    cases h
    exact runCommand_transition fun _ _ => .inl (streamLengthBody_state s)
  | close =>
    cases h
    exact .inr (.inr (.inr (.inr (.inr (.inr (.inr (.inr ⟨rfl, rfl⟩)))))))
  | illegalCommand word =>
    cases h
    exact .inl rfl
  | _ => cases hcmd

/-- Settles O57, by one transition for each command. -/
theorem stateTransitions : Obligations.StateTransitions := fun _ _ _ => exec_transition

end Sys2Proof.Proofs
end

section
/-! SUPPORT. Reset, the commands without a body of their own, the two ways a command is rejected, and what raising each class of code
does (70_reset_and_hazards.md R701, 48_frame_control.md R544, R557, R560, 60_exceptions.md R604, R606, R607). -/

namespace Sys2Proof.Proofs

open Sys2Proof Sys2Proof.Machine

variable {i : Instr} {s t : State} {e : ErrCode} {api : Api}

/-! ### Reset -/

theorem step_hardReset {rest : List Event} (hp : s.pending = .hardReset :: rest) :
    step s = .next ({ s with pending := rest } : State).hardReset := step_serve hp

/-- Every register reads 0 after a reset (70_reset_and_hazards.md R701). -/
theorem readReg_hardReset (s : State) : ∀ offset ∈ [0x000, 0x004, 0x008, 0x00C, 0x010, 0x014, 0x018, 0x01C, 0x020, 0x024, 0x028,
    0x02C, 0x030, 0x034], s.hardReset.readReg offset = 0 := by
  simp [State.hardReset, State.reset, Control.reset, HostRegs.reset, State.status, State.errorReg, State.streamLengthReg,
    State.infoChannels, State.infoSampleRate, State.infoBlocksize, State.infoMaxFrame, State.infoValid, TopState.code, Api.code,
    Result.code]

/-- The PCM window reads 0 while there are no channels (10_state.md R77). -/
theorem readReg_noChannels (h : s.tab.channels = 0) {offset : Nat} (h0 : 0x100000 ≤ offset) : s.readReg offset = 0 := by
  by_cases hend : s.pcmEnd ≤ offset
  · exact readReg_past hend
  · rw [readReg_window h0 (Nat.not_le.1 hend), State.pcmWord, h]
    exact if_neg fun hc => Nat.not_lt_zero _ hc.1

/-- The states a reset leaves. -/
theorem hardReset_of_reset (h : t = State.reset ∨
    ∃ (s : State) (rest : List Event), s.pending = .hardReset :: rest ∧ step s = .next t) : ∃ u : State, t = u.hardReset := by
  obtain rfl | ⟨s, rest, hp, hstep⟩ := h
  · exact ⟨State.reset, rfl⟩
  · rw [step_hardReset hp] at hstep
    exact ⟨_, (Host.Outcome.next.inj hstep).symm⟩

/-- Settles O9: the two resets leave the same values. -/
theorem resetValues : Obligations.ResetValues := by
  refine ⟨fun s rest hp => ⟨_, step_hardReset hp⟩, fun t ht => ?_⟩
  obtain ⟨u, rfl⟩ := hardReset_of_reset ht
  exact ⟨rfl, rfl, rfl, rfl, rfl, rfl, rfl, rfl, rfl, rfl, rfl, rfl, rfl, rfl, rfl, rfl, rfl, rfl, rfl, rfl, rfl, rfl, rfl, rfl, rfl,
    rfl, rfl, rfl, rfl, rfl, rfl, readReg_hardReset u, fun _ => readReg_noChannels rfl⟩

/-- Settles O60: the reset state is the hardware reset of itself. -/
theorem resetInv : Obligations.ResetInv := hardReset_inv Memory.reset_wf

/-- Settles O15. -/
theorem close : Obligations.Close := fun _ => rfl

/-! ### Taking an error -/

theorem takeError_error (e : ErrCode) (s : State) : (takeError e s).ctl.error = e.code := by
  unfold takeError
  split
  · rfl
  · rfl
  · simp only []
    split
    · rfl
    split
    · rfl
    · rfl
  · rfl
  · rfl
  · rfl

/-- Setup and resource errors fail the open (60_exceptions.md R602, R603). -/
theorem takeError_discards (h : e.classIn s.inHeaders = .setup ∨ e.classIn s.inHeaders = .resource) : takeError e s =
    { s with ctl.error := e.code, ctl.state := .error, regs.result := .error, tab := Tables.absent } := by
  unfold takeError
  obtain h | h := h
  · rw [h]; rfl
  · rw [h]; rfl

theorem takeError_command (h : e.classIn s.inHeaders = .command) :
    takeError e s = { s with ctl.error := e.code, regs.result := .error } := by
  unfold takeError
  rw [h]
  rfl

/-- A stream error in pull mode keeps the stream open; only the end of the input ends it (60_exceptions.md R604). -/
theorem takeError_stream_pull (h : e.classIn false = .stream) (hs : s.ctl.state = .decoding) (ha : s.ctl.api = .pull) :
    takeError e s = { s with
      ctl.error := e.code, regs.result := .error, ctl.state := if e = .unexpectedEof then .eof else .decoding } := by
  have hpull : s.ctl.api ≠ .push := by rw [ha]; decide
  unfold takeError
  rw [inHeaders_false (.inl hs), h]
  simp only []
  rw [if_neg hpull]
  by_cases he : e = .unexpectedEof
  · rw [if_pos ⟨he, hs⟩, if_pos he]
    rfl
  · rw [if_neg fun hc => he hc.1, if_neg he, ← hs]
    rfl

/-- The codes that fail an open whatever is read (60_exceptions.md R601). -/
theorem setupCodes : ∀ p ∈ [(ErrCode.outOfMem, (3 : Byte)), (.featureNotSupported, 4), (.tooManyChannels, 5), (.invalidSetup, 20),
    (.invalidFirstPage, 34), (.oggSkeletonNotSupported, 38)],
    p.1.code = p.2 ∧ ∀ headers, p.1.classIn headers = .setup ∨ p.1.classIn headers = .resource := by decide

/-- The codes of class (b), which are of class (a) while headers are read (60_exceptions.md R601, R602). -/
theorem streamCodes : ∀ p ∈ [(ErrCode.unexpectedEof, (10 : Byte)), (.invalidStream, 21), (.missingCapturePattern, 30),
    (.invalidStreamStructureVersion, 31), (.continuedPacketFlagInvalid, 32)],
    p.1.code = p.2 ∧ p.1.classIn true = .setup ∧ p.1.classIn false = .stream := by decide

/-- The codes of class (e) (60_exceptions.md R601). -/
theorem commandCodes : ∀ p ∈ [(ErrCode.seekWithoutLength, (7 : Byte)), (.seekInvalid, 11), (.seekFailed, 37), (.illegalCommand, 64)],
    p.1.code = p.2 ∧ ∀ headers, p.1.classIn headers = .command := by decide

theorem inHeaders_true (h : s.ctl.state = .closed ∨ s.ctl.state = .awaitingHeaders) : s.inHeaders = true := by
  rcases h with h | h <;> simp [State.inHeaders, h]

/-- Settles O12, one clause for each class of code. -/
theorem raiseEffect : Obligations.RaiseEffect := by
  refine ⟨fun s e c hc => ?_, fun s e c hc => ?_, fun _ => rfl, fun s e c hc => ?_, fun _ => rfl⟩
  · obtain rfl : e.code = c := (setupCodes _ hc).1
    exact takeError_discards ((setupCodes _ hc).2 _)
  · obtain rfl : e.code = c := (streamCodes _ hc).1
    obtain ⟨hsetup, hstream⟩ := (streamCodes _ hc).2
    exact ⟨fun hs => takeError_discards (.inl (inHeaders_true hs ▸ hsetup)), fun hs ha => takeError_push hstream hs ha,
      fun hs ha => takeError_stream_pull hstream hs ha⟩
  · obtain rfl : e.code = c := (commandCodes _ hc).1
    exact takeError_command ((commandCodes _ hc).2 _)

/-! ### Commands without steps of their own -/

theorem exec_getError (s : State) :
    exec .getError s = .next { s with regs.ret0 := s.ctl.error.setWidth 32, ctl.error := 0, regs.result := .ok } := rfl

/-- Settles O13: the first read leaves no pending code. -/
theorem getError : Obligations.GetError := by
  refine ⟨exec_getError, fun s t u ht hu => ?_, fun s e => ⟨takeError_error e s, rfl⟩⟩
  rw [exec_getError] at ht hu
  cases ht
  cases hu
  exact ⟨rfl, rfl⟩

/-- Settles O14: a half of the long block is the block's size shifted by one. -/
theorem getInfo : Obligations.GetInfo := by
  intro s hs
  have hallowed : commandAllowed .getInfo s.ctl.state = true := by rcases hs with hs | hs <;> rw [hs] <;> rfl
  have hframe : s.tab.maxFrame = (2 ^ s.tab.logBlocksize1) >>> 1 := (Nat.shiftRight_one _).symm
  exact congrArg Host.Outcome.next (hframe ▸ runCommand_anyApi hallowed rfl)

/-! ### Rejected commands -/

/-- Every host command passes the checks before its body; the reserved one fails them (60_exceptions.md R610). -/
theorem exec_runCommand (hcmd : contextOf i = .cmd) (s : State) : ∃ body, exec i s = .next (runCommand i body s) := by
  cases i with
  | openPull | openPush | pushDecode | decodeFrame | getInfo | seek | seekStart | streamLength | getError | close =>
    exact ⟨_, rfl⟩
  | illegalCommand => exact ⟨id, rfl⟩
  | _ => cases hcmd

theorem exec_notAllowed (hcmd : contextOf i = .cmd) (ha : commandAllowed i s.ctl.state = false) :
    exec i s = .next { s with ctl.error := 64, regs.result := .error } := by
  obtain ⟨body, h⟩ := exec_runCommand hcmd s
  rw [h, runCommand, ha]
  rfl

theorem exec_wrongApi (hcmd : contextOf i = .cmd) (ha : commandAllowed i s.ctl.state = true) (hapi : commandApi i = some api)
    (hne : s.ctl.api ≠ api) : exec i s = .next { s with ctl.error := 2, ctl.state := .error, regs.result := .error } := by
  obtain ⟨body, h⟩ := exec_runCommand hcmd s
  simp only [h, runCommand, ha, hapi, if_neg hne]
  rfl

/-- A word with a nonzero RSVD field or an opcode past 0x0A is reserved (30_encoding.md R122). -/
theorem reservedWord_fields {w : Word}
    (h : w.extractLsb' 8 24 ≠ 0 ∨ w.extractLsb' 0 8 = 0 ∨ 0x0B ≤ (w.extractLsb' 0 8).toNat) : reservedWord w = true := by
  have hhigh : (w.extractLsb' 8 24).toNat = w.toNat / 2 ^ 8 % 2 ^ 24 := by
    rw [BitVec.extractLsb'_toNat, Nat.shiftRight_eq_div_pow]
  have hlow : (w.extractLsb' 0 8).toNat = w.toNat % 2 ^ 8 := BitVec.extractLsb'_toNat ..
  have hw := w.isLt
  have hnum : w.toNat = 0 ∨ 10 < w.toNat := by
    rcases h with h | h | h
    · have hne : w.toNat / 2 ^ 8 % 2 ^ 24 ≠ 0 := fun h0 => h (BitVec.eq_of_toNat_eq (hhigh.trans h0))
      omega
    · have hzero : w.toNat % 2 ^ 8 = 0 := hlow.symm.trans (congrArg BitVec.toNat h)
      omega
    · omega
  simpa [reservedWord] using hnum

theorem topState_listed (st : TopState) : st ∈ [TopState.closed, .awaitingHeaders, .decoding, .eof, .error] := by
  cases st <;> decide

/-- The legality table (48_frame_control.md R562): the states that allow each command. -/
theorem commandAllowed_table : ∀ p ∈ [((0x01 : Word), [TopState.closed]), (0x02, [.closed, .awaitingHeaders]), (0x03, [.decoding]),
    (0x04, [.decoding, .eof]), (0x05, [.decoding, .eof]), (0x06, [.decoding, .eof]), (0x07, [.decoding, .eof]),
    (0x08, [.decoding, .eof])],
    ∀ st ∈ [TopState.closed, .awaitingHeaders, .decoding, .eof, .error], commandAllowed (decodeCmd p.1) st = decide (st ∈ p.2) := by
  decide

/-- Settles O10: such a word selects no command, or one its state does not allow. -/
theorem illegalCommand : Obligations.IllegalCommand := by
  refine ⟨fun s w rest hp hw => ?_, fun _ _ => rfl⟩
  have hcmd : contextOf (decodeCmd w) = .cmd := (decodeCmd_encodes w).1
  rw [step_serve hp, serve_cmd]
  refine exec_notAllowed hcmd ?_
  show commandAllowed (decodeCmd w) s.ctl.state = false
  rcases or_assoc.2 (or_assoc.2 hw) with hfields | ⟨op, states, rfl, hst, hop⟩
  · rw [decodeCmd_reserved (reservedWord_fields (or_assoc.1 hfields))]
    rfl
  · rw [commandAllowed_table _ hop _ (topState_listed _)]
    exact decide_eq_false hst

/-- The commands bound to an api, with the other api (48_frame_control.md R562, 60_exceptions.md R606). -/
theorem commandApi_table : ∀ p ∈ [(Instr.decodeFrame, Api.push, [TopState.decoding, .eof]), (.seek, .push, [.decoding, .eof]),
    (.seekStart, .push, [.decoding, .eof]), (.streamLength, .push, [.decoding, .eof]), (.pushDecode, .pull, [.decoding])],
    contextOf p.1 = .cmd ∧ (∀ st ∈ p.2.2, commandAllowed p.1 st = true) ∧
      ∃ api ∈ [Api.pull, .push], commandApi p.1 = some api ∧ p.2.1 ≠ api := by decide

/-- Settles O11. -/
theorem apiMixing : Obligations.ApiMixing := by
  intro s i wrong states hwrong hst hi
  obtain ⟨hcmd, hallowed, api, -, hapi, hne⟩ := commandApi_table _ hi
  exact exec_wrongApi hcmd (hallowed _ hst) hapi (hwrong ▸ hne)

end Sys2Proof.Proofs
end

section
/-! SUPPORT. SEEK_START and STREAM_LENGTH (48_frame_control.md R549, R552): the rewind, and what the scan for the last page records. -/

namespace Sys2Proof.Proofs

open Sys2Proof Sys2Proof.Machine

variable {s t v w : State} {found : Option FoundPage} {page last : FoundPage} {g : BitVec 64} {b : Bool}

/-- A pull command on an open stream runs its body (48_frame_control.md R562). -/
theorem runCommand_pull {i : Instr} {body : State → State} (hi : i ∈ [Instr.decodeFrame, .seek, .seekStart, .streamLength])
    (hs : s.ctl.state = .decoding ∨ s.ctl.state = .eof) (ha : s.ctl.api = .pull) : runCommand i body s = body s := by
  have htable : ∀ i ∈ [Instr.decodeFrame, .seek, .seekStart, .streamLength], commandApi i = some .pull ∧
      commandAllowed i .decoding = true ∧ commandAllowed i .eof = true := by decide
  obtain ⟨hapi, hdecoding, heof⟩ := htable i hi
  have hallowed : commandAllowed i s.ctl.state = true := by rcases hs with hs | hs <;> rwa [hs]
  exact runCommand_body hallowed (ha ▸ hapi)

/-! ### SEEK_START -/

theorem seekStartBody_rewinds (he : s.ctl.setupEndsPage = true) : seekStartBody s = (endState rewind s).setResult .ok := by
  simp [seekStartBody, he, runState_endState rewind_raises]

theorem seekStartBody_refused (he : s.ctl.setupEndsPage = false) :
    seekStartBody s = { s with ctl.error := 37, regs.result := .error } := by
  simp [seekStartBody, he, takeError_seekFailed]

theorem seekBody_refused (he : s.ctl.setupEndsPage = false) : seekBody s = { s with ctl.error := 37, regs.result := .error } := by
  simp [seekBody, he, takeError_seekFailed]

/-- Settles O16. -/
theorem seekStart : Obligations.SeekStart := by
  intro s hs ha
  refine ⟨fun he => ?_, fun he i hi => ?_⟩
  · have hbody := (runCommand_pull (i := .seekStart) (by decide) hs ha).trans (seekStartBody_rewinds he)
    rw [rewind_end] at hbody
    exact congrArg Host.Outcome.next hbody
  · obtain rfl | rfl : i = .seek ∨ i = .seekStart := by simpa using hi
    · exact congrArg Host.Outcome.next ((runCommand_pull (i := .seek) (by decide) hs ha).trans (seekBody_refused he))
    · exact congrArg Host.Outcome.next ((runCommand_pull (i := .seekStart) (by decide) hs ha).trans (seekStartBody_refused he))

/-! ### What the last page tells -/

theorem lengthOfGranule_allOnes : lengthOfGranule (BitVec.allOnes 64) = none := if_pos rfl

theorem lengthOfGranule_known (h : g ≠ BitVec.allOnes 64) :
    lengthOfGranule g = some (if 2 ^ 32 ≤ g.toNat then 0xFFFFFFFE else g.setWidth 32) := by
  rw [lengthOfGranule, if_neg h]
  split
  · rfl
  · rfl

theorem lengthUnknown_run (s : State) :
    lengthUnknown s = .ok () { s with ctl := { s.ctl with error := 36, totalSamplesKnown := .unknown } } := rfl

theorem elsewhere_symm (h : Elsewhere s t) : Elsewhere t s := by
  unfold Elsewhere at h ⊢
  rw [h]

theorem elsewhere_ctl (h : Elsewhere s t) : t.ctl = s.ctl := by
  unfold Elsewhere at h
  rw [h]

theorem elsewhere_len (h : Elsewhere s t) : t.src.len = s.src.len := by
  unfold Elsewhere at h
  rw [h]

theorem granuleAt_elsewhere (h : Elsewhere s t) (start : Word) : t.granuleAt start = s.granuleAt start := by
  unfold Elsewhere at h
  rw [h]
  rfl

/-- What the scan of `s` records in the control state `c`: it found `found` and stood at `w` then (48_frame_control.md R552). -/
def LengthRecorded (s w : State) (found : Option FoundPage) (c : Control) : Prop :=
  (found = none → c.totalSamplesKnown = .unknown ∧ c.error = 36 ∧ c.pLast = s.ctl.pLast) ∧
  ∀ page, found = some page → ∃ last g, LastPage w page last ∧ g = s.granuleAt last.start ∧
    (g = BitVec.allOnes 64 → c.totalSamplesKnown = .unknown ∧ c.error = 36 ∧ c.pLast = s.ctl.pLast) ∧
    (g ≠ BitVec.allOnes 64 → c.totalSamplesKnown = .known ∧ c.error = s.ctl.error ∧
      c.totalSamples = (if 2 ^ 32 ≤ g.toNat then 0xFFFFFFFE else g.setWidth 32) ∧
      c.pLast = ⟨last.start, last.stop, c.totalSamples⟩)

theorem recordLength_unknown (hlast : lastPageFuel (w.src.len.toNat + 1) page w = .ok last t)
    (hg : lengthOfGranule (w.granuleAt last.start) = none) : recordLength (some page) w = lengthUnknown t := by
  unfold recordLength
  simp only [get_bind, bind_ok hlast, hg]

theorem recordLength_known {total : Word} (hlast : lastPageFuel (w.src.len.toNat + 1) page w = .ok last t)
    (hg : lengthOfGranule (w.granuleAt last.start) = some total) : recordLength (some page) w = .ok () { t with
      ctl := { t.ctl with totalSamples := total, totalSamplesKnown := .known, pLast := ⟨last.start, last.stop, total⟩ } } := by
  unfold recordLength
  simp only [get_bind, bind_ok hlast, hg]
  rfl

theorem recordLength_recorded (hw : Elsewhere s w) (hf : ∀ page, found = some page → w.Finds page) :
    ∃ t, recordLength found w = .ok () t ∧ LengthRecorded s w found t.ctl ∧ t.ctl.totalSamplesKnown ≠ .notComputed ∧
      t.src.len = s.src.len := by
  have hlast : w.ctl.pLast = s.ctl.pLast := congrArg Control.pLast (elsewhere_ctl hw)
  have hlen := elsewhere_len hw
  cases found with
  | none =>
    exact ⟨_, lengthUnknown_run w, ⟨fun _ => ⟨rfl, rfl, hlast⟩, nofun⟩, nofun, hlen⟩
  | some page =>
    have hpage := hf page rfl
    obtain ⟨last, t, ht, hlast, -, hwt⟩ := lastPageFuel_last (w.src.len.toNat + 1) hpage (by omega)
    have hst := elsewhere_trans hw hwt
    have herror : t.ctl.error = s.ctl.error := congrArg Control.error (elsewhere_ctl hst)
    have hplast : t.ctl.pLast = s.ctl.pLast := congrArg Control.pLast (elsewhere_ctl hst)
    have htlen := elsewhere_len hst
    have hgranule := granuleAt_elsewhere hw last.start
    by_cases hg : s.granuleAt last.start = BitVec.allOnes 64
    · have hrun := recordLength_unknown ht ((congrArg _ (hgranule.trans hg)).trans lengthOfGranule_allOnes)
      refine ⟨_, hrun.trans (lengthUnknown_run t), ⟨nofun, ?_⟩, nofun, htlen⟩
      rintro _ ⟨⟩
      exact ⟨last, s.granuleAt last.start, hlast, rfl, fun _ => ⟨rfl, rfl, hplast⟩, fun h => absurd hg h⟩
    · obtain ⟨total, htotal⟩ : ∃ total : Word, total =
          if 2 ^ 32 ≤ (s.granuleAt last.start).toNat then 0xFFFFFFFE else (s.granuleAt last.start).setWidth 32 := ⟨_, rfl⟩
      have hknown : lengthOfGranule (s.granuleAt last.start) = some total := by rw [lengthOfGranule_known hg, htotal]
      have hrun := recordLength_known ht ((congrArg _ hgranule).trans hknown)
      refine ⟨_, hrun, ⟨nofun, ?_⟩, nofun, htlen⟩
      rintro _ ⟨⟩
      exact ⟨last, s.granuleAt last.start, hlast, rfl, fun h => absurd h hg, fun _ => ⟨rfl, herror, htotal, rfl⟩⟩

/-! ### STREAM_LENGTH -/

/-- The length STREAM_LENGTH answers (48_frame_control.md R552). -/
def knownLength (c : Control) : Word := if c.totalSamplesKnown = .known then c.totalSamples else 0

theorem streamLength_cached (h : s.ctl.totalSamplesKnown ≠ .notComputed) : streamLength s = .ok (knownLength s.ctl) s := by
  have hcached : (s.ctl.totalSamplesKnown == .notComputed) = false := beq_false_of_ne h
  unfold streamLength
  rw [get_bind, hcached]
  rfl

theorem streamLength_computed (h : s.ctl.totalSamplesKnown = .notComputed) (hrun : lengthScan s = .ok () t) :
    streamLength s = .ok (knownLength t.ctl) t := by
  unfold streamLength
  rw [get_bind, h]
  exact (bind_ok hrun).trans rfl

/-- `SetPos` changes no control field and returns to a position inside the source (20_memory.md R94). -/
theorem setPos_restores (p : Word) (s : State) :
    ∃ b t, setPos p s = .ok b t ∧ t.ctl = s.ctl ∧ (p ≤ s.src.len → t.src.pos = p) := by
  obtain ⟨b, hset⟩ := setPos_end p s
  exact ⟨b, _, hset, rfl, fun hp => ite_eq_right_iff.2 fun hend => BitVec.le_antisymm hend hp⟩

/-- The scan for the last page from where it starts, and back (48_frame_control.md R552). -/
theorem streamLength_scans (h : s.ctl.totalSamplesKnown = .notComputed) : ∃ b v found w t,
    setPos (lengthScanStart s.src) s = .ok b v ∧ findPage v = .ok found w ∧ streamLength s = .ok (knownLength t.ctl) t ∧
      LengthRecorded s w found t.ctl ∧ t.ctl.totalSamplesKnown ≠ .notComputed ∧ (s.src.pos ≤ s.src.len → t.src.pos = s.src.pos) := by
  obtain ⟨b, hset⟩ := setPos_end (lengthScanStart s.src) s
  obtain ⟨found, w, hfind, hscan⟩ := findPage_after hset
  have hw := elsewhere_trans (setPos_elsewhere hset) hscan.frame
  obtain ⟨x, hx, hrec, hcomputed, hlen⟩ := recordLength_recorded hw fun page hp =>
    let ⟨hfinds, _⟩ := hscan.some page hp
    finds_elsewhere (elsewhere_symm hscan.frame) hfinds
  obtain ⟨b', y, hback, hctl, hpos⟩ := setPos_restores s.src.pos x
  rw [← hctl] at hrec hcomputed
  rw [hlen] at hpos
  have hrun : lengthScan s = .ok () y := by
    unfold lengthScan
    rw [get_bind, bind_ok hset, bind_ok hfind, bind_ok hx, bind_ok hback]
    rfl
  exact ⟨b, _, found, w, y, hset, hfind, streamLength_computed h hrun, hrec, hcomputed, hpos⟩

/-- The scan starts at the last 64 KiB, or at the first audio page (48_frame_control.md R552). -/
theorem lengthScanStart_eq (v : Source) : lengthScanStart v =
    if 65536 ≤ v.len.toNat ∧ v.firstAudioPageOffset.toNat ≤ v.len.toNat - 65536 then v.len - 65536 else v.firstAudioPageOffset := by
  have hiff : (65536 ≤ v.len ∧ v.firstAudioPageOffset ≤ v.len - 65536) ↔
      (65536 ≤ v.len.toNat ∧ v.firstAudioPageOffset.toNat ≤ v.len.toNat - 65536) := by
    refine and_congr_right fun hlen => ?_
    rw [BitVec.le_def, BitVec.toNat_sub_of_le hlen]
    rfl
  unfold lengthScanStart
  simp only [hiff]

/-- STREAM_LENGTH in pull mode answers the length and keeps what the scan did (48_frame_control.md R552). -/
theorem exec_streamLength {length : Word} (hs : s.ctl.state = .decoding ∨ s.ctl.state = .eof) (ha : s.ctl.api = .pull)
    (h : streamLength s = .ok length t) :
    exec .streamLength s = .next { t with regs := { t.regs with ret0 := length, result := .ok } } := by
  have hbody : streamLengthBody s = { t with regs := { t.regs with ret0 := length, result := .ok } } := by
    simp only [streamLengthBody, h]
  exact congrArg Host.Outcome.next ((runCommand_pull (i := .streamLength) (by decide) hs ha).trans hbody)

/-- Settles O17: from the cache where there is one, else by the scan. -/
theorem streamLengthCompletes : Obligations.StreamLengthCompletes := by
  intro s hs ha
  by_cases hcached : s.ctl.totalSamplesKnown = .notComputed
  · obtain ⟨b, v, found, w, t, hset, hfind, hlen, ⟨hnone, hsome⟩, hcomputed, hpos⟩ := streamLength_scans hcached
    have hframe := congrArg (fun t : State => { t with regs := { t.regs with ret0 := knownLength t.ctl, result := .ok } })
      (streamLength_frame hlen)
    rw [lengthScanStart_eq] at hset
    exact ⟨_, exec_streamLength hs ha hlen, rfl, hcomputed, rfl, fun h => absurd hcached h, hpos, hframe,
      fun _ => ⟨b, v, found, w, hset, hfind, hnone, hsome⟩⟩
  · exact ⟨_, exec_streamLength hs ha (streamLength_cached hcached), rfl, hcached, rfl, fun _ => rfl, fun _ => rfl, rfl,
      fun h => absurd h hcached⟩

end Sys2Proof.Proofs
end

section
/-! SUPPORT. The bookkeeping of a frame (48_frame_control.md R524 to R527): the left boundary, then the three ways the position
advances. -/

namespace Sys2Proof.Proofs

open Sys2Proof Sys2Proof.Machine

variable {cur : PageCursor} {n left : Nat} {g : Geometry} {c c1 : Control}

/-! ### The left boundary -/

theorem discardStart_priming (h : c.firstDecode = true) : discardStart c n g = ({ c with
    currentLoc := 0 - BitVec.ofNat 32 (n / 2), currentLocValid := true
    discardSamplesDeferred := n - g.rightEnd, firstDecode := false }, g.leftStart) := if_pos h

/-- As many samples are discarded as the frame has (48_frame_control.md R525). -/
theorem discardStart_deferred (h : c.firstDecode = false) (hg : g.leftStart ≤ g.rightStart) : discardStart c n g = ({ c with
    discardSamplesDeferred := c.discardSamplesDeferred - min c.discardSamplesDeferred (g.rightStart - g.leftStart) },
    g.leftStart + min c.discardSamplesDeferred (g.rightStart - g.leftStart)) := by
  have hfirst : ¬c.firstDecode = true := by simp [h]
  unfold discardStart
  rw [if_neg hfirst]
  by_cases hd : 0 < c.discardSamplesDeferred
  · rw [if_pos hd]
    by_cases hall : g.rightStart - g.leftStart ≤ c.discardSamplesDeferred
    · rw [if_pos hall, Nat.min_eq_right hall, Nat.add_sub_cancel' hg]
    · rw [if_neg hall, Nat.min_eq_left (Nat.le_of_not_le hall), Nat.sub_self]
  · have hnone : min c.discardSamplesDeferred (g.rightStart - g.leftStart) = 0 := by omega
    rw [if_neg hd, hnone, Nat.sub_zero, Nat.add_zero]

/-! ### The position -/

/-- A packet that does not end in the segment with the known location (48_frame_control.md R524). -/
theorem bookkeeping_unknown (h : discardStart c n g = (c1, left)) (hend : cur.lastSegWhich ≠ cur.endSegWithKnownLoc) :
    bookkeeping cur n g c = (⟨g.rightEnd, left, g.rightStart⟩, { c1 with
      currentLoc := if c1.currentLocValid then c1.currentLoc + BitVec.ofNat 32 (g.rightStart - left) else c1.currentLoc }) := by
  simp only [bookkeeping, h, if_neg hend, advanceLoc]
  split
  · rfl
  · rfl

/-- The end of the stream lies before the end of the frame (48_frame_control.md R527). -/
def Trims (cur : PageCursor) (g : Geometry) (c : Control) (left : Nat) : Prop :=
  c.currentLocValid = true ∧ pageLast cur.pageFlag = true ∧
    cur.knownLocForPacket < c.currentLoc + BitVec.ofNat 32 (g.rightEnd - left)

/-- The length of the trimmed frame (48_frame_control.md R527). -/
def trimmedLen (cur : PageCursor) (g : Geometry) (c : Control) (left : Nat) : Nat :=
  min ((if cur.knownLocForPacket < c.currentLoc then 0 else (cur.knownLocForPacket - c.currentLoc).toNat) + left) g.rightEnd

theorem bookkeeping_trimmed (h : discardStart c n g = (c1, left)) (hend : cur.lastSegWhich = cur.endSegWithKnownLoc)
    (htrim : Trims cur g c1 left) : bookkeeping cur n g c = (⟨trimmedLen cur g c1 left, left, g.rightStart⟩,
      { c1 with currentLoc := c1.currentLoc + BitVec.ofNat 32 (trimmedLen cur g c1 left) }) := by
  unfold Trims at htrim
  simp only [bookkeeping, h, if_pos hend, if_pos htrim, trimmedLen]

theorem trimmedLen_before (h : cur.knownLocForPacket < c.currentLoc) : trimmedLen cur g c left = min left g.rightEnd := by
  rw [trimmedLen, if_pos h, Nat.zero_add]

theorem trimmedLen_inside (h : c.currentLoc ≤ cur.knownLocForPacket) :
    trimmedLen cur g c left = min ((cur.knownLocForPacket - c.currentLoc).toNat + left) g.rightEnd := by
  rw [trimmedLen, if_neg (BitVec.not_lt.2 h)]

/-- No sample past the known end is left (48_frame_control.md R527). -/
theorem trimmedLen_le : min g.rightStart (trimmedLen cur g c left) - left ≤ cur.knownLocForPacket.toNat - c.currentLoc.toNat := by
  by_cases h : cur.knownLocForPacket < c.currentLoc
  · rw [trimmedLen_before h]
    omega
  · rw [trimmedLen_inside (BitVec.not_lt.1 h), BitVec.toNat_sub_of_le (BitVec.not_lt.1 h)]
    omega

/-- The known location sets the position (48_frame_control.md R526). -/
theorem bookkeeping_known (h : discardStart c n g = (c1, left)) (hend : cur.lastSegWhich = cur.endSegWithKnownLoc)
    (htrim : ¬Trims cur g c1 left) : bookkeeping cur n g c = (⟨g.rightEnd, left, g.rightStart⟩, { c1 with
      currentLoc := cur.knownLocForPacket - (BitVec.ofNat 32 (n / 2) - BitVec.ofNat 32 left) + BitVec.ofNat 32 (g.rightStart - left)
      currentLocValid := true }) := by
  unfold Trims at htrim
  simp only [bookkeeping, h, if_pos hend, if_neg htrim]
  rfl

/-- A long block between long blocks starts at its first sample, where nothing is to be discarded. -/
theorem discardStart_long {b0 : Nat} (hfirst : c.firstDecode = false) (hd : c.discardSamplesDeferred = 0) :
    (discardStart c n (geometry n b0 true true true)).2 = 0 := by
  have h := discardStart_deferred (n := n) (g := geometry n b0 true true true) hfirst (Nat.zero_le _)
  rw [hd, Nat.zero_min] at h
  rw [h]
  rfl

/-- Settles O54. -/
theorem knownLocation : Obligations.KnownLocation := by
  intro cur n left g c c1 h
  refine ⟨fun hfirst => ?_, fun hfirst hg => ?_, bookkeeping_unknown h, fun hend => ⟨fun htrim => ?_, fun htrim => ?_⟩⟩
  · cases h.symm.trans (discardStart_priming hfirst)
    exact ⟨rfl, rfl⟩
  · cases h.symm.trans (discardStart_deferred hfirst hg)
    exact ⟨rfl, rfl⟩
  · exact ⟨_, bookkeeping_trimmed h hend htrim, trimmedLen_before, trimmedLen_inside, trimmedLen_le⟩
  · have hknown := bookkeeping_known h hend htrim
    refine ⟨hknown, fun b0 hg hfirst hd => ?_⟩
    have hleft : left = 0 := by
      rw [← discardStart_long hfirst hd (n := n) (b0 := b0), ← hg, h]
    have hright : g.rightStart = n / 2 := by rw [hg]; rfl
    rw [hknown, hleft, hright]
    exact (congrArg (· + _) (congrArg _ (BitVec.sub_zero _))).trans (BitVec.sub_add_cancel _ _)

end Sys2Proof.Proofs
end

section
/-! SUPPORT. Audio packets that lie in their page (48_frame_control.md R520 to R524): the window flags, the packet after its type bit, and
the commands that decode one. -/

namespace Sys2Proof.Proofs

open Sys2Proof Sys2Proof.Machine

variable {s t c p v : State} {m n : Nat} {mode : ModeEntry} {prev next : Bool} {bits rest : List Bool}

/-! ### Bits of an ended packet -/

/-- Inside a packet that has no more bits. -/
def BitsGone (s : State) : Prop := s.PacketHere ∧ (s.Holds [] ∨ s.rd.validBits < 0)

theorem getBits_value_gone (h : BitsGone s) (hn : n ≤ 24) :
    ∃ t, getBits n s = .ok 0 t ∧ (t.Holds [] ∨ t.rd.validBits < 0) := by
  obtain ⟨-, h | h⟩ := h
  · obtain rfl | hpos := Nat.eq_zero_or_pos n
    · obtain ⟨t, ht, hholds, -⟩ := getBits_holds (n := 0) h (Nat.le_refl 0) (by omega)
      exact ⟨t, ht, .inl hholds⟩
    · obtain ⟨t, ht, hinvalid, -, -⟩ := getBits_past_first h (by omega) hpos (.inl hn)
      exact ⟨t, ht, .inr (by omega)⟩
  · exact ⟨s, getBits_invalid h n, .inr h⟩

/-- A field after the last bit reads 0 (40_bitreader.md R209). -/
theorem getBits_gone (h : BitsGone s) (hn : n ≤ 24) : ∃ t, getBits n s = .ok 0 t ∧ BitsGone t ∧ DecodedFrom s t := by
  obtain ⟨t, ht, hgone⟩ := getBits_value_gone h hn
  obtain ⟨a, t', ht', hhere, hdecoded, -⟩ := runs_getBits anyWork_rel n s h.1
  obtain rfl : t = t' := (EStateM.Result.ok.inj (ht.symm.trans ht')).2
  exact ⟨t, ht, ⟨hhere, hgone⟩, hdecoded⟩

/-! ### Window flags -/

/-- The window flags of an audio packet (30_encoding.md R180). -/
def windowFlags (mode : ModeEntry) : M (Bool × Bool) := do
  let prev ← readIf mode.long getFlag false
  let next ← readIf mode.long getFlag false
  pure (prev, next)

theorem getFlag_bit {b : Bool} (h : s.Holds (b :: rest)) : ∃ t, getFlag s = .ok b t ∧ t.Holds rest ∧ ReadFrom s t := by
  have hfield : s.Holds (fieldBits 1 b.toNat ++ rest) := by rwa [fieldBits_one]
  obtain ⟨t, ht, hrest, hread⟩ := getBits_field hfield (Bool.toNat_lt b) (by omega)
  refine ⟨t, ?_, hrest, hread⟩
  unfold getFlag
  rw [bind_ok ht]
  cases b <;> rfl

theorem windowFlags_short (h : mode.long = false) (s : State) : windowFlags mode s = .ok (false, false) s := by
  unfold windowFlags
  rw [h]
  rfl

theorem windowFlags_long {u : State} (h : mode.long = true) (hprev : getFlag s = .ok prev t) (hnext : getFlag t = .ok next u) :
    windowFlags mode s = .ok (prev, next) u := by
  simp only [windowFlags, readIf, h, if_true, bind_ok hprev, bind_ok hnext]
  rfl

/-- A long mode's flags are the next two bits; a short mode has none. -/
theorem windowFlags_bits (hshort : mode.long = false → prev = false ∧ next = false)
    (h : s.Holds ((if mode.long then [prev, next] else []) ++ rest)) :
    ∃ v, windowFlags mode s = .ok (prev, next) v ∧ v.PacketHere ∧ DecodedFrom s v := by
  cases hlong : mode.long with
  | false =>
    obtain ⟨rfl, rfl⟩ := hshort hlong
    exact ⟨s, windowFlags_short hlong s, h.here, decodedFrom_refl s⟩
  | true =>
    rw [hlong] at h
    obtain ⟨t, ht, htholds, htread⟩ := getFlag_bit h
    obtain ⟨u, hu, huholds, huread⟩ := getFlag_bit htholds
    exact ⟨u, windowFlags_long hlong ht hu, huholds.here, decodedFrom_read (readFrom_trans htread huread)⟩

theorem getFlag_gone (h : BitsGone s) : ∃ t, getFlag s = .ok false t ∧ BitsGone t ∧ DecodedFrom s t := by
  obtain ⟨t, ht, hgone, hdecoded⟩ := getBits_gone h (n := 1) (by omega)
  refine ⟨t, ?_, hgone, hdecoded⟩
  unfold getFlag
  rw [bind_ok ht]
  rfl

/-- The flags of a packet that ended read false. -/
theorem windowFlags_gone (mode : ModeEntry) (h : BitsGone s) :
    ∃ v, windowFlags mode s = .ok (false, false) v ∧ v.PacketHere ∧ DecodedFrom s v := by
  cases hlong : mode.long with
  | false => exact ⟨s, windowFlags_short hlong s, h.1, decodedFrom_refl s⟩
  | true =>
    obtain ⟨t, ht, htgone, htread⟩ := getFlag_gone h
    obtain ⟨u, hu, hugone, huread⟩ := getFlag_gone htgone
    exact ⟨u, windowFlags_long hlong ht hu, hugone.1, decodedFrom_trans htread huread⟩

/-! ### The packet after its type bit -/

/-- The packet that `s` stands in was decoded with a mode and its window flags: `u` is the machine when it was read, `f` the frame and
`t` the machine after its bookkeeping (48_frame_control.md R520, R524). -/
def FrameOf (mode : ModeEntry) (prev next : Bool) (s u : State) (f : Frame) (t : State) : Prop :=
  let n := s.tab.blocksize mode.long
  let b := bookkeeping u.cur n (geometry n (s.tab.blocksize false) mode.long prev next) u.ctl
  f = b.1 ∧ t = { u with ctl := b.2 }

theorem decodedFrom_tab (h : DecodedFrom s t) : t.tab = s.tab := by rw [h.frame]

theorem frameOf_tab {u : State} {f : Frame} (h : s.tab = c.tab) (hf : FrameOf mode prev next s u f t) :
    FrameOf mode prev next c u f t := by
  unfold FrameOf at hf ⊢
  rwa [← h]

/-- A mode number in the table and its flags decode to a frame, whatever bits follow. -/
theorem audioBody_mode (hm : s.tab.modes[m]? = some mode) (hnumber : getBits (ilog (s.tab.modes.length - 1)) s = .ok m t)
    (ht : DecodedFrom s t) (hflags : windowFlags mode t = .ok (prev, next) v) (hhere : v.PacketHere) (hv : DecodedFrom t v) :
    ∃ u f w, u.PacketDone ∧ DecodedFrom s u ∧ FrameOf mode prev next s u f w ∧ audioBody s = .ok f w := by
  obtain ⟨u, hdone, hu, hrun⟩ := decodeMode_rest hflags hhere hv
  refine ⟨u, _, _, hdone, decodedFrom_trans ht hu, frameOf_tab (decodedFrom_tab ht) ⟨rfl, rfl⟩, ?_⟩
  unfold audioBody
  rw [get_bind, bind_ok hnumber, hm]
  exact hrun

/-- The number of a mode in the table fits its field (30_encoding.md R180). -/
theorem mode_lt_ilog (hm : s.tab.modes[m]? = some mode) : m < 2 ^ ilog (s.tab.modes.length - 1) := by
  have hlt := (List.getElem?_eq_some_iff.1 hm).1
  have hfit := lt_ilog (s.tab.modes.length - 1)
  omega

theorem modeBits_le (hlen : s.tab.modes.length ≤ 64) : ilog (s.tab.modes.length - 1) ≤ 6 := ilog_le (by omega)

/-- A packet after the type bit: a mode number and its flags, or no bits, which is mode 0 with no flag set. -/
theorem audioBody_decodes (hlen : s.tab.modes.length ≤ 64) (hm : s.tab.modes[m]? = some mode)
    (hshort : mode.long = false → prev = false ∧ next = false)
    (hbits : bits = fieldBits (ilog (s.tab.modes.length - 1)) m ++ ((if mode.long then [prev, next] else []) ++ rest) ∨
      bits = [] ∧ m = 0 ∧ prev = false ∧ next = false) (h : s.Holds bits) :
    ∃ u f w, u.PacketDone ∧ DecodedFrom s u ∧ FrameOf mode prev next s u f w ∧ audioBody s = .ok f w := by
  have hwidth := modeBits_le hlen
  obtain rfl | ⟨rfl, rfl, rfl, rfl⟩ := hbits
  · obtain ⟨t, ht, htholds, htread⟩ := getBits_field h (mode_lt_ilog hm) (by omega)
    obtain ⟨v, hv, hhere, hread⟩ := windowFlags_bits hshort htholds
    exact audioBody_mode hm ht (decodedFrom_read htread) hv hhere hread
  · obtain ⟨t, ht, hgone, htread⟩ := getBits_gone ⟨h.here, .inl h⟩ (n := ilog (s.tab.modes.length - 1)) (by omega)
    obtain ⟨v, hv, hhere, hread⟩ := windowFlags_gone mode hgone
    exact audioBody_mode hm ht htread hv hhere hread

/-- Settles O40. -/
theorem audioPacketCompletes : Obligations.AudioPacketCompletes := by
  intro s m mode prev next bits rest hlen hm hshort hbits h
  obtain ⟨u, f, w, hdone, hu, ⟨rfl, rfl⟩, hrun⟩ := audioBody_decodes hlen hm hshort hbits h
  refine ⟨u, hdone, hu, ?_⟩
  show execAudioPacket s = _
  simp only [execAudioPacket, hrun]

/-! ### A whole packet -/

/-- An audio type bit leads to the packet's body (48_frame_control.md R520). -/
theorem decodePacket_audio {f : Frame} {w : State} (hp : maybeStartPacket s = .ok true p) (htype : getBits 1 p = .ok 0 t)
    (hbody : audioBody t = .ok f w) : decodePacket s = .ok (some f) w := by
  have hfuel : 255 * (s.src.len.toNat + 2) = 255 * (s.src.len.toNat + 2) - 1 + 1 := by omega
  unfold decodePacket
  rw [get_bind, hfuel, decodePacketFuel, bind_ok hp]
  show (getBits 1 >>= _) p = _
  rw [bind_ok htype]
  exact (bind_ok hbody).trans rfl

theorem maybeStartPacket_tab {b : Bool} (hp : maybeStartPacket s = .ok b p) : p.tab = s.tab :=
  (congrArg State.tab ((maybeStartPacket_keeps readView_reading).ok hp) :)

theorem decodePacket_decodes (hp : maybeStartPacket s = .ok true p) (hlen : s.tab.modes.length ≤ 64)
    (hm : s.tab.modes[m]? = some mode) (hshort : mode.long = false → prev = false ∧ next = false)
    (h : p.Holds ([false] ++ (fieldBits (ilog (s.tab.modes.length - 1)) m ++ ((if mode.long then [prev, next] else []) ++ rest)))) :
    ∃ u f w, u.PacketDone ∧ DecodedFrom p u ∧ FrameOf mode prev next s u f w ∧ decodePacket s = .ok (some f) w := by
  obtain ⟨t, htype, htholds, htread⟩ := getBits_field (n := 1) (v := 0) h (by omega) (by omega)
  have htab : t.tab = s.tab := (decodedFrom_tab (decodedFrom_read htread)).trans (maybeStartPacket_tab hp)
  rw [← htab] at hlen hm htholds
  obtain ⟨u, f, w, hdone, hu, hframe, hrun⟩ := audioBody_decodes hlen hm hshort (.inl rfl) htholds
  exact ⟨u, f, w, hdone, decodedFrom_trans (decodedFrom_read htread) hu, frameOf_tab htab hframe, decodePacket_audio hp htype hrun⟩

/-- Settles O21. -/
theorem decodeFrameCompletes : Obligations.DecodeFrameCompletes := by
  intro s p m mode prev next rest hstate hapi hp hlen hm hshort h
  obtain ⟨u, f, w, hdone, hu, ⟨rfl, rfl⟩, hrun⟩ := decodePacket_decodes hp hlen hm hshort h
  refine ⟨u, hdone, hu, (exec_decodeFrame (.inl hstate) hapi).trans (congrArg _ ?_)⟩
  simp only [decodeFrameBody, hstate, hrun]
  rfl

/-! ### The other type bit -/

/-- Settles O42: both modes drain the packet, and pull mode drops the bits held too. -/
theorem badPacketType : Obligations.BadPacketType := by
  intro s h
  by_cases hapi : s.ctl.api = .push
  · obtain ⟨t, ht, hhere, hsize, hlast, hread⟩ := drainPacket_here h
    refine ⟨t, ?_, hread, hhere, hsize, hlast, fun hpull => absurd hapi hpull⟩
    show execBadPacketType s = _
    simp only [execBadPacketType, runElement, if_pos hapi, ht]
  · obtain ⟨t, ht, hdone, hread⟩ := flushPacket_here h
    refine ⟨t, ?_, hread, hdone.here, hdone.taken, hdone.ended, fun _ => hdone.bits⟩
    show execBadPacketType s = _
    simp only [execBadPacketType, runElement, if_neg hapi, ht]

end Sys2Proof.Proofs
end

section
/-! SUPPORT. PUSH_DECODE outside a resynchronisation (48_frame_control.md R542, R545): what the whole-packet test answers and what each
answer leads to. -/

namespace Sys2Proof.Proofs

open Sys2Proof Sys2Proof.Machine

variable {s c : State}

/-- `c` is the machine when PUSH_DECODE of `s` has taken the chunk (48_frame_control.md R542). -/
def ChunkTaken (s c : State) : Prop := c = { s with
  src.base := s.regs.arg0, src.len := s.regs.arg1, src.pos := 0, src.eof := false
  ctl.outLen := 0, regs.ret1 := 0, regs.ret2 := BitVec.ofNat 32 s.tab.channels }

/-! ### The command -/

/-- What PUSH_DECODE does after the whole-packet test (48_frame_control.md R542). -/
def afterTest (c : State) : State :=
  match wholePacketPresent c with
  | .need => takeError .needMoreData c
  | .bad => takeError .invalidStream { c with regs.ret0 := 0 }
  | .present => pushPacket c

theorem exec_pushDecode (hstate : s.ctl.state = .decoding) (hapi : s.ctl.api = .push) (hresync : s.ctl.resync = false)
    (hc : ChunkTaken s c) : exec .pushDecode s = .next (afterTest c) := by
  have hallowed : commandAllowed .pushDecode s.ctl.state = true := by rw [hstate]; rfl
  have hcommand : commandApi .pushDecode = some s.ctl.api := by rw [hapi]; rfl
  have hgoes : ¬s.ctl.resync = true := by simp [hresync]
  have hbody : pushDecodeBody s = afterTest c := hc ▸ if_neg hgoes
  exact congrArg Host.Outcome.next ((runCommand_body hallowed hcommand).trans hbody)

theorem afterTest_need (h : wholePacketPresent c = .need) :
    afterTest c = { c with ctl.error := 1, regs.ret0 := 0, regs.result := .needMoreData } := by
  simp only [afterTest, h, takeError_needMoreData]

theorem afterTest_bad (h : wholePacketPresent c = .bad) (hstate : c.ctl.state = .decoding) (hapi : c.ctl.api = .push) :
    afterTest c = { c with
      ctl.error := 21, regs.ret0 := 0, regs.result := .error
      ctl.resync := true, ctl.previousLength := 0, ctl.discardSamplesDeferred := 0, ctl.currentLocValid := false
      ctl.firstDecode := false, ctl.outLen := 0 } := by
  simp only [afterTest, h]
  exact takeError_push (s := { c with regs.ret0 := 0 }) rfl hstate hapi

theorem deliverFrame_src (f : Frame) (t : State) : (deliverFrame f t).2.src = t.src :=
  (congrArg State.src (deliverFrame_view f t) :)

/-- A frame is delivered with the bytes consumed and the sample count (48_frame_control.md R542). -/
theorem afterTest_frame {f : Frame} {t : State} (h : wholePacketPresent c = .present) (hrun : decodePacket c = .ok (some f) t) :
    afterTest c = { (deliverFrame f t).2 with
      regs.ret0 := t.src.pos, regs.ret1 := BitVec.ofNat 32 (deliverFrame f t).1, regs.result := .ok } := by
  simp only [afterTest, h, pushPacket, hrun, deliverFrame_src]

/-! ### The test -/

/-- A chunk that ends inside the page header (48_frame_control.md R545). -/
theorem present_shortHeader (hn : c.cur.nextSeg = -1) (hlen : c.src.len.toNat < 27) : wholePacketPresent c = .need := by
  have hshort : c.src.len.toNat < 0 + 27 := by omega
  simp only [wholePacketPresent, if_pos hn, testPages, if_pos hshort]

theorem present_noCapture (hn : c.cur.nextSeg = -1) (hlen : 27 ≤ c.src.len.toNat) (hcap : c.chunkBytes 0 4 ≠ captureBytes) :
    wholePacketPresent c = .bad := by
  have hlong : ¬c.src.len.toNat < 0 + 27 := by omega
  simp only [wholePacketPresent, if_pos hn, testPages, if_neg hlong, if_pos (Or.inl hcap)]

/-- A packet whose last segment is latched already needs its bytes only (48_frame_control.md R545). -/
theorem present_latched (hn : c.cur.nextSeg ≠ -1) (hended : (sumSegments c.cur.latched 0).2 = true) :
    wholePacketPresent c = if c.src.len.toNat < (sumSegments c.cur.latched 0).1 then .need else .present := by
  have hended' : (sumSegments ((c.cur.segments.take c.cur.segmentCount).drop c.cur.nextSeg.toNat) 0).2 = true := hended
  simp only [wholePacketPresent, if_neg hn, hended', if_true]
  rfl

/-- Settles O23. -/
theorem pushNeedsMore : Obligations.PushNeedsMore := by
  intro s c hstate hapi hresync hc
  have hexec := exec_pushDecode hstate hapi hresync hc
  have hcur : c.cur = s.cur := by rw [hc]
  have hlen : c.src.len = s.regs.arg1 := by rw [hc]
  rw [← hcur, ← hlen]
  refine ⟨fun h => hexec.trans (congrArg _ (afterTest_need h)), fun h => ?_, present_shortHeader, present_noCapture, present_latched⟩
  subst hc
  exact hexec.trans (congrArg _ (afterTest_bad h hstate hapi))

/-- Settles O24: the frame is delivered and the position, which starts at 0, is the bytes consumed. -/
theorem pushDecodeCompletes : Obligations.PushDecodeCompletes := by
  intro s c p m mode prev next rest hstate hapi hresync hc hpresent hp hlen hm hshort h
  have hexec := exec_pushDecode hstate hapi hresync hc
  have htab : c.tab = s.tab := by rw [hc]
  rw [← htab] at hlen hm h
  obtain ⟨u, f, w, hdone, hu, hframe, hrun⟩ := decodePacket_decodes hp hlen hm hshort h
  obtain ⟨rfl, rfl⟩ := frameOf_tab htab hframe
  exact ⟨u, hdone, hu, hexec.trans (congrArg _ (afterTest_frame hpresent hrun))⟩

end Sys2Proof.Proofs
end

section
/-! SUPPORT. The end of a frame (47_imdct_lapping.md R486, R487): the overlap-add and the retention of one channel, of all channels, and
of the frame. -/

namespace Sys2Proof.Proofs

open Sys2Proof Sys2Proof.Machine

variable {s : State} {w buf prev : List F32} {m left right kept len j ch : Nat}

/-! ### One channel -/

theorem getD_map_zipIdx {α β : Type} (f : α × Nat → β) {l : List α} (h : j < l.length) (a : α) (b : β) :
    (l.zipIdx.map f).getD j b = f (l.getD j a, j) := by
  simp [List.getD_eq_getElem?_getD, h]

theorem overlap_length : (overlap w prev m left buf).length = buf.length := by simp [overlap]

/-- The windowed sum stands at the lap and nowhere else (47_imdct_lapping.md R486). -/
theorem overlap_getD (h : left + m ≤ buf.length) : (overlap w prev m left buf).getD j 0 =
    if left ≤ j ∧ j < left + m then
      fadd (fmul (buf.getD j 0) (w.getD (j - left) 0)) (fmul (prev.getD (j - left) 0) (w.getD (m - 1 - (j - left)) 0))
    else buf.getD j 0 := by
  by_cases hj : j < buf.length
  · exact getD_map_zipIdx _ hj 0 0
  · have hlap : ¬(left ≤ j ∧ j < left + m) := by omega
    have hout := Nat.not_lt.1 hj
    rw [if_neg hlap, List.getD_eq_default _ _ hout, List.getD_eq_default _ _ (overlap_length.trans_le hout)]

theorem retain_none : retain right 0 buf prev = prev := by simp [retain]

theorem retain_getD (h : right + kept ≤ buf.length) (hj : j < kept) : (retain right kept buf prev).getD j 0 = buf.getD (right + j) 0 := by
  have hin : j < ((buf.drop right).take kept).length := by
    rw [List.length_take, List.length_drop]
    omega
  rw [retain, List.getD_append _ _ _ _ hin]
  simp [List.getD_eq_getElem?_getD, hj]

/-! ### Every channel -/

theorem retainAll_none (work : Work) : retainAll right 0 work = work := by
  simp [retainAll, retain_none]

/-- After the retention sample `j` of a retained half is sample `right + j` of its buffer (47_imdct_lapping.md R486). -/
theorem retainAll_getD {work : Work} (hch : ch < work.previousWindow.length)
    (hbuf : right + kept ≤ (work.channelBuffer.getD ch []).length) (hj : j < kept) :
    ((retainAll right kept work).previousWindow.getD ch []).getD j 0 = (work.channelBuffer.getD ch []).getD (right + j) 0 := by
  have hch' : (retainAll right kept work).previousWindow.getD ch [] = _ := getD_map_zipIdx _ hch [] []
  rw [hch', retain_getD hbuf hj]

theorem overlapAll_channel {work : Work} (hch : ch < work.channelBuffer.length) : (overlapAll w m left work).channelBuffer.getD ch [] =
    overlap w (work.previousWindow.getD ch []) m left (work.channelBuffer.getD ch []) := getD_map_zipIdx _ hch [] []

theorem getD_mem {α : Type} {l : List α} (h : ch < l.length) (d : α) : l.getD ch d ∈ l := by
  rw [List.getD_eq_getElem _ _ h]
  exact List.getElem_mem h

/-! ### The frame -/

theorem finishFrame_priming (h : s.ctl.previousLength = 0) : finishFrame ⟨len, left, right⟩ s =
    (0, { s with work := retainAll right (len - right) s.work, ctl.previousLength := len - right }) := by
  simp [finishFrame, h]

theorem finishFrame_noWindow (h : s.ctl.previousLength ≠ 0) (hw : getWindow s.tab s.ctl.previousLength = none) :
    finishFrame ⟨len, left, right⟩ s = (0, s) := by
  simp [finishFrame, h, hw]

theorem finishFrame_laps (h : s.ctl.previousLength ≠ 0) (hw : getWindow s.tab s.ctl.previousLength = some w) :
    finishFrame ⟨len, left, right⟩ s = (min right len - left, { s with
      work := retainAll right (len - right) (overlapAll w s.ctl.previousLength left s.work), ctl.previousLength := len - right }) := by
  simp [finishFrame, h, hw]

/-- What a frame that is not dropped leaves: it retains the samples of some work from `right` on (47_imdct_lapping.md R486). -/
theorem finishFrame_retains (h : s.ctl.previousLength = 0 ∨ (getWindow s.tab s.ctl.previousLength).isSome)
    (hbuf : ∀ b ∈ s.work.channelBuffer, len ≤ b.length) :
    ∃ n work, finishFrame ⟨len, left, right⟩ s =
        (n, { s with work := retainAll right (len - right) work, ctl.previousLength := len - right }) ∧
      work.previousWindow = s.work.previousWindow ∧ ∀ ch < s.work.channelBuffer.length, len ≤ (work.channelBuffer.getD ch []).length := by
  by_cases hprime : s.ctl.previousLength = 0
  · exact ⟨0, s.work, finishFrame_priming hprime, rfl, fun ch hch => hbuf _ (getD_mem hch [])⟩
  · obtain ⟨w, hw⟩ := Option.isSome_iff_exists.1 (h.resolve_left hprime)
    refine ⟨_, _, finishFrame_laps hprime hw, rfl, fun ch hch => ?_⟩
    rw [overlapAll_channel hch, overlap_length]
    exact hbuf _ (getD_mem hch [])

/-- A frame that ends before its right boundary retains nothing (47_imdct_lapping.md R487). -/
theorem finishFrame_trimmed (h : len ≤ right) : (finishFrame ⟨len, left, right⟩ s).2.work.previousWindow = s.work.previousWindow := by
  have hkept : len - right = 0 := Nat.sub_eq_zero_of_le h
  by_cases hprime : s.ctl.previousLength = 0
  · rw [finishFrame_priming hprime, hkept, retainAll_none]
  · cases hw : getWindow s.tab s.ctl.previousLength with
    | none => rw [finishFrame_noWindow hprime hw]
    | some w =>
      rw [finishFrame_laps hprime hw, hkept, retainAll_none]
      rfl

/-- Settles O53, by the three ends of a frame: priming, no window, lap. -/
theorem finishFrame : Obligations.FinishFrame := by
  intro s len left right hbuf _ hsame
  have hlen : ∀ b ∈ s.work.channelBuffer, len ≤ b.length := fun b hb => (hbuf b hb).2
  refine ⟨fun h => ?_, finishFrame_noWindow, fun w h hw => ?_, finishFrame_trimmed, fun h => ?_⟩
  · rw [finishFrame_priming h]
    exact ⟨rfl, rfl⟩
  · rw [finishFrame_laps h hw]
    refine ⟨rfl, fun ch hch j => ?_⟩
    have hlap := (hbuf _ (getD_mem hch [])).1
    exact (congrArg (·.getD j 0) (overlapAll_channel hch)).trans (overlap_getD hlap)
  · obtain ⟨n, work, hfinish, hwindow, hwork⟩ := finishFrame_retains (left := left) (right := right) h hlen
    rw [hfinish]
    refine ⟨rfl, fun ch hch j hj => retainAll_getD ?_ ?_ hj⟩
    · rwa [hwindow, hsame]
    · have := hwork ch hch
      omega

end Sys2Proof.Proofs
end
